-- ==== Sys2Proof/Word.lean ====
section
/-!
DEFINITION. The word types of the memory subsystem: a byte of memory, a 64-bit table entry, a 32-bit register.

The spec counts bits from 0 at the least significant end (spec/00_scope.md rule R6).
-/

namespace Sys2Proof

/-- One byte of memory: every size in the source is in bytes (spec/20_memory.md rule R50). -/
abbrev Byte := BitVec 8

/-- A 64-bit word: a page-table entry or a two-DWord register (rules R13, R80). -/
abbrev Word64 := BitVec 64

/-- A 32-bit word: an MMIO register, or a TR-TT L1 entry (rules R13, R80). -/
abbrev Word32 := BitVec 32

end Sys2Proof
end

