-- ==== Sys2Proof/Syntax.lean ====
section
/-!
DEFINITION. The words the memory subsystem decodes: one constructor of `Instr` for each row of
spec/opcode_table.json. The hardware has no instruction set (spec/00_scope.md rule R2): a word a walker reads from a
table, the MOCS word of a request and the word written to a register stand where an ISA has an instruction.

A field the spec calls ignored is not part of the syntax ("h/w does not care", rule R81).
-/

namespace Sys2Proof

/-- The table entry a walker is waiting for (rule R80, column "selected when"). The two page-table levels are told
apart by bit 11 of the parent entry (rule R91). -/
inductive Level where
  | ggtt
  | pml4
  | pdp
  | pd
  | pt4k
  | pt64k
  | trL3
  | trL2
  | trL1
  deriving DecidableEq, Repr

/-- The register formats of the table (rule R100). -/
inductive RegFormat where
  | l3ptr
  | null
  | invalid
  | trvadr
  | trtte
  | bypass
  | lncf
  | glob
  deriving DecidableEq, Repr

/-- Where a word stands, which fixes its format: no word tells its own format (rules R80, R91, R100). -/
inductive Slot where
  | entry (l : Level)
  | mocs
  | register (r : RegFormat)
  deriving DecidableEq, Repr

/-- The number of bits of the word in a slot (rules R13, R80, R95). -/
def Slot.bits : Slot → Nat
  | .entry .ggtt => 64
  | .entry .pml4 => 64
  | .entry .pdp => 64
  | .entry .pd => 64
  | .entry .pt4k => 64
  | .entry .pt64k => 64
  | .entry .trL3 => 64
  | .entry .trL2 => 64
  | .entry .trL1 => 32
  | .mocs => 7
  | .register .l3ptr => 64
  | .register .null => 32
  | .register .invalid => 32
  | .register .trvadr => 32
  | .register .trtte => 32
  | .register .bypass => 32
  | .register .lncf => 32
  | .register .glob => 32

/-- The number of bytes the word of a slot takes. -/
def Slot.bytes (sl : Slot) : Nat := (sl.bits + 7) / 8

/-- One half of `LNCFCMOCSx`, the L3 control of one MOCS index (rule R23). -/
structure L3Half where
  /-- L3 cacheability control, bits 5:4. -/
  l3cc : BitVec 2
  /-- Skip caching control, bits 3:1. -/
  scc : BitVec 3
  /-- Enable skip caching, bit 0. -/
  esc : Bool
  deriving DecidableEq, Repr

/-- The fields of `GLOB_MOCS_i` (rule R26). -/
structure LlcWord where
  sse : BitVec 2
  cos : BitVec 2
  scf : Bool
  pfm : BitVec 3
  scc : BitVec 3
  ersc : Bool
  daom : Bool
  lrum : BitVec 2
  tc : BitVec 2
  lecc : BitVec 2
  deriving DecidableEq, Repr

/-- The words of spec/opcode_table.json. An address field holds the entry's bits 45:lo, of which only
`HAW-1:lo` may be set (`Instr.wf`). -/
inductive Instr where
  /-- `GGTT_PTE`, rule R82. -/
  | ggttPte (addr : BitVec 34) (function : BitVec 3) (p : Bool)
  /-- `PML4E`, rule R83. -/
  | pml4e (addr : BitVec 34) (rw p : Bool)
  /-- `PDPE_PD`, rule R84. -/
  | pdpePd (addr : BitVec 34) (rw p : Bool)
  /-- `PDPE_1GB`, rule R85; `lm` is Local Memory. -/
  | pdpe1gb (addr : BitVec 16) (lm null pcd pwt rw p : Bool)
  /-- `PDE_PT`, rule R86; `m64` is bit 11, the 64KB mode of the page table pointed to. -/
  | pdePt (addr : BitVec 34) (m64 rw p : Bool)
  /-- `PDE_2MB`, rule R87. -/
  | pde2mb (addr : BitVec 25) (lm null pcd pwt rw p : Bool)
  /-- `PTE_64KB`, rule R88. -/
  | pte64kb (addr : BitVec 30) (lm null pat pcd pwt rw p : Bool)
  /-- `PTE_4KB`, rule R89. -/
  | pte4kb (addr : BitVec 34) (null pat pcd pwt rw p : Bool)
  /-- `TRTT_L3E`, rule R92. -/
  | trttL3e (addr : BitVec 36) (null invalid : Bool)
  /-- `TRTT_L2E`, rule R93. -/
  | trttL2e (addr : BitVec 36) (null invalid : Bool)
  /-- `TRTT_L1E`, rule R94. -/
  | trttL1e (addr : BitVec 32)
  /-- `MEMORY_OBJECT_CONTROL_STATE`, rule R95. -/
  | mocs (index : BitVec 6) (reserved : Bool)
  /-- `TRTT_L3PTR`, rule R15: bits 47:16 of the written word. -/
  | trttL3ptr (ptr : BitVec 32)
  /-- `TRTT_NULL`, rule R16. -/
  | trttNull (value : BitVec 32)
  /-- `TRTT_INVALID`, rule R17. -/
  | trttInvalid (value : BitVec 32)
  /-- `TRVADR`, rule R18: `TRVAMV` and `TRVADV`. -/
  | trvadr (mask data : BitVec 4)
  /-- `TRTTE`, rule R19: table location (true is the virtual space) and enable. -/
  | trtte (location enable : Bool)
  /-- `TR_BYPASS`, rule R20: the undescribed bits 31:1 and bit 0. -/
  | trBypass (undescribed : BitVec 31) (disable : Bool)
  /-- `LNCFCMOCSx`, rule R23: the two mask bits and the two halves. -/
  | lncfcmocs (upperMask : Bool) (upper : L3Half) (lowerMask : Bool) (lower : L3Half)
  /-- `GLOB_MOCS_i`, rule R26. -/
  | globMocs (fields : LlcWord)
  deriving DecidableEq, Repr

/-- The slot in which a word of this format stands (rule R80). -/
def Instr.slot : Instr → Slot
  | .ggttPte _ _ _ => .entry .ggtt
  | .pml4e _ _ _ => .entry .pml4
  | .pdpePd _ _ _ => .entry .pdp
  | .pdpe1gb _ _ _ _ _ _ _ => .entry .pdp
  | .pdePt _ _ _ _ => .entry .pd
  | .pde2mb _ _ _ _ _ _ _ => .entry .pd
  | .pte64kb _ _ _ _ _ _ _ _ => .entry .pt64k
  | .pte4kb _ _ _ _ _ _ _ => .entry .pt4k
  | .trttL3e _ _ _ => .entry .trL3
  | .trttL2e _ _ _ => .entry .trL2
  | .trttL1e _ => .entry .trL1
  | .mocs _ _ => .mocs
  | .trttL3ptr _ => .register .l3ptr
  | .trttNull _ => .register .null
  | .trttInvalid _ => .register .invalid
  | .trvadr _ _ => .register .trvadr
  | .trtte _ _ => .register .trtte
  | .trBypass _ _ => .register .bypass
  | .lncfcmocs _ _ _ _ => .register .lncf
  | .globMocs _ => .register .glob

end Sys2Proof
end

