-- ==== Sys2Proof/Config.lean ====
section
/-!
DEFINITION. What the implementation fixes (spec/00_scope.md rule R5) and the free values: every `opaque` constant
below is a value the spec leaves open. None has a body, so no proof can see which value it is.

A free value that may differ from one use to the next takes the state's `draws` counter as its first argument.
-/

namespace Sys2Proof

/-- `HAW`, the host address width: "HAW = 39 for client, and 46 for server." (rule R5, decision D2). -/
inductive Haw where
  | client
  | server
  deriving DecidableEq, Repr

/-- The number of physical address bits. -/
def Haw.bits : Haw → Nat
  | .client => 39
  | .server => 46

/-- `L3_SKIP_ADDR`: which address the skip-caching controls test (rule R5, decisions D22, D33). For a request that the
TR-TT maps the spec does not say which virtual address is meant, so each of the two is a value (log entry 6). -/
inductive SkipAddr where
  | physical
  /-- The graphics virtual address the request names. -/
  | virtual
  /-- The graphics virtual address handed to the page table, which is the one the TR-TT gives where it maps. -/
  | mapped
  deriving DecidableEq, Repr

/-- `GVA_BITS`: "The Global VA space is 4GB in size (32-bit VA)" (rule R5). -/
abbrev Config.gvaBits : Nat := 32

/-- `PPVA_BITS`: "The size of this space is 256TB (48b address width)" (rule R5). -/
abbrev Config.ppvaBits : Nat := 48

/-- `TRVA_BITS`: "44 bit TR-VA space is carved out" (rule R5). -/
abbrev Config.trvaBits : Nat := 44

/-- `L3_SKIP_ADDR_BITS`: the two address bits that bit `k` of the L3 skip control compares: 10 and 16, 11 and 17, 12 and 18
(rule R5, conflict C6). -/
abbrev Config.l3SkipAddrBits (k : Nat) : Nat × Nat := (10 + k, 16 + k)

/-- The implementation parameters of rule R5 that are values and of which the source leaves the value open or gives more
than one. The state carries them, so that every statement holds for each of them; no step changes them. The widths the
source fixes are the constants above; `DUAL_CONTEXT` is a field of the context record (decision D30). -/
structure Params where
  /-- `HAW`. -/
  haw : Haw
  /-- `HAS_LOCAL_MEMORY` (decision D3). -/
  hasLocalMemory : Bool
  /-- `TRTT_GPA_MODE_ALLOWED` (rule R127, decision D18). -/
  trttGpaModeAllowed : Bool
  /-- `L3_SKIP_ADDR` (rule R144). -/
  l3SkipAddr : SkipAddr
  deriving DecidableEq, Repr

/-- The values rule R5 gives for the hardware of the title; `L3_SKIP_ADDR` is OPEN there (log entry 6). -/
def Params.title : Params :=
  { haw := .client, hasLocalMemory := false, trttGpaModeAllowed := true, l3SkipAddr := .physical }

/-- `SecondLevel(ctx, gpa)` of rule R203, the VT-d translation, page by page: the host page of a guest page of 4KB, or a
fault. The second argument counts the writes to memory and the fault responses so far, because the second-level tables
lie in memory (log entry 8). -/
opaque Config.secondLevel : (ctx : Nat) → (epoch : Nat) → (page : Nat) → Option Nat

/-- Rule R122: a tile that is both null and invalid is one or the other; true reads invalid. -/
opaque Config.freeTileInvalid : (draw : Nat) → Bool

/-- Rule R194: a refused write to a null page is dropped or faults; true reads a fault. -/
opaque Config.freeNullWriteFaults : (draw : Nat) → Bool

/-- Rule R196: the PAT bit of a 2MB or 1GB page. -/
opaque Config.freeLargePagePat : (draw : Nat) → Bool

/-- Rules R21, R120: by how much a null access raises the null-tile counter (at least 0). -/
opaque Config.freeNullTick : (draw : Nat) → Nat

/-- Rules R141, R164, U3, U4: whether an access with an unstated L3 control is cached in the L3 (log entries 14, 44). -/
opaque Config.freeL3Cached : (draw : Nat) → Bool

/-- Rule R136: whether the L3 caches an access of an object with GTT control only, of a page whose memory type (`MEM_TYPE`
encoding) is a cacheable one. The page-table bits alone decide, so it is a function of the type. -/
opaque Config.freeL3OfType : (memType : BitVec 2) → Bool

/-- Rules R151, R164: whether an access with an unstated LLC control is cached in the LLC. -/
opaque Config.freeLlcCached : (draw : Nat) → Bool

/-- Rule R162: whether a line evicted from the L3 goes to the LLC where the LLC control of its index states nothing. -/
opaque Config.freeEvictedLlc : (draw : Nat) → Bool

/-- Rule R163: the memory type (`MEM_TYPE` encoding) behind a PAT index 4 to 7. -/
opaque Config.freePatType : (draw : Nat) → (index : BitVec 3) → BitVec 2

/-- Rule R156: the self-snoop behaviour of the unlisted code `10b`: none is the normal one, `some b` an override. -/
opaque Config.freeSelfSnoop : (draw : Nat) → Option Bool

/-- Decision D11: the two write-only mask bits of `LNCFCMOCSx` as a read returns them (bit 1 is register bit 31). -/
opaque Config.freeMaskBits : (draw : Nat) → BitVec 2

/-- Rule R20: bits 31:1 of the register at `0x4DFC` as a read returns them. -/
opaque Config.freeBypassBits : (draw : Nat) → BitVec 31

/-- Rule R69: which of several candidate copies of a table entry a walk uses. -/
opaque Config.freeStale : (draw : Nat) → Nat

/-- Rule R65: which of the values written to a byte another agent's read returns. -/
opaque Config.freeVisible : (draw : Nat) → (addr : Nat) → Nat

/-- Rule R237: a byte of memory after a device reset. -/
opaque Config.freeByte : (epoch : Nat) → (addr : Nat) → Byte

/-- Rules R236, R241: an `LNCFCMOCSx` register after a render reset or an unrestored RC6 exit. -/
opaque Config.freeLncf : (draw : Nat) → (x : Nat) → Word32

/-- Rule R241: a `GLOB_MOCS_i` register after an unrestored RC6 exit. -/
opaque Config.freeGlob : (draw : Nat) → (i : Nat) → Word32

/-- Rule R237: a PAT entry after a device reset. -/
opaque Config.freePat : (draw : Nat) → (i : Nat) → BitVec 2

/-- Rule R237: the page number of `GGTT_BASE` after a device reset. -/
opaque Config.freeGgttPage : (draw : Nat) → BitVec 52

/-- Rule R237: `PGTBL_CTL2` after a device reset. -/
opaque Config.freePgtblCtl2 : (draw : Nat) → Word64

/-- Rule R237: the null-tile counter after a device reset. -/
opaque Config.freeCounter : (draw : Nat) → Nat

/-- Rule R237: the pending flag after a device reset. -/
opaque Config.freePending : (draw : Nat) → Bool

/-- Rules R229, R237: whether render power gating is enabled after a device reset. -/
opaque Config.freeGating : (draw : Nat) → Bool

/-- Rule R237: the page number of a context's `PML4_PTR` after a device reset. -/
opaque Config.freePml4Page : (epoch : Nat) → (ctx : Nat) → BitVec 52

/-- Rule R237: the flags `DUAL_CONTEXT` (bit 2), `NESTE` (bit 1) and `WPE` (bit 0) of a context after a device reset. -/
opaque Config.freeCtxFlags : (epoch : Nat) → (ctx : Nat) → BitVec 3

/-- Rule R237: the context kind (2 bits) and page faulting mode (bit 2) of a context after a device reset. -/
opaque Config.freeCtxKind : (epoch : Nat) → (ctx : Nat) → BitVec 3

/-- Rule R236: the five TR-TT registers of the render engine's context after a render reset, in the order of rules
R15 to R19. -/
opaque Config.freeTrReg : (draw : Nat) → (reg : Nat) → Word64

end Sys2Proof
end

