-- ==== Sys2Proof/WellFormed.lean ====
section
/-!
DEFINITION. Which terms of `Instr` are words of the hardware: an address field ends at bit `HAW-1`, and the bits from
`HAW` up are ignored, so they are not part of the field (spec/30_encoding.md rules R81, R98; R199).
-/

namespace Sys2Proof

/-- An address field that starts at bit `lo` of the entry has `HAW - lo` bits. -/
def Haw.fits (h : Haw) (lo : Nat) {n : Nat} (addr : BitVec n) : Bool := decide (addr.toNat < 2 ^ (h.bits - lo))

/-- A well-formed word: its address field holds nothing at or above bit `HAW`. -/
def Instr.wf (h : Haw) : Instr → Bool
  | .ggttPte addr _ _ => h.fits 12 addr
  | .pml4e addr _ _ => h.fits 12 addr
  | .pdpePd addr _ _ => h.fits 12 addr
  | .pdpe1gb addr _ _ _ _ _ _ => h.fits 30 addr
  | .pdePt addr _ _ _ => h.fits 12 addr
  | .pde2mb addr _ _ _ _ _ _ => h.fits 21 addr
  | .pte64kb addr _ _ _ _ _ _ _ => h.fits 16 addr
  | .pte4kb addr _ _ _ _ _ _ => h.fits 12 addr
  | .trttL3e _ _ _ => true
  | .trttL2e _ _ _ => true
  | .trttL1e _ => true
  | .mocs _ _ => true
  | .trttL3ptr _ => true
  | .trttNull _ => true
  | .trttInvalid _ => true
  | .trvadr _ _ => true
  | .trtte _ _ => true
  | .trBypass _ _ => true
  | .lncfcmocs _ _ _ _ => true
  | .globMocs _ => true

end Sys2Proof
end

