-- ==== Sys2Proof/Decode.lean ====
section
/-!
DEFINITION. The decoder of the words of spec/opcode_table.json, total on any bytes, and after it the encoder, both
written from the encodings of spec/30_encoding.md and spec/10_state.md.

Which format a word has is not in the word: the level a walker reads, or the register written, fixes it (rules R80,
R91, R100), so the decoder takes the slot. Within the PDP and PD slots bit 7 selects the format (rule R90).
-/

namespace Sys2Proof

/-- Why the decoder rejects. -/
inductive DecodeError where
  /-- Fewer or more bytes than the word of the slot has (rule R80). -/
  | wrongLength
  /-- A bit is set above the width of the slot's word: a seventh-bit MOCS word, a 32-bit register (rules R13, R95). -/
  | tooWide
  deriving DecidableEq, Repr

/-- The bytes as one number, the byte at the lowest address least significant (rule R58). -/
def bytesToNat : List Byte → Nat
  | [] => 0
  | b :: bs => b.toNat + 256 * bytesToNat bs

/-- The low `n` bytes of a number, least significant first (rule R58). -/
def natToBytes : (n : Nat) → (v : Nat) → List Byte
  | 0, _ => []
  | n + 1, v => BitVec.ofNat 8 v :: natToBytes n (v / 256)

/-- The field `x` at bits `lo` and up of an `m`-bit word, every other bit zero. -/
def fieldAt (m lo : Nat) {n : Nat} (x : BitVec n) : BitVec m := x.setWidth m <<< lo

/-- The flag `b` at bit `k` of an `m`-bit word, every other bit zero. -/
def flagAt (m k : Nat) (b : Bool) : BitVec m := fieldAt m k (BitVec.ofBool b)

/-- The address field `w[HAW-1:lo]` of an entry, in the `n` bits from `lo` up; the bits from `HAW` up are masked (rules
R81 to R89, decision D27). -/
def addrField (h : Haw) (lo n : Nat) (w : Word64) : BitVec n :=
  (w &&& BitVec.ofNat 64 (2 ^ h.bits - 1)).extractLsb' lo n

/-- A half of `LNCFCMOCSx` from its low six bits (rule R23). -/
def L3Half.ofBits (v : BitVec 6) : L3Half :=
  { l3cc := v.extractLsb' 4 2, scc := v.extractLsb' 1 3, esc := v.getLsbD 0 }

/-- The six stored bits of a half of `LNCFCMOCSx` (rule R23). -/
def L3Half.bits (f : L3Half) : BitVec 6 := fieldAt 6 4 f.l3cc ||| fieldAt 6 1 f.scc ||| flagAt 6 0 f.esc

/-- The fields of a `GLOB_MOCS_i` word; bits 31:19 are reserved (rule R26). -/
def LlcWord.ofBits (v : Word32) : LlcWord :=
  { sse := v.extractLsb' 17 2, cos := v.extractLsb' 15 2, scf := v.getLsbD 14, pfm := v.extractLsb' 11 3,
    scc := v.extractLsb' 8 3, ersc := v.getLsbD 7, daom := v.getLsbD 6, lrum := v.extractLsb' 4 2,
    tc := v.extractLsb' 2 2, lecc := v.extractLsb' 0 2 }

/-- The `GLOB_MOCS_i` word of the fields, reserved bits zero (rule R26). -/
def LlcWord.bits (f : LlcWord) : Word32 :=
  fieldAt 32 17 f.sse ||| fieldAt 32 15 f.cos ||| flagAt 32 14 f.scf ||| fieldAt 32 11 f.pfm ||| fieldAt 32 8 f.scc |||
    flagAt 32 7 f.ersc ||| flagAt 32 6 f.daom ||| fieldAt 32 4 f.lrum ||| fieldAt 32 2 f.tc ||| fieldAt 32 0 f.lecc

/-- The word of a table entry at a level (rules R82 to R94). -/
def decodeEntry (h : Haw) (l : Level) (w : Word64) : Instr :=
  match l with
  | .ggtt => .ggttPte (addrField h 12 34 w) (w.extractLsb' 2 3) (w.getLsbD 0)
  | .pml4 => .pml4e (addrField h 12 34 w) (w.getLsbD 1) (w.getLsbD 0)
  | .pdp =>
    if w.getLsbD 7 then
      .pdpe1gb (addrField h 30 16 w) (w.getLsbD 11) (w.getLsbD 9) (w.getLsbD 4) (w.getLsbD 3) (w.getLsbD 1) (w.getLsbD 0)
    else .pdpePd (addrField h 12 34 w) (w.getLsbD 1) (w.getLsbD 0)
  | .pd =>
    if w.getLsbD 7 then
      .pde2mb (addrField h 21 25 w) (w.getLsbD 11) (w.getLsbD 9) (w.getLsbD 4) (w.getLsbD 3) (w.getLsbD 1) (w.getLsbD 0)
    else .pdePt (addrField h 12 34 w) (w.getLsbD 11) (w.getLsbD 1) (w.getLsbD 0)
  | .pt64k =>
    .pte64kb (addrField h 16 30 w) (w.getLsbD 11) (w.getLsbD 9) (w.getLsbD 7) (w.getLsbD 4) (w.getLsbD 3) (w.getLsbD 1)
      (w.getLsbD 0)
  | .pt4k =>
    .pte4kb (addrField h 12 34 w) (w.getLsbD 9) (w.getLsbD 7) (w.getLsbD 4) (w.getLsbD 3) (w.getLsbD 1) (w.getLsbD 0)
  | .trL3 => .trttL3e (w.extractLsb' 12 36) (w.getLsbD 1) (w.getLsbD 0)
  | .trL2 => .trttL2e (w.extractLsb' 12 36) (w.getLsbD 1) (w.getLsbD 0)
  | .trL1 => .trttL1e (w.extractLsb' 0 32)

/-- The word written to a register (rules R15 to R26); reserved bits are not read. -/
def decodeRegister (r : RegFormat) (w : Word64) : Instr :=
  match r with
  | .l3ptr => .trttL3ptr (w.extractLsb' 16 32)
  | .null => .trttNull (w.extractLsb' 0 32)
  | .invalid => .trttInvalid (w.extractLsb' 0 32)
  | .trvadr => .trvadr (w.extractLsb' 4 4) (w.extractLsb' 0 4)
  | .trtte => .trtte (w.getLsbD 1) (w.getLsbD 0)
  | .bypass => .trBypass (w.extractLsb' 1 31) (w.getLsbD 0)
  | .lncf =>
    .lncfcmocs (w.getLsbD 31) (L3Half.ofBits (w.extractLsb' 16 6)) (w.getLsbD 15) (L3Half.ofBits (w.extractLsb' 0 6))
  | .glob => .globMocs (LlcWord.ofBits (w.extractLsb' 0 32))

/-- The word in a slot: every value of the slot's bits is an instance of one of its formats (rules R98, R100), and a bit above
the slot's width is no part of the word. -/
def decodeWord (h : Haw) (sl : Slot) (w : Word64) : Instr :=
  match sl with
  | .entry l => decodeEntry h l w
  | .mocs => .mocs (w.extractLsb' 1 6) (w.getLsbD 0)
  | .register r => decodeRegister r w

/-- The decoder of a bare word, which rejects one with a bit above the slot's width: no word of the slot is written so. -/
def decode (h : Haw) (sl : Slot) (w : Word64) : Except DecodeError Instr :=
  if w.toNat < 2 ^ sl.bits then .ok (decodeWord h sl w) else .error .tooWide

/-- The decoder on bytes as memory holds them, lowest address first. -/
def decodeBytes (h : Haw) (sl : Slot) (bs : List Byte) : Except DecodeError Instr :=
  if bs.length = sl.bytes then decode h sl (BitVec.ofNat 64 (bytesToNat bs)) else .error .wrongLength

/-- The word of an instruction, ignored and reserved bits zero (rules R15 to R26, R82 to R95). -/
def encode : Instr → Word64
  | .ggttPte addr fn p => fieldAt 64 12 addr ||| fieldAt 64 2 fn ||| flagAt 64 0 p
  | .pml4e addr rw p => fieldAt 64 12 addr ||| flagAt 64 1 rw ||| flagAt 64 0 p
  | .pdpePd addr rw p => fieldAt 64 12 addr ||| flagAt 64 1 rw ||| flagAt 64 0 p
  | .pdpe1gb addr lm null pcd pwt rw p =>
    fieldAt 64 30 addr ||| flagAt 64 11 lm ||| flagAt 64 9 null ||| flagAt 64 7 true ||| flagAt 64 4 pcd |||
      flagAt 64 3 pwt ||| flagAt 64 1 rw ||| flagAt 64 0 p
  | .pdePt addr m64 rw p => fieldAt 64 12 addr ||| flagAt 64 11 m64 ||| flagAt 64 1 rw ||| flagAt 64 0 p
  | .pde2mb addr lm null pcd pwt rw p =>
    fieldAt 64 21 addr ||| flagAt 64 11 lm ||| flagAt 64 9 null ||| flagAt 64 7 true ||| flagAt 64 4 pcd |||
      flagAt 64 3 pwt ||| flagAt 64 1 rw ||| flagAt 64 0 p
  | .pte64kb addr lm null pat pcd pwt rw p =>
    fieldAt 64 16 addr ||| flagAt 64 11 lm ||| flagAt 64 9 null ||| flagAt 64 7 pat ||| flagAt 64 4 pcd |||
      flagAt 64 3 pwt ||| flagAt 64 1 rw ||| flagAt 64 0 p
  | .pte4kb addr null pat pcd pwt rw p =>
    fieldAt 64 12 addr ||| flagAt 64 9 null ||| flagAt 64 7 pat ||| flagAt 64 4 pcd ||| flagAt 64 3 pwt |||
      flagAt 64 1 rw ||| flagAt 64 0 p
  | .trttL3e addr null invalid => fieldAt 64 12 addr ||| flagAt 64 1 null ||| flagAt 64 0 invalid
  | .trttL2e addr null invalid => fieldAt 64 12 addr ||| flagAt 64 1 null ||| flagAt 64 0 invalid
  | .trttL1e addr => fieldAt 64 0 addr
  | .mocs index reserved => fieldAt 64 1 index ||| flagAt 64 0 reserved
  | .trttL3ptr ptr => fieldAt 64 16 ptr
  | .trttNull value => fieldAt 64 0 value
  | .trttInvalid value => fieldAt 64 0 value
  | .trvadr mask data => fieldAt 64 4 mask ||| fieldAt 64 0 data
  | .trtte location enable => flagAt 64 1 location ||| flagAt 64 0 enable
  | .trBypass undescribed disable => fieldAt 64 1 undescribed ||| flagAt 64 0 disable
  | .lncfcmocs upperMask upper lowerMask lower =>
    flagAt 64 31 upperMask ||| fieldAt 64 16 upper.bits ||| flagAt 64 15 lowerMask ||| fieldAt 64 0 lower.bits
  | .globMocs fields => fieldAt 64 0 fields.bits

/-- The bytes of an instruction as memory holds them, lowest address first. -/
def encodeBytes (i : Instr) : List Byte := natToBytes i.slot.bytes (encode i).toNat

/-- The slot in which a bare word of the table is read: with no level to fix the format, seven bits are a MOCS word,
32 bits an L1 entry, and 64 bits are read where the word itself tells most, at the PDP level when its present bit is
set and at the TR-TT L3 level otherwise (log entry 3). -/
def tableSlot (nbits w : Nat) : Slot :=
  if nbits ≤ 8 then .mocs
  else if nbits ≤ 32 then .entry .trL1
  else if w % 2 = 1 then .entry .pdp
  else .entry .trL3

/-- The instruction the decoder reads from a bare word of `nbits` bits, `HAW = 39`. -/
def decodeTableWord (nbits w : Nat) : Option Instr :=
  match decodeBytes .client (tableSlot nbits w) (natToBytes (tableSlot nbits w).bytes w) with
  | .ok i => some i
  | .error _ => none

end Sys2Proof
end

