-- ==== Sys2Proof/Machine/State.lean ====
section
/-!
DEFINITION. The state of the memory subsystem as plain data, the reasons a step can stop, and the state after reset
(spec/10_state.md, spec/20_memory.md rule R60, spec/60_exceptions.md, spec/70_reset_and_hazards.md rule R237).

What the outside world does (requests of engines, register and table writes of the host, resets) stands in the state as
the list `agenda` of inputs still to come.
-/

namespace Sys2Proof.Machine

/-- The issuing agent of a request (rule R60, field `engine`). -/
inductive Engine where
  | render
  | posh
  | compute
  | media
  | blitter
  | guc
  | display
  | other
  deriving DecidableEq, Repr

/-- Who reads or writes memory (rule R10). -/
inductive Agent where
  | engine (e : Engine)
  | pageWalker
  | trWalker
  | host
  deriving DecidableEq, Repr

/-- The address space a request uses (rules R53, R60). -/
inductive Space where
  | global
  | perProcess
  deriving DecidableEq, Repr

/-- The kind of a request (rule R60). -/
inductive Access where
  | read
  | write
  deriving DecidableEq, Repr

/-- The context kinds the source names (rule R29). -/
inductive CtxKind where
  | ggtt
  | legacyPpgtt32
  | legacyPpgtt64
  | advancedPpgtt64
  deriving DecidableEq, Repr

/-- `PFMODE`, the global page faulting mode of the context descriptor: the source names no mode but "fault & halt"
(rule R214, decisions D8, D30). -/
inductive FaultMode where
  /-- No fault-response agent: every fault is terminal. -/
  | terminal
  /-- The faulting engine halts until the host answers. -/
  | faultAndHalt
  deriving DecidableEq, Repr

/-- Through which unit a request reaches memory (rules R53, R138, R141, R172). -/
inductive Client where
  /-- A direct EU access with a binding table index; it comes through the Data Port. -/
  | directEu
  /-- Another access through the Data Port. -/
  | dataPort
  /-- The graphics aperture, whose accesses use the Global GTT. -/
  | aperture
  | other
  deriving DecidableEq, Repr

/-- The memory objects of the table of rule R136. -/
inductive MemObject where
  | surface
  | depthStencil
  | statelessDataPort
  | indirectState
  | kernelInstructions
  | pushConstant
  | indexBuffer
  | vertexBuffer
  | indirectMedia
  | genericStatePrefetch
  | ringBatchBuffer
  | contextSave
  | storeDword
  deriving DecidableEq, Repr

/-- The places that hold the control state of a memory object (rule R136): its surface state, the state command that
defined the buffer, `STATE_BASE_ADDRESS`, the `3DSTATE` commands, or the GTT entry only. -/
inductive ControlLocation where
  | surfaceState
  | bufferCommand
  | stateBaseAddress
  | constantCommand
  | indexBufferCommand
  | vertexBufferCommand
  | gttOnly
  deriving DecidableEq, Repr

/-- A memory request (rule R60). The low `8n` bits of `data` are written. `retried` is the model's own: it is set on the
retry after a successful fault response, and false on a request as an engine issues it (rule R221; log entry 11). -/
structure Request where
  engine : Engine
  ctx : Nat
  space : Space
  va : BitVec 64
  kind : Access
  n : Nat
  data : Nat
  mocs : BitVec 7
  client : Client
  object : MemObject
  retried : Bool
  deriving DecidableEq, Repr

/-- What the context descriptor and the extended-context entry hold (rule R29). -/
structure Descriptor where
  kind : CtxKind
  /-- `PML4_PTR`. -/
  pml4Ptr : Word64
  /-- `NESTE`. -/
  neste : Bool
  /-- `WPE`; no rule reads it (rule R222). -/
  wpe : Bool
  /-- `PFMODE`. -/
  pfmode : FaultMode
  /-- `DUAL_CONTEXT` (rule R129, decision D30). -/
  dualContext : Bool
  deriving DecidableEq, Repr

/-- A hardware context: its descriptor and the five TR-TT registers (rules R15 to R19, R29). -/
structure Context where
  desc : Descriptor
  trttL3ptr : Word64
  trttNull : Word32
  trttInvalid : Word32
  trvadr : Word32
  trtte : Word32
  deriving DecidableEq, Repr

/-- The level of a walk at which a fault arises (rule R211, decision D8). -/
inductive Stage where
  | pml4
  | pdp
  | pd
  | pt
  | trL3
  | trL2
  | trL1
  deriving DecidableEq, Repr

/-- Why the machine stops with a fault. -/
inductive Fault where
  /-- `PageNotPresent(va, level)` (rule R211). Raised by a page-table step whose entry has P = 0, or whose second-level
  translation fails, in a context whose page faulting mode is terminal. Safe: the spec ends the run there (R214). Raised also for a
  TR-TT table in GPA mode, `va` being then the guest physical address of the table word (log entry 45). -/
  | pageNotPresent (va : BitVec 48) (level : Stage)
  /-- `WriteProtect(va)` (rule R212). Raised by a leaf step of a write with R/W = 0 on its path, page faulting mode
  terminal. Safe: the spec ends the run there. -/
  | writeProtect (va : BitVec 48)
  /-- `GGTTNotPresent(va)` (rule R213). Raised by the Global GTT step on Present = 0, page faulting mode terminal.
  Safe: the spec ends the run there. -/
  | ggttNotPresent (va : BitVec 32)
  /-- A physical address at or above `2^HAW` (rules R7, R52), raised by any memory operation. Safe: no such byte. -/
  | noSuchAddress (pa : Nat)
  /-- The invalid cycle after an unsuccessful fault response (rule R215): spurious accesses the source does not bound.
  Raised by the response. Safe: the model does not continue. -/
  | invalidCycle (e : Engine)
  deriving DecidableEq, Repr

/-- Why the machine has no meaning for what it is given: the spec's `refuse` (rule R7) and nothing else. -/
inductive Refusal where
  /-- An instruction the model gives no meaning; raised by an arm of `exec`. Safe. -/
  | notModelled (mnemonic : String)
  /-- A word whose slot the machine is not reading (rule R80: a format is selected by the level being read); raised by
  every meaning. Safe. -/
  | outOfPlace
  /-- Address bits above the range of the space (rule R51, decision D10); raised when a request begins. Safe. -/
  | addressRange
  /-- A request of zero bytes (rule R60: `n >= 1`); raised when a request begins. Safe. -/
  | emptyRequest
  /-- A request that crosses a 4KB boundary (rule R56, decision D5); raised when a request begins. Safe. -/
  | crossesPage
  /-- A per-process request in a context that is not Legacy PPGTT64 (rules R54, R201); raised when a request begins.
  Safe. -/
  | contextMode
  /-- A global-space request with TR-TT enabled (rules R111, R112, R230); raised when a request begins. Safe. -/
  | trttInGlobal
  /-- Another engine than render or POSH inside the TR-VA window of a context with TR-TT enabled (rules R111, R250); raised
  when a request begins. Safe. -/
  | trttEngine
  /-- `TRVAMV` neither `0000b` nor `1111b` (rule R113, U1); raised where the window is tested. Safe. -/
  | trvaMask
  /-- TR-TT tables in GPA space where the platform forbids it (rule R127, U12); raised when a request begins. Safe. -/
  | gpaModeForbidden
  /-- A TR-TT table address at or above `2^HAW` in GPA mode (rule R124); raised by the TR-TT steps. Safe. -/
  | tablePointerWide
  /-- A TR-TT table inside the TR-VA window in virtual mode (rule R131, U11); raised by the TR-TT steps. Safe. -/
  | tableInWindow
  /-- A TR-TT table word in a null page (rule R124); raised by a leaf step that translates a table address. Safe. -/
  | tableNullPage
  /-- Bit 47 set in a TR-TT entry with dual context enabled (rule R129, U11); raised by the TR-TT steps. Safe. -/
  | dualContextBit47
  /-- A page marked Local Memory on a device with local memory, which the spec does not describe (decision D3); raised
  by the large-page and 64KB leaves. Safe. -/
  | localMemory
  /-- `GLOB_MOCS.PFM` other than `000b` (rule R153, U6); raised by the MOCS word of a request. Safe. -/
  | reservedPfm
  /-- A host store into the memory behind the Global GTT (rule R252, U16); raised by the host's memory write. Safe. -/
  | ggttBypass
  /-- A table base that is not 4KB aligned or not below `2^HAW` (rules R28, R181, U16); raised by the write of it.
  Safe. -/
  | badTableBase
  /-- An MMIO offset at which the spec describes no register, or one inside a register, which the model has no cycle for (log
  entry 42), or a write of the null-tile counter (rules R21, R226); raised by the register cycle. Safe. -/
  | unknownRegister
  /-- The TR-TT bypass disabled after render power gating is enabled (rule R242); raised by the write. Safe. -/
  | bypassAfterGating
  /-- What a request in flight consults has changed under it: a table entry, or a register (rules R57, R68, R253, U16);
  raised by the step that changes it. Safe. -/
  | inFlight
  /-- A fault response for an engine with no fault outstanding (rule R214 describes none); raised by it. Safe. -/
  | noFaultOutstanding
  deriving DecidableEq, Repr

/-- A register of the MMIO space by its name (rules R15 to R28). The TR-TT registers are per context. -/
inductive RegTarget where
  | l3ptr (ctx : Nat)
  | null (ctx : Nat)
  | invalid (ctx : Nat)
  | trvadr (ctx : Nat)
  | trtte (ctx : Nat)
  | bypass
  | lncf (x : Fin 32)
  | glob (i : Fin 64)
  | pat (i : Fin 4)
  | pgtblCtl
  | pgtblCtl2
  | nullTileCount
  deriving DecidableEq, Repr

/-- How a register cycle names its register: by name, or by the MMIO offset the spec gives (rules R20, R22, R25). A cycle is of
the whole register, the model's choice (rule R13; log entry 42). -/
inductive RegAddr where
  | named (t : RegTarget)
  | offset (o : Nat)
  deriving DecidableEq, Repr

/-- The two ways a Global GTT entry is updated (rule R175). -/
inductive GgttPath where
  | gttmmadr
  | miUpdateGtt
  deriving DecidableEq, Repr

/-- Whose turn it is: the outside world's, or that of an engine with a request in flight (rule R10). -/
inductive Turn where
  | outside
  | engine (e : Engine)
  deriving DecidableEq, Repr

/-- What the outside world presents to the memory subsystem, one item at a time (rule R10). -/
inductive Input where
  /-- An engine's request (rule R60). -/
  | request (r : Request)
  /-- The host writes a register (rules R13, R14). -/
  | regWrite (a : RegAddr) (w : Word64)
  /-- The host reads a register (rules R13, R14). -/
  | regRead (a : RegAddr)
  /-- `GGTT_Update(idx, v)` (rule R175). -/
  | ggttUpdate (path : GgttPath) (idx : BitVec 20) (v : Word64)
  /-- The host stores to physical memory (rule R30). -/
  | hostWrite (pa n data : Nat)
  /-- The host loads from physical memory (rule R30). -/
  | hostRead (pa n : Nat)
  /-- The host sets a context's descriptor (rules R29, R238). -/
  | describe (ctx : Nat) (d : Descriptor)
  /-- The answer to a halted engine's fault (rules R214, R221). -/
  | faultResponse (e : Engine) (success : Bool)
  /-- A Gfx reset or FLR (rules R235 to R237). -/
  | deviceReset
  /-- A render reset, with the context on the render engine (rules R235, R236). -/
  | renderReset (ctx : Nat)
  /-- RC6 entry and exit in one, with the MOCS registers restored or not (rules R229, R241; log entry 46). -/
  | rc6 (restored : Bool)
  /-- Render power gating is enabled (rules R229, R242). -/
  | renderPowerGating
  deriving DecidableEq, Repr

/-- A step of the TR-TT walk, as the destination of a table-address translation (rules R115 to R117). -/
inductive TrStep where
  | l3
  | l2
  | l1
  deriving DecidableEq, Repr

/-- What a page-table walk translates: the request's own address, or a TR-TT table address (rule R124). -/
inductive Dest where
  | target
  | table (t : TrStep)
  deriving DecidableEq, Repr

/-- The memory attributes a walk gathers at its leaf (rule R190). -/
structure LeafAttrs where
  pwt : Bool
  pcd : Bool
  pat : Bool
  deriving DecidableEq, Repr

/-- Where the next entry of a walk comes from. -/
inductive EntryPlace where
  /-- Its host physical address. -/
  | memory (pa : Nat)
  /-- The second-level translation of its address fails. A TLB or a cached PML4 page holds a copy of the entry, which needs no
  address; without it the fault `f` is raised (rules R69, R182, R184, R203; log entry 10). -/
  | copyOnly (f : Fault)
  deriving DecidableEq, Repr

/-- The walk of a request in flight. -/
structure Walk where
  req : Request
  /-- The MOCS index the request named; none for an object with GTT control only (rule R136). -/
  index : Option (BitVec 6)
  /-- The level of the entry to be read next. -/
  level : Level
  /-- Where that entry comes from. -/
  entry : EntryPlace
  /-- The address the page-table walk translates. -/
  va : BitVec 48
  /-- The address the TR-TT walk translates. -/
  trva : BitVec 48
  /-- The AND of the R/W bits read so far (rule R190). -/
  rw : Bool
  dest : Dest
  /-- The memory attributes of the page that holds the entry, where a leaf gave them: a TR-TT table word in virtual mode
  (rules R124, R196). -/
  tableAttrs : Option LeafAttrs
  /-- The entries the walk has used so far, each with its level, newest first (rules R57, R68). -/
  used : List (Level × Nat)
  deriving DecidableEq, Repr

/-- Which translation a cached entry belongs to: the context, the level, and the address bits that select the entry
(rule R31). -/
structure TlbKey where
  ctx : Nat
  level : Level
  tag : Nat
  deriving DecidableEq, Repr

/-- An entry a walker has read and may hold in a TLB or TR TLB (rules R31, R69), and the host physical address it was used at,
none where the walk had no address for it: a walk of another context, or of another address, that comes to the same entry may
use the copy too. -/
structure TlbEntry where
  key : TlbKey
  word : Word64
  place : Option Nat
  deriving DecidableEq, Repr

/-- A PML4 page that the hardware may have copied (rule R182): the context, the page's address, and how many events the
history held at the context's first demand of it. The copy is taken at that moment or later, so every value an entry of the
page has had since is one the copy may hold. -/
structure Pml4Root where
  ctx : Nat
  base : Nat
  since : Nat
  deriving DecidableEq, Repr

/-- The memory types of rule R27: `MEM_TYPE` 0 to 3, the encoding of LeCC too (rule R148). -/
inductive MemType where
  | uc
  | wc
  | wt
  | wb
  deriving DecidableEq, Repr

/-- Target cache, rule R149. -/
inductive TargetCache where
  | ellcOnly
  | llcOnly
  | llcEllcAllowed
  | llcEllcAllowed2
  deriving DecidableEq, Repr

/-- LRU management, rule R150. -/
inductive LruAge where
  | fromUncore
  | assign0
  | dontChange
  | assign3
  deriving DecidableEq, Repr

/-- The LLC/eDRAM controls of a request (rules R148 to R156). `selfSnoop` is none where the MIDI unit decides, and
`some b` where the bit is overridden with `b`. -/
structure LlcControls where
  leccType : MemType
  target : TargetCache
  lru : LruAge
  noAllocOnMiss : Bool
  nonCoherent : Bool
  classOfService : BitVec 2
  selfSnoop : Option Bool
  deriving DecidableEq, Repr

/-- How a line written in the L3 leaves it (rule R162): the MOCS index whose controls the eviction uses, and whether it goes
to the LLC. -/
structure Eviction where
  index : BitVec 6
  llc : Bool
  deriving DecidableEq, Repr

/-- The cache attributes of an access, a label on its memory event with no effect on data (rules R63, R158). `evict` is none
where the access leaves no dirty line in the L3. -/
structure Label where
  index : Option (BitVec 6)
  hdcL1 : Bool
  l3 : Bool
  llc : Bool
  controls : Option LlcControls
  attrs : Option LeafAttrs
  memType : Option MemType
  evict : Option Eviction
  deriving DecidableEq, Repr

/-- Through which translation and which MOCS index a request reaches memory (rule R65 (b)): the space, the context (0 for
the global space, which is one for all contexts), the page of the address handed to the page table, the index. -/
structure Route where
  space : Space
  ctx : Nat
  page : Nat
  index : Option (BitVec 6)
  deriving DecidableEq, Repr

/-- One `MemRead` or `MemWrite` of the history (rules R63, R65). `data` is the value read or written; for a write `old`
is the value overwritten. The host and the walkers have no route: they use physical addresses. -/
structure MemEvent where
  agent : Agent
  kind : Access
  pa : Nat
  n : Nat
  data : Nat
  old : Nat
  route : Option Route
  label : Option Label
  deriving DecidableEq, Repr

/-- What a requester receives: the data and the null indicator (rule R62); a write returns data 0. -/
structure Completion where
  agent : Agent
  ctx : Nat
  kind : Access
  n : Nat
  data : Nat
  null : Bool
  deriving DecidableEq, Repr

/-- A halted engine with the request that faulted and the event recorded (rules R211, R214). -/
structure Halted where
  engine : Engine
  req : Request
  event : Fault
  deriving DecidableEq, Repr

end Sys2Proof.Machine

/-- Rules R31, R237: what the TLBs, the TR TLBs and the cached PML4 pages hold after a device reset. -/
opaque Sys2Proof.Config.freeTlb : (draw : Nat) → List Sys2Proof.Machine.TlbEntry

namespace Sys2Proof.Machine

/-- The state. INVENTORY.md lists each field with the rule that names it. -/
structure State where
  /-- The implementation parameters (rule R5); no step changes them. -/
  params : Params
  /-- Physical memory: the bytes that differ from what an unlisted address reads as (rules R11, R52). -/
  mem : List Host.Cell
  /-- How many device resets there have been: an unlisted byte reads 0 before the first and is free after (log 5). -/
  resetEpoch : Nat
  /-- `PGTBL_CTL`: `GGTT_BASE` (rule R28). -/
  pgtblCtl : Word64
  /-- `PGTBL_CTL2` (rule R28). -/
  pgtblCtl2 : Word64
  /-- The register at MMIO offset `0x4DFC` (rule R20). -/
  trBypass : Word32
  /-- `LNCFCMOCS0..31` (rules R22 to R24). -/
  lncf : Vector Word32 32
  /-- `GLOB_MOCS_0..63` (rules R25, R26). -/
  glob : Vector Word32 64
  /-- The four specified PAT entries, `MEM_TYPE` (rules R27, R160). -/
  pat : Vector (BitVec 2) 4
  /-- The contexts the host has described or whose registers it has written (rules R15 to R19, R29). -/
  ctxs : List (Nat × Context)
  /-- `NULL_TILE_COUNT` (rule R21). -/
  nullTileCount : Nat
  /-- `INVALID_TILE_PENDING` (rule R216). -/
  invalidTilePending : Bool
  /-- Render power gating enabled (rules R229, R242). -/
  renderPowerGating : Bool
  /-- Entries held by the TLB and the TR TLBs (rules R31, R69). -/
  tlb : List TlbEntry
  /-- The cached PML4 pages (rules R31, R182). -/
  pml4Roots : List Pml4Root
  /-- The engines stopped by a fault (rule R214). -/
  halted : List Halted
  /-- The request in flight whose walk takes the next step (rules R10, R61). -/
  walk : Option Walk
  /-- The other requests in flight, each waiting for its turn (rule R10). -/
  waiting : List Walk
  /-- The model's own: whose turn comes next, first to last; with none left, a request runs to its end (log entry 2). -/
  schedule : List Turn
  /-- What the outside world presents next, first to last. -/
  agenda : List Input
  /-- What requesters received, newest first (rule R62). -/
  results : List Completion
  /-- Every access to memory, newest first (rule R65). -/
  history : List MemEvent
  /-- The model's own: the number of writes to memory so far, an argument of `SecondLevel` (log entry 8). -/
  vtdEpoch : Nat
  /-- The model's own: the counter the free values are applied to (log entry 4). -/
  draws : Nat
  deriving DecidableEq, Repr

/-- The outcome of a step or a meaning. -/
abbrev Res := Host.Outcome State Fault Refusal

/-- A context after reset: every TR-TT register at its default 0 (rule R32); the descriptor, for which the spec gives no
value, zero and Legacy PPGTT64 (log entry 5). -/
def Context.initial : Context :=
  { desc :=
      { kind := .legacyPpgtt64, pml4Ptr := 0, neste := false, wpe := false, pfmode := .terminal, dualContext := false }
    trttL3ptr := 0, trttNull := 0, trttInvalid := 0, trvadr := 0, trtte := 0 }

/-- The machine right after reset (rules R32, R237): the printed register defaults, memory with nothing listed, and
what the spec leaves unspecified at the values of log entry 5. -/
def State.reset : State :=
  { params := Params.title
    mem := []
    resetEpoch := 0
    pgtblCtl := 0
    pgtblCtl2 := 0
    trBypass := 0
    lncf := Vector.replicate 32 0x00100000#32
    glob := Vector.replicate 64 0x00000033#32
    pat := Vector.replicate 4 0#2
    ctxs := []
    nullTileCount := 0
    invalidTilePending := false
    renderPowerGating := false
    tlb := []
    pml4Roots := []
    halted := []
    walk := none
    waiting := []
    schedule := []
    agenda := []
    results := []
    history := []
    vtdEpoch := 0
    draws := 0 }

end Sys2Proof.Machine
end

