-- ==== Sys2Proof/Machine/Memory.lean ====
section
/-!
DEFINITION. Physical memory as a list of cells in one canonical form, and the primitives `MemRead` and `MemWrite`
(spec/00_scope.md rule R7, spec/20_memory.md rules R52, R58).
-/

namespace Sys2Proof.Machine

/-- What an address with no cell reads as: 0 before the first device reset, a free byte after it (rule R237; log
entry 5). -/
def Memory.unlisted (epoch addr : Nat) : Byte := if epoch = 0 then 0#8 else Config.freeByte epoch addr

/-- One byte of memory. -/
def Memory.read (epoch : Nat) : List Host.Cell → Nat → Byte
  | [], a => Memory.unlisted epoch a
  | (k, v) :: m, a => if a = k then v else Memory.read epoch m a

/-- Memory with one byte written. A byte equal to what an unlisted address reads as has no cell. -/
def Memory.write (epoch : Nat) : List Host.Cell → Nat → Byte → List Host.Cell
  | [], a, v => if v = Memory.unlisted epoch a then [] else [(a, v)]
  | (k, w) :: m, a, v =>
    if a < k then (if v = Memory.unlisted epoch a then (k, w) :: m else (a, v) :: (k, w) :: m)
    else if a = k then (if v = Memory.unlisted epoch a then m else (a, v) :: m)
    else (k, w) :: Memory.write epoch m a v

/-- The canonical form from address `lo` on: addresses strictly rising and below `hi`, no cell equal to what an unlisted
address reads as. -/
def Memory.wfFrom (epoch hi : Nat) : Nat → List Host.Cell → Bool
  | _, [] => true
  | lo, (k, v) :: m =>
    decide (lo ≤ k) && decide (k < hi) && decide (v ≠ Memory.unlisted epoch k) && Memory.wfFrom epoch hi (k + 1) m

/-- The canonical form of a memory with addresses below `hi`. -/
def Memory.wf (epoch hi : Nat) (m : List Host.Cell) : Bool := Memory.wfFrom epoch hi 0 m

/-- `MemRead(pa, n)`: `n` bytes as an unsigned integer, little-endian (rules R7, R58). -/
def Memory.readN (epoch : Nat) (m : List Host.Cell) : (pa n : Nat) → Nat
  | _, 0 => 0
  | pa, n + 1 => (Memory.read epoch m pa).toNat + 256 * Memory.readN epoch m (pa + 1) n

/-- `MemWrite(pa, n, v)`: the low `8n` bits of `v`, little-endian (rules R7, R58). -/
def Memory.writeN (epoch : Nat) : List Host.Cell → (pa n v : Nat) → List Host.Cell
  | m, _, 0, _ => m
  | m, pa, n + 1, v => Memory.writeN epoch (Memory.write epoch m pa (BitVec.ofNat 8 v)) (pa + 1) n (v / 256)

/-- The number of bytes of physical memory, `2^HAW` (rule R52). -/
def State.memSize (s : State) : Nat := 2 ^ s.params.haw.bits

/-- One byte of a state's memory. -/
def State.byte (s : State) (pa : Nat) : Byte := Memory.read s.resetEpoch s.mem pa

/-- `MemRead` in a state. -/
def State.readMem (s : State) (pa n : Nat) : Nat := Memory.readN s.resetEpoch s.mem pa n

/-- The memory of the state is in its canonical form, with no cell at or above `2^HAW`. -/
def State.memWf (s : State) : Bool := Memory.wf s.resetEpoch s.memSize s.mem

/-- The `i`-th byte of a little-endian value (rule R58). -/
def byteOf (v i : Nat) : Byte := BitVec.ofNat 8 (v / 256 ^ i)

/-- Whether a write of the history stored to the byte at `pa`. -/
def MemEvent.wrote (e : MemEvent) (pa : Nat) : Bool :=
  decide (e.kind = .write) && decide (e.pa ≤ pa) && decide (pa < e.pa + e.n)

/-- The value the event gave the byte at `pa`. -/
def MemEvent.newByte (e : MemEvent) (pa : Nat) : Byte := byteOf e.data (pa - e.pa)

/-- The value the byte at `pa` had before the event. -/
def MemEvent.oldByte (e : MemEvent) (pa : Nat) : Byte := byteOf e.old (pa - e.pa)

/-- The writes of the history to the byte at `pa`, newest first. -/
def State.writesTo (s : State) (pa : Nat) : List MemEvent := s.history.filter (fun e => e.wrote pa)

/-- The values other than the current one that the byte at `pa` has had (rule R65 (a)). -/
def State.pastBytes (s : State) (pa : Nat) : List Byte :=
  ((s.writesTo pa).flatMap (fun e => [e.newByte pa, e.oldByte pa])).filter (fun b => b ≠ s.byte pa)

/-- Whether the adopted consistency model fixes what `agent` reads at `pa` through a route: nothing has written the byte, or
the agent itself wrote it last through the same translation and the same MOCS index (rule R65 (b), decision D7). A read of kernel
instructions is a read like any other; whether an instruction fetch sees a store is not stated (rule R71, decision D16; log
entry 40). -/
def State.ownByte (s : State) (agent : Agent) (route : Option Route) (pa : Nat) : Bool :=
  match s.writesTo pa with
  | [] => true
  | e :: _ => decide (e.agent = agent) && decide (e.route = route)

/-- The byte `agent` reads at `pa`: the current one where rule R65 (b) fixes it, and otherwise any value the byte has
had, the choice being free (rule R65 (a)). -/
def State.visibleByte (s : State) (agent : Agent) (route : Option Route) (pa : Nat) : Byte :=
  if s.ownByte agent route pa || (s.pastBytes pa).isEmpty then s.byte pa
  else (s.byte pa :: s.pastBytes pa).getD (Config.freeVisible s.draws pa % ((s.pastBytes pa).length + 1)) (s.byte pa)

/-- The value `agent` reads in the `n` bytes at `pa`, little-endian. -/
def State.visible (s : State) (agent : Agent) (route : Option Route) : (pa n : Nat) → Nat
  | _, 0 => 0
  | pa, n + 1 => (s.visibleByte agent route pa).toNat + 256 * s.visible agent route (pa + 1) n

/-- A read recorded in the history (rule R65). -/
def State.noteRead (s : State) (agent : Agent) (pa n data : Nat) (route : Option Route) (label : Option Label) :
    State :=
  { s with history := ⟨agent, .read, pa, n, data, 0, route, label⟩ :: s.history }

/-- `MemWrite` in a state: the bytes stored and the write recorded in the history (rules R7, R65). -/
def State.store (s : State) (agent : Agent) (pa n data : Nat) (route : Option Route) (label : Option Label) :
    State :=
  { s with
    mem := Memory.writeN s.resetEpoch s.mem pa n data
    history := ⟨agent, .write, pa, n, data % 256 ^ n, s.readMem pa n, route, label⟩ :: s.history
    vtdEpoch := s.vtdEpoch + 1 }

end Sys2Proof.Machine
end

