-- ==== Sys2Proof/Machine/Operands.lean ====
section
/-!
DEFINITION. The operand forms: contexts and their registers, the index fields of a virtual address and the address of
the entry they select (spec/30_encoding.md rule R97), the output address of each terminal format (rule R96), the
TR-VA window (rule R113) and the register a cycle names (rules R20, R22, R25).
-/

namespace Sys2Proof.Machine

/-- A context after a device reset that nothing has described: the TR-TT registers at their default 0, the descriptor
free (rules R32, R237). -/
def Context.afterReset (epoch ctx : Nat) : Context :=
  { Context.initial with
    desc :=
      { kind :=
          if (Config.freeCtxKind epoch ctx).extractLsb' 0 2 = 0#2 then .ggtt
          else if (Config.freeCtxKind epoch ctx).extractLsb' 0 2 = 1#2 then .legacyPpgtt32
          else if (Config.freeCtxKind epoch ctx).extractLsb' 0 2 = 2#2 then .legacyPpgtt64
          else .advancedPpgtt64
        pml4Ptr := fieldAt 64 12 (Config.freePml4Page epoch ctx)
        neste := (Config.freeCtxFlags epoch ctx).getLsbD 1
        wpe := (Config.freeCtxFlags epoch ctx).getLsbD 0
        dualContext := (Config.freeCtxFlags epoch ctx).getLsbD 2
        pfmode := if (Config.freeCtxKind epoch ctx).getLsbD 2 then .faultAndHalt else .terminal } }

/-- What a context nothing has written holds. -/
def Context.unlisted (epoch ctx : Nat) : Context :=
  if epoch = 0 then Context.initial else Context.afterReset epoch ctx

/-- The context with number `c` (rule R29). -/
def State.ctx (s : State) (c : Nat) : Context :=
  match s.ctxs.find? (fun p => p.1 = c) with
  | some p => p.2
  | none => Context.unlisted s.resetEpoch c

/-- The contexts with number `c` holding `k`. -/
def setCtxList (l : List (Nat × Context)) (c : Nat) (k : Context) : List (Nat × Context) :=
  (c, k) :: l.filter (fun p => p.1 ≠ c)

/-- The state with context `c` holding `k`. -/
def State.setCtx (s : State) (c : Nat) (k : Context) : State := { s with ctxs := setCtxList s.ctxs c k }

/-- `TRTTE[0]`, TR-TT Enable (rule R19). -/
def Context.trttEnabled (k : Context) : Bool := k.trtte.getLsbD 0

/-- `TRTTE[1]`, the table location; true is the virtual address space (rule R19). -/
def Context.tablesVirtual (k : Context) : Bool := k.trtte.getLsbD 1

/-- `L3PTR = TRTT_L3PTR[47:16] << 16` (rule R15). -/
def Context.l3ptr (k : Context) : BitVec 48 := fieldAt 48 16 (k.trttL3ptr.extractLsb' 16 32)

/-- `TR_BYPASS[0]`: 1 disables the bypass (rule R20). -/
def State.bypassDisabled (s : State) : Bool := s.trBypass.getLsbD 0

/-- `TRVA_Hit(va)` (rule R113); none where the mask is one the source does not support. -/
def trvaHit (trvadr : Word32) (va : BitVec 48) : Option Bool :=
  if trvadr.extractLsb' 4 4 = 0#4 then some false
  else if trvadr.extractLsb' 4 4 = 15#4 then some (decide (va.extractLsb' Config.trvaBits 4 = trvadr.extractLsb' 0 4))
  else none

/-- The index a level takes from the address (rule R97). -/
def levelIndex (l : Level) (va : BitVec 48) : Nat :=
  match l with
  | .ggtt => (va.extractLsb' 12 20).toNat
  | .pml4 => (va.extractLsb' 39 9).toNat
  | .pdp => (va.extractLsb' 30 9).toNat
  | .pd => (va.extractLsb' 21 9).toNat
  | .pt4k => (va.extractLsb' 12 9).toNat
  | .pt64k => (va.extractLsb' 16 5 ++ 0#4).toNat
  | .trL3 => (va.extractLsb' 35 9).toNat
  | .trL2 => (va.extractLsb' 26 9).toNat
  | .trL1 => (va.extractLsb' 16 10).toNat

/-- The size of an entry of a level in bytes (rules R57, R80). -/
def levelSize (l : Level) : Nat := (Slot.entry l).bytes

/-- The address of the entry of a table at `base` that an address selects (rule R97). -/
def entryAddr (l : Level) (base : Nat) (va : BitVec 48) : Nat := base + levelIndex l va * levelSize l

/-- The address bits that select an entry of a level and of all levels above it: what a TLB is looked up by. -/
def levelTag (l : Level) (va : BitVec 48) : Nat :=
  match l with
  | .ggtt => va.toNat / 2 ^ 12
  | .pml4 => va.toNat / 2 ^ 39
  | .pdp => va.toNat / 2 ^ 30
  | .pd => va.toNat / 2 ^ 21
  | .pt4k => va.toNat / 2 ^ 12
  | .pt64k => va.toNat / 2 ^ 16
  | .trL3 => va.toNat / 2 ^ 35
  | .trL2 => va.toNat / 2 ^ 26
  | .trL1 => va.toNat / 2 ^ 16

/-- Whether a level belongs to the TR-TT walk. -/
def levelIsTr (l : Level) : Bool :=
  match l with
  | .ggtt => false
  | .pml4 => false
  | .pdp => false
  | .pd => false
  | .pt4k => false
  | .pt64k => false
  | .trL3 => true
  | .trL2 => true
  | .trL1 => true

/-- The level named by a fault (rule R211). -/
def levelStage (l : Level) : Stage :=
  match l with
  | .ggtt => .pt
  | .pml4 => .pml4
  | .pdp => .pdp
  | .pd => .pd
  | .pt4k => .pt
  | .pt64k => .pt
  | .trL3 => .trL3
  | .trL2 => .trL2
  | .trL1 => .trL1

/-- The level of a TR-TT step. -/
def TrStep.level (t : TrStep) : Level :=
  match t with
  | .l3 => .trL3
  | .l2 => .trL2
  | .l1 => .trL1

/-- The address a walk's current level is indexed by: a TR-TT level by the address the TR-TT translates. -/
def Walk.addr (wk : Walk) : BitVec 48 := if levelIsTr wk.level then wk.trva else wk.va

/-- The TLB key of the entry a walk reads next. The Global GTT is one for all contexts (rule R227). -/
def Walk.key (wk : Walk) : TlbKey :=
  ⟨if wk.level = .ggtt then 0 else wk.req.ctx, wk.level, levelTag wk.level wk.addr⟩

/-- The space a request uses (rules R53, R172): display, aperture and GuC accesses use the Global GTT, every other request the
space it names (log entry 37). -/
def Request.usedSpace (r : Request) : Space :=
  if r.engine = .display ∨ r.engine = .guc ∨ r.client = .aperture then .global else r.space

/-- The translation and the index a request reaches memory through (rule R65 (b), log entry 12). -/
def Walk.route (wk : Walk) : Route :=
  { space := wk.req.usedSpace
    ctx := if wk.req.usedSpace = .global then 0 else wk.req.ctx
    page := wk.va.toNat / 4096
    index := wk.index }

/-- The kind of the translation in flight: a table word is only read (rule R124). -/
def Walk.accessKind (wk : Walk) : Access :=
  match wk.dest with
  | .target => wk.req.kind
  | .table _ => .read

/-- A 4KB page or table address above the page offset (rule R96). -/
def page4k (addr : BitVec 34) (va : BitVec 48) : BitVec 46 := addr ++ va.extractLsb' 0 12

/-- A 64KB page address above the page offset (rule R96). -/
def page64k (addr : BitVec 30) (va : BitVec 48) : BitVec 46 := addr ++ va.extractLsb' 0 16

/-- A 2MB page address above the page offset (rule R96). -/
def page2m (addr : BitVec 25) (va : BitVec 48) : BitVec 46 := addr ++ va.extractLsb' 0 21

/-- A 1GB page address above the page offset (rule R96). -/
def page1g (addr : BitVec 16) (va : BitVec 48) : BitVec 46 := addr ++ va.extractLsb' 0 30

/-- A tile address above the tile offset: the address the TR-TT answers (rules R96, R118). -/
def tileAddr (addr : BitVec 32) (va : BitVec 48) : BitVec 48 := addr ++ va.extractLsb' 0 16

/-- The physical address of a 4KB-aligned table an entry points to (rule R97). -/
def tableBase (addr : BitVec 34) : Nat := addr.toNat * 4096

/-- The table address a TR-TT L3 or L2 entry holds (rules R116, R117). -/
def trTableBase (addr : BitVec 36) : BitVec 48 := fieldAt 48 12 addr

/-- Whether a range of physical memory exists (rules R7, R52). -/
def inMemory (size pa n : Nat) : Bool := decide (pa + n ≤ size)

/-- The format of the word written to a register; none for a register of which the spec gives no layout. -/
def RegTarget.format (t : RegTarget) : Option RegFormat :=
  match t with
  | .l3ptr _ => some .l3ptr
  | .null _ => some .null
  | .invalid _ => some .invalid
  | .trvadr _ => some .trvadr
  | .trtte _ => some .trtte
  | .bypass => some .bypass
  | .lncf _ => some .lncf
  | .glob _ => some .glob
  | .pat _ => none
  | .pgtblCtl => none
  | .pgtblCtl2 => none
  | .nullTileCount => none

/-- The register at an MMIO offset: `GLOB_MOCS_i` at `0x4000 + 4i`, `TR_BYPASS` at `0x4DFC`, `LNCFCMOCSx` at
`0xB020 + 4x` (rules R20, R22, R25, R55). The TR-TT registers have no offset in the source (rule R5). The width of a cycle and
what one at an offset inside a register reaches are not in the source: the model has cycles of whole registers, and such an
offset names none (rule R13; log entry 42). -/
def regAtOffset (o : Nat) : Option RegTarget :=
  if o % 4 ≠ 0 then none
  else if o = 0x4DFC then some .bypass
  else if h : 0x4000 ≤ o ∧ (o - 0x4000) / 4 < 64 then some (.glob ⟨(o - 0x4000) / 4, h.2⟩)
  else if h : 0xB020 ≤ o ∧ (o - 0xB020) / 4 < 32 then some (.lncf ⟨(o - 0xB020) / 4, h.2⟩)
  else none

/-- The register a cycle names. -/
def RegAddr.resolve (a : RegAddr) : Option RegTarget :=
  match a with
  | .named t => some t
  | .offset o => regAtOffset o

/-- Whether an engine is stopped by a fault (rule R214). -/
def State.isHalted (s : State) (e : Engine) : Bool := s.halted.any (fun h => h.engine = e)

/-- Whether an engine has a request in flight that waits for its turn: its requests take effect in issue order (decision
D7). -/
def State.isBusy (s : State) (e : Engine) : Bool := s.waiting.any (fun wk => wk.req.engine = e)

/-- Whether an input can be taken now: a halted engine makes no further request (rule R214), a busy one not yet. -/
def State.runnable (s : State) (i : Input) : Bool :=
  match i with
  | .request r => !s.isHalted r.engine && !s.isBusy r.engine
  | .regWrite _ _ => true
  | .regRead _ => true
  | .ggttUpdate _ _ _ => true
  | .hostWrite _ _ _ => true
  | .hostRead _ _ => true
  | .describe _ _ => true
  | .faultResponse _ _ => true
  | .deviceReset => true
  | .renderReset _ => true
  | .rc6 _ => true
  | .renderPowerGating => true

/-- The first element with a property, and the list without it. -/
def takeFirst {α : Type} (p : α → Bool) : List α → Option (α × List α)
  | [] => none
  | a :: l => if p a then some (a, l) else (takeFirst p l).map (fun r => (r.1, a :: r.2))

/-- The input taken next, and the inputs left: requests of halted and of busy engines wait (rule R214, decision D7). -/
def State.nextInput (s : State) : Option (Input × List Input) := takeFirst s.runnable s.agenda

/-- The register cycle on the bus, with the inputs left after it: the next input, when no walk takes the step. -/
def State.regCycle (s : State) : Option (RegTarget × List Input) :=
  match s.walk, s.nextInput with
  | none, some (.regWrite a _, rest) => a.resolve.map (fun t => (t, rest))
  | _, _ => none

/-- The request presented, with the inputs left after it, when no walk takes the step. -/
def State.presented (s : State) : Option (Request × List Input) :=
  match s.walk, s.nextInput with
  | none, some (.request r, rest) => some (r, rest)
  | _, _ => none

/-- Where the control state of a memory object stands: the table of rule R136. -/
def MemObject.controlState (o : MemObject) : ControlLocation :=
  match o with
  | .surface => .surfaceState
  | .depthStencil => .bufferCommand
  | .statelessDataPort => .stateBaseAddress
  | .indirectState => .stateBaseAddress
  | .kernelInstructions => .stateBaseAddress
  | .pushConstant => .constantCommand
  | .indexBuffer => .indexBufferCommand
  | .vertexBuffer => .vertexBufferCommand
  | .indirectMedia => .stateBaseAddress
  | .genericStatePrefetch => .gttOnly
  | .ringBatchBuffer => .gttOnly
  | .contextSave => .gttOnly
  | .storeDword => .gttOnly

/-- The MOCS word of a request, if its object has one (rules R60, R136). -/
def Request.mocsWord (r : Request) : Option (BitVec 7) := if r.object.controlState = .gttOnly then none else some r.mocs

end Sys2Proof.Machine
end

