-- ==== Sys2Proof/Machine/Copies.lean ====
section
/-!
DEFINITION. What a walk may use for its next entry besides memory: the copies the TLBs and the cached PML4 pages may hold
(spec/10_state.md rule R31, spec/20_memory.md rules R68, R69, spec/43_ppgtt.md rule R182; log entry 10).
-/

namespace Sys2Proof.Machine

/-- The entry of a level at an address, as memory holds it (rule R57). -/
def State.memEntry (s : State) (l : Level) (a : Nat) : Word64 := BitVec.ofNat 64 (s.readMem a (levelSize l))

/-- Whether a TLB entry is a copy of the entry the walk is to use: of the same translation, or used before at the same address
in memory, by whichever context and address (rule R69, decision D21: "a walk may use the old or the new value of a changed entry,
for ever"). Copies of another width do not count (log entry 10). -/
def TlbEntry.serves (t : TlbEntry) (wk : Walk) : Bool :=
  decide (t.key = wk.key) ||
    match wk.entry with
    | .memory a => decide (t.place = some a) && decide (levelSize t.key.level = levelSize wk.level)
    | .copyOnly _ => false

/-- Whether a cached PML4 page has the entry the walk is to use: a page of the walk's context, or of any context where the entry
lies in the page. -/
def Pml4Root.serves (p : Pml4Root) (wk : Walk) : Bool :=
  decide (p.ctx = wk.req.ctx) || decide (wk.entry = .memory (entryAddr .pml4 p.base wk.va))

/-- The copies of the entry that a TLB or TR TLB may hold (rule R69). -/
def State.tlbWords (s : State) (wk : Walk) : List Word64 := (s.tlb.filter (fun t => t.serves wk)).map (·.word)

/-- The eight bytes at `a` as they were before an event, given those after it. -/
def MemEvent.undo (e : MemEvent) (a : Nat) (w : Word64) : Word64 :=
  BitVec.ofNat 64
    (bytesToNat ((List.range 8).map (fun i => if e.wrote (a + i) then e.oldByte (a + i) else byteOf w.toNat i)))

/-- The values the eight bytes at `a` had during the given events, newest first; `w` is the value after them. -/
def versionsOf : List MemEvent → (a : Nat) → (w : Word64) → List Word64
  | [], _, w => [w]
  | e :: es, a, w => if e.kind = .write then w :: versionsOf es a (e.undo a w) else versionsOf es a w

/-- Every value the entry of a PML4 page has had since the context's first demand of the page (rule R182). -/
def Pml4Root.words (p : Pml4Root) (s : State) (va : BitVec 48) : List Word64 :=
  versionsOf (s.history.take (s.history.length - p.since)) (entryAddr .pml4 p.base va)
    (BitVec.ofNat 64 (s.readMem (entryAddr .pml4 p.base va) 8))

/-- The values of the entry that the cached PML4 pages may hold: of the page the context uses now and of every page it has used
(rule R182), and of the same page where another context has used it (rule R69). -/
def State.pml4Words (s : State) (wk : Walk) : List Word64 :=
  if wk.level = .pml4 then (s.pml4Roots.filter (fun p => p.serves wk)).flatMap (fun p => p.words s wk.va) else []

/-- Whether an entry raises a fault by itself: its present bit is clear, or it forbids the access (rules R174, R193,
R194). -/
def raisesFault (l : Level) (k : Access) (w : Word64) : Bool :=
  !levelIsTr l && (!w.getLsbD 0 || (decide (l ≠ .ggtt) && decide (k = .write) && !w.getLsbD 1))

/-- The copies the walk may use instead of the entry in memory. A request retried after a successful fault response
"completes as if no fault had happened", so it uses no copy that raises a fault (rule R221; log entry 11). -/
def State.copies (s : State) (wk : Walk) : List Word64 :=
  (s.tlbWords wk ++ s.pml4Words wk).filter (fun w => !(wk.req.retried && raisesFault wk.level wk.accessKind w))

end Sys2Proof.Machine
end

