-- ==== Sys2Proof/Machine/Flags.lean ====
section
/-!
DEFINITION. The cache controls and memory attributes: everything rules R135 to R165 of spec/41_mocs.md compute from a
MOCS index, the two control tables, the PAT and a leaf entry. They label a memory event and change no data (rules R63,
R158).
-/

namespace Sys2Proof.Machine

/-- `MOCS_Index(m) = m[6:1]` (rule R137). -/
def mocsIndex (m : BitVec 7) : BitVec 6 := m.extractLsb' 1 6

/-- `HDC_L1_Cacheable` (rule R138): through the Data Port with index 48 to 59. -/
def hdcL1Cacheable (c : Client) (i : BitVec 6) : Bool :=
  (decide (c = .directEu) || decide (c = .dataPort)) && decide (48 ≤ i.toNat) && decide (i.toNat ≤ 59)

/-- The register that holds the L3 control of an index: register `i / 2` (rule R22). -/
def lncfSlot (i : BitVec 6) : Fin 32 := ⟨i.toNat / 2, Nat.div_lt_of_lt_mul i.isLt⟩

/-- `L3_Control(i)`: the lower half of its register for an even index, the upper half for an odd one (rule R139). -/
def State.l3Control (s : State) (i : BitVec 6) : BitVec 16 :=
  if i.getLsbD 0 then s.lncf[lncfSlot i].extractLsb' 16 16 else s.lncf[lncfSlot i].extractLsb' 0 16

/-- `LLC_Control(i) = GLOB_MOCS[i]` (rule R147). -/
def State.llcControl (s : State) (i : BitVec 6) : Word32 := s.glob[i.toFin]

/-- Whether bit `k` of an address is set. -/
def addrBit (a k : Nat) : Bool := a.testBit k

/-- Whether bit `k` of the L3 skip control is set and its pair of address bits differs (rule R144). -/
def l3SkipBit (e : BitVec 16) (a k : Nat) : Bool :=
  e.getLsbD (1 + k) && (addrBit a (Config.l3SkipAddrBits k).1 ^^ addrBit a (Config.l3SkipAddrBits k).2)

/-- The L3 skip test: ESC is set and some selected pair of address bits differs (rules R142, R144). -/
def l3Skips (e : BitVec 16) (a : Nat) : Bool := e.getLsbD 0 && (l3SkipBit e a 0 || l3SkipBit e a 1 || l3SkipBit e a 2)

/-- `L3_Caches` for an L3 entry (rule R144). None for L3CC `10b`, and for `00b`, which is reserved but for a direct EU access
(rules R98, R141; U3, U4), and of which a direct EU access makes something with two further bits the source does not describe
(N10). The label is then a free value, "may or may not be cached" in the words of R141; that the index is not refused, as U3 says of
a model that tracks cacheability, is the model's choice (log entry 44). -/
def l3Caches (e : BitVec 16) (a : Nat) : Option Bool :=
  if e.extractLsb' 4 2 = 3#2 then some (!l3Skips e a) else if e.extractLsb' 4 2 = 1#2 then some false else none

/-- The LLC skip test: every selected address bit `a[9+k]` is 0 (rule R151). -/
def llcPasses (g : Word32) (a : Nat) : Bool :=
  (!g.getLsbD 8 || !addrBit a 9) && (!g.getLsbD 9 || !addrBit a 10) && (!g.getLsbD 10 || !addrBit a 11)

/-- `LLC_Caches` for an LLC control word (rule R151); none for ERSC = 1 with SCC = 000b (U8). -/
def llcCaches (g : Word32) (a : Nat) : Option Bool :=
  if g.getLsbD 7 && decide (g.extractLsb' 8 3 = 0#3) then none
  else some (g.getLsbD 1 && (llcPasses g a ^^ g.getLsbD 7))

/-- The memory type of a two-bit code: `MEM_TYPE` and LeCC (rules R27, R148, R160). -/
def memTypeOf (v : BitVec 2) : MemType :=
  if v = 0#2 then .uc else if v = 1#2 then .wc else if v = 2#2 then .wt else .wb

/-- The target cache of TC (rule R149). -/
def targetCacheOf (v : BitVec 2) : TargetCache :=
  if v = 0#2 then .ellcOnly else if v = 1#2 then .llcOnly else if v = 2#2 then .llcEllcAllowed else .llcEllcAllowed2

/-- The age management of LRUM (rule R150). -/
def lruAgeOf (v : BitVec 2) : LruAge :=
  if v = 0#2 then .fromUncore else if v = 1#2 then .assign0 else if v = 2#2 then .dontChange else .assign3

/-- The self-snoop behaviour of SSE; the unlisted `10b` is free (rule R156, U5). -/
def selfSnoopOf (draw : Nat) (v : BitVec 2) : Option Bool :=
  if v = 0#2 then none
  else if v = 1#2 then some false
  else if v = 3#2 then some true
  else Config.freeSelfSnoop draw

/-- The LLC/eDRAM controls of a `GLOB_MOCS` word (rules R148 to R156). -/
def llcControlsOf (draw : Nat) (g : Word32) : LlcControls :=
  { leccType := memTypeOf (LlcWord.ofBits g).lecc
    target := targetCacheOf (LlcWord.ofBits g).tc
    lru := lruAgeOf (LlcWord.ofBits g).lrum
    noAllocOnMiss := (LlcWord.ofBits g).daom
    nonCoherent := (LlcWord.ofBits g).scf
    classOfService := (LlcWord.ofBits g).cos
    selfSnoop := selfSnoopOf draw (LlcWord.ofBits g).sse }

/-- Whether the required table defines an index for use by a request: not 0, 60, 62 or 63, and it has a row (rules
R161, R164, R248). -/
def indexDefined (i : BitVec 6) : Bool :=
  (decide (2 ≤ i.toNat) && decide (i.toNat ≤ 15)) || (decide (18 ≤ i.toNat) && decide (i.toNat ≤ 23)) ||
    (decide (48 ≤ i.toNat) && decide (i.toNat ≤ 51)) || decide (i.toNat = 61)

/-- `PAT_Index = PAT : PCD : PWT` (rule R163). -/
def patIndex (t : LeafAttrs) : BitVec 3 := BitVec.ofBool t.pat ++ BitVec.ofBool t.pcd ++ BitVec.ofBool t.pwt

/-- `MemType(p) = PAT[p].MEM_TYPE`; the entries 4 to 7 are free (rules R160, R163, U13). -/
def State.patType (s : State) (p : BitVec 3) : MemType :=
  if h : p.toNat < 4 then memTypeOf s.pat[p.toNat] else memTypeOf (Config.freePatType s.draws p)

/-- The address the skip-caching controls test (rule R144, decision D22). Which virtual address is meant for a request that
the TR-TT maps is a parameter too (log entry 6). -/
def State.skipAddr (s : State) (wk : Walk) (pa : Nat) : Nat :=
  match s.params.l3SkipAddr with
  | .physical => pa
  | .virtual => wk.req.va.toNat
  | .mapped => wk.va.toNat

/-- A decision about one address, for the `n` bytes from `a` on: stated where it is the same for all of them. The rules
decide for an address and say nothing of a request whose bytes differ (log entry 35). -/
def agreed (f : Nat → Option Bool) (a n : Nat) : Option Bool :=
  if (List.range n).all (fun k => decide (f (a + k) = f a)) then f a else none

/-- Whether an access is cached in the L3: the L3 control where rules R141 and R164 state one, free elsewhere (log entries 14, 35,
44). -/
def State.labelL3 (s : State) (i : BitVec 6) (a n : Nat) : Bool :=
  ((if indexDefined i then agreed (l3Caches (s.l3Control i)) a n else none).getD (Config.freeL3Cached s.draws))

/-- Whether the LLC control alone settles the LLC decision: the source gives no rule for combining LeCC with the memory type
of the page table, so where the two differ there is no claim (rule R165, log entry 38). -/
def State.leccSettles (s : State) (i : BitVec 6) (memType : Option MemType) : Bool :=
  match memType with
  | none => true
  | some m => decide (m = memTypeOf (LlcWord.ofBits (s.llcControl i)).lecc)

/-- Whether an access is cached in the LLC: the LLC control where rules R151, R164 and R165 state one, free elsewhere. -/
def State.labelLlc (s : State) (i : BitVec 6) (a n : Nat) (memType : Option MemType) : Bool :=
  ((if indexDefined i && s.leccSettles i memType then agreed (llcCaches (s.llcControl i)) a n else none).getD
    (Config.freeLlcCached s.draws))

/-- The index whose controls the eviction of a dirty L3 line uses: 63, but for the lines of index 61 (rule R162). -/
def evictionIndex (i : Option (BitVec 6)) : BitVec 6 := if i = some 61#6 then 61#6 else 63#6

/-- How the line an access leaves in the L3 is evicted: a written one through the controls of `evictionIndex`, whatever the
LLC control of the request says (rule R162; log entry 39). -/
def State.eviction (s : State) (kind : Access) (l3 : Bool) (i : Option (BitVec 6)) (a n : Nat) : Option Eviction :=
  if decide (kind = .write) && l3 then
    some
      { index := evictionIndex i
        llc := (agreed (llcCaches (s.llcControl (evictionIndex i))) a n).getD (Config.freeEvictedLlc s.draws) }
  else none

/-- The memory type behind the attributes of a leaf (rule R163). -/
def State.leafType (s : State) (attrs : Option LeafAttrs) : Option MemType := attrs.map (fun t => s.patType (patIndex t))

/-- Whether the L3 caches an access of an object with GTT control only. The page-table bits alone decide (rule R136): a page
of type UC or WC is uncacheable; of a cacheable type the source does not say what the L3 does. A page of the Global GTT has no
type and its caching is unspecified (rule R163; log entry 41). -/
def State.gttOnlyL3 (s : State) (memType : Option MemType) : Bool :=
  match memType with
  | none => Config.freeL3Cached s.draws
  | some .uc => false
  | some .wc => false
  | some .wt => Config.freeL3OfType 2#2
  | some .wb => Config.freeL3OfType 3#2

/-- Whether the LLC caches an access of an object with GTT control only: the memory type of its page decides as a LeCC of the
same encoding does, with no skip control (rules R136, R148, R151); unspecified without a type (rule R163; log entry 41). -/
def State.gttOnlyLlc (s : State) (memType : Option MemType) : Bool :=
  match memType with
  | none => Config.freeLlcCached s.draws
  | some .uc => false
  | some .wc => false
  | some .wt => true
  | some .wb => true

/-- The cache attributes of an access at `pa` (rules R63, R137 to R165). An index the required table does not define makes no
claim (rule R164). An object with GTT control only has no MOCS word: the memory type of its page decides (rule R136), and it is
never cached in the HDC L1, whatever unit it comes through: rule R138 asks for an index, and what holds without one is the
model's choice (log entry 41). Index 63 "is also used by hardware to force L3 uncacheable cycles" (rule R146), and which cycles
is not in the spec: the model has none, every access being labelled by its own index or the type of its page (log entry 43). -/
def State.label (s : State) (wk : Walk) (pa : Nat) (attrs : Option LeafAttrs) : Label :=
  match wk.index with
  | some i =>
    { index := some i
      hdcL1 := hdcL1Cacheable wk.req.client i
      l3 := s.labelL3 i (s.skipAddr wk pa) wk.req.n
      llc := s.labelLlc i (s.skipAddr wk pa) wk.req.n (s.leafType attrs)
      controls := if indexDefined i then some (llcControlsOf s.draws (s.llcControl i)) else none
      attrs := attrs
      memType := s.leafType attrs
      evict := s.eviction wk.req.kind (s.labelL3 i (s.skipAddr wk pa) wk.req.n) (some i) (s.skipAddr wk pa) wk.req.n }
  | none =>
    { index := none
      hdcL1 := false
      l3 := s.gttOnlyL3 (s.leafType attrs)
      llc := s.gttOnlyLlc (s.leafType attrs)
      controls := none
      attrs := attrs
      memType := s.leafType attrs
      evict := s.eviction wk.req.kind (s.gttOnlyL3 (s.leafType attrs)) none (s.skipAddr wk pa) wk.req.n }

/-- The cache attributes of a walker's read of an entry: a Global GTT entry is read as uncacheable (rule R176); the memory
type of a page-table entry is not stated (rule R196); a TR-TT table word in virtual mode carries the attributes of the leaf
of its page (rules R124, R196). The MOCS index of a walker is not stated (rule R130). -/
def State.walkerLabel (s : State) (wk : Walk) : Label :=
  { index := none
    hdcL1 := false
    l3 := decide (wk.level ≠ .ggtt) && Config.freeL3Cached s.draws
    llc := decide (wk.level ≠ .ggtt) && Config.freeLlcCached s.draws
    controls := none
    attrs := wk.tableAttrs
    memType := if wk.level = .ggtt then some .uc else s.leafType wk.tableAttrs
    evict := none }

end Sys2Proof.Machine
end

