-- ==== Sys2Proof/Machine/Ops.lean ====
section
/-!
DEFINITION. The operations the meanings share: raising a fault, completing a request, translating a table address,
starting and continuing the walks, the leaf of the page-table walk, and the register writes
(spec/20_memory.md rule R61, spec/40_trtt.md, spec/43_ppgtt.md, spec/60_exceptions.md).
-/

namespace Sys2Proof.Machine

/-- `T(ctx, a)`: the host physical address of what an entry field addresses, through the second-level translation when
`NESTE = 1`; none where that translation faults (rule R203). The translation maps pages of 4KB below `2^HAW` and keeps the
offset in the page, so an aligned address stays aligned (rule R204, log entry 8). -/
def State.hostPhys (s : State) (c : Nat) (a : Nat) : Option Nat :=
  if (s.ctx c).desc.neste then
    (Config.secondLevel c s.vtdEpoch (a / 4096)).map (fun p => p % (s.memSize / 4096) * 4096 + a % 4096)
  else some a

/-- The request ends and its engine halts; the event is recorded with the request for the retry (rules R211, R214). -/
def State.halt (s : State) (r : Request) (f : Fault) : State :=
  { s with walk := none, halted := ⟨r.engine, r, f⟩ :: s.halted, draws := s.draws + 1 }

/-- TAKING A FAULT, the one operation (rules R210 to R214, R220): in the terminal page faulting mode the run ends with
the event, in fault and halt the engine halts. What makes a fault non-recoverable is not in the source (rule R214): the model
halts on every fault alike, and a non-recoverable one is a fault that gets an unsuccessful response (log entry 9). -/
def State.raiseFault (s : State) (r : Request) (f : Fault) : Res :=
  match (s.ctx r.ctx).desc.pfmode with
  | .terminal => .fault f
  | .faultAndHalt => .next (s.halt r f)

/-- The end of a request: the requester receives its completion (rule R61). -/
def State.finish (s : State) (c : Completion) : State :=
  { s with walk := none, results := c :: s.results, draws := s.draws + 1 }

/-- `Complete_Null(req)` (rule R62) and the null-tile counter (rules R21, R120). -/
def State.completeNull (s : State) (r : Request) : State :=
  { s.finish ⟨.engine r.engine, r.ctx, r.kind, r.n, 0, true⟩ with
    nullTileCount := s.nullTileCount + Config.freeNullTick s.draws }

/-- The completion of an access to a tile flagged null or invalid (rules R120 to R122): a tile flagged both is one or
the other; an invalid one makes the interrupt pending (rule R216). -/
def State.completeTile (s : State) (r : Request) (null invalid : Bool) : State :=
  { s.completeNull r with
    invalidTilePending := s.invalidTilePending || (invalid && (!null || Config.freeTileInvalid s.draws)) }

/-- The target access of a request that translates to `pa` (rule R61). -/
def State.accessTarget (s : State) (wk : Walk) (pa : Nat) (attrs : Option LeafAttrs) : Res :=
  if inMemory s.memSize pa wk.req.n then
    match wk.req.kind with
    | .read =>
      .next ((s.noteRead (.engine wk.req.engine) pa wk.req.n (s.visible (.engine wk.req.engine) (some wk.route) pa wk.req.n)
          (some wk.route) (some (s.label wk pa attrs))).finish
        ⟨.engine wk.req.engine, wk.req.ctx, .read, wk.req.n,
          s.visible (.engine wk.req.engine) (some wk.route) pa wk.req.n, false⟩)
    | .write =>
      .next ((s.store (.engine wk.req.engine) pa wk.req.n wk.req.data (some wk.route)
          (some (s.label wk pa attrs))).finish
        ⟨.engine wk.req.engine, wk.req.ctx, .write, wk.req.n, 0, false⟩)
  else .fault (.noSuchAddress pa)

/-- The state with a walk that takes the next step. -/
def State.withWalk (s : State) (wk : Walk) : State := { s with walk := some wk }

/-- The walk reads its next entry at `pa`. Where the second-level translation gave no address, a copy of the entry that a TLB or a
cached PML4 page holds needs none (rules R69, R182, R184); with no such copy the fault is raised. -/
def State.readNext (s : State) (wk : Walk) (pa : Option Nat) (f : Fault) : Res :=
  match pa with
  | some a => .next (s.withWalk { wk with entry := .memory a })
  | none =>
    if (s.copies { wk with entry := .copyOnly f }).isEmpty then s.raiseFault wk.req f
    else .next (s.withWalk { wk with entry := .copyOnly f })

/-- The start of `PPGTT_Walk(ctx, va, kind)`: the PML4 entry is read next (rules R184, R190). -/
def State.startPpgtt (s : State) (wk : Walk) (va : BitVec 48) (dest : Dest) : Res :=
  s.readNext { wk with level := .pml4, va := va, rw := true, dest := dest, tableAttrs := none }
    ((s.hostPhys wk.req.ctx (s.ctx wk.req.ctx).desc.pml4Ptr.toNat).map (fun base => entryAddr .pml4 base va))
    (.pageNotPresent va .pml4)

/-- A page-table step that hands the next table to the next level (rules R184, R185, R187). -/
def State.descend (s : State) (wk : Walk) (l : Level) (table : Nat) (rw : Bool) : Res :=
  s.readNext { wk with level := l, rw := wk.rw && rw }
    ((s.hostPhys wk.req.ctx table).map (fun base => entryAddr l base wk.va)) (.pageNotPresent wk.va (levelStage l))

/-- The table word of a TR-TT step is read next at a host physical address (rule R124). -/
def State.readTable (s : State) (wk : Walk) (t : TrStep) (pa : Option Nat) (attrs : Option LeafAttrs) (f : Fault) : Res :=
  s.readNext { wk with level := t.level, dest := .target, tableAttrs := attrs } pa f

/-- `TRRead(ctx, a, n)` up to the read itself: the table word of step `t` at table address `a` is read next, in GPA
mode directly and in virtual mode after a page-table walk of `a` (rules R124, R131). Where the second-level translation fails
in GPA mode, the fault records the guest physical address `a` of the table word as its address: rule R211 names an address for
`PPGTT_Walk` only, so this is the model's choice (log entry 45). -/
def State.trRead (s : State) (wk : Walk) (t : TrStep) (a : BitVec 48) : Res :=
  if (s.ctx wk.req.ctx).tablesVirtual then
    match trvaHit (s.ctx wk.req.ctx).trvadr a with
    | none => .refused .trvaMask
    | some true => .refused .tableInWindow
    | some false => s.startPpgtt wk a (.table t)
  else if s.memSize ≤ a.toNat then .refused .tablePointerWide
  else s.readTable wk t (s.hostPhys wk.req.ctx a.toNat) none (.pageNotPresent a (levelStage t.level))

/-- The address of the table word of a TR-TT step in a table at `base` (rule R97), 48 bits. -/
def trEntryAddr (t : TrStep) (base va : BitVec 48) : BitVec 48 :=
  BitVec.ofNat 48 (entryAddr t.level base.toNat va)

/-- The start of `TRTT_Walk(ctx, va)` (rules R115, R119). -/
def State.startTrtt (s : State) (wk : Walk) : Res :=
  s.trRead wk .l3 (trEntryAddr .l3 (s.ctx wk.req.ctx).l3ptr wk.trva)

/-- The walk of a request before anything is read. -/
def Request.newWalk (r : Request) (index : Option (BitVec 6)) : Walk :=
  { req := r, index := index, level := .ggtt, entry := .memory 0, va := r.va.extractLsb' 0 48,
    trva := r.va.extractLsb' 0 48, rw := true, dest := .target, tableAttrs := none, used := [] }

/-- The start of `GGTT_Translate(va)` (rule R173). -/
def State.startGgtt (s : State) (wk : Walk) : State :=
  s.withWalk { wk with level := .ggtt, entry := .memory (entryAddr .ggtt s.pgtblCtl.toNat wk.va) }

/-- The TR-TT stage of a per-process request (rules R61, R111 to R113, R127, R250). With `TRTTE[0] = 0`, and for the render
engine and the POSH pipeline with the bypass enabled, the address goes straight to the page table; a request of another
engine in the TR-VA window of a context with TR-TT enabled is refused. -/
def State.trttStage (s : State) (wk : Walk) : Res :=
  if (s.ctx wk.req.ctx).trttEnabled then
    if wk.req.engine = .render ∨ wk.req.engine = .posh then
      if s.bypassDisabled then
        if (s.ctx wk.req.ctx).tablesVirtual || s.params.trttGpaModeAllowed then
          match trvaHit (s.ctx wk.req.ctx).trvadr wk.trva with
          | none => .refused .trvaMask
          | some true => s.startTrtt wk
          | some false => s.startPpgtt wk wk.va .target
        else .refused .gpaModeForbidden
      else s.startPpgtt wk wk.va .target
    else
      match trvaHit (s.ctx wk.req.ctx).trvadr wk.trva with
      | none => .refused .trvaMask
      | some true => .refused .trttEngine
      | some false => s.startPpgtt wk wk.va .target
  else s.startPpgtt wk wk.va .target

/-- The address of a request is in the range of its space (rule R51). -/
def Request.addressOk (r : Request) : Bool :=
  match r.usedSpace with
  | .global => decide (r.va.toNat < 2 ^ Config.gvaBits)
  | .perProcess => decide (r.va.toNat < 2 ^ Config.ppvaBits)

/-- The request stays inside one 4KB block (rule R56). -/
def Request.pageOk (r : Request) : Bool := decide (r.va.toNat % 4096 + r.n ≤ 4096)

/-- `Access(req)` up to the first table read (rule R61). -/
def State.beginAccess (s : State) (r : Request) (index : Option (BitVec 6)) : Res :=
  if r.n = 0 then .refused .emptyRequest
  else if !r.addressOk then .refused .addressRange
  else if !r.pageOk then .refused .crossesPage
  else
    match r.usedSpace with
    | .global =>
      if (s.ctx r.ctx).trttEnabled then .refused .trttInGlobal else .next (s.startGgtt (r.newWalk index))
    | .perProcess =>
      if (s.ctx r.ctx).desc.kind = .legacyPpgtt64 then s.trttStage (r.newWalk index) else .refused .contextMode

/-- The walk that takes the step when its next entry is of level `l`; a word anywhere else has no meaning (rule R80). -/
def State.atLevel (s : State) (l : Level) (k : Walk → Res) : Res :=
  match s.walk with
  | some wk => if wk.level = l then k wk else .refused .outOfPlace
  | none => .refused .outOfPlace

/-- A page-table translation has reached its page, `pa` being the address after the second-level translation: the access of the
request, or the read of the TR-TT table word whose address was translated (rules R61, R124). -/
def State.arrive (s : State) (wk : Walk) (pa : Option Nat) (attrs : LeafAttrs) : Res :=
  match wk.dest, pa with
  | .target, some a => s.accessTarget wk a (some attrs)
  | .target, none => s.raiseFault wk.req (.pageNotPresent wk.va (levelStage wk.level))
  | .table t, p => s.readTable wk t p (some attrs) (.pageNotPresent wk.va (levelStage wk.level))

/-- A null page: the null completion of the request; for a TR-TT table word, refused (rules R124, R195). -/
def State.nullLeaf (s : State) (wk : Walk) : Res :=
  match wk.dest with
  | .target => .next (s.completeNull wk.req)
  | .table _ => .refused .tableNullPage

/-- Whether a leaf refuses the access: a write with R/W = 0 in an entry of its path (rule R194). -/
def Walk.denies (wk : Walk) (rw : Bool) : Bool := decide (wk.accessKind = .write) && !(wk.rw && rw)

/-- `Leaf(ctx, e, s, w)` on a present leaf whose page and offset make `pa` (rule R190). -/
def State.leaf (s : State) (wk : Walk) (pa : BitVec 46) (localMem null rw : Bool) (attrs : LeafAttrs) : Res :=
  if null then
    if wk.denies rw && Config.freeNullWriteFaults s.draws then s.raiseFault wk.req (.writeProtect wk.va)
    else s.nullLeaf wk
  else if wk.denies rw then s.raiseFault wk.req (.writeProtect wk.va)
  else if localMem && s.params.hasLocalMemory then .refused .localMemory
  else s.arrive wk (s.hostPhys wk.req.ctx pa.toNat) attrs

/-- An entry whose present bit is clear (rule R193). -/
def State.notPresent (s : State) (wk : Walk) : Res :=
  s.raiseFault wk.req (.pageNotPresent wk.va (levelStage wk.level))

/-- A TR-TT L3 or L2 entry: flagged, it ends the walk; otherwise the next table is read (rules R115, R116, R119). With dual
context enabled an entry whose bit 47 is set is refused, flagged or not (rule R129, U11). -/
def State.trPointer (s : State) (wk : Walk) (addr : BitVec 36) (null invalid : Bool) (t : TrStep) : Res :=
  if (s.ctx wk.req.ctx).desc.dualContext && addr.getLsbD 35 then .refused .dualContextBit47
  else if null || invalid then .next (s.completeTile wk.req null invalid)
  else s.trRead wk t (trEntryAddr t (trTableBase addr) wk.trva)

/-- The state after a register cycle: the inputs left. -/
def State.cycleDone (s : State) (rest : List Input) : State := { s with agenda := rest }

/-- The six stored bits of each half of `LNCFCMOCSx`; bits 30:22 and 14:6 are never stored and the mask bits store
nothing (rules R23, R24). -/
def lncfWord (upper lower : BitVec 6) : Word32 := fieldAt 32 16 upper ||| fieldAt 32 0 lower

/-- `WriteLNCFCMOCS(x, w)` on the register's value: a set mask bit keeps its half (rule R24 by D13; R254; log entry 20). -/
def lncfWrite (old : Word32) (upperMask : Bool) (upper : L3Half) (lowerMask : Bool) (lower : L3Half) : Word32 :=
  lncfWord (if upperMask then old.extractLsb' 16 6 else upper.bits) (if lowerMask then old.extractLsb' 0 6 else lower.bits)

/-- A `GLOB_MOCS_i` value with its reserved bits 31:19 zero (rule R26). -/
def globKept (w : Word32) : Word32 := w &&& 0x0007FFFF#32

/-- An `LNCFCMOCSx` value with only its stored bits (rule R23). -/
def lncfKept (w : Word32) : Word32 := w &&& 0x003F003F#32

end Sys2Proof.Machine
end

