-- ==== Sys2Proof/Machine/Ggtt.lean ====
section
/-!
DEFINITION. The meaning of a Global GTT entry (spec/42_ggtt.md).
-/

namespace Sys2Proof.Machine

/-- `GGTT_PTE` read by `GGTT_Translate` (rules R173, R174): a present entry gives the page, for reads and writes alike
(rule R178); the Function Number has no effect (rule R177). -/
def execGgttPte (addr : BitVec 34) (_function : BitVec 3) (p : Bool) (s : State) : Res :=
  s.atLevel .ggtt fun wk =>
    if p then s.accessTarget wk (page4k addr wk.va).toNat none
    else s.raiseFault wk.req (.ggttNotPresent (wk.va.extractLsb' 0 32))

end Sys2Proof.Machine
end

