-- ==== Sys2Proof/Machine/Mocs.lean ====
section
/-!
DEFINITION. The meaning of the MOCS word of a request (spec/41_mocs.md).
-/

namespace Sys2Proof.Machine

/-- `MEMORY_OBJECT_CONTROL_STATE` (rules R137, R147, R153): the word names the index whose controls label the request;
bit 0 is reserved and ignored. A `GLOB_MOCS` entry with a reserved page faulting mode is refused (U6); otherwise the
request begins (rule R61). -/
def execMocs (index : BitVec 6) (_reserved : Bool) (s : State) : Res :=
  match s.presented with
  | some (r, rest) =>
    if (LlcWord.ofBits (s.llcControl index)).pfm = 0#3 then (s.cycleDone rest).beginAccess r (some index)
    else .refused .reservedPfm
  | none => .refused .outOfPlace

end Sys2Proof.Machine
end

