-- ==== Sys2Proof/Machine/Ppgtt.lean ====
section
/-!
DEFINITION. The meanings of the entries of the Per-Process GTT (spec/43_ppgtt.md). P is tested before every other bit
(rule R193).
-/

namespace Sys2Proof.Machine

/-- `PML4E`, the PML4 step (rule R184). -/
def execPml4e (addr : BitVec 34) (rw p : Bool) (s : State) : Res :=
  s.atLevel .pml4 fun wk => if p then s.descend wk .pdp (tableBase addr) rw else s.notPresent wk

/-- `PDPE_PD`, the PDP step (rule R185). -/
def execPdpePd (addr : BitVec 34) (rw p : Bool) (s : State) : Res :=
  s.atLevel .pdp fun wk => if p then s.descend wk .pd (tableBase addr) rw else s.notPresent wk

/-- `PDPE_1GB`, the 1GB leaf (rule R186); its PAT bit is free (rules R163, R190). -/
def execPdpe1gb (addr : BitVec 16) (lm null pcd pwt rw p : Bool) (s : State) : Res :=
  s.atLevel .pdp fun wk =>
    if p then s.leaf wk (page1g addr wk.va) lm null rw ⟨pwt, pcd, Config.freeLargePagePat s.draws⟩ else s.notPresent wk

/-- `PDE_PT`, the PD step; bit 11 selects the 64KB mode of the page table (rules R187, R191). -/
def execPdePt (addr : BitVec 34) (m64 rw p : Bool) (s : State) : Res :=
  s.atLevel .pd fun wk =>
    if p then s.descend wk (if m64 then .pt64k else .pt4k) (tableBase addr) rw else s.notPresent wk

/-- `PDE_2MB`, the 2MB leaf (rule R188); its PAT bit is free (rules R163, R190). -/
def execPde2mb (addr : BitVec 25) (lm null pcd pwt rw p : Bool) (s : State) : Res :=
  s.atLevel .pd fun wk =>
    if p then s.leaf wk (page2m addr wk.va) lm null rw ⟨pwt, pcd, Config.freeLargePagePat s.draws⟩ else s.notPresent wk

/-- `PTE_64KB`, the PT step with 64KB pages (rule R191). -/
def execPte64kb (addr : BitVec 30) (lm null pat pcd pwt rw p : Bool) (s : State) : Res :=
  s.atLevel .pt64k fun wk =>
    if p then s.leaf wk (page64k addr wk.va) lm null rw ⟨pwt, pcd, pat⟩ else s.notPresent wk

/-- `PTE_4KB`, the PT step with 4KB pages (rule R189); the format has no Local Memory bit (rule R197). -/
def execPte4kb (addr : BitVec 34) (null pat pcd pwt rw p : Bool) (s : State) : Res :=
  s.atLevel .pt4k fun wk =>
    if p then s.leaf wk (page4k addr wk.va) false null rw ⟨pwt, pcd, pat⟩ else s.notPresent wk

end Sys2Proof.Machine
end

