-- ==== Sys2Proof/Machine/Registers.lean ====
section
/-!
DEFINITION. The meanings of the words written to the MMIO registers (spec/10_state.md rules R15 to R26). A reserved
read-only bit is not stored (rule R14); a register cycle for another register gives the word no meaning (rule R80).
-/

namespace Sys2Proof.Machine

/-- `TRTT_L3PTR` written: bits 47:16 are stored (rule R15), by one cycle of 64 bits. How a cycle of one DWord would reach the
register is not in the source; there is none in the model (rule R13; log entry 42). -/
def execTrttL3ptr (ptr : BitVec 32) (s : State) : Res :=
  match s.regCycle with
  | some (.l3ptr c, rest) =>
    .next ((s.setCtx c { s.ctx c with trttL3ptr := fieldAt 64 16 ptr }).cycleDone rest)
  | _ => .refused .outOfPlace

/-- `TRTT_NULL` written (rule R16). -/
def execTrttNull (value : BitVec 32) (s : State) : Res :=
  match s.regCycle with
  | some (.null c, rest) => .next ((s.setCtx c { s.ctx c with trttNull := value }).cycleDone rest)
  | _ => .refused .outOfPlace

/-- `TRTT_INVALID` written (rule R17). -/
def execTrttInvalid (value : BitVec 32) (s : State) : Res :=
  match s.regCycle with
  | some (.invalid c, rest) => .next ((s.setCtx c { s.ctx c with trttInvalid := value }).cycleDone rest)
  | _ => .refused .outOfPlace

/-- `TRVADR` written: bits 7:0 are stored (rule R18). -/
def execTrvadr (mask data : BitVec 4) (s : State) : Res :=
  match s.regCycle with
  | some (.trvadr c, rest) => .next ((s.setCtx c { s.ctx c with trvadr := fieldAt 32 4 mask ||| fieldAt 32 0 data }).cycleDone rest)
  | _ => .refused .outOfPlace

/-- `TRTTE` written: bits 1:0 are stored (rule R19). -/
def execTrtte (location enable : Bool) (s : State) : Res :=
  match s.regCycle with
  | some (.trtte c, rest) =>
    .next ((s.setCtx c
      { s.ctx c with trtte := flagAt 32 1 location ||| flagAt 32 0 enable }).cycleDone rest)
  | _ => .refused .outOfPlace

/-- `TR_BYPASS` written: bit 0 is stored; of the other bits the source says nothing (rule R20). The access type is not in the
source: the model takes bit 0 as R/W, so a write of 0 enables the bypass again (log entry 17). Disabling the bypass after render
power gating is enabled is refused (rule R242). -/
def execTrBypass (_undescribed : BitVec 31) (disable : Bool) (s : State) : Res :=
  match s.regCycle with
  | some (.bypass, rest) =>
    if disable && s.renderPowerGating && !s.bypassDisabled then .refused .bypassAfterGating
    else .next ({ s with trBypass := flagAt 32 0 disable }.cycleDone rest)
  | _ => .refused .outOfPlace

/-- `LNCFCMOCSx` written: `WriteLNCFCMOCS` (rule R24). -/
def execLncfcmocs (upperMask : Bool) (upper : L3Half) (lowerMask : Bool) (lower : L3Half) (s : State) : Res :=
  match s.regCycle with
  | some (.lncf x, rest) =>
    .next ({ s with lncf := s.lncf.set x (lncfWrite s.lncf[x] upperMask upper lowerMask lower) }.cycleDone rest)
  | _ => .refused .outOfPlace

/-- `GLOB_MOCS_i` written: bits 18:0 are stored (rule R26). -/
def execGlobMocs (fields : LlcWord) (s : State) : Res :=
  match s.regCycle with
  | some (.glob i, rest) => .next ({ s with glob := s.glob.set i fields.bits }.cycleDone rest)
  | _ => .refused .outOfPlace

end Sys2Proof.Machine
end

