-- ==== Sys2Proof/Machine/Trtt.lean ====
section
/-!
DEFINITION. The meanings of the entries of the Tiled Resources Translation Table (spec/40_trtt.md).
-/

namespace Sys2Proof.Machine

/-- `TRTT_L3E`, the L3 step's entry: flagged, or the pointer to the L2 table (rules R115, R116, R119). -/
def execTrttL3e (addr : BitVec 36) (null invalid : Bool) (s : State) : Res :=
  s.atLevel .trL3 fun wk => s.trPointer wk addr null invalid .l2

/-- `TRTT_L2E`, the L2 step's entry: flagged, or the pointer to the L1 table (rules R116, R117, R119). -/
def execTrttL2e (addr : BitVec 36) (null invalid : Bool) (s : State) : Res :=
  s.atLevel .trL2 fun wk => s.trPointer wk addr null invalid .l1

/-- `TRTT_L1E`, the L1 step's entry: compared whole with the two detection registers (rule R123); otherwise the new
address goes to the page-table walk, and is not examined for a TR-VA hit again (rules R61, R118, R119). With dual context
enabled a word whose bit 31 is set is refused, whatever it equals (rule R129, U11). -/
def execTrttL1e (addr : BitVec 32) (s : State) : Res :=
  s.atLevel .trL1 fun wk =>
    if (s.ctx wk.req.ctx).desc.dualContext && addr.getLsbD 31 then .refused .dualContextBit47
    else if addr = (s.ctx wk.req.ctx).trttNull ∨ addr = (s.ctx wk.req.ctx).trttInvalid then
      .next (s.completeTile wk.req (decide (addr = (s.ctx wk.req.ctx).trttNull))
        (decide (addr = (s.ctx wk.req.ctx).trttInvalid)))
    else s.startPpgtt wk (tileAddr addr wk.trva) .target

end Sys2Proof.Machine
end

