-- ==== Sys2Proof/Machine/Dispatch.lean ====
section
/-!
DEFINITION. The dispatch: one arm for each row of spec/opcode_table.json.
-/

namespace Sys2Proof.Machine

/-- What a decoded word does in a state. -/
def exec (i : Instr) (s : State) : Host.Outcome State Fault Refusal :=
  match i with
  | .ggttPte addr function p => Sys2Proof.Machine.execGgttPte addr function p s
  | .pml4e addr rw p => Sys2Proof.Machine.execPml4e addr rw p s
  | .pdpePd addr rw p => Sys2Proof.Machine.execPdpePd addr rw p s
  | .pdpe1gb addr lm null pcd pwt rw p => Sys2Proof.Machine.execPdpe1gb addr lm null pcd pwt rw p s
  | .pdePt addr m64 rw p => Sys2Proof.Machine.execPdePt addr m64 rw p s
  | .pde2mb addr lm null pcd pwt rw p => Sys2Proof.Machine.execPde2mb addr lm null pcd pwt rw p s
  | .pte64kb addr lm null pat pcd pwt rw p => Sys2Proof.Machine.execPte64kb addr lm null pat pcd pwt rw p s
  | .pte4kb addr null pat pcd pwt rw p => Sys2Proof.Machine.execPte4kb addr null pat pcd pwt rw p s
  | .trttL3e addr null invalid => Sys2Proof.Machine.execTrttL3e addr null invalid s
  | .trttL2e addr null invalid => Sys2Proof.Machine.execTrttL2e addr null invalid s
  | .trttL1e addr => Sys2Proof.Machine.execTrttL1e addr s
  | .mocs index reserved => Sys2Proof.Machine.execMocs index reserved s
  | .trttL3ptr ptr => Sys2Proof.Machine.execTrttL3ptr ptr s
  | .trttNull value => Sys2Proof.Machine.execTrttNull value s
  | .trttInvalid value => Sys2Proof.Machine.execTrttInvalid value s
  | .trvadr mask data => Sys2Proof.Machine.execTrvadr mask data s
  | .trtte location enable => Sys2Proof.Machine.execTrtte location enable s
  | .trBypass undescribed disable => Sys2Proof.Machine.execTrBypass undescribed disable s
  | .lncfcmocs upperMask upper lowerMask lower => Sys2Proof.Machine.execLncfcmocs upperMask upper lowerMask lower s
  | .globMocs fields => Sys2Proof.Machine.execGlobMocs fields s

end Sys2Proof.Machine
end

