-- ==== Sys2Proof/Machine/Environment.lean ====
section
/-!
DEFINITION. The inputs that carry no word of the opcode table: register reads, writes of the registers the spec gives no
layout, table and memory accesses of the host, fault responses, resets and power states (spec/10_state.md,
spec/42_ggtt.md rule R175, spec/60_exceptions.md, spec/70_reset_and_hazards.md). Each acts on the state with the input
already taken from the agenda.
-/

namespace Sys2Proof.Machine

/-- What a read of a register returns (rules R13 to R26): reserved bits 0; the write-only mask bits of `LNCFCMOCSx` and
the undescribed bits of `TR_BYPASS` free (decision D11, rule R20). Bit 0 of `TR_BYPASS`, whose access type is not in the source,
is taken as R/W: a read returns the stored bit (log entry 17). -/
def State.readRegister (s : State) (t : RegTarget) : Nat :=
  match t with
  | .l3ptr c => (s.ctx c).trttL3ptr.toNat
  | .null c => (s.ctx c).trttNull.toNat
  | .invalid c => (s.ctx c).trttInvalid.toNat
  | .trvadr c => (s.ctx c).trvadr.toNat
  | .trtte c => (s.ctx c).trtte.toNat
  | .bypass => (fieldAt 32 1 (Config.freeBypassBits s.draws) ||| s.trBypass &&& 1#32).toNat
  | .lncf x =>
    (flagAt 32 31 ((Config.freeMaskBits s.draws).getLsbD 1) ||| flagAt 32 15 ((Config.freeMaskBits s.draws).getLsbD 0) |||
      s.lncf[x] &&& 0x7FFF7FFF#32).toNat
  | .glob i => s.glob[i].toNat
  | .pat i => s.pat[i].toNat
  | .pgtblCtl => s.pgtblCtl.toNat
  | .pgtblCtl2 => s.pgtblCtl2.toNat
  | .nullTileCount => s.nullTileCount

/-- The host receives a value. -/
def State.hostResult (s : State) (n data : Nat) : State :=
  { s with results := ⟨.host, 0, .read, n, data, false⟩ :: s.results, draws := s.draws + 1 }

/-- The size in bytes of a register read (rule R13); the counter's width is not in the source, so 0 stands for it. -/
def RegTarget.readSize (t : RegTarget) : Nat :=
  match t with
  | .l3ptr _ => 8
  | .null _ => 4
  | .invalid _ => 4
  | .trvadr _ => 4
  | .trtte _ => 4
  | .bypass => 4
  | .lncf _ => 4
  | .glob _ => 4
  | .pat _ => 4
  | .pgtblCtl => 8
  | .pgtblCtl2 => 8
  | .nullTileCount => 0

/-- A table base the spec admits: 4KB aligned, and the whole table of `n` bytes below `2^HAW` (rules R28, R181, D29). -/
def State.baseOk (s : State) (base n : Nat) : Bool := decide (base % 4096 = 0) && inMemory s.memSize base n

/-- A register write to a register of which the spec gives no layout: `GGTT_BASE` through `PGTBL_CTL`, `PGTBL_CTL2`, a
PAT entry (rules R27, R28). The null-tile counter is not described as writable (rule R21). -/
def State.writeOther (s : State) (t : RegTarget) (w : Word64) : Res :=
  match t with
  | .pgtblCtl =>
    if s.baseOk w.toNat 0x800000 then .next { s with pgtblCtl := w } else .refused .badTableBase
  | .pgtblCtl2 => .next { s with pgtblCtl2 := w }
  | .pat i => .next { s with pat := s.pat.set i (w.extractLsb' 0 2) }
  | .nullTileCount => .refused .unknownRegister
  | .l3ptr _ => .refused .outOfPlace
  | .null _ => .refused .outOfPlace
  | .invalid _ => .refused .outOfPlace
  | .trvadr _ => .refused .outOfPlace
  | .trtte _ => .refused .outOfPlace
  | .bypass => .refused .outOfPlace
  | .lncf _ => .refused .outOfPlace
  | .glob _ => .refused .outOfPlace

/-- Whether a byte of a range lies in the 8MB of the Global GTT (rules R30, R170). A store of no bytes touches none: the spec says
nothing of one, and the model lets it run (log entry 23). -/
def State.meetsGgtt (s : State) (pa n : Nat) : Bool :=
  decide (1 ≤ n) && decide (pa < s.pgtblCtl.toNat + 0x800000) && decide (s.pgtblCtl.toNat < pa + n)

/-- `GGTT_Update(idx, v)` (rule R175): the entry is written in one step, through either path. -/
def State.ggttUpdate (s : State) (idx : BitVec 20) (v : Word64) : Res :=
  if inMemory s.memSize (s.pgtblCtl.toNat + idx.toNat * 8) 8 then
    .next (s.store .host (s.pgtblCtl.toNat + idx.toNat * 8) 8 v.toNat none none)
  else .fault (.noSuchAddress (s.pgtblCtl.toNat + idx.toNat * 8))

/-- A store of the host to physical memory (rule R30); into the memory behind the Global GTT it is refused (rule
R252). -/
def State.hostStore (s : State) (pa n data : Nat) : Res :=
  if inMemory s.memSize pa n then
    if s.meetsGgtt pa n then .refused .ggttBypass else .next (s.store .host pa n data none none)
  else .fault (.noSuchAddress pa)

/-- A load of the host from physical memory (rules R30, R65). -/
def State.hostLoad (s : State) (pa n : Nat) : Res :=
  if inMemory s.memSize pa n then
    .next ((s.noteRead .host pa n (s.visible .host none pa n) none none).hostResult n (s.visible .host none pa n))
  else .fault (.noSuchAddress pa)

/-- The host sets a context's descriptor (rules R29, R181, R238). -/
def State.describe (s : State) (c : Nat) (d : Descriptor) : Res :=
  if s.baseOk d.pml4Ptr.toNat 4096 then .next (s.setCtx c { s.ctx c with desc := d }) else .refused .badTableBase

/-- A successful fault response: the halted request is retried whole, before any other input, and the engine runs again
(rules R214, R221). What the host repaired may include the second-level tables (log entry 11). -/
def State.retry (s : State) (h : Halted) (others : List Halted) : State :=
  { s with
    halted := others
    agenda := .request { h.req with retried := true } :: s.agenda
    vtdEpoch := s.vtdEpoch + 1 }

/-- The fault response (rules R214, R215, R221). Successful: the whole access is retried from the start. Unsuccessful: the
cycle becomes an invalid cycle, beyond which the model does not go. -/
def State.respond (s : State) (e : Engine) (success : Bool) : Res :=
  match takeFirst (fun h => decide (h.engine = e)) s.halted with
  | none => .refused .noFaultOutstanding
  | some (h, others) =>
    if success then .next (s.retry h others) else .fault (.invalidCycle e)

/-- A device reset: Gfx reset or FLR (rules R236, R237). The registers of rule R32 take their defaults, the two MOCS tables
those of log entry 21. Free are memory, the base registers, the descriptors, the PAT, the counter, the pending flag, the power
gating flag (rule R229) and all hidden state: what the TLBs and TR TLBs hold, and with them (at the level `pml4`) what the
cached PML4 pages hold; a page the context demands later is noted anew. No request is in flight and no engine is halted. The
inputs, the schedule and the completions already given are the outside world's and stay (log entry 5). -/
def State.deviceReset (s : State) : State :=
  { s with
    mem := []
    resetEpoch := s.resetEpoch + 1
    pgtblCtl := fieldAt 64 12 (Config.freeGgttPage s.draws)
    pgtblCtl2 := Config.freePgtblCtl2 s.draws
    trBypass := State.reset.trBypass
    lncf := State.reset.lncf
    glob := State.reset.glob
    pat := Vector.ofFn (fun i : Fin 4 => Config.freePat s.draws i.val)
    ctxs := []
    nullTileCount := Config.freeCounter s.draws
    invalidTilePending := Config.freePending s.draws
    renderPowerGating := Config.freeGating s.draws
    tlb := Config.freeTlb s.draws
    pml4Roots := []
    halted := []
    walk := none
    waiting := []
    vtdEpoch := s.vtdEpoch + 1
    draws := s.draws + 1 }

/-- The five TR-TT registers of a context with free values in their stored bits. -/
def Context.trFree (k : Context) (draw : Nat) : Context :=
  { k with
    trttL3ptr := Config.freeTrReg draw 0 &&& 0x0000FFFFFFFF0000#64
    trttNull := (Config.freeTrReg draw 1).setWidth 32
    trttInvalid := (Config.freeTrReg draw 2).setWidth 32
    trvadr := (Config.freeTrReg draw 3).setWidth 32 &&& 0x000000FF#32
    trtte := (Config.freeTrReg draw 4).setWidth 32 &&& 0x00000003#32 }

/-- A render reset (rule R236): `LNCFCMOCSx` and the TR-TT registers of the render engine's context are free; the rest is
left unchanged, the requests in flight among it, which then fall under rule R68 (log entry 13). -/
def State.renderReset (s : State) (c : Nat) : State :=
  { s.setCtx c ((s.ctx c).trFree s.draws) with
    lncf := Vector.ofFn (fun x : Fin 32 => lncfKept (Config.freeLncf s.draws x.val))
    draws := s.draws + 1 }

/-- RC6 entry and exit (rules R229, R241): where nothing restored them, both MOCS tables are free. What other state survives
RC6 is not in the source: the model keeps all of it, which is its choice (log entry 13). Nor is what wakes the GPU (rule R229): the
model makes entry and exit one step, so no request and no host cycle comes between them, which is its choice too (log entry 46). -/
def State.rc6 (s : State) (restored : Bool) : State :=
  if restored then s
  else
    { s with
      lncf := Vector.ofFn (fun x : Fin 32 => lncfKept (Config.freeLncf s.draws x.val))
      glob := Vector.ofFn (fun i : Fin 64 => globKept (Config.freeGlob s.draws i.val))
      draws := s.draws + 1 }

/-- Render power gating is enabled (rules R229, R242). It loses no state, and nothing but a device reset ends it: both are the
model's choice, the source naming neither (log entry 25). -/
def State.gatePower (s : State) : State := { s with renderPowerGating := true }

/-- An input that carries no word of the table. A request or a register write with a word never comes here. -/
def State.environment (s : State) (i : Input) : Res :=
  match i with
  | .request _ => .refused .outOfPlace
  | .regWrite a w =>
    match a.resolve with
    | some t => s.writeOther t w
    | none => .refused .unknownRegister
  | .regRead a =>
    match a.resolve with
    | some t => .next (s.hostResult t.readSize (s.readRegister t))
    | none => .refused .unknownRegister
  | .ggttUpdate _ idx v => s.ggttUpdate idx v
  | .hostWrite pa n data => s.hostStore pa n data
  | .hostRead pa n => s.hostLoad pa n
  | .describe c d => s.describe c d
  | .faultResponse e success => s.respond e success
  | .deviceReset => .next s.deviceReset
  | .renderReset c => .next (s.renderReset c)
  | .rc6 restored => .next (s.rc6 restored)
  | .renderPowerGating => .next s.gatePower

end Sys2Proof.Machine
end

