-- ==== Sys2Proof/Machine/Fetch.lean ====
section
/-!
DEFINITION. Where the next word comes from: the entry a walker uses, from memory, a TLB or a cached PML4 page
(spec/10_state.md rule R31, spec/20_memory.md rules R57, R68, R69, spec/43_ppgtt.md rule R182), the MOCS word of the
request presented, or the word of a register write.
-/

namespace Sys2Proof.Machine

/-- The words the walk may use for its next entry: the one in memory, where it has an address, and the copies. -/
def State.candidates (s : State) (wk : Walk) : List Word64 :=
  match wk.entry with
  | .memory a => s.memEntry wk.level a :: s.copies wk
  | .copyOnly _ => s.copies wk

/-- Which of them the walk uses, 0 being memory, or the fault where the entry has no address: the choice is free (rule R69,
decision D21). -/
def State.choice (s : State) (wk : Walk) : Nat := Config.freeStale s.draws % ((s.copies wk).length + 1)

/-- Whether the walk reads its entry from memory, rather than taking a copy (rules R182, R190). -/
def State.fromMemory (s : State) (wk : Walk) : Bool := (s.copies wk).isEmpty || decide (s.choice wk = 0)

/-- The copies that differ from the entry in memory at `a`. -/
def State.staleWords (s : State) (wk : Walk) (a : Nat) : List Word64 :=
  (s.copies wk).filter (fun w => w ≠ s.memEntry wk.level a)

/-- The entry the walk uses where it lies at `a`: the one in memory, unless a copy differs; then the one chosen (rule R69,
decision D21). -/
def State.entryWord (s : State) (wk : Walk) (a : Nat) : Word64 :=
  if (s.staleWords wk a).isEmpty then s.memEntry wk.level a
  else (s.memEntry wk.level a :: s.copies wk).getD (s.choice wk) (s.memEntry wk.level a)

/-- The copy the walk uses where the entry has no address; none where the fault is raised instead. -/
def State.heldWord (s : State) (wk : Walk) : Option Word64 :=
  if s.choice wk = 0 then none else (s.copies wk)[s.choice wk - 1]?

/-- The TLBs after the walk has used an entry, at an address or without one. Nothing takes an entry out again (rule R69). -/
def State.tlbAfter (s : State) (wk : Walk) (w : Word64) (place : Option Nat) : List TlbEntry :=
  if s.tlb.contains ⟨wk.key, w, place⟩ then s.tlb else ⟨wk.key, w, place⟩ :: s.tlb

/-- The PML4 page an entry of the PML4 level at `a` stands in. -/
def Walk.pml4Base (wk : Walk) (a : Nat) : Nat := a - levelIndex .pml4 wk.va * 8

/-- The cached PML4 pages after the walk has used the entry at `a`: the context's first demand of a page is noted (rule
R182). -/
def State.pml4After (s : State) (wk : Walk) (a : Nat) : List Pml4Root :=
  if wk.level = .pml4 && !s.pml4Roots.any (fun p => decide (p.ctx = wk.req.ctx) && decide (p.base = wk.pml4Base a)) then
    { ctx := wk.req.ctx, base := wk.pml4Base a, since := s.history.length } :: s.pml4Roots
  else s.pml4Roots

/-- The walker that reads the entries of a level (rule R10). -/
def walkerOf (l : Level) : Agent := if levelIsTr l then .trWalker else .pageWalker

/-- The walker's read of the entry at `a`, as the history records it (rules R57, R65). -/
def State.entryRead (s : State) (wk : Walk) (a : Nat) : MemEvent :=
  { agent := walkerOf wk.level, kind := .read, pa := a, n := levelSize wk.level, data := (s.entryWord wk a).toNat,
    old := 0, route := none, label := some (s.walkerLabel wk) }

/-- The walk with the entry at `a` among those it has used. -/
def Walk.noted (wk : Walk) (a : Nat) : Walk := { wk with used := (wk.level, a) :: wk.used }

/-- The state after the walk has its entry, which lies at `a`: a read of memory is in the history, the TLBs and the cached PML4
pages are brought up to date, and the walk has the entry among those it has used. -/
def State.fetched (s : State) (wk : Walk) (a : Nat) : State :=
  { s with
    walk := some (wk.noted a)
    tlb := s.tlbAfter wk (s.entryWord wk a) (some a)
    pml4Roots := s.pml4After wk a
    history := if s.fromMemory wk then s.entryRead wk a :: s.history else s.history
    draws := s.draws + 1 }

/-- The state after the walk has taken a copy of an entry that has no address: a TLB holds it, and no memory is read. -/
def State.tookCopy (s : State) (wk : Walk) (w : Word64) : State :=
  { s with tlb := s.tlbAfter wk w none, draws := s.draws + 1 }

/-- What the machine does next. -/
inductive Act where
  /-- Nothing is presented. -/
  | idle
  /-- A word stands in a slot; it is decoded and run in the state given. -/
  | word (sl : Slot) (w : Word64) (s : State)
  /-- A request of an object with no MOCS word begins. -/
  | begin (r : Request) (s : State)
  /-- An input that carries no word of the table. -/
  | input (i : Input) (s : State)
  /-- A register write to no register the spec describes. -/
  | noRegister
  /-- The entry to be read lies outside memory. -/
  | outside (pa : Nat)
  /-- The entry has no address and no copy of it is taken. -/
  | lost (r : Request) (f : Fault)
  deriving DecidableEq, Repr

/-- The act for an input presented while no walk takes the step. -/
def State.inputAct (s : State) (i : Input) (rest : List Input) : Act :=
  match i with
  | .request r =>
    match r.mocsWord with
    | some m => .word .mocs (m.setWidth 64) s
    | none => .begin r (s.cycleDone rest)
  | .regWrite a w =>
    match a.resolve with
    | none => .noRegister
    | some t =>
      match t.format with
      | some f => .word (.register f) w s
      | none => .input (.regWrite a w) (s.cycleDone rest)
  | .regRead a => .input (.regRead a) (s.cycleDone rest)
  | .ggttUpdate p idx v => .input (.ggttUpdate p idx v) (s.cycleDone rest)
  | .hostWrite pa n data => .input (.hostWrite pa n data) (s.cycleDone rest)
  | .hostRead pa n => .input (.hostRead pa n) (s.cycleDone rest)
  | .describe c d => .input (.describe c d) (s.cycleDone rest)
  | .faultResponse e ok => .input (.faultResponse e ok) (s.cycleDone rest)
  | .deviceReset => .input .deviceReset (s.cycleDone rest)
  | .renderReset c => .input (.renderReset c) (s.cycleDone rest)
  | .rc6 restored => .input (.rc6 restored) (s.cycleDone rest)
  | .renderPowerGating => .input .renderPowerGating (s.cycleDone rest)

/-- The act of a walk: it gets its next entry. -/
def State.walkAct (s : State) (wk : Walk) : Act :=
  match wk.entry with
  | .memory a =>
    if inMemory s.memSize a (levelSize wk.level) then .word (.entry wk.level) (s.entryWord wk a) (s.fetched wk a)
    else .outside a
  | .copyOnly f =>
    match s.heldWord wk with
    | some w => .word (.entry wk.level) w (s.tookCopy wk w)
    | none => .lost wk.req f

/-- The next act: the walk gets its entry; with no walk, the next input is taken. -/
def State.nextAct (s : State) : Act :=
  match s.walk with
  | some wk => s.walkAct wk
  | none =>
    match s.nextInput with
    | some (i, rest) => s.inputAct i rest
    | none => .idle

end Sys2Proof.Machine
end

