-- ==== Sys2Proof/Machine/Turns.lean ====
section
/-!
DEFINITION. Whose turn it is: several requests may be in flight at once, one for each engine, and each step belongs to one
of them or to the outside world (spec/10_state.md rule R10, spec/60_exceptions.md rule R227; log entry 2). The order is the
plain data `schedule`; with none given, a request runs to its end before the next one goes on.
-/

namespace Sys2Proof.Machine

/-- The requests in flight: the one that takes the step and those that wait. -/
def State.inFlight (s : State) : List Walk := s.walk.toList ++ s.waiting

/-- The walk put aside: the next step takes an input. -/
def State.parked (s : State) : State := { s with walk := none, waiting := s.inFlight }

/-- The waiting walk of an engine goes on, and the walk that took the last step waits; nothing changes where no walk of the
engine waits. -/
def State.switchTo (s : State) (e : Engine) : State :=
  match takeFirst (fun wk => decide (wk.req.engine = e)) s.waiting with
  | some (wk, others) => { s with walk := some wk, waiting := s.walk.toList ++ others }
  | none => s

/-- With no walk taking the step, the first waiting walk goes on. -/
def State.resumed (s : State) : State :=
  match s.walk, s.waiting with
  | none, wk :: others => { s with walk := some wk, waiting := others }
  | _, _ => s

/-- The state whose walk, or whose next input, the step is for. -/
def State.turned (s : State) : State :=
  match s.schedule with
  | [] => s.resumed
  | .outside :: later => { s with schedule := later }.parked
  | .engine e :: later => { s with schedule := later }.switchTo e

end Sys2Proof.Machine
end

