-- ==== Sys2Proof/Machine/Run.lean ====
section
/-!
DEFINITION. One step of the machine: the next act carried out (spec/20_memory.md rule R61), the entries a request consults
and the check that they do not change under it (rule R68), and the placing of a bare word where the next step reads it.
-/

namespace Sys2Proof.Machine

/-- A word decoded in its slot and run: every word has a meaning (rules R98, R100). Of a register write the bits the register
has are the word; the value a cycle presents above them is dropped (rule R13; log entry 42). -/
def runWord (sl : Slot) (w : Word64) (s : State) : Res := exec (decodeWord s.params.haw sl w) s

/-- An act carried out: the machine idles when nothing is presented. -/
def runAct (s : State) (a : Act) : Res :=
  match a with
  | .idle => .next s
  | .word sl w s' => runWord sl w s'
  | .begin r s' => s'.beginAccess r none
  | .input i s' => s'.environment i
  | .noRegister => .refused .unknownRegister
  | .outside pa => .fault (.noSuchAddress pa)
  | .lost r f => s.raiseFault r f

/-- The next act carried out. -/
def runStep (s : State) : Res := runAct s s.nextAct

/-- The walk after an entry word, none where the request ends. -/
def State.walkAfter (s : State) (wk : Walk) (w : Word64) : Option Walk :=
  match runWord (.entry wk.level) w (s.withWalk wk) with
  | .next t => t.walk
  | .fault _ => none
  | .refused _ => none

/-- The entry a walk gets next, with its level, where it has an address. -/
def Walk.entryAt (wk : Walk) : List (Level × Nat) :=
  match wk.entry with
  | .memory a => [(wk.level, a)]
  | .copyOnly _ => []

/-- The entries a walk can consult from here on, each with its level: through the entries in memory and through every copy of
them. The number bounds the length of the walk. -/
def State.consultsFrom (s : State) : Nat → Walk → List (Level × Nat)
  | 0, _ => []
  | n + 1, wk =>
    wk.entryAt ++
      (s.candidates wk).flatMap (fun w =>
        match s.walkAfter wk w with
        | some wk' => s.consultsFrom n wk'
        | none => [])

/-- The number of entries of the longest walk: three TR-TT tables in the virtual address space, each found by a page-table walk
of four, and the walk of the tile's address. -/
abbrev longestWalk : Nat := 19

/-- The entries a request can consult from its start (rule R68). -/
def State.consults (s : State) (r : Request) (index : Option (BitVec 6)) : List (Level × Nat) :=
  match { s with walk := none }.beginAccess r index with
  | .next t =>
    match t.walk with
    | some wk => s.consultsFrom longestWalk wk
    | none => []
  | .fault _ => []
  | .refused _ => []

/-- The TR-TT registers a per-process request consults are the same in two states, register by register as the walk comes to
them (rules R111 to R113, R119, R127): `TRTTE[0]`; with TR-TT enabled, of the engines it serves, the bypass, and with the bypass
disabled `TRTTE[1]` and `TRVADR`; of another engine `TRVADR`; on a hit the L3 pointer, the detection values and
`DUAL_CONTEXT`. -/
def State.sameTrtt (s t : State) (r : Request) : Bool :=
  decide ((t.ctx r.ctx).trttEnabled = (s.ctx r.ctx).trttEnabled) &&
    (!(s.ctx r.ctx).trttEnabled ||
      if r.engine = .render ∨ r.engine = .posh then
        decide (t.bypassDisabled = s.bypassDisabled) &&
          (!s.bypassDisabled ||
            decide ((t.ctx r.ctx).tablesVirtual = (s.ctx r.ctx).tablesVirtual) &&
              decide ((t.ctx r.ctx).trvadr = (s.ctx r.ctx).trvadr) &&
              (decide (trvaHit (s.ctx r.ctx).trvadr (r.va.extractLsb' 0 48) = some false) ||
                decide ((t.ctx r.ctx).trttL3ptr = (s.ctx r.ctx).trttL3ptr) &&
                  decide ((t.ctx r.ctx).trttNull = (s.ctx r.ctx).trttNull) &&
                  decide ((t.ctx r.ctx).trttInvalid = (s.ctx r.ctx).trttInvalid) &&
                  decide ((t.ctx r.ctx).desc.dualContext = (s.ctx r.ctx).desc.dualContext)))
      else decide ((t.ctx r.ctx).trvadr = (s.ctx r.ctx).trvadr))

/-- The registers the translation of a request consults are the same in two states (rule R68). Of a global request: the base of
the Global GTT and `TRTTE[0]` (rule R112). Of a per-process one: the context kind, `PML4_PTR`, `NESTE`, the PAT and the TR-TT
registers. Of both: the page faulting mode. -/
def State.sameTranslation (s t : State) (r : Request) : Bool :=
  decide ((t.ctx r.ctx).desc.pfmode = (s.ctx r.ctx).desc.pfmode) &&
    match r.usedSpace with
    | .global =>
      decide (t.pgtblCtl = s.pgtblCtl) && decide ((t.ctx r.ctx).trttEnabled = (s.ctx r.ctx).trttEnabled)
    | .perProcess =>
      decide ((t.ctx r.ctx).desc.kind = (s.ctx r.ctx).desc.kind) &&
        decide ((t.ctx r.ctx).desc.pml4Ptr = (s.ctx r.ctx).desc.pml4Ptr) &&
        decide ((t.ctx r.ctx).desc.neste = (s.ctx r.ctx).desc.neste) && decide (t.pat = s.pat) && s.sameTrtt t r

/-- The cache controls a request consults are the same in two states (rule R68): those of its index, and for a write the LLC
control an eviction uses (rule R162). -/
def State.sameControls (s t : State) (r : Request) (index : Option (BitVec 6)) : Bool :=
  (match index with
    | some i => decide (t.l3Control i = s.l3Control i) && decide (t.llcControl i = s.llcControl i)
    | none => true) &&
    (decide (r.kind = .read) ||
      decide (t.llcControl (evictionIndex index) = s.llcControl (evictionIndex index)))

/-- The registers a request consults are the same in two states (rule R68). -/
def State.sameConsulted (s t : State) (r : Request) (index : Option (BitVec 6)) : Bool :=
  s.sameTranslation t r && s.sameControls t r index

/-- The entries of a list hold the same in two states. -/
def State.sameEntries (s t : State) (l : List (Level × Nat)) : Bool :=
  l.all (fun p => decide (t.readMem p.2 (levelSize p.1) = s.readMem p.2 (levelSize p.1)))

/-- The entries a walk in flight consults between two states: those it has used, and those it can come to from where it stands,
by the tables and the second-level translation of either state (rules R57, R68). -/
def State.consulted (s t : State) (wk : Walk) : List (Level × Nat) :=
  wk.used ++ s.consultsFrom longestWalk wk ++ t.consultsFrom longestWalk wk

/-- Nothing a walk's request consults differs between two states. -/
def State.undisturbed (s t : State) (wk : Walk) : Bool :=
  s.sameConsulted t wk.req wk.index && s.sameEntries t (s.consulted t wk)

/-- The outcome of a step, refused where it changes what a request in flight consults (rules R57, R68, R253, U16). The spec does
not say whether a request halted by a fault counts as outstanding; the model does not count it, since a fault is repaired by
changing what the request consults (log entry 36). -/
def State.checked (s : State) (o : Res) : Res :=
  match o with
  | .next t => if t.waiting.all (fun wk => s.undisturbed t wk) then .next t else .refused .inFlight
  | .fault f => .fault f
  | .refused r => .refused r

/-- The request that carries a bare MOCS word: a one-byte read of the global space by the GuC (log entry 3). -/
def probeRequest (m : BitVec 7) : Request :=
  { engine := .guc, ctx := 0, space := .global, va := 0, kind := .read, n := 1, data := 0, mocs := m, client := .other,
    object := .surface, retried := false }

/-- The address at which a bare table entry is placed. -/
def probeEntry : Nat := 0x1000

/-- The walk that reads a bare table entry: a one-byte read of address 0 by the render engine. -/
def probeWalk (l : Level) : Walk :=
  { req := { probeRequest 0 with engine := .render, space := .perProcess }, index := some 0, level := l,
    entry := .memory probeEntry, va := 0, trva := 0, rw := true, dest := .target, tableAttrs := none, used := [] }

/-- A state in which the next step reads a bare word in a slot: an entry is stored in memory, where a walk is about to
read it, with no older copy of it; a MOCS word is the next request's; a register word is the next write's. The
step is for it: no turn is scheduled and no other request is in flight. -/
def placeWord (s : State) (sl : Slot) (nbytes w : Nat) : State :=
  match sl with
  | .entry l =>
    { s with
      mem := Memory.writeN s.resetEpoch s.mem probeEntry nbytes w
      walk := some (probeWalk l)
      waiting := []
      schedule := []
      tlb := s.tlb.filter (fun t => !t.serves (probeWalk l))
      pml4Roots := s.pml4Roots.filter (fun p => !p.serves (probeWalk l)) }
  | .mocs =>
    { s with
      agenda := .request (probeRequest (BitVec.ofNat 7 w)) :: s.agenda
      walk := none
      waiting := []
      schedule := []
      halted := s.halted.filter (fun h => h.engine ≠ .guc) }
  | .register r =>
    { s with
      agenda :=
        .regWrite
            (.named
              (match r with
              | .l3ptr => .l3ptr 0
              | .null => .null 0
              | .invalid => .invalid 0
              | .trvadr => .trvadr 0
              | .trtte => .trtte 0
              | .bypass => .bypass
              | .lncf => .lncf 0
              | .glob => .glob 0))
            (BitVec.ofNat 64 w) ::
          s.agenda
      walk := none
      waiting := []
      schedule := [] }

/-- The state with a bare word of the table where the next step reads it (log entry 3). -/
def placeTableWord (s : State) (nbits w : Nat) : State :=
  placeWord s (tableSlot nbits w) (tableSlot nbits w).bytes w

end Sys2Proof.Machine
end

