-- ==== Sys2Proof/Machine/Step.lean ====
section
/-!
DEFINITION. The step function, and the state in which the next step runs a given word.
-/

namespace Sys2Proof.Machine

/-- One step of the machine: of the request, or of the outside world, whose turn it is (spec/10_state.md rule R10,
spec/20_memory.md rules R61, R68). -/
def step (s : State) : Host.Outcome State Fault Refusal := s.turned.checked (runStep s.turned)

/-- The state with a word of the opcode table where the next step reads it. -/
def State.withFetchWord (s : State) (nbits w : Nat) : State := placeTableWord s nbits w

end Sys2Proof.Machine
end

