-- ==== Sys2Proof/Machine/Tables.lean ====
section
/-!
DEFINITION. The tables software must program (spec/41_mocs.md rules R159 to R161), and the prose Defaults Table, which
no rule follows (rule R157, spec/90_conflicts.md C8).
-/

namespace Sys2Proof.Machine

/-- A row of the required MOCS table with values (rule R161). -/
structure MocsRow where
  index : BitVec 6
  l3 : L3Half
  llc : LlcWord
  deriving DecidableEq, Repr

/-- A row in the order of rule R161's columns: index, L3CC, LeCC, LRUM, DAoM, ERSC, LLC SCC, SSE. In every row ESC, L3
SCC, PFM, SCF and CoS are 0 and TC is 1. -/
def mocsRow (index : BitVec 6) (l3cc lecc lrum : BitVec 2) (daom ersc : Bool) (scc : BitVec 3) (sse : BitVec 2) : MocsRow :=
  { index := index, l3 := { l3cc := l3cc, scc := 0, esc := false },
    llc := { sse := sse, cos := 0, scf := false, pfm := 0, scc := scc, ersc := ersc, daom := daom, lrum := lrum, tc := 1,
             lecc := lecc } }

/-- The rows 0 to 15 of rule R161. -/
def requiredMocsBase : List MocsRow :=
  [mocsRow 0 3 3 3 false false 0 0, mocsRow 2 3 3 3 false false 0 0, mocsRow 3 1 1 0 false false 0 0,
    mocsRow 4 3 1 0 false false 0 0, mocsRow 5 1 3 3 false false 0 0, mocsRow 6 1 3 1 false false 0 0,
    mocsRow 7 3 3 1 false false 0 0, mocsRow 8 1 3 2 false false 0 0, mocsRow 9 3 3 2 false false 0 0,
    mocsRow 10 1 3 3 true false 0 0, mocsRow 11 3 3 3 true false 0 0, mocsRow 12 1 3 1 true false 0 0,
    mocsRow 13 3 3 1 true false 0 0, mocsRow 14 1 3 2 true false 0 0, mocsRow 15 3 3 2 true false 0 0]

/-- The rows 18 to 63 of rule R161. -/
def requiredMocsSpecial : List MocsRow :=
  [mocsRow 18 3 3 3 false false 0 3, mocsRow 19 3 3 3 false false 7 0, mocsRow 20 3 3 3 false false 3 0,
    mocsRow 21 3 3 3 false false 1 0, mocsRow 22 3 3 3 false true 3 0, mocsRow 23 3 3 3 false true 7 0,
    mocsRow 48 3 3 3 false false 0 0, mocsRow 49 3 1 0 false false 0 0, mocsRow 50 1 3 3 false false 0 0,
    mocsRow 51 1 1 0 false false 0 0, mocsRow 60 1 3 3 false false 0 0, mocsRow 61 3 1 0 false false 0 0,
    mocsRow 62 1 3 3 false false 0 0, mocsRow 63 1 3 3 false false 0 0]

/-- The required MOCS table (rule R161), version 1. -/
def requiredMocs : List MocsRow := requiredMocsBase ++ requiredMocsSpecial

/-- The required PAT table: `MEM_TYPE` of the indices 0 to 3 (rule R160), version 1. -/
def requiredPat : List (BitVec 2) := [3, 1, 2, 0]

/-- LeCC of the prose Defaults Table at an index (rule R157); the register page's default is the one followed. The table prints
the indices 0 to 31, twice: that an index of 32 to 63 has the value of its number mod 16 too is the model's choice, which N9 warns
of, and no definition reads it (log entry 21). -/
def proseDefaultLecc (i : BitVec 6) : BitVec 2 :=
  [0#2, 0#2, 0#2, 1#2, 2#2, 2#2, 2#2, 3#2, 3#2, 3#2, 2#2, 2#2, 2#2, 3#2, 3#2, 3#2].getD (i.toNat % 16) 0#2

/-- TC of the prose Defaults Table at an index (rule R157); of 32 to 63 by the model's choice, as `proseDefaultLecc` (log entry
21). -/
def proseDefaultTc (i : BitVec 6) : BitVec 2 :=
  [0#2, 1#2, 2#2, 0#2, 0#2, 1#2, 2#2, 0#2, 1#2, 2#2, 0#2, 1#2, 2#2, 0#2, 1#2, 2#2].getD (i.toNat % 16) 0#2

end Sys2Proof.Machine
end

