-- ==== Sys2Proof/Safety.lean ====
section
/-!
DEFINITION. What a safe state and a safe run are, in the terms the claims use: the invariant every step keeps, and the
launch premises the spec puts on software (spec/70_reset_and_hazards.md rules R238 to R253).
-/

namespace Sys2Proof.Machine

/-- The reserved bits of a context's TR-TT registers read as zero (rules R15, R18, R19), and its PML4 pointer is 4KB
aligned (rule R181). -/
def Context.ok (k : Context) : Bool :=
  decide (k.trttL3ptr &&& 0xFFFF00000000FFFF#64 = 0#64) && decide (k.trvadr &&& 0xFFFFFF00#32 = 0#32) &&
    decide (k.trtte &&& 0xFFFFFFFC#32 = 0#32) && decide (k.desc.pml4Ptr &&& 0xFFF#64 = 0#64)

/-- The registers of the two MOCS tables and the bypass register hold nothing in a bit that is never stored (rules R20,
R23, R26). -/
abbrev State.registersOk (s : State) : Prop :=
  (∀ x : Fin 32, lncfKept s.lncf[x] = s.lncf[x]) ∧ (∀ i : Fin 64, globKept s.glob[i] = s.glob[i]) ∧
    s.trBypass &&& 0xFFFFFFFE#32 = 0#32

/-- Every context the state lists is as `Context.ok` says. -/
abbrev State.contextsOk (s : State) : Prop := s.ctxs.all (fun p => p.2.ok) = true

/-- The engines with a request in flight, and the engines a fault has stopped. -/
def State.enginesInUse (s : State) : List Engine := s.inFlight.map (·.req.engine) ++ s.halted.map (·.engine)

/-- The invariant: memory in its canonical form below `2^HAW`, reserved register bits zero, table bases 4KB aligned, and
each engine with at most one request in flight or halted, never both (rules R10, R214). -/
abbrev State.Inv (s : State) : Prop :=
  s.memWf = true ∧ s.registersOk ∧ s.contextsOk ∧ s.pgtblCtl &&& 0xFFF#64 = 0#64 ∧ s.enginesInUse.Nodup

/-- No TLB and no cached PML4 page holds an entry that differs from the one in memory at `a`: the quiescence premise of rule
R68 for the entry a walk reads next. -/
abbrev State.quiet (s : State) (wk : Walk) (a : Nat) : Prop := s.staleWords wk a = []

/-- The required tables are programmed (rules R160, R161, R239). -/
def State.tablesProgrammed (s : State) : Bool :=
  requiredMocs.all (fun r =>
    decide ((s.l3Control r.index).extractLsb' 0 6 = r.l3.bits) && decide (s.llcControl r.index = r.llc.bits)) &&
  decide (s.pat.toList = requiredPat)

/-- The null and invalid detection values differ (rules R244, R246). -/
def Context.detectionDistinct (k : Context) : Bool := decide (k.trttNull ≠ k.trttInvalid)

/-- The TR-TT set-up of a context is complete (rule R243): disabled, or with distinct detection values, the mask that
compares all four address bits, a table location the platform allows, and the bypass disabled. -/
def State.trttReady (s : State) (c : Nat) : Bool :=
  !(s.ctx c).trttEnabled ||
    ((s.ctx c).detectionDistinct && decide ((s.ctx c).trvadr.extractLsb' 4 4 = 15#4) &&
      ((s.ctx c).tablesVirtual || s.params.trttGpaModeAllowed) && s.bypassDisabled)

/-- No entry of another table that a request consults lies in the 8MB of the Global GTT (decision D29). -/
def State.tablesApart (s : State) (r : Request) : Bool :=
  (s.consults r (r.mocsWord.map mocsIndex)).all (fun p =>
    decide (p.1 = .ggtt) || !s.meetsGgtt p.2 (levelSize p.1))

/-- The set-up that precedes a request (rule R238): (1) a legal `GGTT_BASE`, with no other table in its 8MB; (2) for a global
request a present entry; (3) the required tables programmed; (4) for a per-process request a Legacy PPGTT64 context with a
legal `PML4_PTR`; (5) the TR-TT set up. -/
def State.ready (s : State) (r : Request) : Bool :=
  s.baseOk s.pgtblCtl.toNat 0x800000 && s.tablesApart r && s.tablesProgrammed &&
    match r.usedSpace with
    | .global =>
      (s.readMem (entryAddr .ggtt s.pgtblCtl.toNat (r.va.extractLsb' 0 48)) 8).testBit 0 && !(s.ctx r.ctx).trttEnabled
    | .perProcess =>
      decide ((s.ctx r.ctx).desc.kind = .legacyPpgtt64) && s.baseOk (s.ctx r.ctx).desc.pml4Ptr.toNat 4096 &&
        s.trttReady r.ctx

/-- A run from one state reaches another. -/
def State.reaches (s t : State) : Prop := ∃ k, Host.Core.run Sys2Proof.core k s = .next t

/-- A request is the next input of a state, after its turn. -/
def State.atRequest (t : State) (r : Request) : Prop :=
  t.turned.walk = none ∧ ∃ rest, t.turned.nextInput = some (.request r, rest)

/-- The launch premise of a run (rule R238): the set-up precedes every request. -/
def State.launched (s : State) : Prop := ∀ t r, s.reaches t → t.atRequest r → t.turned.ready r = true

/-- The quiescence premise of a run (rule R68): every register and every table entry that a request of the run can consult, as it
begins or from where its walk stands, is the same in every two states of the run. -/
def State.quiescent (s : State) : Prop :=
  ∀ t u, s.reaches t → s.reaches u →
    (∀ r, t.atRequest r →
      t.turned.sameConsulted u r (r.mocsWord.map mocsIndex) = true ∧
        t.turned.sameEntries u (t.turned.consults r (r.mocsWord.map mocsIndex)) = true) ∧
    ∀ wk ∈ t.inFlight, t.undisturbed u wk = true

/-- What the check of a step asks, for one request in flight and two states, in plain terms (rules R57, R68, R253). -/
structure State.Keeps (s t : State) (wk : Walk) : Prop where
  /-- The page faulting mode of the context. -/
  pfmode : (t.ctx wk.req.ctx).desc.pfmode = (s.ctx wk.req.ctx).desc.pfmode
  /-- Of a global request: the base of the Global GTT, and whether TR-TT is enabled. -/
  base : wk.req.usedSpace = .global →
    t.pgtblCtl = s.pgtblCtl ∧ (t.ctx wk.req.ctx).trtte.toNat % 2 = (s.ctx wk.req.ctx).trtte.toNat % 2
  /-- Of a per-process request: the context's page tables, the PAT, and whether TR-TT is enabled. -/
  tables : wk.req.usedSpace = .perProcess →
    (t.ctx wk.req.ctx).desc.kind = (s.ctx wk.req.ctx).desc.kind ∧
      (t.ctx wk.req.ctx).desc.pml4Ptr = (s.ctx wk.req.ctx).desc.pml4Ptr ∧
      (t.ctx wk.req.ctx).desc.neste = (s.ctx wk.req.ctx).desc.neste ∧ t.pat = s.pat ∧
      (t.ctx wk.req.ctx).trtte.toNat % 2 = (s.ctx wk.req.ctx).trtte.toNat % 2
  /-- With TR-TT enabled, of another engine than the TR-TT serves: the window. -/
  window : wk.req.usedSpace = .perProcess → (s.ctx wk.req.ctx).trtte.toNat % 2 = 1 →
    ¬ (wk.req.engine = .render ∨ wk.req.engine = .posh) → (t.ctx wk.req.ctx).trvadr = (s.ctx wk.req.ctx).trvadr
  /-- With TR-TT enabled, of the engines it serves: the bypass. -/
  bypass : wk.req.usedSpace = .perProcess → (s.ctx wk.req.ctx).trtte.toNat % 2 = 1 →
    wk.req.engine = .render ∨ wk.req.engine = .posh → t.trBypass.toNat % 2 = s.trBypass.toNat % 2
  /-- With the bypass disabled as well: the table location and the window. -/
  active : wk.req.usedSpace = .perProcess → (s.ctx wk.req.ctx).trtte.toNat % 2 = 1 →
    wk.req.engine = .render ∨ wk.req.engine = .posh → s.trBypass.toNat % 2 = 1 →
    (t.ctx wk.req.ctx).tablesVirtual = (s.ctx wk.req.ctx).tablesVirtual ∧
      (t.ctx wk.req.ctx).trvadr = (s.ctx wk.req.ctx).trvadr
  /-- And on a hit of the window: the rest of the TR-TT registers. -/
  hit : wk.req.usedSpace = .perProcess → (s.ctx wk.req.ctx).trtte.toNat % 2 = 1 →
    wk.req.engine = .render ∨ wk.req.engine = .posh → s.trBypass.toNat % 2 = 1 →
    trvaHit (s.ctx wk.req.ctx).trvadr (wk.req.va.setWidth 48) ≠ some false →
    (t.ctx wk.req.ctx).trttL3ptr = (s.ctx wk.req.ctx).trttL3ptr ∧
      (t.ctx wk.req.ctx).trttNull = (s.ctx wk.req.ctx).trttNull ∧
      (t.ctx wk.req.ctx).trttInvalid = (s.ctx wk.req.ctx).trttInvalid ∧
      (t.ctx wk.req.ctx).desc.dualContext = (s.ctx wk.req.ctx).desc.dualContext
  /-- The controls of the request's index. -/
  controls : ∀ i, wk.index = some i → t.l3Control i = s.l3Control i ∧ t.llcControl i = s.llcControl i
  /-- Of a write: the control the eviction of its lines uses, of index 63, or of index 61 for a line of that index. -/
  eviction : wk.req.kind = .write →
    (wk.index ≠ some 61#6 → t.glob[63] = s.glob[63]) ∧ (wk.index = some 61#6 → t.glob[61] = s.glob[61])
  /-- The table entries it has used, and those it can come to from where it stands, by the tables of either state. -/
  entries : ∀ l a, ((l, a) ∈ wk.used ∨ (l, a) ∈ s.consultsFrom longestWalk wk ∨ (l, a) ∈ t.consultsFrom longestWalk wk) →
    t.readMem a (levelSize l) = s.readMem a (levelSize l)

/-- Where the second-level translation gives no address for the entry a walk is to use: with no copy of the entry the fault is
taken, with one the walk goes on without an address (rules R69, R182, R203). -/
abbrev State.noAddress (s : State) (wk : Walk) (f : Fault) (o : Res) : Prop :=
  (s.copies { wk with entry := .copyOnly f } = [] → o = s.raiseFault wk.req f) ∧
    (s.copies { wk with entry := .copyOnly f } ≠ [] → o = .next { s with walk := some { wk with entry := .copyOnly f } })

/-- A MOCS index fit for a surface shared coherently with the CPU: no LLC skip caching, and cached in the LLC (rule
R247). -/
def State.coherentIndex (s : State) (i : BitVec 6) : Bool :=
  decide ((LlcWord.ofBits (s.llcControl i)).scc = 0#3) && (s.llcControl i).getLsbD 1

/-- A MOCS index whose surfaces are only to be read: 4 and 48 to 51 (rule R249). -/
def readOnlyIndex (i : BitVec 6) : Bool := decide (i.toNat = 4) || (decide (48 ≤ i.toNat) && decide (i.toNat ≤ 51))

/-- A step that does not stop: it answers a next state. -/
def State.goesOn (s : State) : Prop := ∃ t, step s = .next t

/-- The word that a slot takes of a value, its low bits, decodes to `i`. -/
abbrev decodesTo (h : Haw) (sl : Slot) (w : Word64) (i : Instr) : Prop :=
  decode h sl (BitVec.ofNat 64 (w.toNat % 2 ^ sl.bits)) = .ok i

/-! What the walkers keep of an entry, and what the label of an access says. -/

/-- The TLB key of a walk's next entry, in plain terms: the context, 0 for the Global GTT, which is one for all; the level; and
the bits of the address that select the entry and the tables above it (rules R31, R97, R227; log entry 10). -/
abbrev Walk.keyedBy (wk : Walk) (k : TlbKey) : Prop :=
  k.ctx = (if wk.level = .ggtt then 0 else wk.req.ctx) ∧ k.level = wk.level ∧
    k.tag =
      match wk.level with
      | .ggtt => wk.va.toNat / 2 ^ 12
      | .pml4 => wk.va.toNat / 2 ^ 39
      | .pdp => wk.va.toNat / 2 ^ 30
      | .pd => wk.va.toNat / 2 ^ 21
      | .pt4k => wk.va.toNat / 2 ^ 12
      | .pt64k => wk.va.toNat / 2 ^ 16
      | .trL3 => wk.trva.toNat / 2 ^ 35
      | .trL2 => wk.trva.toNat / 2 ^ 26
      | .trL1 => wk.trva.toNat / 2 ^ 16

/-- The TLBs after a walk has used the word `w` as its entry, at the address `place` or without one (rule R69): they hold it, they
have lost nothing, and they hold nothing else that is new. -/
abbrev State.tlbGains (s : State) (wk : Walk) (w : Word64) (place : Option Nat) (t : State) : Prop :=
  (∃ k, wk.keyedBy k ∧ ⟨k, w, place⟩ ∈ t.tlb ∧ ∀ e ∈ t.tlb, e ∈ s.tlb ∨ e = ⟨k, w, place⟩) ∧ ∀ e ∈ s.tlb, e ∈ t.tlb

/-- The cached PML4 pages after a walk has used its entry at `a` (rule R182): at the PML4 level the page is noted for the
context, and where it was not before, this is its first demand; every page noted stays; at another level nothing changes. -/
abbrev State.pml4Gains (s : State) (wk : Walk) (a : Nat) (t : State) : Prop :=
  (wk.level ≠ .pml4 → t.pml4Roots = s.pml4Roots) ∧
    (wk.level = .pml4 →
      (∃ p ∈ s.pml4Roots, p.ctx = wk.req.ctx ∧ p.base = a - wk.va.toNat / 2 ^ 39 % 512 * 8) ∧
          t.pml4Roots = s.pml4Roots ∨
        (∀ p ∈ s.pml4Roots, p.ctx = wk.req.ctx → p.base ≠ a - wk.va.toNat / 2 ^ 39 % 512 * 8) ∧
          t.pml4Roots =
            ⟨wk.req.ctx, a - wk.va.toNat / 2 ^ 39 % 512 * 8, s.history.length⟩ :: s.pml4Roots)

/-- The byte at `a` as it was before the events `later`, the newest of the history: what the oldest write among them to the byte
replaced, and the byte of memory where there is none. -/
def State.byteBefore (s : State) (later : List MemEvent) (a : Nat) : Byte :=
  match (later.filter (fun e => e.wrote a)).getLast? with
  | some e => BitVec.ofNat 8 (e.old / 256 ^ (a - e.pa))
  | none => s.byte a

/-- A word that the cached PML4 page `p` may hold for an address (rule R182): the eight bytes of the entry as they were at one
moment since the context's first demand of the page, the present one included. -/
abbrev Pml4Root.mayHold (p : Pml4Root) (s : State) (va : BitVec 48) (w : Word64) : Prop :=
  ∃ later earlier, s.history = later ++ earlier ∧ (p.since ≤ earlier.length ∨ later = []) ∧
    ∀ i < 8, BitVec.ofNat 8 (w.toNat / 256 ^ i) = s.byteBefore later (p.base + va.toNat / 2 ^ 39 % 512 * 8 + i)

/-- A copy of a walk's next entry (rules R31, R69, R182): a TLB holds the word, under the entry's key, or from an earlier use of
the same address by any context and address; or a cached PML4 page may hold it, one of the context, or one of another context that
the entry lies in. -/
abbrev State.holdsCopy (s : State) (wk : Walk) (w : Word64) : Prop :=
  (∃ e ∈ s.tlb, e.word = w ∧
      (wk.keyedBy e.key ∨
        ∃ a, wk.entry = .memory a ∧ e.place = some a ∧ levelSize e.key.level = levelSize wk.level)) ∨
    wk.level = .pml4 ∧
      ∃ p ∈ s.pml4Roots,
        (p.ctx = wk.req.ctx ∨ wk.entry = .memory (p.base + wk.va.toNat / 2 ^ 39 % 512 * 8)) ∧ p.mayHold s wk.va w

/-- An entry that raises a fault by itself: of the Global GTT or the Per-Process GTT, with its present bit clear, or, in the
Per-Process GTT, with R/W = 0 under a write of the request's own (rules R174, R193, R194). -/
abbrev Walk.faultsOn (wk : Walk) (w : Word64) : Prop :=
  levelIsTr wk.level = false ∧
    (w.toNat % 2 = 0 ∨
      wk.level ≠ .ggtt ∧ wk.dest = .target ∧ wk.req.kind = .write ∧ w.toNat / 2 % 2 = 0)

/-- The LLC/eDRAM controls of a `GLOB_MOCS` word (rules R148 to R150, R152, R154 to R156). Of SSE `10b`, which is not listed,
nothing is said. -/
structure LlcControls.ofWord (c : LlcControls) (g : Word32) : Prop where
  lecc : c.leccType =
    if g.toNat % 4 = 0 then .uc else if g.toNat % 4 = 1 then .wc else if g.toNat % 4 = 2 then .wt else .wb
  target : c.target =
    if g.toNat / 4 % 4 = 0 then .ellcOnly else if g.toNat / 4 % 4 = 1 then .llcOnly
    else if g.toNat / 4 % 4 = 2 then .llcEllcAllowed else .llcEllcAllowed2
  lru : c.lru =
    if g.toNat / 16 % 4 = 0 then .fromUncore else if g.toNat / 16 % 4 = 1 then .assign0
    else if g.toNat / 16 % 4 = 2 then .dontChange else .assign3
  noAllocOnMiss : c.noAllocOnMiss = decide (g.toNat / 64 % 2 = 1)
  nonCoherent : c.nonCoherent = decide (g.toNat / 16384 % 2 = 1)
  classOfService : c.classOfService.toNat = g.toNat / 32768 % 4
  snoopNormal : g.toNat / 131072 % 4 = 0 → c.selfSnoop = none
  snoopNever : g.toNat / 131072 % 4 = 1 → c.selfSnoop = some false
  snoopAlways : g.toNat / 131072 % 4 = 3 → c.selfSnoop = some true

/-- A MOCS index the required table defines for a request (rules R161, R164, R248). -/
abbrev usableIndex (i : BitVec 6) : Prop :=
  2 ≤ i.toNat ∧ i.toNat ≤ 15 ∨ 18 ≤ i.toNat ∧ i.toNat ≤ 23 ∨ 48 ≤ i.toNat ∧ i.toNat ≤ 51 ∨ i.toNat = 61

/-- The address the skip-caching controls test for an access at `pa` (rule R144; log entry 6). -/
abbrev State.testsAddress (s : State) (wk : Walk) (pa a : Nat) : Prop :=
  (s.params.l3SkipAddr = .physical → a = pa) ∧ (s.params.l3SkipAddr = .virtual → a = wk.req.va.toNat) ∧
    (s.params.l3SkipAddr = .mapped → a = wk.va.toNat)

/-- What the label of an access at `pa` says (rules R136 to R165), of an access of at least one byte whose skip-caching controls
test the bytes from `a` on. -/
structure Label.states (lab : Label) (s : State) (wk : Walk) (attrs : Option LeafAttrs) (a : Nat) : Prop where
  index : lab.index = wk.index
  bits : lab.attrs = attrs
  /-- The memory type is the PAT entry that the bits of the leaf select (rule R163). -/
  memType : lab.memType = attrs.map (fun t => s.patType (patIndex t))
  /-- The HDC L1 (rule R138). -/
  hdcL1 : lab.hdcL1 = true ↔
    (wk.req.client = .directEu ∨ wk.req.client = .dataPort) ∧ ∃ i, wk.index = some i ∧ 48 ≤ i.toNat ∧ i.toNat ≤ 59
  /-- The L3, of a usable index, where the decision is the same for every byte (rules R144, R164; log entries 14, 35). -/
  l3 : ∀ i b, wk.index = some i → usableIndex i → (∀ k < wk.req.n, l3Caches (s.l3Control i) (a + k) = some b) → lab.l3 = b
  /-- The LLC, the same, where the leaf has no memory type or that of LeCC (rules R151, R165; log entry 38). -/
  llc : ∀ i b, wk.index = some i → usableIndex i →
    (∀ m, lab.memType = some m → m = memTypeOf ((s.llcControl i).extractLsb' 0 2)) →
    (∀ k < wk.req.n, llcCaches (s.llcControl i) (a + k) = some b) → lab.llc = b
  /-- The other controls of a usable index; of another index, and without one, there are none. -/
  controls : ∀ c, lab.controls = some c → ∃ i, wk.index = some i ∧ usableIndex i ∧ c.ofWord (s.llcControl i)
  someControls : ∀ i, wk.index = some i → usableIndex i → lab.controls ≠ none
  /-- Without an index the memory type of the page decides (rule R136; log entry 41): UC and WC are not cached. -/
  uncached : wk.index = none → lab.memType = some .uc ∨ lab.memType = some .wc → lab.l3 = false ∧ lab.llc = false
  /-- WT and WB are cached in the LLC. -/
  cached : wk.index = none → lab.memType = some .wt ∨ lab.memType = some .wb → lab.llc = true
  /-- A dirty line: of a write cached in the L3, and of no other access (rule R162; log entry 39). -/
  dirty : lab.evict ≠ none ↔ wk.req.kind = .write ∧ lab.l3 = true
  /-- It leaves through the controls of index 63, a line of index 61 through its own. -/
  evict : ∀ e, lab.evict = some e →
    e.index = (if wk.index = some 61#6 then 61#6 else 63#6) ∧
      ∀ b, (∀ k < wk.req.n, llcCaches (s.llcControl e.index) (a + k) = some b) → e.llc = b

/-! What a word or a step leaves unchanged. -/

/-- Every parameter and every register is as before (rules R15 to R29). -/
abbrev State.sameRegisters (s t : State) : Prop :=
  t.params = s.params ∧ t.resetEpoch = s.resetEpoch ∧ t.pgtblCtl = s.pgtblCtl ∧ t.pgtblCtl2 = s.pgtblCtl2 ∧
    t.trBypass = s.trBypass ∧ t.lncf = s.lncf ∧ t.glob = s.glob ∧ t.pat = s.pat ∧ t.ctxs = s.ctxs ∧
    t.renderPowerGating = s.renderPowerGating

/-- Every byte of memory reads as before, and so does the second-level translation that lies in it. -/
abbrev State.sameBytes (s t : State) : Prop := (∀ a, t.byte a = s.byte a) ∧ t.vtdEpoch = s.vtdEpoch

/-- The counter and the pending flag are as before (rules R21, R216). -/
abbrev State.sameEvents (s t : State) : Prop :=
  t.nullTileCount = s.nullTileCount ∧ t.invalidTilePending = s.invalidTilePending

/-- The other requests in flight and the turns to come are as before. -/
abbrev State.sameTurns (s t : State) : Prop := t.waiting = s.waiting ∧ t.schedule = s.schedule

/-- The TLBs, the cached PML4 pages, the halted engines, the other requests in flight, the turns and the inputs still to
come are as before. -/
abbrev State.sameRest (s t : State) : Prop :=
  t.tlb = s.tlb ∧ t.pml4Roots = s.pml4Roots ∧ t.halted = s.halted ∧ t.agenda = s.agenda ∧ s.sameTurns t

/-- The bytes of memory after a store of `n` bytes of `data` at `pa`: the bytes of the value, the least significant at
the lowest address, and every other byte as before (rules R7, R58). -/
abbrev State.storedBytes (s : State) (pa n data : Nat) (t : State) : Prop :=
  ∀ a, t.byte a = if pa ≤ a ∧ a < pa + n then BitVec.ofNat 8 (data / 256 ^ (a - pa)) else s.byte a

/-- The null completion of a request (rule R62): zeros with the null indicator, no access to memory, and the null-tile
counter no lower (rule R120). The pending flag is the caller's to describe. -/
abbrev State.nullCompletion (s : State) (r : Request) (t : State) : Prop :=
  t.walk = none ∧ t.results = ⟨.engine r.engine, r.ctx, r.kind, r.n, 0, true⟩ :: s.results ∧ t.history = s.history ∧
    s.nullTileCount ≤ t.nullTileCount ∧ s.sameRegisters t ∧ s.sameBytes t ∧ s.sameRest t

/-- A read of `n` bytes at `pa` completes a request (rules R61, R65): the requester receives what it sees there, and the
access is in the history with its cache attributes. -/
abbrev State.readCompletion (s : State) (wk : Walk) (pa : Nat) (attrs : Option LeafAttrs) (t : State) : Prop :=
  t.walk = none ∧
    t.results =
      ⟨.engine wk.req.engine, wk.req.ctx, .read, wk.req.n, s.visible (.engine wk.req.engine) (some wk.route) pa wk.req.n,
        false⟩ :: s.results ∧
    t.history =
      ⟨.engine wk.req.engine, .read, pa, wk.req.n, s.visible (.engine wk.req.engine) (some wk.route) pa wk.req.n, 0,
        some wk.route, some (s.label wk pa attrs)⟩ :: s.history ∧
    s.sameRegisters t ∧ s.sameBytes t ∧ s.sameEvents t ∧ s.sameRest t

/-- A write of `n` bytes at `pa` completes a request (rules R61, R65). -/
abbrev State.writeCompletion (s : State) (wk : Walk) (pa : Nat) (attrs : Option LeafAttrs) (t : State) : Prop :=
  t.walk = none ∧
    t.results = ⟨.engine wk.req.engine, wk.req.ctx, .write, wk.req.n, 0, false⟩ :: s.results ∧
    t.history =
      ⟨.engine wk.req.engine, .write, pa, wk.req.n, wk.req.data % 256 ^ wk.req.n, s.readMem pa wk.req.n,
        some wk.route, some (s.label wk pa attrs)⟩ :: s.history ∧
    s.storedBytes pa wk.req.n wk.req.data t ∧ s.sameRegisters t ∧ s.sameEvents t ∧ s.sameRest t

/-- A register write changes the registers its statement names and takes the input; everything else is as before. -/
abbrev State.sameOutsideRegisters (s t : State) : Prop :=
  t.walk = s.walk ∧ t.results = s.results ∧ t.history = s.history ∧ t.tlb = s.tlb ∧ t.pml4Roots = s.pml4Roots ∧
    t.halted = s.halted ∧ s.sameBytes t ∧ s.sameEvents t ∧ s.sameTurns t

/-- The input `i` is the one the next step takes, and `rest` are the inputs left. -/
abbrev State.presents (s : State) (i : Input) (rest : List Input) : Prop := s.walk = none ∧ s.nextInput = some (i, rest)

/-- A request of the global space, in range and inside one 4KB block (rules R51, R53, R56, R60). -/
abbrev Request.isGlobal (r : Request) : Prop :=
  r.usedSpace = .global ∧ 1 ≤ r.n ∧ r.va.toNat < 2 ^ 32 ∧ r.va.toNat % 4096 + r.n ≤ 4096

/-- A request of a per-process space, in range and inside one 4KB block. -/
abbrev Request.isOwn (r : Request) : Prop :=
  r.usedSpace = .perProcess ∧ 1 ≤ r.n ∧ r.va.toNat < 2 ^ 48 ∧ r.va.toNat % 4096 + r.n ≤ 4096

/-- The engines the TR-TT serves (rule R111). -/
abbrev Request.mayTile (r : Request) : Prop := r.engine = .render ∨ r.engine = .posh

/-- The TR-TT does not take a per-process request (rules R111 to R113): TR-TT disabled; the bypass enabled, for the engines
the TR-TT serves; or no hit of the window, with a table location the platform allows. -/
abbrev State.untiled (s : State) (r : Request) : Prop :=
  (s.ctx r.ctx).trtte.toNat % 2 = 0 ∨ (r.mayTile ∧ s.trBypass.toNat % 2 = 0) ∨
    (trvaHit (s.ctx r.ctx).trvadr (r.va.setWidth 48) = some false ∧
      (¬ r.mayTile ∨ (s.ctx r.ctx).tablesVirtual = true ∨ s.params.trttGpaModeAllowed = true))

/-- The walk of a request at its first table read. -/
abbrev Request.walkAt (r : Request) (index : Option (BitVec 6)) (l : Level) (entry : Nat) (va : BitVec 48) (dest : Dest) :
    Walk :=
  { req := r, index := index, level := l, entry := .memory entry, va := va, trva := r.va.setWidth 48, rw := true,
    dest := dest, tableAttrs := none, used := [] }

/-! The fields of a table word, for statements about several formats. -/

/-- The flags of a leaf of the Per-Process GTT. -/
structure LeafFlags where
  lm : Bool
  null : Bool
  rw : Bool
  p : Bool
  deriving DecidableEq, Repr

/-- The flags of `PDPE_1GB`, `PDE_2MB`, `PTE_64KB` and `PTE_4KB` (rules R85, R87 to R89); none for another word. A
`PTE_4KB` has no Local Memory bit (rule R197). -/
def leafFlags (i : Instr) : Option LeafFlags :=
  match i with
  | .ggttPte _ _ _ => none
  | .pml4e _ _ _ => none
  | .pdpePd _ _ _ => none
  | .pdpe1gb _ lm null _ _ rw p => some ⟨lm, null, rw, p⟩
  | .pdePt _ _ _ _ => none
  | .pde2mb _ lm null _ _ rw p => some ⟨lm, null, rw, p⟩
  | .pte64kb _ lm null _ _ _ rw p => some ⟨lm, null, rw, p⟩
  | .pte4kb _ null _ _ _ rw p => some ⟨false, null, rw, p⟩
  | .trttL3e _ _ _ => none
  | .trttL2e _ _ _ => none
  | .trttL1e _ => none
  | .mocs _ _ => none
  | .trttL3ptr _ => none
  | .trttNull _ => none
  | .trttInvalid _ => none
  | .trvadr _ _ => none
  | .trtte _ _ => none
  | .trBypass _ _ => none
  | .lncfcmocs _ _ _ _ => none
  | .globMocs _ => none

/-- The address a terminal word and a virtual address make (rule R96), by the operand forms the meanings use; none for a
word that is not terminal. For `TRTT_L1E` it is a virtual address. -/
def outputAddr (i : Instr) (va : BitVec 48) : Option Nat :=
  match i with
  | .ggttPte addr _ _ => some (page4k addr va).toNat
  | .pml4e _ _ _ => none
  | .pdpePd _ _ _ => none
  | .pdpe1gb addr _ _ _ _ _ _ => some (page1g addr va).toNat
  | .pdePt _ _ _ _ => none
  | .pde2mb addr _ _ _ _ _ _ => some (page2m addr va).toNat
  | .pte64kb addr _ _ _ _ _ _ _ => some (page64k addr va).toNat
  | .pte4kb addr _ _ _ _ _ _ => some (page4k addr va).toNat
  | .trttL3e _ _ _ => none
  | .trttL2e _ _ _ => none
  | .trttL1e addr => some (tileAddr addr va).toNat
  | .mocs _ _ => none
  | .trttL3ptr _ => none
  | .trttNull _ => none
  | .trttInvalid _ => none
  | .trvadr _ _ => none
  | .trtte _ _ => none
  | .trBypass _ _ => none
  | .lncfcmocs _ _ _ _ => none
  | .globMocs _ => none

/-- The host physical address a terminal word stores to or reads at, for a walk: of a Global GTT entry its output address, of
a page-table leaf its output address after the second-level translation; none for every other word (rules R173, R190). -/
def State.targetAddr (s : State) (wk : Walk) (i : Instr) : Option Nat :=
  match i with
  | .ggttPte addr _ _ => some (page4k addr wk.va).toNat
  | .pml4e _ _ _ => none
  | .pdpePd _ _ _ => none
  | .pdpe1gb addr _ _ _ _ _ _ => s.hostPhys wk.req.ctx (page1g addr wk.va).toNat
  | .pdePt _ _ _ _ => none
  | .pde2mb addr _ _ _ _ _ _ => s.hostPhys wk.req.ctx (page2m addr wk.va).toNat
  | .pte64kb addr _ _ _ _ _ _ _ => s.hostPhys wk.req.ctx (page64k addr wk.va).toNat
  | .pte4kb addr _ _ _ _ _ _ => s.hostPhys wk.req.ctx (page4k addr wk.va).toNat
  | .trttL3e _ _ _ => none
  | .trttL2e _ _ _ => none
  | .trttL1e _ => none
  | .mocs _ _ => none
  | .trttL3ptr _ => none
  | .trttNull _ => none
  | .trttInvalid _ => none
  | .trvadr _ _ => none
  | .trtte _ _ => none
  | .trBypass _ _ => none
  | .lncfcmocs _ _ _ _ => none
  | .globMocs _ => none

/-- The memory-type bits of a leaf word (rules R163, R196); `large` is the PAT bit of a 2MB or 1GB page, which the
words do not hold. -/
def leafAttrs (large : Bool) (i : Instr) : Option LeafAttrs :=
  match i with
  | .ggttPte _ _ _ => none
  | .pml4e _ _ _ => none
  | .pdpePd _ _ _ => none
  | .pdpe1gb _ _ _ pcd pwt _ _ => some ⟨pwt, pcd, large⟩
  | .pdePt _ _ _ _ => none
  | .pde2mb _ _ _ pcd pwt _ _ => some ⟨pwt, pcd, large⟩
  | .pte64kb _ _ _ pat pcd pwt _ _ => some ⟨pwt, pcd, pat⟩
  | .pte4kb _ _ pat pcd pwt _ _ => some ⟨pwt, pcd, pat⟩
  | .trttL3e _ _ _ => none
  | .trttL2e _ _ _ => none
  | .trttL1e _ => none
  | .mocs _ _ => none
  | .trttL3ptr _ => none
  | .trttNull _ => none
  | .trttInvalid _ => none
  | .trvadr _ _ => none
  | .trtte _ _ => none
  | .trBypass _ _ => none
  | .lncfcmocs _ _ _ _ => none
  | .globMocs _ => none

/-- The present bit of a word of the Per-Process GTT (rules R83 to R89); none for another word. -/
def presentBit (i : Instr) : Option Bool :=
  match i with
  | .ggttPte _ _ _ => none
  | .pml4e _ _ p => some p
  | .pdpePd _ _ p => some p
  | .pdpe1gb _ _ _ _ _ _ p => some p
  | .pdePt _ _ _ p => some p
  | .pde2mb _ _ _ _ _ _ p => some p
  | .pte64kb _ _ _ _ _ _ _ p => some p
  | .pte4kb _ _ _ _ _ _ p => some p
  | .trttL3e _ _ _ => none
  | .trttL2e _ _ _ => none
  | .trttL1e _ => none
  | .mocs _ _ => none
  | .trttL3ptr _ => none
  | .trttNull _ => none
  | .trttInvalid _ => none
  | .trvadr _ _ => none
  | .trtte _ _ => none
  | .trBypass _ _ => none
  | .lncfcmocs _ _ _ _ => none
  | .globMocs _ => none

/-- The bits of an entry word that the hardware looks at, level by level as the field tables of rules R82 to R94 list
them; every other bit is ignored (rules R81, R198). Bit 7 of a PDP or PD word selects the format (rule R90). -/
def careMask (h : Haw) (l : Level) (w : Word64) : Word64 :=
  match l with
  | .ggtt => BitVec.ofNat 64 (2 ^ h.bits - 2 ^ 12) ||| 0x1D#64
  | .pml4 => BitVec.ofNat 64 (2 ^ h.bits - 2 ^ 12) ||| 0x3#64
  | .pdp =>
    if w.getLsbD 7 then BitVec.ofNat 64 (2 ^ h.bits - 2 ^ 30) ||| 0xA9B#64
    else BitVec.ofNat 64 (2 ^ h.bits - 2 ^ 12) ||| 0x83#64
  | .pd =>
    if w.getLsbD 7 then BitVec.ofNat 64 (2 ^ h.bits - 2 ^ 21) ||| 0xA9B#64
    else BitVec.ofNat 64 (2 ^ h.bits - 2 ^ 12) ||| 0x883#64
  | .pt64k => BitVec.ofNat 64 (2 ^ h.bits - 2 ^ 16) ||| 0xA9B#64
  | .pt4k => BitVec.ofNat 64 (2 ^ h.bits - 2 ^ 12) ||| 0x29B#64
  | .trL3 => 0x0000FFFFFFFFF003#64
  | .trL2 => 0x0000FFFFFFFFF003#64
  | .trL1 => 0x00000000FFFFFFFF#64

/-- The bits of a word in a slot that the hardware looks at or stores: `careMask` for an entry, all seven bits of a MOCS
word, and the bits of a register word that are not reserved (rules R15 to R26, R95); the write-only mask bits 31 and 15
of `LNCFCMOCSx` are acted on (rule R24). -/
def slotMask (h : Haw) (sl : Slot) (w : Word64) : Word64 :=
  match sl with
  | .entry l => careMask h l w
  | .mocs => 0x7F#64
  | .register .l3ptr => 0x0000FFFFFFFF0000#64
  | .register .null => 0xFFFFFFFF#64
  | .register .invalid => 0xFFFFFFFF#64
  | .register .trvadr => 0xFF#64
  | .register .trtte => 0x3#64
  | .register .bypass => 0xFFFFFFFF#64
  | .register .lncf => 0x803F803F#64
  | .register .glob => 0x7FFFF#64

/-! The walks as the pseudo-code of the spec writes them, on plain numbers and a memory `rd`. -/

/-- The outcomes of `PPGTT_Walk`: `nullDenied` is the drawn one of rule R194. -/
inductive PpgttResult where
  | phys (pa : Nat) (pwt pcd : Bool) (pat : Option Bool)
  | nullPage
  | denied
  | nullDenied
  | notPresent (level : Stage)
  deriving DecidableEq, Repr

/-- `Leaf(ctx, e, s, w)` of rule R190 without nested translation; `bits` is `HAW`, `sh` the page size's logarithm. -/
def specLeaf (bits e sh va : Nat) (w : Bool) (kind : Access) : PpgttResult :=
  if e.testBit 9 then (if kind = .write ∧ w = false then .nullDenied else .nullPage)
  else if kind = .write ∧ w = false then .denied
  else
    .phys (e % 2 ^ bits / 2 ^ sh * 2 ^ sh + va % 2 ^ sh) (e.testBit 3) (e.testBit 4)
      (if sh ≤ 16 then some (e.testBit 7) else none)

/-- The table an entry points to: `e[HAW-1:12] << 12` (rules R184, R185, R187). -/
def specTable (bits e : Nat) : Nat := e % 2 ^ bits / 2 ^ 12 * 2 ^ 12

/-- The PT step (rules R189, R191). -/
def specPt (bits : Nat) (rd : Nat → Nat) (va : Nat) (kind : Access) (e2 : Nat) (w : Bool) : PpgttResult :=
  if e2.testBit 11 then
    if (rd (specTable bits e2 + va / 2 ^ 16 % 2 ^ 5 * 16 * 8)).testBit 0 then
      specLeaf bits (rd (specTable bits e2 + va / 2 ^ 16 % 2 ^ 5 * 16 * 8)) 16 va
        (w && (rd (specTable bits e2 + va / 2 ^ 16 % 2 ^ 5 * 16 * 8)).testBit 1) kind
    else .notPresent .pt
  else if (rd (specTable bits e2 + va / 2 ^ 12 % 2 ^ 9 * 8)).testBit 0 then
    specLeaf bits (rd (specTable bits e2 + va / 2 ^ 12 % 2 ^ 9 * 8)) 12 va
      (w && (rd (specTable bits e2 + va / 2 ^ 12 % 2 ^ 9 * 8)).testBit 1) kind
  else .notPresent .pt

/-- The PD step (rules R187, R188). -/
def specPd (bits : Nat) (rd : Nat → Nat) (va : Nat) (kind : Access) (e3 : Nat) (w : Bool) : PpgttResult :=
  if (rd (specTable bits e3 + va / 2 ^ 21 % 2 ^ 9 * 8)).testBit 0 then
    if (rd (specTable bits e3 + va / 2 ^ 21 % 2 ^ 9 * 8)).testBit 7 then
      specLeaf bits (rd (specTable bits e3 + va / 2 ^ 21 % 2 ^ 9 * 8)) 21 va
        (w && (rd (specTable bits e3 + va / 2 ^ 21 % 2 ^ 9 * 8)).testBit 1) kind
    else
      specPt bits rd va kind (rd (specTable bits e3 + va / 2 ^ 21 % 2 ^ 9 * 8))
        (w && (rd (specTable bits e3 + va / 2 ^ 21 % 2 ^ 9 * 8)).testBit 1)
  else .notPresent .pd

/-- The PDP step (rules R185, R186). -/
def specPdp (bits : Nat) (rd : Nat → Nat) (va : Nat) (kind : Access) (e4 : Nat) (w : Bool) : PpgttResult :=
  if (rd (specTable bits e4 + va / 2 ^ 30 % 2 ^ 9 * 8)).testBit 0 then
    if (rd (specTable bits e4 + va / 2 ^ 30 % 2 ^ 9 * 8)).testBit 7 then
      specLeaf bits (rd (specTable bits e4 + va / 2 ^ 30 % 2 ^ 9 * 8)) 30 va
        (w && (rd (specTable bits e4 + va / 2 ^ 30 % 2 ^ 9 * 8)).testBit 1) kind
    else
      specPd bits rd va kind (rd (specTable bits e4 + va / 2 ^ 30 % 2 ^ 9 * 8))
        (w && (rd (specTable bits e4 + va / 2 ^ 30 % 2 ^ 9 * 8)).testBit 1)
  else .notPresent .pdp

/-- `PPGTT_Walk(ctx, va, kind)` of rule R190 without nested translation, from the PML4 table at `pml4` (rule R184). -/
def specPpgtt (bits : Nat) (rd : Nat → Nat) (pml4 va : Nat) (kind : Access) : PpgttResult :=
  if (rd (pml4 + va / 2 ^ 39 % 2 ^ 9 * 8)).testBit 0 then
    specPdp bits rd va kind (rd (pml4 + va / 2 ^ 39 % 2 ^ 9 * 8)) ((rd (pml4 + va / 2 ^ 39 % 2 ^ 9 * 8)).testBit 1)
  else .notPresent .pml4

/-- The outcomes of `TRTT_Walk` in GPA mode: `either` is the drawn one of rule R122, `wide` the refusal of rule R124. -/
inductive TrttResult where
  | mapped (va : Nat)
  | null
  | invalid
  | either
  | wide
  deriving DecidableEq, Repr

/-- `Flag(e)` and `Match(w)` of rule R119. -/
def specFlag (null invalid : Bool) : TrttResult := if null && invalid then .either else if null then .null else .invalid

/-- The L1 step (rules R117, R118, R123). -/
def specTrL1 (bits : Nat) (rd4 : Nat → Nat) (va nullVal invalidVal l2e : Nat) : TrttResult :=
  if 2 ^ bits ≤ l2e / 2 ^ 12 % 2 ^ 36 * 2 ^ 12 + va / 2 ^ 16 % 2 ^ 10 * 4 then .wide
  else if rd4 (l2e / 2 ^ 12 % 2 ^ 36 * 2 ^ 12 + va / 2 ^ 16 % 2 ^ 10 * 4) = nullVal ∨
      rd4 (l2e / 2 ^ 12 % 2 ^ 36 * 2 ^ 12 + va / 2 ^ 16 % 2 ^ 10 * 4) = invalidVal then
    specFlag (rd4 (l2e / 2 ^ 12 % 2 ^ 36 * 2 ^ 12 + va / 2 ^ 16 % 2 ^ 10 * 4) = nullVal)
      (rd4 (l2e / 2 ^ 12 % 2 ^ 36 * 2 ^ 12 + va / 2 ^ 16 % 2 ^ 10 * 4) = invalidVal)
  else .mapped (rd4 (l2e / 2 ^ 12 % 2 ^ 36 * 2 ^ 12 + va / 2 ^ 16 % 2 ^ 10 * 4) * 2 ^ 16 + va % 2 ^ 16)

/-- The L2 step (rule R116). -/
def specTrL2 (bits : Nat) (rd8 rd4 : Nat → Nat) (va nullVal invalidVal l3e : Nat) : TrttResult :=
  if 2 ^ bits ≤ l3e / 2 ^ 12 % 2 ^ 36 * 2 ^ 12 + va / 2 ^ 26 % 2 ^ 9 * 8 then .wide
  else if (rd8 (l3e / 2 ^ 12 % 2 ^ 36 * 2 ^ 12 + va / 2 ^ 26 % 2 ^ 9 * 8)).testBit 0 ∨
      (rd8 (l3e / 2 ^ 12 % 2 ^ 36 * 2 ^ 12 + va / 2 ^ 26 % 2 ^ 9 * 8)).testBit 1 then
    specFlag ((rd8 (l3e / 2 ^ 12 % 2 ^ 36 * 2 ^ 12 + va / 2 ^ 26 % 2 ^ 9 * 8)).testBit 1)
      ((rd8 (l3e / 2 ^ 12 % 2 ^ 36 * 2 ^ 12 + va / 2 ^ 26 % 2 ^ 9 * 8)).testBit 0)
  else specTrL1 bits rd4 va nullVal invalidVal (rd8 (l3e / 2 ^ 12 % 2 ^ 36 * 2 ^ 12 + va / 2 ^ 26 % 2 ^ 9 * 8))

/-- `TRTT_Walk(ctx, va)` of rule R119 in GPA mode without nested translation; `l3ptr` is `L3PTR`. -/
def specTrtt (bits : Nat) (rd8 rd4 : Nat → Nat) (l3ptr va nullVal invalidVal : Nat) : TrttResult :=
  if 2 ^ bits ≤ l3ptr + va / 2 ^ 35 % 2 ^ 9 * 8 then .wide
  else if (rd8 (l3ptr + va / 2 ^ 35 % 2 ^ 9 * 8)).testBit 0 ∨ (rd8 (l3ptr + va / 2 ^ 35 % 2 ^ 9 * 8)).testBit 1 then
    specFlag ((rd8 (l3ptr + va / 2 ^ 35 % 2 ^ 9 * 8)).testBit 1) ((rd8 (l3ptr + va / 2 ^ 35 % 2 ^ 9 * 8)).testBit 0)
  else specTrL2 bits rd8 rd4 va nullVal invalidVal (rd8 (l3ptr + va / 2 ^ 35 % 2 ^ 9 * 8))

/-- No TLB and no cached PML4 page holds anything for a context, and no copy that another context's use of a table has left
differs from memory: what holds before the context's first demand where no entry in use has been changed (rules R31, R69, R182). -/
abbrev State.coldFor (s : State) (c : Nat) : Prop :=
  (∀ e ∈ s.tlb, e.key.ctx ≠ c ∧ ∀ a, e.place = some a → e.word = s.memEntry e.key.level a) ∧
    ∀ p ∈ s.pml4Roots, p.ctx ≠ c ∧ ∀ va w, p.mayHold s va w → w = s.memEntry .pml4 (p.base + va.toNat / 2 ^ 39 % 512 * 8)

/-! What the cache controls cannot change. -/

/-- A memory event without its cache attributes. -/
def MemEvent.blind (e : MemEvent) : MemEvent := { e with label := none }

/-- A state without the cache controls: the two MOCS tables and the PAT at fixed values, and no cache attribute in the
history (rules R63, R158). -/
def State.blind (s : State) : State :=
  { s with
    lncf := State.reset.lncf
    glob := State.reset.glob
    pat := State.reset.pat
    history := s.history.map MemEvent.blind }

/-- Two outcomes that differ in cache controls and cache attributes at most. -/
def sameButCaches (o p : Res) : Prop :=
  match o, p with
  | .next t, .next u => t.blind = u.blind
  | .fault f, .fault g => f = g
  | .refused r, .refused q => r = q
  | .next _, .fault _ => False
  | .next _, .refused _ => False
  | .fault _, .next _ => False
  | .fault _, .refused _ => False
  | .refused _, .next _ => False
  | .refused _, .fault _ => False

/-- Every entry of the memory-interface control table holds a legal page faulting mode (rule R153). -/
abbrev State.pfmLegal (s : State) : Prop := ∀ i : Fin 64, (LlcWord.ofBits s.glob[i]).pfm = 0#3

/-- A register cycle that reads a cache control: the one way a MOCS or PAT value reaches a reader. -/
def readsCacheControl (i : Input) : Bool :=
  match i with
  | .request _ => false
  | .regWrite _ _ => false
  | .regRead a =>
    match a.resolve with
    | some (.lncf _) => true
    | some (.glob _) => true
    | some (.pat _) => true
    | _ => false
  | .ggttUpdate _ _ _ => false
  | .hostWrite _ _ _ => false
  | .hostRead _ _ => false
  | .describe _ _ => false
  | .faultResponse _ _ => false
  | .deviceReset => false
  | .renderReset _ => false
  | .rc6 _ => false
  | .renderPowerGating => false

/-- An input that can change a cache control while requests are in flight. -/
def writesCacheControl (i : Input) : Bool :=
  match i with
  | .request _ => false
  | .regWrite a _ =>
    match a.resolve with
    | some (.lncf _) => true
    | some (.glob _) => true
    | some (.pat _) => true
    | _ => false
  | .regRead _ => false
  | .ggttUpdate _ _ _ => false
  | .hostWrite _ _ _ => false
  | .hostRead _ _ => false
  | .describe _ _ => false
  | .faultResponse _ _ => false
  | .deviceReset => false
  | .renderReset _ => true
  | .rc6 restored => !restored
  | .renderPowerGating => false

end Sys2Proof.Machine
end

