-- ==== Sys2Proof/Certificates/Slice0/Obligations.lean ====
section
/-!
DEFINITION. The statements for the provers. `s`, `t` are states, `wk` is the walk of the request in flight, `r` a request.
A step of the machine runs a meaning; the statements about `step` connect the two.
-/

open Sys2Proof Sys2Proof.Machine

/-! ## Encodings -/

/-- Decoding an encoded well-formed word gives it back, as a number and as bytes in memory order, for every constructor of
`Instr` and both host address widths. -/
def Obligations.DecodeEncodeRoundTrip : Prop :=
  ∀ (h : Haw) (i : Instr), i.wf h = true →
    decode h i.slot (encode i) = .ok i ∧ decodeBytes h i.slot (encodeBytes i) = .ok i

/-- Every word that fits its slot decodes to a well-formed instruction of that slot, whose encoding is the word with exactly
the ignored bits and the reserved bits of the registers cleared; of a MOCS word the reserved bit 0 is kept in the syntax
(and no rule reads it, R137). That a register word with an MBZ bit set is taken and the bit dropped is log entry 16, that an
entry with P = 0 has the same format is log entry 27, that bit 7 alone selects the large page is log entry 30. -/
def Obligations.DecodeKeepsExactlyTheDefinedBits : Prop :=
  ∀ (h : Haw) (sl : Slot) (w : Word64), w.toNat < 2 ^ sl.bits →
    ∃ i, decode h sl w = .ok i ∧ i.slot = sl ∧ i.wf h = true ∧ encode i = w &&& slotMask h sl w

/-- Ignored bits have no effect: two entries that agree outside the ignored bits decode alike and neither is rejected (rule
R198; `careMask` lists the bits that are not ignored, bits 63:HAW being ignored in every entry of the page tables). -/
def Obligations.IgnoredBitsHaveNoEffect : Prop :=
  ∀ (h : Haw) (l : Level) (w w' : Word64), l ≠ .trL1 → w &&& careMask h l w = w' &&& careMask h l w' →
    ∃ i, decode h (.entry l) w = .ok i ∧ decode h (.entry l) w' = .ok i

/-- Six words written out from the encodings: a GGTT entry with every ignored bit set, a PML4 entry with bit 7 set, a 1GB
page, a 64KB page table pointer, a TR-TT L3 entry flagged null, a MOCS word. -/
def Obligations.SampleWordsDecode : Prop :=
  decode .client (.entry .ggtt) 0xFFFFFF8045678FFF#64 = .ok (.ggttPte 0x45678#34 7#3 true) ∧
    decode .client (.entry .pml4) 0x0000000000101083#64 = .ok (.pml4e 0x101#34 true true) ∧
    decode .client (.entry .pdp) 0x00000001C0000083#64 = .ok (.pdpe1gb 7#16 false false false false true true) ∧
    decode .client (.entry .pd) 0x0000000000103803#64 = .ok (.pdePt 0x103#34 true true true) ∧
    decode .client (.entry .trL3) 0x0000000000020002#64 = .ok (.trttL3e 0x20#36 true false) ∧
    decode .client .mocs 0x62#64 = .ok (.mocs 49#6 false)

/-- The address arithmetic. The output address of each terminal format is the address field above the untranslated low bits:
concatenation, as plain arithmetic (rule R96). The address of the entry each level reads is the table base plus the level's
index bits times the entry size (rule R97). -/
def Obligations.OutputAndEntryAddresses : Prop :=
  (∀ (va : BitVec 48),
     (∀ a fn p, outputAddr (.ggttPte a fn p) va = some (a.toNat * 2 ^ 12 + va.toNat % 2 ^ 12)) ∧
     (∀ a null pat pcd pwt rw p,
       outputAddr (.pte4kb a null pat pcd pwt rw p) va = some (a.toNat * 2 ^ 12 + va.toNat % 2 ^ 12)) ∧
     (∀ a lm null pat pcd pwt rw p,
       outputAddr (.pte64kb a lm null pat pcd pwt rw p) va = some (a.toNat * 2 ^ 16 + va.toNat % 2 ^ 16)) ∧
     (∀ a lm null pcd pwt rw p,
       outputAddr (.pde2mb a lm null pcd pwt rw p) va = some (a.toNat * 2 ^ 21 + va.toNat % 2 ^ 21)) ∧
     (∀ a lm null pcd pwt rw p,
       outputAddr (.pdpe1gb a lm null pcd pwt rw p) va = some (a.toNat * 2 ^ 30 + va.toNat % 2 ^ 30)) ∧
     (∀ a, outputAddr (.trttL1e a) va = some (a.toNat * 2 ^ 16 + va.toNat % 2 ^ 16))) ∧
  (∀ (base : Nat) (va : BitVec 48),
     entryAddr .ggtt base va = base + va.toNat / 2 ^ 12 % 2 ^ 20 * 8 ∧
     entryAddr .pml4 base va = base + va.toNat / 2 ^ 39 % 2 ^ 9 * 8 ∧
     entryAddr .pdp base va = base + va.toNat / 2 ^ 30 % 2 ^ 9 * 8 ∧
     entryAddr .pd base va = base + va.toNat / 2 ^ 21 % 2 ^ 9 * 8 ∧
     entryAddr .pt4k base va = base + va.toNat / 2 ^ 12 % 2 ^ 9 * 8 ∧
     entryAddr .pt64k base va = base + va.toNat / 2 ^ 16 % 2 ^ 5 * 2 ^ 4 * 8 ∧
     entryAddr .trL3 base va = base + va.toNat / 2 ^ 35 % 2 ^ 9 * 8 ∧
     entryAddr .trL2 base va = base + va.toNat / 2 ^ 26 % 2 ^ 9 * 8 ∧
     entryAddr .trL1 base va = base + va.toNat / 2 ^ 16 % 2 ^ 10 * 4)

/-- No page address and no table address of a word the decoder gives exceeds the host address width (rule R199). -/
def Obligations.DecodedAddressesBelowHaw : Prop :=
  ∀ (h : Haw) (l : Level) (w : Word64) (i : Instr) (va : BitVec 48), levelIsTr l = false →
    decode h (.entry l) w = .ok i →
      (∀ pa, outputAddr i va = some pa → pa < 2 ^ h.bits) ∧
      (∀ a rw p, i = .pml4e a rw p ∨ i = .pdpePd a rw p → tableBase a + 4096 ≤ 2 ^ h.bits) ∧
      (∀ a m64 rw p, i = .pdePt a m64 rw p → tableBase a + 4096 ≤ 2 ^ h.bits)

/-! ## A step runs the decoded word -/

/-- A step with a walk in flight, `u` being the state after its turn. Where its entry lies at `a` in memory, the step gets the
entry, brings the TLBs (`State.tlbGains`: they gain the word under its key and lose nothing), the cached PML4 pages
(`State.pml4Gains`: the first demand of a page is noted) and the walk's list of used entries up to date, and runs the decoded
word there; either the entry is read from memory, and the read is in the history, or it is a copy, and no read is; with no copy
it is read from memory. An address past `2^HAW` faults (log entry 24). Where the second-level translation gave no address, the
step runs a copy of the entry, which a TLB keeps as well, or takes the fault that the walk holds for that. Every outcome is
checked against the other requests in flight. Which copies are held is log entry 10, the check is log entries 2 and 36. -/
def Obligations.StepRunsWalkEntry : Prop :=
  ∀ (s u : State) (wk : Walk), s.turned = u → u.walk = some wk →
    (∀ a, wk.entry = .memory a → u.memSize < a + levelSize wk.level → step s = .fault (.noSuchAddress a)) ∧
    (∀ (a : Nat) (i : Instr) (v : State), wk.entry = .memory a → a + levelSize wk.level ≤ u.memSize →
      decodesTo u.params.haw (.entry wk.level) (u.entryWord wk a) i → v = u.fetched wk a →
        step s = u.checked (exec i v) ∧ v.walk = some { wk with used := (wk.level, a) :: wk.used } ∧
          v.mem = u.mem ∧ v.results = u.results ∧ v.halted = u.halted ∧ v.agenda = u.agenda ∧ u.sameTurns v ∧
          u.sameRegisters v ∧ u.sameBytes v ∧ u.sameEvents v ∧ u.tlbGains wk (u.entryWord wk a) (some a) v ∧
          u.pml4Gains wk a v ∧ (u.copies wk = [] → v.history ≠ u.history) ∧
          ((v.history = u.history ∧ u.entryWord wk a ∈ u.copies wk) ∨
            ∃ e, v.history = e :: u.history ∧ u.entryWord wk a = u.memEntry wk.level a ∧ e.kind = .read ∧
              e.pa = a ∧ e.n = levelSize wk.level ∧ e.data = (u.entryWord wk a).toNat ∧
              e.agent = (if levelIsTr wk.level then .trWalker else .pageWalker))) ∧
    (∀ f, wk.entry = .copyOnly f →
      step s = u.checked (u.raiseFault wk.req f) ∨
        ∃ w ∈ u.copies wk, ∀ i, decodesTo u.params.haw (.entry wk.level) w i →
          ∃ v, step s = u.checked (exec i v) ∧ v.walk = some wk ∧ v.mem = u.mem ∧ v.results = u.results ∧
            v.halted = u.halted ∧ v.agenda = u.agenda ∧ v.history = u.history ∧ u.sameTurns v ∧ u.sameRegisters v ∧
            u.sameBytes v ∧ u.sameEvents v ∧ u.tlbGains wk w none v ∧ v.pml4Roots = u.pml4Roots)

/-- A step with an input presented that carries a word, `u` being the state after its turn, runs the word: of a request its
MOCS word, index in bits 6:1, bit 0 reserved; of a register write the bits of the written value that the register has, in the
register's format (`decodesTo`; that a value above them is dropped is log entry 42). A request of an
object with GTT control only has no MOCS word and begins at once, without an index (rules R136, R137).
How the turns and the inputs follow each other, and the check against the requests in flight, is log entry 2. -/
def Obligations.StepRunsPresentedWord : Prop :=
  ∀ (s u : State) (rest : List Input), s.turned = u → u.walk = none →
    (∀ r, u.nextInput = some (.request r, rest) → r.object.controlState ≠ .gttOnly →
      step s = u.checked (exec (.mocs (r.mocs.extractLsb' 1 6) (r.mocs.getLsbD 0)) u)) ∧
    (∀ r, u.nextInput = some (.request r, rest) → r.object.controlState = .gttOnly →
      step s = u.checked ({ u with agenda := rest }.beginAccess r none)) ∧
    (∀ a w tg f i, u.nextInput = some (.regWrite a w, rest) → a.resolve = some tg → tg.format = some f →
      decodesTo u.params.haw (.register f) w i → step s = u.checked (exec i u))

/-- Turns and requests in flight (rules R10, R57, R68, R253; log entries 2 and 36). With no turn scheduled the walk goes on, or
the first waiting one; a turn of the outside world puts the walk aside; a turn of an engine lets its waiting walk go on. A step
stands exactly where it keeps, for every waiting request, the registers the request consults and the table entries its walk has
used or can come to (`State.Keeps` lists them); otherwise it is refused. A request halted by a fault is not in flight. -/
def Obligations.TurnsAndRequestsInFlight : Prop :=
  (∀ (s : State), s.schedule = [] → (s.walk ≠ none ∨ s.waiting = []) → s.turned = s) ∧
  (∀ (s : State) (wk : Walk) (others : List Walk), s.schedule = [] → s.walk = none → s.waiting = wk :: others →
    s.turned = { s with walk := some wk, waiting := others }) ∧
  (∀ (s : State) (later : List Turn), s.schedule = .outside :: later →
    s.turned = { s with schedule := later, walk := none, waiting := s.walk.toList ++ s.waiting }) ∧
  (∀ (s : State) (e : Engine) (later : List Turn) (wk : Walk) (before after : List Walk),
    s.schedule = .engine e :: later → s.waiting = before ++ wk :: after → wk.req.engine = e →
    (∀ w ∈ before, w.req.engine ≠ e) →
      s.turned =
        { s with schedule := later, walk := some wk, waiting := s.walk.toList ++ (before ++ after) }) ∧
  (∀ (s : State) (e : Engine) (later : List Turn), s.schedule = .engine e :: later →
    (∀ w ∈ s.waiting, w.req.engine ≠ e) → s.turned = { s with schedule := later }) ∧
  (∀ (u t : State), (∀ wk ∈ t.waiting, u.Keeps t wk) → u.checked (.next t) = .next t) ∧
  (∀ (u t : State) (wk : Walk), wk ∈ t.waiting → ¬ u.Keeps t wk → u.checked (.next t) = .refused .inFlight)

/-- The word a walk uses is the entry in memory or a copy of the entry that a TLB or a cached PML4 page holds; with no
copy that differs it is the entry in memory; an entry without an address is a copy (rules R68, R69, R182; log entry 10). The
copies are all the words that a TLB holds under the entry's key or has from an earlier use of the same address, by any context,
and those that a cached PML4 page may hold (`State.holdsCopy`), but for a request that is retried after a successful fault
response those that raise a fault (rule R221; log entry 11). -/
def Obligations.WalkUsesMemoryOrACopy : Prop :=
  ∀ (s : State) (wk : Walk) (a : Nat),
    (s.entryWord wk a = s.memEntry wk.level a ∨ s.entryWord wk a ∈ s.copies wk) ∧
      (s.quiet wk a → (s.entryWord wk a).toNat = s.readMem a (levelSize wk.level)) ∧
      (s.heldWord wk = none ∨ ∃ w ∈ s.copies wk, s.heldWord wk = some w) ∧
      ∀ w, w ∈ s.copies wk ↔ s.holdsCopy wk w ∧ ¬ (wk.req.retried = true ∧ wk.faultsOn w)

/-! ## The Global GTT -/

/-- A present GGTT entry and a read: the request completes with what it sees at the page address above `va[11:0]`.
What a reader sees is rule R65 by log entry 12. -/
def Obligations.GgttPteReads : Prop :=
  ∀ (s : State) (wk : Walk) (addr : BitVec 34) (fn : BitVec 3), s.walk = some wk → wk.level = .ggtt →
    wk.req.kind = .read → (page4k addr wk.va).toNat + wk.req.n ≤ s.memSize →
      ∃ t, exec (.ggttPte addr fn true) s = .next t ∧ s.readCompletion wk (page4k addr wk.va).toNat none t

/-- A present GGTT entry and a write: the bytes are stored at the page address above `va[11:0]`, and no other byte
changes. The entry has no permission bit: nothing refuses the write (rule R178). -/
def Obligations.GgttPteWrites : Prop :=
  ∀ (s : State) (wk : Walk) (addr : BitVec 34) (fn : BitVec 3), s.walk = some wk → wk.level = .ggtt →
    wk.req.kind = .write → s.memWf = true → (page4k addr wk.va).toNat + wk.req.n ≤ s.memSize →
      ∃ t, exec (.ggttPte addr fn true) s = .next t ∧ s.writeCompletion wk (page4k addr wk.va).toNat none t

/-- `GGTT_Update(idx, v)`: a step writes the entry's eight bytes at `GGTT_BASE + idx * 8`, records the write in the history
as the host's (rule R65), and changes nothing else but the second-level epoch and the inputs left (rule R175). That the update is
one step through either path is log entry 23, that the least significant byte lies lowest is rule R58 by log entry 7, and the
check of the requests in flight log entry 2. -/
def Obligations.GgttUpdateWritesTheEntry : Prop :=
  ∀ (s u : State) (p : GgttPath) (idx : BitVec 20) (v : Word64) (rest : List Input), s.turned = u →
    u.presents (.ggttUpdate p idx v) rest → u.memWf = true → u.pgtblCtl.toNat + 0x800000 ≤ u.memSize →
      ∃ t, step s = u.checked (.next t) ∧ u.storedBytes (u.pgtblCtl.toNat + idx.toNat * 8) 8 v.toNat t ∧
        t.history =
          ⟨.host, .write, u.pgtblCtl.toNat + idx.toNat * 8, 8, v.toNat,
            u.readMem (u.pgtblCtl.toNat + idx.toNat * 8) 8, none, none⟩ :: u.history ∧
        u.sameRegisters t ∧ u.sameEvents t ∧ t.walk = none ∧ t.results = u.results ∧ t.tlb = u.tlb ∧
        t.pml4Roots = u.pml4Roots ∧ t.halted = u.halted ∧ t.agenda = rest ∧ u.sameTurns t

/-- The host's own loads and stores of physical memory (rule R30). A store outside the Global GTT writes its bytes; one with a
byte in its 8MB is refused (rule R252, U16; log entry 23, as is that a store of no bytes runs anywhere); a load returns what the
host sees (rule R65); each is recorded in the history as the host's, without a translation or cache attributes; an access past
`2^HAW` faults (log entry 24). -/
def Obligations.HostLoadsAndStores : Prop :=
  ∀ (s u : State) (pa n d : Nat) (rest : List Input), s.turned = u →
    (u.presents (.hostWrite pa n d) rest → pa + n ≤ u.memSize →
      (n = 0 ∨ pa + n ≤ u.pgtblCtl.toNat ∨ u.pgtblCtl.toNat + 0x800000 ≤ pa → u.memWf = true →
        ∃ t, step s = u.checked (.next t) ∧ u.storedBytes pa n d t ∧
          t.history = ⟨.host, .write, pa, n, d % 256 ^ n, u.readMem pa n, none, none⟩ :: u.history ∧
          u.sameRegisters t ∧ u.sameEvents t ∧ t.walk = none ∧ t.results = u.results ∧ t.tlb = u.tlb ∧
          t.pml4Roots = u.pml4Roots ∧ t.halted = u.halted ∧ t.agenda = rest ∧ u.sameTurns t) ∧
      (1 ≤ n → u.pgtblCtl.toNat < pa + n → pa < u.pgtblCtl.toNat + 0x800000 → step s = .refused .ggttBypass)) ∧
    (u.presents (.hostRead pa n) rest → pa + n ≤ u.memSize →
      ∃ t, step s = .next t ∧ t.results = ⟨.host, 0, .read, n, u.visible .host none pa n, false⟩ :: u.results ∧
        t.history = ⟨.host, .read, pa, n, u.visible .host none pa n, 0, none, none⟩ :: u.history ∧
        u.sameRegisters t ∧ u.sameBytes t ∧ u.sameEvents t ∧ t.walk = none ∧ t.tlb = u.tlb ∧
        t.pml4Roots = u.pml4Roots ∧ t.halted = u.halted ∧ t.agenda = rest ∧ u.sameTurns t) ∧
    (u.memSize < pa + n → (u.presents (.hostWrite pa n d) rest ∨ u.presents (.hostRead pa n) rest) →
      step s = .fault (.noSuchAddress pa))

/-! ## The Per-Process GTT -/

/-- A present `PML4E` hands the page-directory-pointer table it addresses to the PDP level, a present `PDPE_PD` the page
directory to the PD level; the entry's R/W bit is ANDed in, and nothing else changes. `base` is where the table lies after
the second-level translation, the table address itself without nesting. -/
def Obligations.UpperPointersDescend : Prop :=
  ∀ (s : State) (wk : Walk) (addr : BitVec 34) (rw : Bool) (base : Nat), s.walk = some wk →
    s.hostPhys wk.req.ctx (addr.toNat * 4096) = some base →
      (wk.level = .pml4 → exec (.pml4e addr rw true) s =
        .next { s with walk := some { wk with
          level := .pdp, entry := .memory (base + wk.va.toNat / 2 ^ 30 % 512 * 8), rw := wk.rw && rw } }) ∧
      (wk.level = .pdp → exec (.pdpePd addr rw true) s =
        .next { s with walk := some { wk with
          level := .pd, entry := .memory (base + wk.va.toNat / 2 ^ 21 % 512 * 8), rw := wk.rw && rw } })

/-- A present `PDE_PT` hands the page table it addresses to the PT level: in 4KB mode the entry is selected by
`va[20:12]`, in 64KB mode by `va[20:16] : 0000b`, so the other fifteen entries of each group of sixteen are never read. -/
def Obligations.PdePtSelectsThePageTableEntry : Prop :=
  ∀ (s : State) (wk : Walk) (addr : BitVec 34) (rw : Bool) (base : Nat), s.walk = some wk → wk.level = .pd →
    s.hostPhys wk.req.ctx (addr.toNat * 4096) = some base →
      exec (.pdePt addr false rw true) s =
          .next { s with walk := some { wk with
            level := .pt4k, entry := .memory (base + wk.va.toNat / 2 ^ 12 % 512 * 8), rw := wk.rw && rw } } ∧
        exec (.pdePt addr true rw true) s =
          .next { s with walk := some { wk with
            level := .pt64k, entry := .memory (base + wk.va.toNat / 2 ^ 16 % 32 * 16 * 8), rw := wk.rw && rw } }

/-- Nested translation (rule R203): without `NESTE` an address is used as it is; with it `SecondLevel` gives the host page,
kept below `2^HAW`, and the offset in the page stays, so that a multiple of 8 remains one (rule R204; log entry 8). -/
def Obligations.NestedTranslationRule : Prop :=
  ∀ (s : State) (c a : Nat),
    ((s.ctx c).desc.neste = false → s.hostPhys c a = some a) ∧
    ((s.ctx c).desc.neste = true →
      s.hostPhys c a =
        (Config.secondLevel c s.vtdEpoch (a / 4096)).map (fun p => p % (s.memSize / 4096) * 4096 + a % 4096)) ∧
    ((s.ctx c).desc.neste = true → ∀ h, s.hostPhys c a = some h →
      h < s.memSize ∧ h % 4096 = a % 4096 ∧ (a % 8 = 0 → h % 8 = 0))

/-- Where the second-level translation of a table or page fails, `PageNotPresent` is raised, unless a TLB or a cached PML4 page
holds a copy of the entry about to be read, with which the walk goes on without an address (`State.noAddress`; rules R69, R182,
R203; log entries 10 and 28). By a page-table pointer the level is the one about to be read; by a leaf its own, for a read and
for a permitted write, and no copy stands for a page; where the page holds a TR-TT table word, a copy of that word may; by an
unflagged TR-TT L3 or L2 entry the level is the TR-TT level about to be read (tables in GPA space) or the PML4 (tables in the
virtual address space); by a mapped L1 word the PML4; at the start of a request the PML4, or the TR-TT L3 table. The address
recorded is the one the page-table walk translates (rule R211); for a TR-TT table in GPA space, of which the spec names none, it is
the guest physical address of the table word, by the model's choice (log entry 45). -/
def Obligations.NestedFailuresAreNotPresent : Prop :=
  (∀ (s : State) (wk : Walk) (addr : BitVec 34) (rw m64 : Bool), s.walk = some wk →
    (∃ base, s.hostPhys wk.req.ctx (addr.toNat * 4096) = some base) ∨
      (wk.level = .pml4 → s.noAddress { wk with level := .pdp, rw := wk.rw && rw } (.pageNotPresent wk.va .pdp)
        (exec (.pml4e addr rw true) s)) ∧
      (wk.level = .pdp → s.noAddress { wk with level := .pd, rw := wk.rw && rw } (.pageNotPresent wk.va .pd)
        (exec (.pdpePd addr rw true) s)) ∧
      (wk.level = .pd → s.noAddress { wk with level := if m64 then .pt64k else .pt4k, rw := wk.rw && rw }
        (.pageNotPresent wk.va .pt) (exec (.pdePt addr m64 rw true) s))) ∧
  (∀ (s : State) (wk : Walk) (i : Instr) (f : LeafFlags) (pa : Nat), s.walk = some wk → i.slot = .entry wk.level →
    leafFlags i = some f → outputAddr i wk.va = some pa → f.p = true → f.null = false →
    (f.lm && s.params.hasLocalMemory) = false →
    (wk.dest = .target → wk.req.kind = .write → (wk.rw && f.rw) = true) →
    (∃ hpa, s.hostPhys wk.req.ctx pa = some hpa) ∨
      (wk.dest = .target → exec i s = s.raiseFault wk.req (.pageNotPresent wk.va (levelStage wk.level))) ∧
      (∀ st, wk.dest = .table st →
        s.noAddress
          { wk with level := st.level, dest := .target, tableAttrs := leafAttrs (Config.freeLargePagePat s.draws) i }
          (.pageNotPresent wk.va (levelStage wk.level)) (exec i s))) ∧
  (∀ (s : State) (wk : Walk) (addr : BitVec 36) (a : BitVec 48) (i : Instr) (st : TrStep), s.walk = some wk →
    ((s.ctx wk.req.ctx).desc.dualContext = true → addr.toNat < 2 ^ 35) →
    (wk.level = .trL3 ∧ i = .trttL3e addr false false ∧ st = .l2 ∧
        a.toNat = addr.toNat * 4096 + wk.trva.toNat / 2 ^ 26 % 512 * 8 ∨
      wk.level = .trL2 ∧ i = .trttL2e addr false false ∧ st = .l1 ∧
        a.toNat = addr.toNat * 4096 + wk.trva.toNat / 2 ^ 16 % 1024 * 4) →
      ((s.ctx wk.req.ctx).tablesVirtual = false → a.toNat < s.memSize →
        (∃ hpa, s.hostPhys wk.req.ctx a.toNat = some hpa) ∨
          s.noAddress { wk with level := st.level, dest := .target, tableAttrs := none }
            (.pageNotPresent a (levelStage st.level)) (exec i s)) ∧
      ((s.ctx wk.req.ctx).tablesVirtual = true → trvaHit (s.ctx wk.req.ctx).trvadr a = some false →
        (∃ base, s.hostPhys wk.req.ctx (s.ctx wk.req.ctx).desc.pml4Ptr.toNat = some base) ∨
          s.noAddress { wk with level := .pml4, va := a, rw := true, dest := .table st, tableAttrs := none }
            (.pageNotPresent a .pml4) (exec i s))) ∧
  (∀ (s : State) (wk : Walk) (w : BitVec 32) (v : BitVec 48), s.walk = some wk → wk.level = .trL1 →
    w ≠ (s.ctx wk.req.ctx).trttNull → w ≠ (s.ctx wk.req.ctx).trttInvalid →
    ((s.ctx wk.req.ctx).desc.dualContext = true → w.toNat < 2 ^ 31) →
    v.toNat = w.toNat * 2 ^ 16 + wk.trva.toNat % 2 ^ 16 →
      (∃ base, s.hostPhys wk.req.ctx (s.ctx wk.req.ctx).desc.pml4Ptr.toNat = some base) ∨
      s.noAddress { wk with level := .pml4, va := v, rw := true, dest := .target, tableAttrs := none }
        (.pageNotPresent v .pml4) (exec (.trttL1e w) s)) ∧
  (∀ (s : State) (r : Request) (index : Option (BitVec 6)), r.isOwn → (s.ctx r.ctx).desc.kind = .legacyPpgtt64 →
    (s.untiled r → (∃ base, s.hostPhys r.ctx (s.ctx r.ctx).desc.pml4Ptr.toNat = some base) ∨
      s.noAddress (r.walkAt index .pml4 0 (r.va.setWidth 48) .target) (.pageNotPresent (r.va.setWidth 48) .pml4)
        (s.beginAccess r index)) ∧
    (∀ a : BitVec 48, s.trBypass.toNat % 2 = 1 → r.mayTile →
      trvaHit (s.ctx r.ctx).trvadr (r.va.setWidth 48) = some true →
      a.toNat = (s.ctx r.ctx).trttL3ptr.toNat / 2 ^ 16 % 2 ^ 32 * 2 ^ 16 + r.va.toNat / 2 ^ 35 % 512 * 8 →
        ((s.ctx r.ctx).trtte.toNat % 4 = 1 → s.params.trttGpaModeAllowed = true → a.toNat < s.memSize →
          (∃ hpa, s.hostPhys r.ctx a.toNat = some hpa) ∨
            s.noAddress (r.walkAt index .trL3 0 (r.va.setWidth 48) .target) (.pageNotPresent a .trL3)
              (s.beginAccess r index)) ∧
        ((s.ctx r.ctx).trtte.toNat % 4 = 3 → trvaHit (s.ctx r.ctx).trvadr a = some false →
          (∃ base, s.hostPhys r.ctx (s.ctx r.ctx).desc.pml4Ptr.toNat = some base) ∨
            s.noAddress (r.walkAt index .pml4 0 a (.table .l3)) (.pageNotPresent a .pml4) (s.beginAccess r index))))

/-- `PDPE_1GB`, `PDE_2MB`, `PTE_64KB`, `PTE_4KB`, present and not null, and a read of the request's own address: the
request completes with what it sees at the output address, whatever the R/W bits of the path. `hpa` is the output address
after the second-level translation, the same without nesting.
What a reader sees is rule R65 by log entry 12. -/
def Obligations.LeafWordsRead : Prop :=
  ∀ (s : State) (wk : Walk) (i : Instr) (f : LeafFlags) (pa hpa : Nat), s.walk = some wk → i.slot = .entry wk.level →
    leafFlags i = some f → outputAddr i wk.va = some pa → f.p = true → f.null = false →
    (f.lm && s.params.hasLocalMemory) = false → wk.dest = .target → wk.req.kind = .read →
    s.hostPhys wk.req.ctx pa = some hpa → hpa + wk.req.n ≤ s.memSize →
      ∃ t, exec i s = .next t ∧ s.readCompletion wk hpa (leafAttrs (Config.freeLargePagePat s.draws) i) t

/-- The same four leaf words, a write, and R/W = 1 in the leaf and in every entry above it: the bytes are stored at the
output address and no other byte changes. -/
def Obligations.LeafWordsWrite : Prop :=
  ∀ (s : State) (wk : Walk) (i : Instr) (f : LeafFlags) (pa hpa : Nat), s.walk = some wk → i.slot = .entry wk.level →
    leafFlags i = some f → outputAddr i wk.va = some pa → f.p = true → f.null = false →
    (f.lm && s.params.hasLocalMemory) = false → wk.dest = .target → wk.req.kind = .write → (wk.rw && f.rw) = true →
    s.hostPhys wk.req.ctx pa = some hpa → s.memWf = true → hpa + wk.req.n ≤ s.memSize →
      ∃ t, exec i s = .next t ∧ s.writeCompletion wk hpa (leafAttrs (Config.freeLargePagePat s.draws) i) t

/-- The same four leaf words when the address translated is a TR-TT table address (virtual mode): the table word is read
next at the output address, as a read whatever the request's kind and the R/W bits, with the leaf's memory attributes; nothing
else changes. -/
def Obligations.LeafWordsTranslateTableAddresses : Prop :=
  ∀ (s : State) (wk : Walk) (i : Instr) (f : LeafFlags) (pa hpa : Nat) (st : TrStep), s.walk = some wk →
    i.slot = .entry wk.level → leafFlags i = some f → outputAddr i wk.va = some pa → f.p = true → f.null = false →
    (f.lm && s.params.hasLocalMemory) = false → wk.dest = .table st → s.hostPhys wk.req.ctx pa = some hpa →
      exec i s = .next { s with walk := some { wk with
        level := st.level, entry := .memory hpa, dest := .target,
        tableAttrs := leafAttrs (Config.freeLargePagePat s.draws) i } }

/-- A null leaf under a permitted access: a read gets zeros with the null indicator, a write is dropped; no access to
memory is made, and no interrupt becomes pending (rules R62, R195).
The counter rises by a free amount (log entry 19). -/
def Obligations.NullLeafCompletesNull : Prop :=
  ∀ (s : State) (wk : Walk) (i : Instr) (f : LeafFlags), s.walk = some wk → i.slot = .entry wk.level →
    leafFlags i = some f → f.p = true → f.null = true → wk.dest = .target →
    (wk.req.kind = .write → (wk.rw && f.rw) = true) →
      ∃ t, exec i s = .next t ∧ s.nullCompletion wk.req t ∧ t.invalidTilePending = s.invalidTilePending

/-- A write through a leaf with R/W = 0 in the leaf or in an entry above it: where the page is not null it raises
`WriteProtect`; where the page is null too, it does that or completes null, and has no third outcome (rules R190, R194). -/
def Obligations.DeniedWrites : Prop :=
  ∀ (s : State) (wk : Walk) (i : Instr) (f : LeafFlags), s.walk = some wk → i.slot = .entry wk.level →
    leafFlags i = some f → f.p = true → wk.dest = .target → wk.req.kind = .write → (wk.rw && f.rw) = false →
      (f.null = false → exec i s = s.raiseFault wk.req (.writeProtect wk.va)) ∧
      (f.null = true →
        exec i s = s.raiseFault wk.req (.writeProtect wk.va) ∨
          ∃ t, exec i s = .next t ∧ s.nullCompletion wk.req t ∧ t.invalidTilePending = s.invalidTilePending)

/-- An entry of the Per-Process GTT with P = 0, of any of the seven formats and whatever its other bits, raises
`PageNotPresent` with the address and the level, and nothing below it is read; a GGTT entry with Present = 0 raises
`GGTTNotPresent` with the 32-bit address. -/
def Obligations.NotPresentEntryFaults : Prop :=
  (∀ (s : State) (wk : Walk) (i : Instr), s.walk = some wk → i.slot = .entry wk.level → presentBit i = some false →
    exec i s = s.raiseFault wk.req (.pageNotPresent wk.va
      (if wk.level = .pml4 then .pml4 else if wk.level = .pdp then .pdp else if wk.level = .pd then .pd else .pt))) ∧
  (∀ (s : State) (wk : Walk) (addr : BitVec 34) (fn : BitVec 3), s.walk = some wk → wk.level = .ggtt →
    exec (.ggttPte addr fn false) s = s.raiseFault wk.req (.ggttNotPresent (wk.va.extractLsb' 0 32)))

/-- What a present leaf refuses: a page marked Local Memory on a device with local memory, which the spec does not describe
(log entry 33), and a null page under a TR-TT table word, which would have no value (rule R124). -/
def Obligations.LeafRefusals : Prop :=
  ∀ (s : State) (wk : Walk) (i : Instr) (f : LeafFlags), s.walk = some wk → i.slot = .entry wk.level →
    leafFlags i = some f → f.p = true →
      (f.null = false → f.lm = true → s.params.hasLocalMemory = true →
        (wk.dest = .target → wk.req.kind = .write → (wk.rw && f.rw) = true) → exec i s = .refused .localMemory) ∧
      (f.null = true → (∃ st, wk.dest = .table st) → exec i s = .refused .tableNullPage)

/-- Null completion (rule R62): for a read the requester receives zero data with the null indicator, for a write no byte
changes, and neither makes an access to memory. -/
def Obligations.NullCompletionRule : Prop :=
  ∀ (s : State) (r : Request),
    (s.completeNull r).results = ⟨.engine r.engine, r.ctx, r.kind, r.n, 0, true⟩ :: s.results ∧
      (∀ a, (s.completeNull r).byte a = s.byte a) ∧ (s.completeNull r).history = s.history ∧
      (s.completeNull r).walk = none

/-! ## Faults -/

/-- Taking a fault. In the terminal page faulting mode the run ends with the event. In fault and halt the request ends, its
engine halts with the request and the event recorded, and no byte, register, counter or completion changes.
The two modes are log entry 9. -/
def Obligations.TakingAFault : Prop :=
  ∀ (s : State) (r : Request) (f : Fault),
    ((s.ctx r.ctx).desc.pfmode = .terminal → s.raiseFault r f = .fault f) ∧
    ((s.ctx r.ctx).desc.pfmode = .faultAndHalt →
      ∃ t, s.raiseFault r f = .next t ∧ t.walk = none ∧ t.halted = ⟨r.engine, r, f⟩ :: s.halted ∧
        t.isHalted r.engine = true ∧ t.results = s.results ∧ t.history = s.history ∧ t.agenda = s.agenda ∧
        t.tlb = s.tlb ∧ t.pml4Roots = s.pml4Roots ∧ s.sameTurns t ∧ s.sameRegisters t ∧ s.sameBytes t ∧ s.sameEvents t)

/-- A halted engine makes no further request: where none of its requests is in flight (`StepKeepsInv` says that none is), a step
starts none and gives it no completion; its requests stay in the list of inputs. -/
def Obligations.HaltedEngineMakesNoRequest : Prop :=
  ∀ (s t : State) (e : Engine), s.isHalted e = true → (∀ wk ∈ s.inFlight, wk.req.engine ≠ e) → step s = .next t →
    (∀ wk ∈ t.inFlight, wk.req.engine ≠ e) ∧
      t.results.filter (fun c => c.agent = .engine e) = s.results.filter (fun c => c.agent = .engine e)

/-- The fault response of an engine halted by a fault, wherever it stands among the halted. Successful: that fault no longer
holds the engine and its whole request is retried before any other input; no byte, register or counter changes. Unsuccessful:
the cycle becomes an invalid cycle, beyond which the model does not go.
The modes, what the retry may use of the TLBs, and the invalid cycle are log entries 9, 11 and 34. -/
def Obligations.FaultResponseRetriesOrEnds : Prop :=
  ∀ (s u : State) (e : Engine) (h : Halted) (before others : List Halted) (rest : List Input), s.turned = u →
    u.halted = before ++ h :: others → h.engine = e → (∀ g ∈ before, g.engine ≠ e) →
    (u.presents (.faultResponse e true) rest →
      ∃ t, step s = .next t ∧ t.halted = before ++ others ∧
        t.agenda = .request { h.req with retried := true } :: rest ∧ t.walk = none ∧ t.results = u.results ∧
        t.history = u.history ∧ u.sameRegisters t ∧ (∀ a, t.byte a = u.byte a) ∧ u.sameEvents t ∧ t.tlb = u.tlb ∧
        t.pml4Roots = u.pml4Roots ∧ u.sameTurns t) ∧
    (u.presents (.faultResponse e false) rest → step s = .fault (.invalidCycle e))

/-! ## The Tiled Resources Translation Table -/

/-- `TRVA_Hit`: mask `0000b` never hits, mask `1111b` hits exactly when `va[47:44] = TRVADV`, any other mask is refused
(rule R113). -/
def Obligations.TrvaHitRule : Prop :=
  ∀ (w : Word32) (va : BitVec 48),
    (w.toNat / 16 % 16 = 0 → trvaHit w va = some false) ∧
    (w.toNat / 16 % 16 = 15 → trvaHit w va = some (decide (va.toNat / 2 ^ 44 = w.toNat % 16))) ∧
    (w.toNat / 16 % 16 ≠ 0 → w.toNat / 16 % 16 ≠ 15 → trvaHit w va = none)

/-- An L3 or L2 entry without a flag, tables in GPA space: the next table word is read at the entry's table address plus
the index, below `2^HAW`; nothing else changes. `pa` is that address after the second-level translation. -/
def Obligations.TrPointersInGpaMode : Prop :=
  ∀ (s : State) (wk : Walk) (addr : BitVec 36) (a pa : Nat), s.walk = some wk →
    (s.ctx wk.req.ctx).tablesVirtual = false → ((s.ctx wk.req.ctx).desc.dualContext = true → addr.toNat < 2 ^ 35) →
    a < s.memSize → s.hostPhys wk.req.ctx a = some pa →
      (wk.level = .trL3 → a = addr.toNat * 4096 + wk.trva.toNat / 2 ^ 26 % 512 * 8 →
        exec (.trttL3e addr false false) s =
          .next { s with walk := some { wk with
            level := .trL2, entry := .memory pa, dest := .target, tableAttrs := none } }) ∧
      (wk.level = .trL2 → a = addr.toNat * 4096 + wk.trva.toNat / 2 ^ 16 % 1024 * 4 →
        exec (.trttL2e addr false false) s =
          .next { s with walk := some { wk with
            level := .trL1, entry := .memory pa, dest := .target, tableAttrs := none } })

/-- An L3 or L2 entry without a flag, tables in the virtual address space: the table address is walked through the
Per-Process GTT from its PML4 table, as a table address; nothing else changes. -/
def Obligations.TrPointersInVirtualMode : Prop :=
  ∀ (s : State) (wk : Walk) (addr : BitVec 36) (a : BitVec 48) (base : Nat), s.walk = some wk →
    (s.ctx wk.req.ctx).tablesVirtual = true → ((s.ctx wk.req.ctx).desc.dualContext = true → addr.toNat < 2 ^ 35) →
    trvaHit (s.ctx wk.req.ctx).trvadr a = some false →
    s.hostPhys wk.req.ctx (s.ctx wk.req.ctx).desc.pml4Ptr.toNat = some base →
      (wk.level = .trL3 → a.toNat = addr.toNat * 4096 + wk.trva.toNat / 2 ^ 26 % 512 * 8 →
        exec (.trttL3e addr false false) s = .next { s with walk := some { wk with
          level := .pml4, entry := .memory (base + a.toNat / 2 ^ 39 % 512 * 8), va := a, rw := true, dest := .table .l2,
          tableAttrs := none } }) ∧
      (wk.level = .trL2 → a.toNat = addr.toNat * 4096 + wk.trva.toNat / 2 ^ 16 % 1024 * 4 →
        exec (.trttL2e addr false false) s = .next { s with walk := some { wk with
          level := .pml4, entry := .memory (base + a.toNat / 2 ^ 39 % 512 * 8), va := a, rw := true, dest := .table .l1,
          tableAttrs := none } })

/-- An L3 or L2 entry flagged null or invalid, and an L1 word equal to `TRTT_NULL` or `TRTT_INVALID`, end the walk with the
null completion: invalid makes the interrupt pending, null leaves it as it was, and what is both does one or the other (rules
R119 to R123, R216). With dual context enabled the entry's bit 47, of an L1 word bit 31, is clear; with it set the entry is
refused (`TrEntriesOutsideTheContractRefused`; rule R129). -/
def Obligations.FlaggedTilesEndTheWalk : Prop :=
  ∀ (s : State) (wk : Walk) (i : Instr) (null invalid : Bool), s.walk = some wk → (null || invalid) = true →
    ((∃ addr, wk.level = .trL3 ∧ i = .trttL3e addr null invalid ∧
        ((s.ctx wk.req.ctx).desc.dualContext = true → addr.toNat < 2 ^ 35)) ∨
      (∃ addr, wk.level = .trL2 ∧ i = .trttL2e addr null invalid ∧
        ((s.ctx wk.req.ctx).desc.dualContext = true → addr.toNat < 2 ^ 35)) ∨
      (∃ w, wk.level = .trL1 ∧ i = .trttL1e w ∧ ((s.ctx wk.req.ctx).desc.dualContext = true → w.toNat < 2 ^ 31) ∧
        null = decide (w = (s.ctx wk.req.ctx).trttNull) ∧
        invalid = decide (w = (s.ctx wk.req.ctx).trttInvalid))) →
      ∃ t, exec i s = .next t ∧ s.nullCompletion wk.req t ∧
        (invalid = false → t.invalidTilePending = s.invalidTilePending) ∧
        (null = false → t.invalidTilePending = true) ∧
        (t.invalidTilePending = s.invalidTilePending ∨ t.invalidTilePending = true)

/-- An L1 word that matches neither register maps the tile: the page-table walk of `L1E[31:0] : va[15:0]` begins at its
PML4 table, with no second look at the TR-VA window (rules R61, R118, R119). -/
def Obligations.L1WordMapsTheTile : Prop :=
  ∀ (s : State) (wk : Walk) (w : BitVec 32) (v : BitVec 48) (base : Nat), s.walk = some wk → wk.level = .trL1 →
    w ≠ (s.ctx wk.req.ctx).trttNull → w ≠ (s.ctx wk.req.ctx).trttInvalid →
    ((s.ctx wk.req.ctx).desc.dualContext = true → w.toNat < 2 ^ 31) →
    s.hostPhys wk.req.ctx (s.ctx wk.req.ctx).desc.pml4Ptr.toNat = some base →
    v.toNat = w.toNat * 2 ^ 16 + wk.trva.toNat % 2 ^ 16 →
      exec (.trttL1e w) s = .next { s with walk := some { wk with
        level := .pml4, entry := .memory (base + v.toNat / 2 ^ 39 % 512 * 8), va := v, rw := true, dest := .target,
        tableAttrs := none } }

/-- What the TR-TT refuses: with dual context enabled, an L3 or L2 entry with bit 47 set, flagged or not, and an L1 word with bit
31 set, whatever it equals (rule R129, U11); of an unflagged L3 or L2 entry, a table address at or above `2^HAW` in GPA mode (rule
R124) and a table inside the TR-VA window in virtual mode (rule R131). The order of these refusals is log entry
15. -/
def Obligations.TrEntriesOutsideTheContractRefused : Prop :=
  (∀ (s : State) (wk : Walk) (addr : BitVec 36) (null invalid : Bool) (i : Instr), s.walk = some wk →
    (wk.level = .trL3 ∧ i = .trttL3e addr null invalid ∨ wk.level = .trL2 ∧ i = .trttL2e addr null invalid) →
      ((s.ctx wk.req.ctx).desc.dualContext = true → 2 ^ 35 ≤ addr.toNat → exec i s = .refused .dualContextBit47) ∧
      (null = false → invalid = false → (s.ctx wk.req.ctx).desc.dualContext = false ∨ addr.toNat < 2 ^ 35 →
        ((s.ctx wk.req.ctx).tablesVirtual = false → s.memSize ≤ addr.toNat * 4096 →
          exec i s = .refused .tablePointerWide) ∧
        ((s.ctx wk.req.ctx).tablesVirtual = true → (s.ctx wk.req.ctx).trvadr.toNat / 16 % 16 = 15 →
          (s.ctx wk.req.ctx).trvadr.toNat % 16 = addr.toNat / 2 ^ 32 → exec i s = .refused .tableInWindow))) ∧
  (∀ (s : State) (wk : Walk) (w : BitVec 32), s.walk = some wk → wk.level = .trL1 →
    (s.ctx wk.req.ctx).desc.dualContext = true → 2 ^ 31 ≤ w.toNat → exec (.trttL1e w) s = .refused .dualContextBit47)

/-! ## The MOCS word: the start of a request -/

/-- A request of the global space in range begins: its GGTT entry is read next at `GGTT_BASE + va[31:12] * 8`, with the
MOCS index of the word, or without an index for an object with GTT control only; the request is taken and nothing else
changes. That a request with an index the required table does not define (0, 1, 60, 62, 63 and others, which R146 and R248
have refused) begins like any other is log entry 14; which requests are global is log entry 37. -/
def Obligations.MocsWordBeginsGlobalRequest : Prop :=
  ∀ (s : State) (r : Request) (rest : List Input) (index : BitVec 6) (rsv : Bool), s.presents (.request r) rest →
    r.isGlobal → (s.ctx r.ctx).trttEnabled = false →
      ((LlcWord.ofBits s.glob[index.toFin]).pfm = 0#3 →
        exec (.mocs index rsv) s = .next { s with
          agenda := rest
          walk := some (r.walkAt (some index) .ggtt (s.pgtblCtl.toNat + r.va.toNat / 2 ^ 12 * 8) (r.va.setWidth 48)
            .target) }) ∧
      { s with agenda := rest }.beginAccess r none = .next { s with
        agenda := rest
        walk := some (r.walkAt none .ggtt (s.pgtblCtl.toNat + r.va.toNat / 2 ^ 12 * 8) (r.va.setWidth 48) .target) }

/-- A per-process request in range whose address the TR-TT does not take (TR-TT disabled, the bypass enabled, or no hit)
begins: its PML4 entry is read next at `PML4_PTR + va[47:39] * 8`, with the MOCS index of the word, or without an index for an
object with GTT control only. `base` is `PML4_PTR` after the second-level translation. Reserved indices begin like any
other by log entry 14; with the bypass enabled the TR-TT is inactive for the engines it serves, and another engine outside
the window is not affected by it, by log entry 15. -/
def Obligations.MocsWordBeginsPerProcessRequest : Prop :=
  ∀ (s : State) (r : Request) (rest : List Input) (index : BitVec 6) (rsv : Bool) (base : Nat),
    s.presents (.request r) rest → r.isOwn → (s.ctx r.ctx).desc.kind = .legacyPpgtt64 →
    s.hostPhys r.ctx (s.ctx r.ctx).desc.pml4Ptr.toNat = some base → s.untiled r →
      ((LlcWord.ofBits s.glob[index.toFin]).pfm = 0#3 →
        exec (.mocs index rsv) s = .next { s with
          agenda := rest
          walk := some (r.walkAt (some index) .pml4 (base + r.va.toNat / 2 ^ 39 * 8) (r.va.setWidth 48) .target) }) ∧
      { s with agenda := rest }.beginAccess r none = .next { s with
        agenda := rest
        walk := some (r.walkAt none .pml4 (base + r.va.toNat / 2 ^ 39 * 8) (r.va.setWidth 48) .target) }

/-- A per-process request of the render engine or the POSH pipeline that hits the TR-VA window of an active TR-TT begins
with the L3 entry at `L3PTR + va[43:35] * 8`: read next with the tables in GPA space, walked as a table address with the
tables in the virtual address space; with the MOCS index of the word, or without an index for an object with GTT control
only. Reserved indices begin like any other by log entry 14. -/
def Obligations.MocsWordBeginsTiledRequest : Prop :=
  ∀ (s : State) (r : Request) (rest : List Input) (index : BitVec 6) (rsv : Bool) (a : BitVec 48) (b : Nat),
    s.presents (.request r) rest → r.isOwn → (s.ctx r.ctx).desc.kind = .legacyPpgtt64 → s.trBypass.toNat % 2 = 1 →
    r.mayTile → trvaHit (s.ctx r.ctx).trvadr (r.va.setWidth 48) = some true →
    a.toNat = (s.ctx r.ctx).trttL3ptr.toNat / 2 ^ 16 % 2 ^ 32 * 2 ^ 16 + r.va.toNat / 2 ^ 35 % 512 * 8 →
      ((s.ctx r.ctx).trtte.toNat % 4 = 1 → s.params.trttGpaModeAllowed = true → a.toNat < s.memSize →
        s.hostPhys r.ctx a.toNat = some b →
        ((LlcWord.ofBits s.glob[index.toFin]).pfm = 0#3 →
          exec (.mocs index rsv) s = .next { s with
            agenda := rest
            walk := some (r.walkAt (some index) .trL3 b (r.va.setWidth 48) .target) }) ∧
        { s with agenda := rest }.beginAccess r none = .next { s with
          agenda := rest
          walk := some (r.walkAt none .trL3 b (r.va.setWidth 48) .target) }) ∧
      ((s.ctx r.ctx).trtte.toNat % 4 = 3 → trvaHit (s.ctx r.ctx).trvadr a = some false →
        s.hostPhys r.ctx (s.ctx r.ctx).desc.pml4Ptr.toNat = some b →
        ((LlcWord.ofBits s.glob[index.toFin]).pfm = 0#3 →
          exec (.mocs index rsv) s = .next { s with
            agenda := rest
            walk := some (r.walkAt (some index) .pml4 (b + a.toNat / 2 ^ 39 % 512 * 8) a (.table .l3)) }) ∧
        { s with agenda := rest }.beginAccess r none = .next { s with
          agenda := rest
          walk := some (r.walkAt none .pml4 (b + a.toNat / 2 ^ 39 % 512 * 8) a (.table .l3)) })

/-- The refusals of a request. Of every request: a reserved page faulting mode of its index (rule R153), no byte (rule R60),
address bits above the space's range (rule R51), a 4KB boundary crossed (rule R56). Of a global request: TR-TT enabled in its
context (rules R111, R230). Of a per-process request: a context that is not Legacy PPGTT64 (rule R201); with TR-TT enabled, of
another engine than render or POSH: an address in the window (rules R111, R250), a mask the hardware does not support (rule
R113, U1); of render or POSH with the bypass disabled: tables in GPA space where the platform forbids it (rule R127), and
such a mask; of a request that hits the window of an active TR-TT: its L3 table address at or above `2^HAW` with the tables in
GPA space (rule R124), in the window with the tables in the virtual address space (rule R131). Which refusal comes first, and
what is tested under the bypass, is log entry 15; contexts log entry 32. -/
def Obligations.MocsWordRefusals : Prop :=
  ∀ (s : State) (r : Request) (rest : List Input) (index : BitVec 6) (rsv : Bool), s.presents (.request r) rest →
    ((LlcWord.ofBits s.glob[index.toFin]).pfm ≠ 0#3 → exec (.mocs index rsv) s = .refused .reservedPfm) ∧
    ∀ o, (LlcWord.ofBits s.glob[index.toFin]).pfm = 0#3 ∧ o = exec (.mocs index rsv) s ∨
        o = { s with agenda := rest }.beginAccess r none →
      (r.n = 0 → o = .refused .emptyRequest) ∧
      (1 ≤ r.n → r.usedSpace = .global → 2 ^ 32 ≤ r.va.toNat → o = .refused .addressRange) ∧
      (1 ≤ r.n → r.usedSpace = .perProcess → 2 ^ 48 ≤ r.va.toNat → o = .refused .addressRange) ∧
      (1 ≤ r.n → (r.va.toNat < 2 ^ 32 ∨ r.usedSpace = .perProcess ∧ r.va.toNat < 2 ^ 48) →
        4096 < r.va.toNat % 4096 + r.n → o = .refused .crossesPage) ∧
      (r.isGlobal → (s.ctx r.ctx).trtte.toNat % 2 = 1 → o = .refused .trttInGlobal) ∧
      (r.isOwn → (s.ctx r.ctx).desc.kind ≠ .legacyPpgtt64 → o = .refused .contextMode) ∧
      (r.isOwn → (s.ctx r.ctx).desc.kind = .legacyPpgtt64 → (s.ctx r.ctx).trtte.toNat % 2 = 1 →
        (¬ r.mayTile → trvaHit (s.ctx r.ctx).trvadr (r.va.setWidth 48) = some true → o = .refused .trttEngine) ∧
        (¬ r.mayTile → trvaHit (s.ctx r.ctx).trvadr (r.va.setWidth 48) = none → o = .refused .trvaMask) ∧
        (r.mayTile → s.trBypass.toNat % 2 = 1 → (s.ctx r.ctx).tablesVirtual = false →
          s.params.trttGpaModeAllowed = false → o = .refused .gpaModeForbidden) ∧
        (r.mayTile → s.trBypass.toNat % 2 = 1 →
          ((s.ctx r.ctx).tablesVirtual = true ∨ s.params.trttGpaModeAllowed = true) →
          trvaHit (s.ctx r.ctx).trvadr (r.va.setWidth 48) = none → o = .refused .trvaMask) ∧
        (∀ a, r.mayTile → s.trBypass.toNat % 2 = 1 → trvaHit (s.ctx r.ctx).trvadr (r.va.setWidth 48) = some true →
          a = (s.ctx r.ctx).trttL3ptr.toNat / 2 ^ 16 % 2 ^ 32 * 2 ^ 16 + r.va.toNat / 2 ^ 35 % 512 * 8 →
            ((s.ctx r.ctx).tablesVirtual = false → s.params.trttGpaModeAllowed = true → s.memSize ≤ a →
              o = .refused .tablePointerWide) ∧
            ((s.ctx r.ctx).tablesVirtual = true → a / 2 ^ 44 = (s.ctx r.ctx).trvadr.toNat % 16 →
              o = .refused .tableInWindow)))

/-! ## The cache controls -/

/-- The lookups of a MOCS index: the L3 control is the lower half of `LNCFCMOCS(i / 2)` for an even index and the upper half
for an odd one (rule R139; the placing is decision D12, log entry 20), the LLC control is `GLOB_MOCS_i` (rule R147), and an
access through the Data Port may be cached in the HDC L1 exactly for the indices 48 to 59 (rule R138). -/
def Obligations.MocsIndexLookups : Prop :=
  ∀ (s : State) (i : BitVec 6),
    (∀ x : Fin 32, i.toNat = 2 * x.val → (s.l3Control i).toNat = s.lncf[x].toNat % 2 ^ 16) ∧
    (∀ x : Fin 32, i.toNat = 2 * x.val + 1 → (s.l3Control i).toNat = s.lncf[x].toNat / 2 ^ 16) ∧
    (∀ k : Fin 64, i.toNat = k.val → s.llcControl i = s.glob[k]) ∧
    (hdcL1Cacheable .dataPort i = true ↔ 48 ≤ i.toNat ∧ i.toNat ≤ 59) ∧
    (hdcL1Cacheable .directEu i = true ↔ 48 ≤ i.toNat ∧ i.toNat ≤ 59) ∧ hdcL1Cacheable .aperture i = false ∧
    hdcL1Cacheable .other i = false

/-- The caching decisions. L3 (rule R144): L3CC `11b` caches unless ESC is set and a selected pair of address bits `10+k`,
`16+k` differs; `01b` never caches; for the other two values there is no claim (log entry 44). LLC (rule R151): LeCC `10b` or
`11b`, and every selected address bit `9+k` is 0, the outcome reversed by ERSC, as D22 reads it (log entry 30); for ERSC = 1
with SCC = 0 there is no claim. The label of an access states these decisions, the controls of rules R148 to R150, R152 and R154 to R156 decoded,
the memory type, and where a dirty line goes, as `Label.states` lists them: of a usable index and where all bytes agree (log entries
14, 35, 38), at the address L3_SKIP_ADDR names (log entry 6), and of an object with GTT control only by the memory type of its
page (rule R136; log entry 41). That an access of a usable index has the L3 label of its own control is the model's choice: rule
R146 says that hardware forces L3 uncacheable cycles through index 63 and not which, and the model forces none (log entry 43,
unsafe for just this clause). A dirty line of a written surface leaves the L3 through the controls of index 63, of index 61
through its own (rule R162; log entry 39). Without an index the decision rests on the memory type alone. The memory type of a
leaf is the PAT entry `PAT : PCD : PWT` for the indices 0 to 3 (rules R160, R163; general knowledge by D23, log entry 30): with
the required PAT table programmed, write-back, write-combining, write-through and uncacheable. -/
def Obligations.CachingAndMemoryType : Prop :=
  (∀ (e : BitVec 16) (a : Nat),
    (e.toNat / 16 % 4 = 3 →
      l3Caches e a = some (!(e.getLsbD 0 && decide (∃ k : Fin 3, e.getLsbD (1 + k) = true ∧
        a.testBit (10 + k) ≠ a.testBit (16 + k))))) ∧
    (e.toNat / 16 % 4 = 1 → l3Caches e a = some false) ∧
    (e.toNat / 16 % 4 = 0 ∨ e.toNat / 16 % 4 = 2 → l3Caches e a = none)) ∧
  (∀ (g : Word32) (a : Nat),
    (g.getLsbD 7 = false →
      llcCaches g a = some (decide (2 ≤ g.toNat % 4) &&
        decide (∀ k : Fin 3, g.getLsbD (8 + k) = true → a.testBit (9 + k) = false))) ∧
    (g.getLsbD 7 = true → g.toNat / 256 % 8 ≠ 0 →
      llcCaches g a = some (decide (2 ≤ g.toNat % 4) &&
        !decide (∀ k : Fin 3, g.getLsbD (8 + k) = true → a.testBit (9 + k) = false))) ∧
    (g.getLsbD 7 = true → g.toNat / 256 % 8 = 0 → llcCaches g a = none)) ∧
  (∀ (s : State) (wk : Walk) (pa a : Nat) (attrs : Option LeafAttrs), 1 ≤ wk.req.n → s.testsAddress wk pa a →
    (s.label wk pa attrs).states s wk attrs a) ∧
  (∀ (s t : State) (wk wk' : Walk) (pa pa' : Nat) (attrs attrs' : Option LeafAttrs), wk.index = none → wk'.index = none →
    (s.label wk pa attrs).memType ≠ none → (s.label wk pa attrs).memType = (t.label wk' pa' attrs').memType →
      (s.label wk pa attrs).l3 = (t.label wk' pa' attrs').l3 ∧ (s.label wk pa attrs).llc = (t.label wk' pa' attrs').llc) ∧
  (∀ (s : State), s.pat.toList = requiredPat →
    s.patType (patIndex ⟨false, false, false⟩) = .wb ∧ s.patType (patIndex ⟨true, false, false⟩) = .wc ∧
      s.patType (patIndex ⟨false, true, false⟩) = .wt ∧ s.patType (patIndex ⟨true, true, false⟩) = .uc)

/-- The cache controls change no value: two states that differ in the MOCS tables, the PAT and recorded cache attributes
only, with legal page faulting modes, step alike, unless the step is the host's read of one of those registers, or its write
of one while a request is in flight (which rule R68 may refuse). Rule R63 asks for a premise about surfaces that are not
coherent or not cached in the LLC, and rule R158 (a) lets a control reach a value by staleness: in the model a stale value
is the free choice of rule R65, which does not depend on the controls (log entries 12 and 26). -/
def Obligations.CacheControlsChangeNoValue : Prop :=
  ∀ (s u : State), s.blind = u.blind → s.pfmLegal → u.pfmLegal →
    (s.turned.walk = none → ∀ i rest, s.turned.nextInput = some (i, rest) →
      readsCacheControl i = false ∧ (s.turned.waiting ≠ [] → writesCacheControl i = false)) →
      sameButCaches (step s) (step u)

/-! ## Registers -/

/-- The five TR-TT registers of a context store the bits their pages define, reserved bits as zero; every other register,
every other context and all the rest of the state are as before. -/
def Obligations.TrttRegistersStoreTheirFields : Prop :=
  ∀ (s : State) (c : Nat) (rest : List Input) (i : Instr) (k : Context),
    (s.regCycle = some (.l3ptr c, rest) ∧
        (∃ p, i = .trttL3ptr p ∧ k = { s.ctx c with trttL3ptr := BitVec.ofNat 64 (p.toNat * 2 ^ 16) }) ∨
      s.regCycle = some (.null c, rest) ∧ (∃ v, i = .trttNull v ∧ k = { s.ctx c with trttNull := v }) ∨
      s.regCycle = some (.invalid c, rest) ∧ (∃ v, i = .trttInvalid v ∧ k = { s.ctx c with trttInvalid := v }) ∨
      s.regCycle = some (.trvadr c, rest) ∧
        (∃ m d, i = .trvadr m d ∧ k = { s.ctx c with trvadr := BitVec.ofNat 32 (m.toNat * 16 + d.toNat) }) ∨
      s.regCycle = some (.trtte c, rest) ∧
        (∃ l e, i = .trtte l e ∧
          k = { s.ctx c with trtte := BitVec.ofNat 32 ((if l then 2 else 0) + (if e then 1 else 0)) })) →
      ∃ t, exec i s = .next t ∧ t.ctx c = k ∧ (∀ d, d ≠ c → t.ctx d = s.ctx d) ∧ t.agenda = rest ∧
        s.sameOutsideRegisters t ∧ t.params = s.params ∧ t.resetEpoch = s.resetEpoch ∧ t.pgtblCtl = s.pgtblCtl ∧
        t.pgtblCtl2 = s.pgtblCtl2 ∧ t.trBypass = s.trBypass ∧ t.lncf = s.lncf ∧ t.glob = s.glob ∧ t.pat = s.pat ∧
        t.renderPowerGating = s.renderPowerGating

/-- `TR_BYPASS` stores bit 0 and nothing of its undescribed bits (log entry 17), unless it would disable the bypass after
render power gating has been enabled, which is refused (rule R242).
The power-gating flag is log entry 25. -/
def Obligations.BypassRegisterStoresBit0 : Prop :=
  ∀ (s : State) (rest : List Input) (u : BitVec 31) (d : Bool), s.regCycle = some (.bypass, rest) →
    ((d && s.renderPowerGating && decide (s.trBypass.toNat % 2 = 0)) = false →
      exec (.trBypass u d) s = .next { s with trBypass := if d then 1#32 else 0#32, agenda := rest }) ∧
    (d = true → s.renderPowerGating = true → s.trBypass.toNat % 2 = 0 →
      exec (.trBypass u d) s = .refused .bypassAfterGating)

/-- `WriteLNCFCMOCS(x, w)` (rules R24, R254): a clear mask bit writes its half's six bits, a set mask bit leaves the half
as it is, and every other register of the table and all the rest of the state are as before. The page text of the mask bits is
damaged: that a set mask bit keeps its half is the reading rule R24 adopts by decision D13, which warns of the other one; log
entry 20 marks it DEDUCED and unsafe. -/
def Obligations.LncfWriteObeysTheMaskBits : Prop :=
  ∀ (s : State) (x : Fin 32) (rest : List Input) (um lm : Bool) (up lo : L3Half),
    s.regCycle = some (.lncf x, rest) → lncfKept s.lncf[x] = s.lncf[x] →
      ∃ v, exec (.lncfcmocs um up lm lo) s = .next { s with lncf := s.lncf.set x v, agenda := rest } ∧
        v.toNat / 2 ^ 16 = (if um then s.lncf[x].toNat / 2 ^ 16 else up.bits.toNat) ∧
        v.toNat % 2 ^ 16 = (if lm then s.lncf[x].toNat % 2 ^ 16 else lo.bits.toNat)

/-- `GLOB_MOCS_i` stores its ten fields at the places of its page, reserved bits 31:19 zero, and no other register of the
table changes (rule R26). -/
def Obligations.GlobWriteStoresTheFields : Prop :=
  ∀ (s : State) (i : Fin 64) (rest : List Input) (f : LlcWord), s.regCycle = some (.glob i, rest) →
    ∃ v, exec (.globMocs f) s = .next { s with glob := s.glob.set i v, agenda := rest } ∧
      v.toNat = f.lecc.toNat + 4 * f.tc.toNat + 16 * f.lrum.toNat + 64 * f.daom.toNat + 128 * f.ersc.toNat +
        256 * f.scc.toNat + 2048 * f.pfm.toNat + 16384 * f.scf.toNat + 32768 * f.cos.toNat + 131072 * f.sse.toNat

/-- The MMIO offsets the spec gives: `GLOB_MOCS_i` at `0x4000 + 4i`, `LNCFCMOCSx` at `0xB020 + 4x`, `TR_BYPASS` at
`0x4DFC` (rules R20, R22, R25). That no other offset names a register, one inside a register such as `0x4001` among them, is the
model's choice: rule R13 leaves open how a cycle reaches a register (log entry 42). -/
def Obligations.RegisterOffsets : Prop :=
  (∀ i : Fin 64, regAtOffset (0x4000 + 4 * i) = some (.glob i)) ∧
    (∀ x : Fin 32, regAtOffset (0xB020 + 4 * x) = some (.lncf x)) ∧ regAtOffset 0x4DFC = some .bypass ∧
    ∀ o tg, regAtOffset o = some tg →
      o = 0x4DFC ∨ (0x4000 ≤ o ∧ o ≤ 0x40FC ∧ o % 4 = 0) ∨ (0xB020 ≤ o ∧ o ≤ 0xB09C ∧ o % 4 = 0)

/-- The registers without a layout: `PGTBL_CTL` takes a base that is 4KB aligned with the 8MB of the table below `2^HAW`
and refuses any other (rule R28), `PGTBL_CTL2` and a PAT entry store what is written.
The images of these registers are log entries 23 and 29, the check of the requests in flight is log entry 2. -/
def Obligations.BaseRegistersAndPatStore : Prop :=
  ∀ (s u : State) (w : Word64) (rest : List Input) (i : Fin 4), s.turned = u →
    (u.presents (.regWrite (.named .pgtblCtl) w) rest →
      (w.toNat % 4096 = 0 → w.toNat + 0x800000 ≤ u.memSize →
        step s = u.checked (.next { u with pgtblCtl := w, agenda := rest })) ∧
      (w.toNat % 4096 ≠ 0 ∨ u.memSize < w.toNat + 0x800000 → step s = .refused .badTableBase)) ∧
    (u.presents (.regWrite (.named .pgtblCtl2) w) rest →
      step s = .next { u with pgtblCtl2 := w, agenda := rest }) ∧
    (u.presents (.regWrite (.named (.pat i)) w) rest →
      step s = u.checked (.next { u with pat := u.pat.set i (w.extractLsb' 0 2), agenda := rest }))

/-- A register read (rules R13, R14): the host receives the register, eight bytes of `TRTT_L3PTR`, four of every other register
the spec lays out; reserved bits read 0. The two write-only mask bits of `LNCFCMOCSx` and the undescribed bits of `TR_BYPASS` are
free, so nothing is said of them (log entries 17 and 18). That `PGTBL_CTL` and `PGTBL_CTL2` read as eight bytes and a PAT entry as
four with its `MEM_TYPE` alone is the model's choice (log entry 29: the source gives no width, R28), and so is that the null-tile
counter, of no stated width, reads whole and as zero bytes (log entry 19). An offset that names no register is refused, and that
one inside a register names none is the model's choice (log entry 42; R13 leaves it open). -/
def Obligations.RegisterReads : Prop :=
  ∀ (s u : State) (a : RegAddr) (rest : List Input), s.turned = u → u.presents (.regRead a) rest →
    (a.resolve = none → step s = .refused .unknownRegister) ∧
    ∀ tg, a.resolve = some tg →
      ∃ n v, step s = .next { u with
          agenda := rest, results := ⟨.host, 0, .read, n, v, false⟩ :: u.results, draws := u.draws + 1 } ∧
        (∀ c, tg = .l3ptr c → n = 8 ∧ v = (u.ctx c).trttL3ptr.toNat ∧ (u.contextsOk → v % 2 ^ 16 = 0 ∧ v < 2 ^ 48)) ∧
        (∀ c, tg = .null c → n = 4 ∧ v = (u.ctx c).trttNull.toNat) ∧
        (∀ c, tg = .invalid c → n = 4 ∧ v = (u.ctx c).trttInvalid.toNat) ∧
        (∀ c, tg = .trvadr c → n = 4 ∧ v = (u.ctx c).trvadr.toNat ∧ (u.contextsOk → v < 2 ^ 8)) ∧
        (∀ c, tg = .trtte c → n = 4 ∧ v = (u.ctx c).trtte.toNat ∧ (u.contextsOk → v < 2 ^ 2)) ∧
        (tg = .bypass → n = 4 ∧ v % 2 = u.trBypass.toNat % 2 ∧ v < 2 ^ 32) ∧
        (∀ x : Fin 32, tg = .lncf x → n = 4 ∧ (u.registersOk →
          v % 2 ^ 15 = u.lncf[x].toNat % 2 ^ 6 ∧ v / 2 ^ 16 % 2 ^ 15 = u.lncf[x].toNat / 2 ^ 16 % 2 ^ 6 ∧ v < 2 ^ 32)) ∧
        (∀ i : Fin 64, tg = .glob i → n = 4 ∧ v = u.glob[i].toNat ∧ (u.registersOk → v < 2 ^ 19)) ∧
        (∀ i : Fin 4, tg = .pat i → n = 4 ∧ v = u.pat[i].toNat) ∧ (tg = .pgtblCtl → n = 8 ∧ v = u.pgtblCtl.toNat) ∧
        (tg = .pgtblCtl2 → n = 8 ∧ v = u.pgtblCtl2.toNat) ∧ (tg = .nullTileCount → n = 0 ∧ v = u.nullTileCount)

/-- The host sets a context's descriptor (rules R29, R181): where `PML4_PTR` is 4KB aligned with its table below `2^HAW` the
descriptor is stored, and the context's TR-TT registers, every other context and the rest of the state are as before; any
other base is refused (U16; log entry 23). -/
def Obligations.DescribeSetsTheDescriptor : Prop :=
  ∀ (s u : State) (c : Nat) (d : Descriptor) (rest : List Input), s.turned = u → u.presents (.describe c d) rest →
    (d.pml4Ptr.toNat % 4096 = 0 → d.pml4Ptr.toNat + 4096 ≤ u.memSize →
      ∃ t, step s = u.checked (.next t) ∧ t.ctx c = { u.ctx c with desc := d } ∧ (∀ e, e ≠ c → t.ctx e = u.ctx e) ∧
        t.agenda = rest ∧ u.sameOutsideRegisters t ∧ t.params = u.params ∧ t.resetEpoch = u.resetEpoch ∧
        t.pgtblCtl = u.pgtblCtl ∧ t.pgtblCtl2 = u.pgtblCtl2 ∧ t.trBypass = u.trBypass ∧ t.lncf = u.lncf ∧
        t.glob = u.glob ∧ t.pat = u.pat ∧ t.renderPowerGating = u.renderPowerGating) ∧
    (d.pml4Ptr.toNat % 4096 ≠ 0 ∨ u.memSize < d.pml4Ptr.toNat + 4096 → step s = .refused .badTableBase)

/-! ## Reset and power -/

/-- The register defaults of rule R32, after reset and after a device reset; a device reset also ends every request in flight
and releases every halted engine. Of what it leaves unspecified nothing is stated (log entry 5). That the two MOCS tables hold
the printed defaults is log entry 21: rule R237 has a model treat them as unspecified until they are written. -/
def Obligations.ResetDefaults : Prop :=
  (State.reset.trBypass = 0#32 ∧ (∀ x : Fin 32, State.reset.lncf[x] = 0x00100000#32) ∧
    (∀ i : Fin 64, State.reset.glob[i] = 0x00000033#32) ∧
    ∀ c, (State.reset.ctx c).trttL3ptr = 0#64 ∧ (State.reset.ctx c).trttNull = 0#32 ∧
      (State.reset.ctx c).trttInvalid = 0#32 ∧ (State.reset.ctx c).trvadr = 0#32 ∧
      (State.reset.ctx c).trtte = 0#32) ∧
  ∀ (s u : State) (rest : List Input), s.turned = u → u.presents .deviceReset rest →
    ∃ t, step s = .next t ∧ t.params = u.params ∧ t.trBypass = 0#32 ∧
      (∀ x : Fin 32, t.lncf[x] = 0x00100000#32) ∧ (∀ i : Fin 64, t.glob[i] = 0x00000033#32) ∧
      (∀ c, (t.ctx c).trttL3ptr = 0#64 ∧ (t.ctx c).trttNull = 0#32 ∧ (t.ctx c).trttInvalid = 0#32 ∧
        (t.ctx c).trvadr = 0#32 ∧ (t.ctx c).trtte = 0#32) ∧
      t.inFlight = [] ∧ t.halted = [] ∧ t.agenda = rest

/-- A render reset and the power states. After a render reset nothing is stated of `LNCFCMOCSx` and of the five TR-TT
registers of the render engine's context but their reserved bits; `GLOB_MOCS_i`, `TR_BYPASS`, memory and everything else are
as before, which rule R236 allows as a premise (log entry 13). After an RC6 exit with the registers restored everything is as
before; otherwise nothing is stated of the two MOCS tables (rule R241) and the rest is as before, the model's choice (log entry
13); that entry and exit are one step, with nothing between them, is its choice too (log entry 46: rule R229 does not say what wakes
the GPU). Enabling render power gating sets its flag (log entry 25). -/
def Obligations.RenderResetAndPowerStates : Prop :=
  ∀ (s u : State) (rest : List Input), s.turned = u →
    (∀ c, u.presents (.renderReset c) rest →
      ∃ t, step s = u.checked (.next t) ∧ t.glob = u.glob ∧ t.trBypass = u.trBypass ∧ t.pat = u.pat ∧
        t.pgtblCtl = u.pgtblCtl ∧ t.pgtblCtl2 = u.pgtblCtl2 ∧ t.renderPowerGating = u.renderPowerGating ∧
        t.params = u.params ∧ t.resetEpoch = u.resetEpoch ∧ (∀ d, d ≠ c → t.ctx d = u.ctx d) ∧
        (t.ctx c).desc = (u.ctx c).desc ∧ (t.ctx c).trttL3ptr &&& 0xFFFF00000000FFFF#64 = 0#64 ∧
        (t.ctx c).trvadr.toNat < 2 ^ 8 ∧ (t.ctx c).trtte.toNat < 2 ^ 2 ∧ (∀ x : Fin 32, lncfKept t.lncf[x] = t.lncf[x]) ∧
        u.sameOutsideRegisters t ∧ t.agenda = rest) ∧
    (u.presents (.rc6 true) rest → step s = .next { u with agenda := rest }) ∧
    (u.presents (.rc6 false) rest →
      ∃ t, step s = u.checked (.next t) ∧ (∀ x : Fin 32, lncfKept t.lncf[x] = t.lncf[x]) ∧
        (∀ i : Fin 64, globKept t.glob[i] = t.glob[i]) ∧ t.trBypass = u.trBypass ∧ t.pat = u.pat ∧
        t.pgtblCtl = u.pgtblCtl ∧ t.pgtblCtl2 = u.pgtblCtl2 ∧ t.renderPowerGating = u.renderPowerGating ∧
        t.params = u.params ∧ t.resetEpoch = u.resetEpoch ∧ t.ctxs = u.ctxs ∧ u.sameOutsideRegisters t ∧
        t.agenda = rest) ∧
    (u.presents .renderPowerGating rest → step s = .next { u with renderPowerGating := true, agenda := rest })

/-! ## Invariants and rules of the whole machine -/

/-- The invariant holds after reset.
The table bases are those of log entry 5. -/
def Obligations.ResetInv : Prop := State.reset.Inv

/-- Every step keeps the invariant: memory in its canonical form below `2^HAW`, reserved register bits zero, the GGTT base
and the PML4 pointers 4KB aligned, and each engine with at most one request in flight or halted. That an engine has one request
in flight at a time is the model's choice (log entry 2), and so is that a device reset leaves the free bases 4KB aligned, ends
the requests in flight and releases the halted engines (log entry 5; rule R237 leaves the bases unspecified). -/
def Obligations.StepKeepsInv : Prop := ∀ (s t : State), s.Inv → step s = .next t → t.Inv

/-- Between device resets the null-tile counter never decreases and the pending flag is never cleared; no step changes a
parameter.
Log entries 19 and 31. -/
def Obligations.CounterAndPendingNeverFall : Prop :=
  ∀ (s t : State), step s = .next t →
    t.params = s.params ∧ s.resetEpoch ≤ t.resetEpoch ∧
      (t.resetEpoch = s.resetEpoch → s.nullTileCount ≤ t.nullTileCount ∧
        (s.invalidTilePending = true → t.invalidTilePending = true))

/-- A table word, and a MOCS word, change no register (rules R158, R205). -/
def Obligations.WordsOfARequestChangeNoRegister : Prop :=
  ∀ (i : Instr) (s t : State), ((∃ l, i.slot = .entry l) ∨ i.slot = .mocs) → exec i s = .next t → s.sameRegisters t

/-- The walk writes nothing (rule R205): a table word changes memory only by the store of the write request it completes, at
the output address of the word, of a leaf after the second-level translation; where the request is a read, or the walk goes
on, or the request ends null or halted, every byte is as before. -/
def Obligations.OnlyACompletedWriteChangesMemory : Prop :=
  ∀ (i : Instr) (s t : State) (wk : Walk) (l : Level), i.slot = .entry l → s.walk = some wk → s.memWf = true →
    exec i s = .next t →
    s.sameBytes t ∨
      (wk.req.kind = .write ∧ (wk.level ≠ .ggtt → wk.dest = .target) ∧ t.walk = none ∧
        t.results = ⟨.engine wk.req.engine, wk.req.ctx, .write, wk.req.n, 0, false⟩ :: s.results ∧
        ∃ pa, s.targetAddr wk i = some pa ∧ s.storedBytes pa wk.req.n wk.req.data t)

/-- The consistency promises of rule R65. (a) A read returns, for each byte, the value of some write to the byte in the history,
a value that a write of the history replaced, or the current value. (b) Where the newest write of the history to each byte read
is the agent's own through the same translation and the same MOCS index, or nothing has written the byte, the agent reads what
memory holds. So a read by an agent after its own write to the same bytes, with no write to them between (any other access may
come between), returns the written value. What counts as the same translation is log entry 12; kernel instructions are log entry
40. -/
def Obligations.ConsistencyPromises : Prop :=
  (∀ (s : State) (agent : Agent) (route : Option Route) (pa : Nat),
    s.visibleByte agent route pa = s.byte pa ∨
      ∃ e ∈ s.history, e.kind = .write ∧ e.pa ≤ pa ∧ pa < e.pa + e.n ∧
        (s.visibleByte agent route pa = BitVec.ofNat 8 (e.data / 256 ^ (pa - e.pa)) ∨
          s.visibleByte agent route pa = BitVec.ofNat 8 (e.old / 256 ^ (pa - e.pa)))) ∧
  (∀ (s : State) (agent : Agent) (route : Option Route) (pa n : Nat),
    (∀ a, pa ≤ a → a < pa + n →
      (∀ e ∈ s.history, e.kind = .write → ¬ (e.pa ≤ a ∧ a < e.pa + e.n)) ∨
        ∃ later e earlier, s.history = later ++ e :: earlier ∧ e.kind = .write ∧ e.pa ≤ a ∧ a < e.pa + e.n ∧
          e.agent = agent ∧ e.route = route ∧ ∀ l ∈ later, l.kind = .write → ¬ (l.pa ≤ a ∧ a < l.pa + l.n)) →
      s.visible agent route pa n = s.readMem pa n) ∧
  (∀ (s u : State) (agent : Agent) (route : Option Route) (pa n data : Nat) (l : Option Label) (later : List MemEvent),
    s.memWf = true → pa + n ≤ s.memSize → u.history = later ++ (s.store agent pa n data route l).history →
    (∀ e ∈ later, e.kind = .write → ¬ (e.pa < pa + n ∧ pa < e.pa + e.n)) →
    (∀ a, pa ≤ a → a < pa + n → u.byte a = (s.store agent pa n data route l).byte a) →
      u.visible agent route pa n = data % 256 ^ n)

/-- The walk of the Per-Process GTT refines the pseudo-code of rules R184 to R191: from the first read of a request's walk
in a context the TLBs hold nothing for, with no copy of another context's that differs from memory, no other request in flight and
no turn scheduled, at most three steps lead to a step whose outcome is the one `PPGTT_Walk` gives on the tables in memory. -/
def Obligations.PpgttWalkRefinesPseudocode : Prop :=
  ∀ (s : State) (wk : Walk), s.schedule = [] → s.waiting = [] → s.walk = some wk → wk.level = .pml4 →
    wk.dest = .target → wk.rw = true →
    s.coldFor wk.req.ctx → s.memWf = true → (s.ctx wk.req.ctx).desc.neste = false → s.params.hasLocalMemory = false →
    (s.ctx wk.req.ctx).desc.pml4Ptr.toNat + 4096 ≤ s.memSize →
    wk.entry = .memory ((s.ctx wk.req.ctx).desc.pml4Ptr.toNat + wk.va.toNat / 2 ^ 39 % 512 * 8) →
    wk.va.toNat % 4096 + wk.req.n ≤ 4096 →
      ∃ k u, k ≤ 3 ∧ Host.Core.run Sys2Proof.core k s = .next u ∧ s.sameRegisters u ∧ s.sameBytes u ∧ s.sameEvents u ∧
        u.results = s.results ∧ u.halted = s.halted ∧ u.agenda = s.agenda ∧
        match specPpgtt s.params.haw.bits (fun a => s.readMem a 8) (s.ctx wk.req.ctx).desc.pml4Ptr.toNat wk.va.toNat
            wk.req.kind with
        | .phys pa _ _ _ =>
          ∃ t c, step u = .next t ∧ t.walk = none ∧ t.results = c :: s.results ∧ c.agent = .engine wk.req.engine ∧
            c.kind = wk.req.kind ∧ c.n = wk.req.n ∧ c.null = false ∧ s.sameRegisters t ∧ s.sameEvents t ∧
            (wk.req.kind = .read → s.sameBytes t ∧
              ((∀ b, pa ≤ b → b < pa + wk.req.n → s.ownByte (.engine wk.req.engine) (some wk.route) b = true) →
                c.data = s.readMem pa wk.req.n)) ∧
            (wk.req.kind = .write → s.storedBytes pa wk.req.n wk.req.data t)
        | .nullPage =>
          ∃ t, step u = .next t ∧ t.walk = none ∧ s.sameRegisters t ∧ s.sameBytes t ∧
            t.results = ⟨.engine wk.req.engine, wk.req.ctx, wk.req.kind, wk.req.n, 0, true⟩ :: s.results
        | .denied => ∃ v, step u = v.raiseFault wk.req (.writeProtect wk.va) ∧ s.sameRegisters v ∧ s.sameBytes v
        | .nullDenied =>
          (∃ v, step u = v.raiseFault wk.req (.writeProtect wk.va) ∧ s.sameRegisters v ∧ s.sameBytes v) ∨
            ∃ t, step u = .next t ∧ t.walk = none ∧ s.sameRegisters t ∧ s.sameBytes t ∧
              t.results = ⟨.engine wk.req.engine, wk.req.ctx, wk.req.kind, wk.req.n, 0, true⟩ :: s.results
        | .notPresent l =>
          ∃ v, step u = v.raiseFault wk.req (.pageNotPresent wk.va l) ∧ s.sameRegisters v ∧ s.sameBytes v

/-- The walk of the TR-TT in GPA mode refines the pseudo-code of rule R119: from the first read of its walk in a context
the TR TLBs hold nothing for, with no copy of another context's that differs from memory, no other request in flight and no turn
scheduled, at most two steps lead to a step whose outcome is the one `TRTT_Walk` gives on the tables in memory: the page-table
walk of the mapped address begins, or the request ends on a null or invalid tile. -/
def Obligations.TrttWalkRefinesPseudocode : Prop :=
  ∀ (s : State) (wk : Walk) (a : Nat), s.schedule = [] → s.waiting = [] → s.walk = some wk → wk.level = .trL3 →
    wk.dest = .target → s.coldFor wk.req.ctx →
    (s.ctx wk.req.ctx).desc.neste = false → (s.ctx wk.req.ctx).tablesVirtual = false →
    (s.ctx wk.req.ctx).desc.dualContext = false →
    a = (s.ctx wk.req.ctx).l3ptr.toNat + wk.trva.toNat / 2 ^ 35 % 512 * 8 → wk.entry = .memory a → a < s.memSize →
      ∃ k u, k ≤ 2 ∧ Host.Core.run Sys2Proof.core k s = .next u ∧ s.sameRegisters u ∧ s.sameBytes u ∧ s.sameEvents u ∧
        u.results = s.results ∧ u.halted = s.halted ∧ u.agenda = s.agenda ∧
        match specTrtt s.params.haw.bits (fun a => s.readMem a 8) (fun a => s.readMem a 4)
            (s.ctx wk.req.ctx).l3ptr.toNat wk.trva.toNat (s.ctx wk.req.ctx).trttNull.toNat
            (s.ctx wk.req.ctx).trttInvalid.toNat with
        | .mapped v =>
          ∃ t w, step u = .next t ∧ t.walk = some w ∧ w.req = wk.req ∧ w.index = wk.index ∧ w.level = .pml4 ∧
            w.dest = .target ∧ w.rw = true ∧ w.va.toNat = v ∧
            w.entry = .memory ((s.ctx wk.req.ctx).desc.pml4Ptr.toNat + v / 2 ^ 39 % 512 * 8) ∧ s.sameRegisters t ∧
            s.sameBytes t ∧ s.sameEvents t ∧ t.results = s.results
        | .null =>
          ∃ t, step u = .next t ∧ t.walk = none ∧ s.sameRegisters t ∧ s.sameBytes t ∧
            t.results = ⟨.engine wk.req.engine, wk.req.ctx, wk.req.kind, wk.req.n, 0, true⟩ :: s.results ∧
            t.invalidTilePending = s.invalidTilePending
        | .invalid =>
          ∃ t, step u = .next t ∧ t.walk = none ∧ s.sameRegisters t ∧ s.sameBytes t ∧
            t.results = ⟨.engine wk.req.engine, wk.req.ctx, wk.req.kind, wk.req.n, 0, true⟩ :: s.results ∧
            t.invalidTilePending = true
        | .either =>
          ∃ t, step u = .next t ∧ t.walk = none ∧ s.sameRegisters t ∧ s.sameBytes t ∧
            t.results = ⟨.engine wk.req.engine, wk.req.ctx, wk.req.kind, wk.req.n, 0, true⟩ :: s.results ∧
            (t.invalidTilePending = s.invalidTilePending ∨ t.invalidTilePending = true)
        | .wide => step u = .refused .tablePointerWide
end

