-- ==== Sys2Proof/Laws/Memory.lean ====
section
/-!
SUPPORT. The laws of memory: a read after a write, and that every memory operation keeps the canonical form.
-/

namespace Sys2Proof.Machine

/-- Below the first address a canonical list may hold, nothing is listed. -/
theorem Memory.read_below (ep hi : Nat) (m : List Host.Cell) (lo b : Nat) (h : Memory.wfFrom ep hi lo m = true)
    (hb : b < lo) : Memory.read ep m b = Memory.unlisted ep b := by
  induction m generalizing lo with
  | nil => rfl
  | cons c m ih =>
    obtain ⟨k, w⟩ := c
    simp only [Memory.wfFrom, Bool.and_eq_true, decide_eq_true_eq] at h
    simp only [Memory.read]
    rw [if_neg (by omega)]
    exact ih (k + 1) h.2 (by omega)

/-- A write leaves every other byte alone. -/
theorem Memory.read_write_ne (ep : Nat) (m : List Host.Cell) (a b : Nat) (v : Byte) (hne : b ≠ a) :
    Memory.read ep (Memory.write ep m a v) b = Memory.read ep m b := by
  induction m with
  | nil =>
    simp only [Memory.write]
    split
    · rfl
    · simp [Memory.read, hne]
  | cons c m ih =>
    obtain ⟨k, w⟩ := c
    simp only [Memory.write]
    split
    · split
      · rfl
      · simp [Memory.read, hne]
    · split
      · rename_i hak
        subst hak
        split <;> simp [Memory.read, hne]
      · simp only [Memory.read, ih]

/-- A byte written reads back, in a canonical list. -/
theorem Memory.read_write_self (ep hi : Nat) (m : List Host.Cell) (lo a : Nat) (v : Byte)
    (h : Memory.wfFrom ep hi lo m = true) : Memory.read ep (Memory.write ep m a v) a = v := by
  induction m generalizing lo with
  | nil =>
    simp only [Memory.write]
    split
    · rename_i hv; exact hv.symm
    · simp [Memory.read]
  | cons c m ih =>
    obtain ⟨k, w⟩ := c
    simp only [Memory.wfFrom, Bool.and_eq_true, decide_eq_true_eq] at h
    simp only [Memory.write]
    split
    · rename_i hak
      split
      · rename_i hv
        simp only [Memory.read]
        rw [if_neg (by omega), Memory.read_below ep hi m (k + 1) a h.2 (by omega), hv]
      · simp [Memory.read]
    · split
      · rename_i hak
        subst hak
        split
        · rename_i hv
          rw [Memory.read_below ep hi m (a + 1) a h.2 (by omega), hv]
        · simp [Memory.read]
      · simp only [Memory.read]
        rw [if_neg (by assumption), ih (k + 1) h.2]

/-- What memory holds after a write of one byte. -/
theorem Memory.read_write (ep hi : Nat) (m : List Host.Cell) (a b : Nat) (v : Byte) (h : Memory.wf ep hi m = true) :
    Memory.read ep (Memory.write ep m a v) b = if b = a then v else Memory.read ep m b := by
  by_cases hba : b = a
  · rw [if_pos hba, hba, Memory.read_write_self ep hi m 0 a v h]
  · rw [if_neg hba, Memory.read_write_ne ep m a b v hba]

/-- The canonical form from an address on is the canonical form from any lower one on. -/
theorem Memory.wfFrom_mono (ep hi : Nat) (m : List Host.Cell) (l1 l2 : Nat) (hl : l2 ≤ l1)
    (h : Memory.wfFrom ep hi l1 m = true) : Memory.wfFrom ep hi l2 m = true := by
  cases m with
  | nil => rfl
  | cons c m =>
    simp only [Memory.wfFrom, Bool.and_eq_true, decide_eq_true_eq] at h ⊢
    exact ⟨⟨⟨by omega, h.1.1.2⟩, h.1.2⟩, h.2⟩

/-- `Memory.write` keeps the canonical form. -/
theorem Memory.wfFrom_write (ep hi : Nat) (m : List Host.Cell) (lo a : Nat) (v : Byte)
    (h : Memory.wfFrom ep hi lo m = true) (hlo : lo ≤ a) (hhi : a < hi) :
    Memory.wfFrom ep hi lo (Memory.write ep m a v) = true := by
  induction m generalizing lo with
  | nil =>
    simp only [Memory.write]
    split
    · rfl
    · simp_all [Memory.wfFrom]
  | cons c m ih =>
    obtain ⟨k, w⟩ := c
    simp only [Memory.wfFrom, Bool.and_eq_true, decide_eq_true_eq] at h
    obtain ⟨⟨⟨h1, h2⟩, h3⟩, h4⟩ := h
    simp only [Memory.write]
    split
    · split
      · simp_all [Memory.wfFrom]
      · simp only [Memory.wfFrom, Bool.and_eq_true, decide_eq_true_eq]
        refine ⟨⟨⟨hlo, hhi⟩, by assumption⟩, ⟨⟨?_, h2⟩, h3⟩, h4⟩
        omega
    · split
      · split
        · exact Memory.wfFrom_mono ep hi m (k + 1) lo (by omega) h4
        · rename_i hak hv
          subst hak
          simp only [Memory.wfFrom, Bool.and_eq_true, decide_eq_true_eq]
          exact ⟨⟨⟨hlo, hhi⟩, hv⟩, h4⟩
      · simp only [Memory.wfFrom, Bool.and_eq_true, decide_eq_true_eq]
        exact ⟨⟨⟨h1, h2⟩, h3⟩, ih (k + 1) h4 (by omega)⟩

/-- `MemWrite` inside memory keeps the canonical form. -/
theorem Memory.wf_writeN (ep hi : Nat) (m : List Host.Cell) (pa n v : Nat) (h : Memory.wf ep hi m = true)
    (hb : pa + n ≤ hi) : Memory.wf ep hi (Memory.writeN ep m pa n v) = true := by
  induction n generalizing m pa v with
  | zero => exact h
  | succ n ih =>
    simp only [Memory.writeN]
    exact ih _ _ _ (Memory.wfFrom_write ep hi m 0 pa _ h (by omega) (by omega)) (by omega)

/-- What memory holds after `MemWrite`: the bytes of the value, least significant first, and all others as before. -/
theorem Memory.read_writeN (ep hi : Nat) (m : List Host.Cell) (pa n v b : Nat) (h : Memory.wf ep hi m = true)
    (hb : pa + n ≤ hi) :
    Memory.read ep (Memory.writeN ep m pa n v) b =
      if pa ≤ b ∧ b < pa + n then byteOf v (b - pa) else Memory.read ep m b := by
  induction n generalizing m pa v with
  | zero => simp only [Memory.writeN]; rw [if_neg (by omega)]
  | succ n ih =>
    simp only [Memory.writeN]
    have h0 : Memory.wf ep hi (Memory.write ep m pa (BitVec.ofNat 8 v)) = true :=
      Memory.wfFrom_write ep hi m 0 pa _ h (by omega) (by omega)
    rw [ih _ _ _ h0 (by omega), Memory.read_write ep hi m pa b _ h]
    by_cases h1 : b = pa
    · subst h1
      rw [if_neg (by omega), if_pos rfl, if_pos (by omega)]
      simp [byteOf]
    · rw [if_neg h1]
      by_cases h2 : pa + 1 ≤ b ∧ b < pa + 1 + n
      · rw [if_pos h2, if_pos (by omega)]
        have h3 : b - pa = (b - (pa + 1)) + 1 := by omega
        rw [h3]
        simp only [byteOf, Nat.div_div_eq_div_mul, Nat.pow_succ, Nat.mul_comm]
      · rw [if_neg h2, if_neg (by omega)]

/-- `MemRead` depends on the bytes read only. -/
theorem Memory.readN_congr (ep ep' : Nat) (m m' : List Host.Cell) (pa n : Nat)
    (h : ∀ b, pa ≤ b → b < pa + n → Memory.read ep m b = Memory.read ep' m' b) :
    Memory.readN ep m pa n = Memory.readN ep' m' pa n := by
  induction n generalizing pa with
  | zero => rfl
  | succ n ih =>
    simp only [Memory.readN]
    rw [h pa (by omega) (by omega), ih (pa + 1) (fun b h1 h2 => h b (by omega) (by omega))]

/-- A read of `n` bytes is below `256 ^ n`. -/
theorem Memory.readN_lt (ep : Nat) (m : List Host.Cell) (pa n : Nat) : Memory.readN ep m pa n < 256 ^ n := by
  induction n generalizing pa with
  | zero => simp [Memory.readN]
  | succ n ih =>
    simp only [Memory.readN]
    have h1 := (Memory.read ep m pa).isLt
    have h2 := ih (pa + 1)
    rw [Nat.pow_succ]
    omega

/-- `MemRead` after `MemWrite` of the same bytes gives the low `8n` bits written. -/
theorem Memory.readN_writeN (ep hi : Nat) (m : List Host.Cell) (pa n v : Nat) (h : Memory.wf ep hi m = true)
    (hb : pa + n ≤ hi) : Memory.readN ep (Memory.writeN ep m pa n v) pa n = v % 256 ^ n := by
  have key : ∀ (k q : Nat), q + k = n →
      Memory.readN ep (Memory.writeN ep m pa n v) (pa + q) k = v / 256 ^ q % 256 ^ k := by
    intro k
    induction k with
    | zero => intro q _; simp [Memory.readN, Nat.mod_one]
    | succ k ih =>
      intro q hq
      simp only [Memory.readN]
      rw [Memory.read_writeN ep hi m pa n v (pa + q) h hb, if_pos (by omega)]
      have h1 := ih (q + 1) (by omega)
      rw [show pa + q + 1 = pa + (q + 1) by omega, h1]
      simp only [byteOf, Nat.add_sub_cancel_left, BitVec.toNat_ofNat]
      rw [Nat.pow_succ 256 k, Nat.mul_comm (256 ^ k), Nat.mod_mul, Nat.pow_succ 256 q, ← Nat.div_div_eq_div_mul]
  simpa using key n 0 (by omega)

/-- A list of cells with no address at or above the state's memory, in its canonical form: `State.store` inside memory
keeps it. -/
theorem State.store_memWf (s : State) (ag : Agent) (pa n data : Nat) (i : Option Route) (l : Option Label)
    (h : s.memWf = true) (hb : pa + n ≤ s.memSize) : (s.store ag pa n data i l).memWf = true :=
  Memory.wf_writeN s.resetEpoch s.memSize s.mem pa n data h hb

/-- The canonical form depends on the cells, the parameters and the number of device resets alone. -/
theorem State.memWf_congr {s t : State} (hm : t.mem = s.mem) (hp : t.params = s.params)
    (he : t.resetEpoch = s.resetEpoch) : t.memWf = s.memWf := by
  unfold State.memWf State.memSize; rw [hm, hp, he]

/-- A byte depends on the cells and the number of device resets alone. -/
theorem State.byte_congr {s t : State} (hm : t.mem = s.mem) (he : t.resetEpoch = s.resetEpoch) (a : Nat) :
    t.byte a = s.byte a := by
  unfold State.byte; rw [hm, he]

/-- A context depends on the contexts listed and the number of device resets alone. -/
theorem State.ctx_congr {s t : State} (hc : t.ctxs = s.ctxs) (he : t.resetEpoch = s.resetEpoch) (c : Nat) :
    t.ctx c = s.ctx c := by
  unfold State.ctx; rw [hc, he]

/-- What a context holds after one is written. -/
theorem State.setCtx_ctx (s : State) (c d : Nat) (k : Context) :
    (s.setCtx c k).ctx d = if d = c then k else s.ctx d := by
  simp only [State.ctx, State.setCtx, setCtxList, List.find?_cons]
  by_cases h : d = c
  · simp only [h, decide_true, if_true]
  · have hne : ¬ c = d := fun x => h x.symm
    simp only [hne, decide_false, if_neg h]
    have : (s.ctxs.filter (fun p => decide (p.1 ≠ c))).find? (fun p => decide (p.1 = d)) =
        s.ctxs.find? (fun p => decide (p.1 = d)) := by
      rw [List.find?_filter]
      congr 1
      funext p
      by_cases hp : p.1 = d <;> simp [hp, h]
    rw [this]

/-- Memory after reset is in its canonical form. -/
theorem State.reset_memWf : State.reset.memWf = true := by decide

/-- What a state's memory holds after `State.store`. -/
theorem State.store_byte (s : State) (ag : Agent) (pa n data b : Nat) (i : Option Route) (l : Option Label)
    (h : s.memWf = true) (hb : pa + n ≤ s.memSize) :
    (s.store ag pa n data i l).byte b = if pa ≤ b ∧ b < pa + n then byteOf data (b - pa) else s.byte b :=
  Memory.read_writeN s.resetEpoch s.memSize s.mem pa n data b h hb

end Sys2Proof.Machine
end

