-- ==== Sys2Proof/Laws/Copies.lean ====
section
/-!
SUPPORT. What a walk finds in the TLBs and the cached PML4 pages, and what it leaves there, said once each (rules R31, R69,
R182): the key of an entry, the TLBs and the noted pages afterwards, and the earlier values of an entry, read off the history
byte by byte.
-/

namespace Sys2Proof.Machine

variable {s : State} {wk : Walk}

theorem byteOf_toNat (v i : Nat) : (byteOf v i).toNat = v / 256 ^ i % 256 := by simp [byteOf]

theorem byteOf_succ (b n i : Nat) (hb : b < 256) : byteOf (b + 256 * n) (i + 1) = byteOf n i := by
  apply BitVec.eq_of_toNat_eq
  rw [byteOf_toNat, byteOf_toNat, Nat.pow_succ, Nat.mul_comm (256 ^ i), ← Nat.div_div_eq_div_mul]
  congr 2; omega

theorem bytesToNat_lt (l : List Byte) : bytesToNat l < 256 ^ l.length := by
  induction l with
  | nil => simp [bytesToNat]
  | cons b l ih => have := b.isLt; simp only [bytesToNat, List.length_cons, Nat.pow_succ]; omega

/-- The bytes of a value are the bytes it was made of (rule R58). -/
theorem byteOf_bytesToNat (l : List Byte) (i : Nat) (h : i < l.length) : byteOf (bytesToNat l) i = l[i] := by
  induction l generalizing i with
  | nil => simp at h
  | cons b l ih =>
    have hb := b.isLt
    cases i with
    | zero =>
      apply BitVec.eq_of_toNat_eq
      rw [byteOf_toNat]; simp only [bytesToNat, Nat.pow_zero, Nat.div_one, List.getElem_cons_zero]; omega
    | succ i => rw [bytesToNat, byteOf_succ _ _ _ hb, List.getElem_cons_succ]; exact ih i (by simpa using h)

/-- The bytes of a value read from memory are the bytes of memory. -/
theorem byteOf_readN (ep : Nat) (m : List Host.Cell) (n pa i : Nat) (h : i < n) :
    byteOf (Memory.readN ep m pa n) i = Memory.read ep m (pa + i) := by
  induction n generalizing pa i with
  | zero => omega
  | succ n ih =>
    have hb := (Memory.read ep m pa).isLt
    cases i with
    | zero =>
      apply BitVec.eq_of_toNat_eq
      rw [byteOf_toNat]; simp only [Memory.readN, Nat.pow_zero, Nat.div_one, Nat.add_zero]; omega
    | succ i =>
      rw [Memory.readN, byteOf_succ _ _ _ hb, ih (pa + 1) i (by omega)]; congr 1; omega

/-- Eight bytes make a word. -/
theorem word_ext (x y : Word64) (h : ∀ i < 8, byteOf x.toNat i = byteOf y.toNat i) : x = y := by
  have g : ∀ i < 8, x.toNat / 256 ^ i % 256 = y.toNat / 256 ^ i % 256 := by
    intro i hi; rw [← byteOf_toNat, ← byteOf_toNat, h i hi]
  have hx := x.isLt
  have hy := y.isLt
  have g0 := g 0 (by omega); have g1 := g 1 (by omega); have g2 := g 2 (by omega); have g3 := g 3 (by omega)
  have g4 := g 4 (by omega); have g5 := g 5 (by omega); have g6 := g 6 (by omega); have g7 := g 7 (by omega)
  apply BitVec.eq_of_toNat_eq
  simp only [Nat.reducePow, Nat.div_one] at *
  omega

/-- What `MemEvent.undo` does to each byte: a byte the event wrote gets back the value the event replaced. -/
theorem MemEvent.byteOf_undo (e : MemEvent) (a : Nat) (w : Word64) (i : Nat) (hi : i < 8) :
    byteOf (e.undo a w).toNat i = if e.wrote (a + i) then e.oldByte (a + i) else byteOf w.toNat i := by
  unfold MemEvent.undo
  generalize hl : (List.range 8).map (fun i => if e.wrote (a + i) then e.oldByte (a + i) else byteOf w.toNat i) = l
  have hlen : l.length = 8 := by rw [← hl]; simp
  have hb := bytesToNat_lt l
  rw [hlen] at hb
  rw [BitVec.toNat_ofNat, Nat.mod_eq_of_lt (lt_of_lt_of_le hb (by decide)), byteOf_bytesToNat l i (by omega)]
  subst hl
  simp

theorem MemEvent.undo_read (e : MemEvent) (a : Nat) (w : Word64) (h : e.kind ≠ .write) : e.undo a w = w :=
  word_ext _ _ fun i hi => by rw [e.byteOf_undo a w i hi, if_neg]; simp [MemEvent.wrote, h]

/-- The values of an entry during the events `es`: what it is after each, the newest first, undone event by event. -/
theorem mem_versionsOf (es : List MemEvent) (a : Nat) (w0 w : Word64) :
    w ∈ versionsOf es a w0 ↔ ∃ k ≤ es.length, w = (es.take k).foldl (fun x e => e.undo a x) w0 := by
  induction es generalizing w0 with
  | nil => simp [versionsOf]
  | cons e es ih =>
    have hs : (∃ k ≤ es.length, w = (es.take k).foldl (fun x e => e.undo a x) (e.undo a w0)) →
        ∃ k ≤ (e :: es).length, w = ((e :: es).take k).foldl (fun x e => e.undo a x) w0 := by
      rintro ⟨k, hk, h⟩
      exact ⟨k + 1, Nat.succ_le_succ hk, by rw [List.take_succ_cons, List.foldl_cons]; exact h⟩
    have hr : (∃ k ≤ (e :: es).length, w = ((e :: es).take k).foldl (fun x e => e.undo a x) w0) →
        w = w0 ∨ ∃ k ≤ es.length, w = (es.take k).foldl (fun x e => e.undo a x) (e.undo a w0) := by
      rintro ⟨k, hk, h⟩
      cases k with
      | zero => left; rw [List.take_zero, List.foldl_nil] at h; exact h
      | succ k => right; rw [List.take_succ_cons, List.foldl_cons] at h; exact ⟨k, Nat.le_of_succ_le_succ hk, h⟩
    have h0 : w = w0 → ∃ k ≤ (e :: es).length, w = ((e :: es).take k).foldl (fun x e => e.undo a x) w0 := fun h =>
      ⟨0, Nat.zero_le _, by rw [List.take_zero, List.foldl_nil]; exact h⟩
    unfold versionsOf
    split
    · rw [List.mem_cons, ih]; exact ⟨fun h => h.elim h0 hs, hr⟩
    · rename_i hw
      rw [ih]
      rw [e.undo_read a w0 hw] at hs hr
      exact ⟨hs, fun h => (hr h).elim (fun h => ⟨0, Nat.zero_le _, by rw [List.take_zero, List.foldl_nil]; exact h⟩) id⟩

/-- Each byte of an entry as it was before the events `l`, the newest first: what the oldest write of them replaced. -/
theorem byteOf_foldl_undo (l : List MemEvent) (a : Nat) (w : Word64) (i : Nat) (hi : i < 8) :
    byteOf (l.foldl (fun x e => e.undo a x) w).toNat i =
      match (l.filter (fun e => e.wrote (a + i))).getLast? with
      | some e => e.oldByte (a + i)
      | none => byteOf w.toNat i := by
  induction l using List.reverseRecOn with
  | nil => rfl
  | append_singleton l e ih =>
    rw [List.foldl_append, List.filter_append]
    simp only [List.foldl_cons, List.foldl_nil]
    rw [e.byteOf_undo _ _ _ hi]
    cases h : e.wrote (a + i) with
    | true => simp [h]
    | false => simp [h, ih]

/-- The key in plain terms. -/
theorem Walk.keyedBy_iff (k : TlbKey) : wk.keyedBy k ↔ k = wk.key := by
  obtain ⟨c, l, t⟩ := k
  simp only [Walk.keyedBy, Walk.key, TlbKey.mk.injEq]
  refine and_congr Iff.rfl (and_congr Iff.rfl ?_)
  unfold Walk.addr
  cases wk.level <;> exact Iff.rfl

/-- The TLBs afterwards: they hold the word under the entry's key, and everything they held. -/
theorem State.mem_tlbAfter (w : Word64) (place : Option Nat) (e : TlbEntry) :
    e ∈ s.tlbAfter wk w place ↔ e = ⟨wk.key, w, place⟩ ∨ e ∈ s.tlb := by
  unfold State.tlbAfter
  split
  · rename_i hc
    exact ⟨.inr, fun h => h.elim (fun h => by rw [h]; simpa using hc) id⟩
  · exact List.mem_cons

/-- The cached PML4 pages afterwards: as before, or with the page of the entry noted for the first time. -/
theorem State.pml4After_cases (a : Nat) :
    (wk.level ≠ .pml4 ∨ ∃ p ∈ s.pml4Roots, p.ctx = wk.req.ctx ∧ p.base = wk.pml4Base a) ∧
        s.pml4After wk a = s.pml4Roots ∨
      wk.level = .pml4 ∧ (∀ p ∈ s.pml4Roots, p.ctx = wk.req.ctx → p.base ≠ wk.pml4Base a) ∧
        s.pml4After wk a = ⟨wk.req.ctx, wk.pml4Base a, s.history.length⟩ :: s.pml4Roots := by
  unfold State.pml4After
  by_cases hl : wk.level = .pml4
  · by_cases hp : ∃ p ∈ s.pml4Roots, p.ctx = wk.req.ctx ∧ p.base = wk.pml4Base a
    · exact .inl ⟨.inr hp, if_neg (by simpa [hl] using hp)⟩
    · refine .inr ⟨hl, fun p h1 h2 h3 => hp ⟨p, h1, h2, h3⟩, if_pos ?_⟩
      simpa [hl] using hp
  · exact .inl ⟨.inl hl, if_neg (by simp [hl])⟩

end Sys2Proof.Machine
end

