-- ==== Sys2Proof/Laws/State.lean ====
section
/-!
SUPPORT. One lemma per field of the state per update, so that no later proof unfolds a record update.
-/

namespace Sys2Proof.Machine

variable (s : State)

-- putting a walk in flight
@[simp] theorem State.withWalk_params (wk : Walk) :
    (s.withWalk wk).params = s.params := rfl
@[simp] theorem State.withWalk_mem (wk : Walk) :
    (s.withWalk wk).mem = s.mem := rfl
@[simp] theorem State.withWalk_resetEpoch (wk : Walk) :
    (s.withWalk wk).resetEpoch = s.resetEpoch := rfl
@[simp] theorem State.withWalk_pgtblCtl (wk : Walk) :
    (s.withWalk wk).pgtblCtl = s.pgtblCtl := rfl
@[simp] theorem State.withWalk_pgtblCtl2 (wk : Walk) :
    (s.withWalk wk).pgtblCtl2 = s.pgtblCtl2 := rfl
@[simp] theorem State.withWalk_trBypass (wk : Walk) :
    (s.withWalk wk).trBypass = s.trBypass := rfl
@[simp] theorem State.withWalk_lncf (wk : Walk) :
    (s.withWalk wk).lncf = s.lncf := rfl
@[simp] theorem State.withWalk_glob (wk : Walk) :
    (s.withWalk wk).glob = s.glob := rfl
@[simp] theorem State.withWalk_pat (wk : Walk) :
    (s.withWalk wk).pat = s.pat := rfl
@[simp] theorem State.withWalk_ctxs (wk : Walk) :
    (s.withWalk wk).ctxs = s.ctxs := rfl
@[simp] theorem State.withWalk_nullTileCount (wk : Walk) :
    (s.withWalk wk).nullTileCount = s.nullTileCount := rfl
@[simp] theorem State.withWalk_invalidTilePending (wk : Walk) :
    (s.withWalk wk).invalidTilePending = s.invalidTilePending := rfl
@[simp] theorem State.withWalk_renderPowerGating (wk : Walk) :
    (s.withWalk wk).renderPowerGating = s.renderPowerGating := rfl
@[simp] theorem State.withWalk_tlb (wk : Walk) :
    (s.withWalk wk).tlb = s.tlb := rfl
@[simp] theorem State.withWalk_pml4Roots (wk : Walk) :
    (s.withWalk wk).pml4Roots = s.pml4Roots := rfl
@[simp] theorem State.withWalk_halted (wk : Walk) :
    (s.withWalk wk).halted = s.halted := rfl
@[simp] theorem State.withWalk_walk (wk : Walk) :
    (s.withWalk wk).walk = some wk := rfl
@[simp] theorem State.withWalk_waiting (wk : Walk) :
    (s.withWalk wk).waiting = s.waiting := rfl
@[simp] theorem State.withWalk_schedule (wk : Walk) :
    (s.withWalk wk).schedule = s.schedule := rfl
@[simp] theorem State.withWalk_agenda (wk : Walk) :
    (s.withWalk wk).agenda = s.agenda := rfl
@[simp] theorem State.withWalk_results (wk : Walk) :
    (s.withWalk wk).results = s.results := rfl
@[simp] theorem State.withWalk_history (wk : Walk) :
    (s.withWalk wk).history = s.history := rfl
@[simp] theorem State.withWalk_vtdEpoch (wk : Walk) :
    (s.withWalk wk).vtdEpoch = s.vtdEpoch := rfl
@[simp] theorem State.withWalk_draws (wk : Walk) :
    (s.withWalk wk).draws = s.draws := rfl

-- taking an input
@[simp] theorem State.cycleDone_params (rest : List Input) :
    (s.cycleDone rest).params = s.params := rfl
@[simp] theorem State.cycleDone_mem (rest : List Input) :
    (s.cycleDone rest).mem = s.mem := rfl
@[simp] theorem State.cycleDone_resetEpoch (rest : List Input) :
    (s.cycleDone rest).resetEpoch = s.resetEpoch := rfl
@[simp] theorem State.cycleDone_pgtblCtl (rest : List Input) :
    (s.cycleDone rest).pgtblCtl = s.pgtblCtl := rfl
@[simp] theorem State.cycleDone_pgtblCtl2 (rest : List Input) :
    (s.cycleDone rest).pgtblCtl2 = s.pgtblCtl2 := rfl
@[simp] theorem State.cycleDone_trBypass (rest : List Input) :
    (s.cycleDone rest).trBypass = s.trBypass := rfl
@[simp] theorem State.cycleDone_lncf (rest : List Input) :
    (s.cycleDone rest).lncf = s.lncf := rfl
@[simp] theorem State.cycleDone_glob (rest : List Input) :
    (s.cycleDone rest).glob = s.glob := rfl
@[simp] theorem State.cycleDone_pat (rest : List Input) :
    (s.cycleDone rest).pat = s.pat := rfl
@[simp] theorem State.cycleDone_ctxs (rest : List Input) :
    (s.cycleDone rest).ctxs = s.ctxs := rfl
@[simp] theorem State.cycleDone_nullTileCount (rest : List Input) :
    (s.cycleDone rest).nullTileCount = s.nullTileCount := rfl
@[simp] theorem State.cycleDone_invalidTilePending (rest : List Input) :
    (s.cycleDone rest).invalidTilePending = s.invalidTilePending := rfl
@[simp] theorem State.cycleDone_renderPowerGating (rest : List Input) :
    (s.cycleDone rest).renderPowerGating = s.renderPowerGating := rfl
@[simp] theorem State.cycleDone_tlb (rest : List Input) :
    (s.cycleDone rest).tlb = s.tlb := rfl
@[simp] theorem State.cycleDone_pml4Roots (rest : List Input) :
    (s.cycleDone rest).pml4Roots = s.pml4Roots := rfl
@[simp] theorem State.cycleDone_halted (rest : List Input) :
    (s.cycleDone rest).halted = s.halted := rfl
@[simp] theorem State.cycleDone_walk (rest : List Input) :
    (s.cycleDone rest).walk = s.walk := rfl
@[simp] theorem State.cycleDone_waiting (rest : List Input) :
    (s.cycleDone rest).waiting = s.waiting := rfl
@[simp] theorem State.cycleDone_schedule (rest : List Input) :
    (s.cycleDone rest).schedule = s.schedule := rfl
@[simp] theorem State.cycleDone_agenda (rest : List Input) :
    (s.cycleDone rest).agenda = rest := rfl
@[simp] theorem State.cycleDone_results (rest : List Input) :
    (s.cycleDone rest).results = s.results := rfl
@[simp] theorem State.cycleDone_history (rest : List Input) :
    (s.cycleDone rest).history = s.history := rfl
@[simp] theorem State.cycleDone_vtdEpoch (rest : List Input) :
    (s.cycleDone rest).vtdEpoch = s.vtdEpoch := rfl
@[simp] theorem State.cycleDone_draws (rest : List Input) :
    (s.cycleDone rest).draws = s.draws := rfl

-- writing a context
@[simp] theorem State.setCtx_params (c : Nat) (k : Context) :
    (s.setCtx c k).params = s.params := rfl
@[simp] theorem State.setCtx_mem (c : Nat) (k : Context) :
    (s.setCtx c k).mem = s.mem := rfl
@[simp] theorem State.setCtx_resetEpoch (c : Nat) (k : Context) :
    (s.setCtx c k).resetEpoch = s.resetEpoch := rfl
@[simp] theorem State.setCtx_pgtblCtl (c : Nat) (k : Context) :
    (s.setCtx c k).pgtblCtl = s.pgtblCtl := rfl
@[simp] theorem State.setCtx_pgtblCtl2 (c : Nat) (k : Context) :
    (s.setCtx c k).pgtblCtl2 = s.pgtblCtl2 := rfl
@[simp] theorem State.setCtx_trBypass (c : Nat) (k : Context) :
    (s.setCtx c k).trBypass = s.trBypass := rfl
@[simp] theorem State.setCtx_lncf (c : Nat) (k : Context) :
    (s.setCtx c k).lncf = s.lncf := rfl
@[simp] theorem State.setCtx_glob (c : Nat) (k : Context) :
    (s.setCtx c k).glob = s.glob := rfl
@[simp] theorem State.setCtx_pat (c : Nat) (k : Context) :
    (s.setCtx c k).pat = s.pat := rfl
@[simp] theorem State.setCtx_ctxs (c : Nat) (k : Context) :
    (s.setCtx c k).ctxs = setCtxList s.ctxs c k := rfl
@[simp] theorem State.setCtx_nullTileCount (c : Nat) (k : Context) :
    (s.setCtx c k).nullTileCount = s.nullTileCount := rfl
@[simp] theorem State.setCtx_invalidTilePending (c : Nat) (k : Context) :
    (s.setCtx c k).invalidTilePending = s.invalidTilePending := rfl
@[simp] theorem State.setCtx_renderPowerGating (c : Nat) (k : Context) :
    (s.setCtx c k).renderPowerGating = s.renderPowerGating := rfl
@[simp] theorem State.setCtx_tlb (c : Nat) (k : Context) :
    (s.setCtx c k).tlb = s.tlb := rfl
@[simp] theorem State.setCtx_pml4Roots (c : Nat) (k : Context) :
    (s.setCtx c k).pml4Roots = s.pml4Roots := rfl
@[simp] theorem State.setCtx_halted (c : Nat) (k : Context) :
    (s.setCtx c k).halted = s.halted := rfl
@[simp] theorem State.setCtx_walk (c : Nat) (k : Context) :
    (s.setCtx c k).walk = s.walk := rfl
@[simp] theorem State.setCtx_waiting (c : Nat) (k : Context) :
    (s.setCtx c k).waiting = s.waiting := rfl
@[simp] theorem State.setCtx_schedule (c : Nat) (k : Context) :
    (s.setCtx c k).schedule = s.schedule := rfl
@[simp] theorem State.setCtx_agenda (c : Nat) (k : Context) :
    (s.setCtx c k).agenda = s.agenda := rfl
@[simp] theorem State.setCtx_results (c : Nat) (k : Context) :
    (s.setCtx c k).results = s.results := rfl
@[simp] theorem State.setCtx_history (c : Nat) (k : Context) :
    (s.setCtx c k).history = s.history := rfl
@[simp] theorem State.setCtx_vtdEpoch (c : Nat) (k : Context) :
    (s.setCtx c k).vtdEpoch = s.vtdEpoch := rfl
@[simp] theorem State.setCtx_draws (c : Nat) (k : Context) :
    (s.setCtx c k).draws = s.draws := rfl

-- ending a request
@[simp] theorem State.finish_params (c : Completion) :
    (s.finish c).params = s.params := rfl
@[simp] theorem State.finish_mem (c : Completion) :
    (s.finish c).mem = s.mem := rfl
@[simp] theorem State.finish_resetEpoch (c : Completion) :
    (s.finish c).resetEpoch = s.resetEpoch := rfl
@[simp] theorem State.finish_pgtblCtl (c : Completion) :
    (s.finish c).pgtblCtl = s.pgtblCtl := rfl
@[simp] theorem State.finish_pgtblCtl2 (c : Completion) :
    (s.finish c).pgtblCtl2 = s.pgtblCtl2 := rfl
@[simp] theorem State.finish_trBypass (c : Completion) :
    (s.finish c).trBypass = s.trBypass := rfl
@[simp] theorem State.finish_lncf (c : Completion) :
    (s.finish c).lncf = s.lncf := rfl
@[simp] theorem State.finish_glob (c : Completion) :
    (s.finish c).glob = s.glob := rfl
@[simp] theorem State.finish_pat (c : Completion) :
    (s.finish c).pat = s.pat := rfl
@[simp] theorem State.finish_ctxs (c : Completion) :
    (s.finish c).ctxs = s.ctxs := rfl
@[simp] theorem State.finish_nullTileCount (c : Completion) :
    (s.finish c).nullTileCount = s.nullTileCount := rfl
@[simp] theorem State.finish_invalidTilePending (c : Completion) :
    (s.finish c).invalidTilePending = s.invalidTilePending := rfl
@[simp] theorem State.finish_renderPowerGating (c : Completion) :
    (s.finish c).renderPowerGating = s.renderPowerGating := rfl
@[simp] theorem State.finish_tlb (c : Completion) :
    (s.finish c).tlb = s.tlb := rfl
@[simp] theorem State.finish_pml4Roots (c : Completion) :
    (s.finish c).pml4Roots = s.pml4Roots := rfl
@[simp] theorem State.finish_halted (c : Completion) :
    (s.finish c).halted = s.halted := rfl
@[simp] theorem State.finish_walk (c : Completion) :
    (s.finish c).walk = none := rfl
@[simp] theorem State.finish_waiting (c : Completion) :
    (s.finish c).waiting = s.waiting := rfl
@[simp] theorem State.finish_schedule (c : Completion) :
    (s.finish c).schedule = s.schedule := rfl
@[simp] theorem State.finish_agenda (c : Completion) :
    (s.finish c).agenda = s.agenda := rfl
@[simp] theorem State.finish_results (c : Completion) :
    (s.finish c).results = c :: s.results := rfl
@[simp] theorem State.finish_history (c : Completion) :
    (s.finish c).history = s.history := rfl
@[simp] theorem State.finish_vtdEpoch (c : Completion) :
    (s.finish c).vtdEpoch = s.vtdEpoch := rfl
@[simp] theorem State.finish_draws (c : Completion) :
    (s.finish c).draws = s.draws + 1 := rfl

-- a null completion
@[simp] theorem State.completeNull_params (r : Request) :
    (s.completeNull r).params = s.params := rfl
@[simp] theorem State.completeNull_mem (r : Request) :
    (s.completeNull r).mem = s.mem := rfl
@[simp] theorem State.completeNull_resetEpoch (r : Request) :
    (s.completeNull r).resetEpoch = s.resetEpoch := rfl
@[simp] theorem State.completeNull_pgtblCtl (r : Request) :
    (s.completeNull r).pgtblCtl = s.pgtblCtl := rfl
@[simp] theorem State.completeNull_pgtblCtl2 (r : Request) :
    (s.completeNull r).pgtblCtl2 = s.pgtblCtl2 := rfl
@[simp] theorem State.completeNull_trBypass (r : Request) :
    (s.completeNull r).trBypass = s.trBypass := rfl
@[simp] theorem State.completeNull_lncf (r : Request) :
    (s.completeNull r).lncf = s.lncf := rfl
@[simp] theorem State.completeNull_glob (r : Request) :
    (s.completeNull r).glob = s.glob := rfl
@[simp] theorem State.completeNull_pat (r : Request) :
    (s.completeNull r).pat = s.pat := rfl
@[simp] theorem State.completeNull_ctxs (r : Request) :
    (s.completeNull r).ctxs = s.ctxs := rfl
@[simp] theorem State.completeNull_nullTileCount (r : Request) :
    (s.completeNull r).nullTileCount = s.nullTileCount + Config.freeNullTick s.draws := rfl
@[simp] theorem State.completeNull_invalidTilePending (r : Request) :
    (s.completeNull r).invalidTilePending = s.invalidTilePending := rfl
@[simp] theorem State.completeNull_renderPowerGating (r : Request) :
    (s.completeNull r).renderPowerGating = s.renderPowerGating := rfl
@[simp] theorem State.completeNull_tlb (r : Request) :
    (s.completeNull r).tlb = s.tlb := rfl
@[simp] theorem State.completeNull_pml4Roots (r : Request) :
    (s.completeNull r).pml4Roots = s.pml4Roots := rfl
@[simp] theorem State.completeNull_halted (r : Request) :
    (s.completeNull r).halted = s.halted := rfl
@[simp] theorem State.completeNull_walk (r : Request) :
    (s.completeNull r).walk = none := rfl
@[simp] theorem State.completeNull_waiting (r : Request) :
    (s.completeNull r).waiting = s.waiting := rfl
@[simp] theorem State.completeNull_schedule (r : Request) :
    (s.completeNull r).schedule = s.schedule := rfl
@[simp] theorem State.completeNull_agenda (r : Request) :
    (s.completeNull r).agenda = s.agenda := rfl
@[simp] theorem State.completeNull_results (r : Request) :
    (s.completeNull r).results = ⟨.engine r.engine, r.ctx, r.kind, r.n, 0, true⟩ :: s.results := rfl
@[simp] theorem State.completeNull_history (r : Request) :
    (s.completeNull r).history = s.history := rfl
@[simp] theorem State.completeNull_vtdEpoch (r : Request) :
    (s.completeNull r).vtdEpoch = s.vtdEpoch := rfl
@[simp] theorem State.completeNull_draws (r : Request) :
    (s.completeNull r).draws = s.draws + 1 := rfl

-- the completion of a flagged tile
@[simp] theorem State.completeTile_params (r : Request) (n i : Bool) :
    (s.completeTile r n i).params = s.params := rfl
@[simp] theorem State.completeTile_mem (r : Request) (n i : Bool) :
    (s.completeTile r n i).mem = s.mem := rfl
@[simp] theorem State.completeTile_resetEpoch (r : Request) (n i : Bool) :
    (s.completeTile r n i).resetEpoch = s.resetEpoch := rfl
@[simp] theorem State.completeTile_pgtblCtl (r : Request) (n i : Bool) :
    (s.completeTile r n i).pgtblCtl = s.pgtblCtl := rfl
@[simp] theorem State.completeTile_pgtblCtl2 (r : Request) (n i : Bool) :
    (s.completeTile r n i).pgtblCtl2 = s.pgtblCtl2 := rfl
@[simp] theorem State.completeTile_trBypass (r : Request) (n i : Bool) :
    (s.completeTile r n i).trBypass = s.trBypass := rfl
@[simp] theorem State.completeTile_lncf (r : Request) (n i : Bool) :
    (s.completeTile r n i).lncf = s.lncf := rfl
@[simp] theorem State.completeTile_glob (r : Request) (n i : Bool) :
    (s.completeTile r n i).glob = s.glob := rfl
@[simp] theorem State.completeTile_pat (r : Request) (n i : Bool) :
    (s.completeTile r n i).pat = s.pat := rfl
@[simp] theorem State.completeTile_ctxs (r : Request) (n i : Bool) :
    (s.completeTile r n i).ctxs = s.ctxs := rfl
@[simp] theorem State.completeTile_nullTileCount (r : Request) (n i : Bool) :
    (s.completeTile r n i).nullTileCount = s.nullTileCount + Config.freeNullTick s.draws := rfl
@[simp] theorem State.completeTile_invalidTilePending (r : Request) (n i : Bool) :
    (s.completeTile r n i).invalidTilePending = (s.invalidTilePending || (i && (!n || Config.freeTileInvalid s.draws))) := rfl
@[simp] theorem State.completeTile_renderPowerGating (r : Request) (n i : Bool) :
    (s.completeTile r n i).renderPowerGating = s.renderPowerGating := rfl
@[simp] theorem State.completeTile_tlb (r : Request) (n i : Bool) :
    (s.completeTile r n i).tlb = s.tlb := rfl
@[simp] theorem State.completeTile_pml4Roots (r : Request) (n i : Bool) :
    (s.completeTile r n i).pml4Roots = s.pml4Roots := rfl
@[simp] theorem State.completeTile_halted (r : Request) (n i : Bool) :
    (s.completeTile r n i).halted = s.halted := rfl
@[simp] theorem State.completeTile_walk (r : Request) (n i : Bool) :
    (s.completeTile r n i).walk = none := rfl
@[simp] theorem State.completeTile_waiting (r : Request) (n i : Bool) :
    (s.completeTile r n i).waiting = s.waiting := rfl
@[simp] theorem State.completeTile_schedule (r : Request) (n i : Bool) :
    (s.completeTile r n i).schedule = s.schedule := rfl
@[simp] theorem State.completeTile_agenda (r : Request) (n i : Bool) :
    (s.completeTile r n i).agenda = s.agenda := rfl
@[simp] theorem State.completeTile_results (r : Request) (n i : Bool) :
    (s.completeTile r n i).results = ⟨.engine r.engine, r.ctx, r.kind, r.n, 0, true⟩ :: s.results := rfl
@[simp] theorem State.completeTile_history (r : Request) (n i : Bool) :
    (s.completeTile r n i).history = s.history := rfl
@[simp] theorem State.completeTile_vtdEpoch (r : Request) (n i : Bool) :
    (s.completeTile r n i).vtdEpoch = s.vtdEpoch := rfl
@[simp] theorem State.completeTile_draws (r : Request) (n i : Bool) :
    (s.completeTile r n i).draws = s.draws + 1 := rfl

-- halting an engine
@[simp] theorem State.halt_params (r : Request) (f : Fault) :
    (s.halt r f).params = s.params := rfl
@[simp] theorem State.halt_mem (r : Request) (f : Fault) :
    (s.halt r f).mem = s.mem := rfl
@[simp] theorem State.halt_resetEpoch (r : Request) (f : Fault) :
    (s.halt r f).resetEpoch = s.resetEpoch := rfl
@[simp] theorem State.halt_pgtblCtl (r : Request) (f : Fault) :
    (s.halt r f).pgtblCtl = s.pgtblCtl := rfl
@[simp] theorem State.halt_pgtblCtl2 (r : Request) (f : Fault) :
    (s.halt r f).pgtblCtl2 = s.pgtblCtl2 := rfl
@[simp] theorem State.halt_trBypass (r : Request) (f : Fault) :
    (s.halt r f).trBypass = s.trBypass := rfl
@[simp] theorem State.halt_lncf (r : Request) (f : Fault) :
    (s.halt r f).lncf = s.lncf := rfl
@[simp] theorem State.halt_glob (r : Request) (f : Fault) :
    (s.halt r f).glob = s.glob := rfl
@[simp] theorem State.halt_pat (r : Request) (f : Fault) :
    (s.halt r f).pat = s.pat := rfl
@[simp] theorem State.halt_ctxs (r : Request) (f : Fault) :
    (s.halt r f).ctxs = s.ctxs := rfl
@[simp] theorem State.halt_nullTileCount (r : Request) (f : Fault) :
    (s.halt r f).nullTileCount = s.nullTileCount := rfl
@[simp] theorem State.halt_invalidTilePending (r : Request) (f : Fault) :
    (s.halt r f).invalidTilePending = s.invalidTilePending := rfl
@[simp] theorem State.halt_renderPowerGating (r : Request) (f : Fault) :
    (s.halt r f).renderPowerGating = s.renderPowerGating := rfl
@[simp] theorem State.halt_tlb (r : Request) (f : Fault) :
    (s.halt r f).tlb = s.tlb := rfl
@[simp] theorem State.halt_pml4Roots (r : Request) (f : Fault) :
    (s.halt r f).pml4Roots = s.pml4Roots := rfl
@[simp] theorem State.halt_halted (r : Request) (f : Fault) :
    (s.halt r f).halted = ⟨r.engine, r, f⟩ :: s.halted := rfl
@[simp] theorem State.halt_walk (r : Request) (f : Fault) :
    (s.halt r f).walk = none := rfl
@[simp] theorem State.halt_waiting (r : Request) (f : Fault) :
    (s.halt r f).waiting = s.waiting := rfl
@[simp] theorem State.halt_schedule (r : Request) (f : Fault) :
    (s.halt r f).schedule = s.schedule := rfl
@[simp] theorem State.halt_agenda (r : Request) (f : Fault) :
    (s.halt r f).agenda = s.agenda := rfl
@[simp] theorem State.halt_results (r : Request) (f : Fault) :
    (s.halt r f).results = s.results := rfl
@[simp] theorem State.halt_history (r : Request) (f : Fault) :
    (s.halt r f).history = s.history := rfl
@[simp] theorem State.halt_vtdEpoch (r : Request) (f : Fault) :
    (s.halt r f).vtdEpoch = s.vtdEpoch := rfl
@[simp] theorem State.halt_draws (r : Request) (f : Fault) :
    (s.halt r f).draws = s.draws + 1 := rfl

-- recording a read
@[simp] theorem State.noteRead_params (ag : Agent) (pa n d : Nat) (i : Option Route) (l : Option Label) :
    (s.noteRead ag pa n d i l).params = s.params := rfl
@[simp] theorem State.noteRead_mem (ag : Agent) (pa n d : Nat) (i : Option Route) (l : Option Label) :
    (s.noteRead ag pa n d i l).mem = s.mem := rfl
@[simp] theorem State.noteRead_resetEpoch (ag : Agent) (pa n d : Nat) (i : Option Route) (l : Option Label) :
    (s.noteRead ag pa n d i l).resetEpoch = s.resetEpoch := rfl
@[simp] theorem State.noteRead_pgtblCtl (ag : Agent) (pa n d : Nat) (i : Option Route) (l : Option Label) :
    (s.noteRead ag pa n d i l).pgtblCtl = s.pgtblCtl := rfl
@[simp] theorem State.noteRead_pgtblCtl2 (ag : Agent) (pa n d : Nat) (i : Option Route) (l : Option Label) :
    (s.noteRead ag pa n d i l).pgtblCtl2 = s.pgtblCtl2 := rfl
@[simp] theorem State.noteRead_trBypass (ag : Agent) (pa n d : Nat) (i : Option Route) (l : Option Label) :
    (s.noteRead ag pa n d i l).trBypass = s.trBypass := rfl
@[simp] theorem State.noteRead_lncf (ag : Agent) (pa n d : Nat) (i : Option Route) (l : Option Label) :
    (s.noteRead ag pa n d i l).lncf = s.lncf := rfl
@[simp] theorem State.noteRead_glob (ag : Agent) (pa n d : Nat) (i : Option Route) (l : Option Label) :
    (s.noteRead ag pa n d i l).glob = s.glob := rfl
@[simp] theorem State.noteRead_pat (ag : Agent) (pa n d : Nat) (i : Option Route) (l : Option Label) :
    (s.noteRead ag pa n d i l).pat = s.pat := rfl
@[simp] theorem State.noteRead_ctxs (ag : Agent) (pa n d : Nat) (i : Option Route) (l : Option Label) :
    (s.noteRead ag pa n d i l).ctxs = s.ctxs := rfl
@[simp] theorem State.noteRead_nullTileCount (ag : Agent) (pa n d : Nat) (i : Option Route) (l : Option Label) :
    (s.noteRead ag pa n d i l).nullTileCount = s.nullTileCount := rfl
@[simp] theorem State.noteRead_invalidTilePending (ag : Agent) (pa n d : Nat) (i : Option Route) (l : Option Label) :
    (s.noteRead ag pa n d i l).invalidTilePending = s.invalidTilePending := rfl
@[simp] theorem State.noteRead_renderPowerGating (ag : Agent) (pa n d : Nat) (i : Option Route) (l : Option Label) :
    (s.noteRead ag pa n d i l).renderPowerGating = s.renderPowerGating := rfl
@[simp] theorem State.noteRead_tlb (ag : Agent) (pa n d : Nat) (i : Option Route) (l : Option Label) :
    (s.noteRead ag pa n d i l).tlb = s.tlb := rfl
@[simp] theorem State.noteRead_pml4Roots (ag : Agent) (pa n d : Nat) (i : Option Route) (l : Option Label) :
    (s.noteRead ag pa n d i l).pml4Roots = s.pml4Roots := rfl
@[simp] theorem State.noteRead_halted (ag : Agent) (pa n d : Nat) (i : Option Route) (l : Option Label) :
    (s.noteRead ag pa n d i l).halted = s.halted := rfl
@[simp] theorem State.noteRead_walk (ag : Agent) (pa n d : Nat) (i : Option Route) (l : Option Label) :
    (s.noteRead ag pa n d i l).walk = s.walk := rfl
@[simp] theorem State.noteRead_waiting (ag : Agent) (pa n d : Nat) (i : Option Route) (l : Option Label) :
    (s.noteRead ag pa n d i l).waiting = s.waiting := rfl
@[simp] theorem State.noteRead_schedule (ag : Agent) (pa n d : Nat) (i : Option Route) (l : Option Label) :
    (s.noteRead ag pa n d i l).schedule = s.schedule := rfl
@[simp] theorem State.noteRead_agenda (ag : Agent) (pa n d : Nat) (i : Option Route) (l : Option Label) :
    (s.noteRead ag pa n d i l).agenda = s.agenda := rfl
@[simp] theorem State.noteRead_results (ag : Agent) (pa n d : Nat) (i : Option Route) (l : Option Label) :
    (s.noteRead ag pa n d i l).results = s.results := rfl
@[simp] theorem State.noteRead_history (ag : Agent) (pa n d : Nat) (i : Option Route) (l : Option Label) :
    (s.noteRead ag pa n d i l).history = ⟨ag, .read, pa, n, d, 0, i, l⟩ :: s.history := rfl
@[simp] theorem State.noteRead_vtdEpoch (ag : Agent) (pa n d : Nat) (i : Option Route) (l : Option Label) :
    (s.noteRead ag pa n d i l).vtdEpoch = s.vtdEpoch := rfl
@[simp] theorem State.noteRead_draws (ag : Agent) (pa n d : Nat) (i : Option Route) (l : Option Label) :
    (s.noteRead ag pa n d i l).draws = s.draws := rfl

-- a store
@[simp] theorem State.store_params (ag : Agent) (pa n d : Nat) (i : Option Route) (l : Option Label) :
    (s.store ag pa n d i l).params = s.params := rfl
@[simp] theorem State.store_mem (ag : Agent) (pa n d : Nat) (i : Option Route) (l : Option Label) :
    (s.store ag pa n d i l).mem = Memory.writeN s.resetEpoch s.mem pa n d := rfl
@[simp] theorem State.store_resetEpoch (ag : Agent) (pa n d : Nat) (i : Option Route) (l : Option Label) :
    (s.store ag pa n d i l).resetEpoch = s.resetEpoch := rfl
@[simp] theorem State.store_pgtblCtl (ag : Agent) (pa n d : Nat) (i : Option Route) (l : Option Label) :
    (s.store ag pa n d i l).pgtblCtl = s.pgtblCtl := rfl
@[simp] theorem State.store_pgtblCtl2 (ag : Agent) (pa n d : Nat) (i : Option Route) (l : Option Label) :
    (s.store ag pa n d i l).pgtblCtl2 = s.pgtblCtl2 := rfl
@[simp] theorem State.store_trBypass (ag : Agent) (pa n d : Nat) (i : Option Route) (l : Option Label) :
    (s.store ag pa n d i l).trBypass = s.trBypass := rfl
@[simp] theorem State.store_lncf (ag : Agent) (pa n d : Nat) (i : Option Route) (l : Option Label) :
    (s.store ag pa n d i l).lncf = s.lncf := rfl
@[simp] theorem State.store_glob (ag : Agent) (pa n d : Nat) (i : Option Route) (l : Option Label) :
    (s.store ag pa n d i l).glob = s.glob := rfl
@[simp] theorem State.store_pat (ag : Agent) (pa n d : Nat) (i : Option Route) (l : Option Label) :
    (s.store ag pa n d i l).pat = s.pat := rfl
@[simp] theorem State.store_ctxs (ag : Agent) (pa n d : Nat) (i : Option Route) (l : Option Label) :
    (s.store ag pa n d i l).ctxs = s.ctxs := rfl
@[simp] theorem State.store_nullTileCount (ag : Agent) (pa n d : Nat) (i : Option Route) (l : Option Label) :
    (s.store ag pa n d i l).nullTileCount = s.nullTileCount := rfl
@[simp] theorem State.store_invalidTilePending (ag : Agent) (pa n d : Nat) (i : Option Route) (l : Option Label) :
    (s.store ag pa n d i l).invalidTilePending = s.invalidTilePending := rfl
@[simp] theorem State.store_renderPowerGating (ag : Agent) (pa n d : Nat) (i : Option Route) (l : Option Label) :
    (s.store ag pa n d i l).renderPowerGating = s.renderPowerGating := rfl
@[simp] theorem State.store_tlb (ag : Agent) (pa n d : Nat) (i : Option Route) (l : Option Label) :
    (s.store ag pa n d i l).tlb = s.tlb := rfl
@[simp] theorem State.store_pml4Roots (ag : Agent) (pa n d : Nat) (i : Option Route) (l : Option Label) :
    (s.store ag pa n d i l).pml4Roots = s.pml4Roots := rfl
@[simp] theorem State.store_halted (ag : Agent) (pa n d : Nat) (i : Option Route) (l : Option Label) :
    (s.store ag pa n d i l).halted = s.halted := rfl
@[simp] theorem State.store_walk (ag : Agent) (pa n d : Nat) (i : Option Route) (l : Option Label) :
    (s.store ag pa n d i l).walk = s.walk := rfl
@[simp] theorem State.store_waiting (ag : Agent) (pa n d : Nat) (i : Option Route) (l : Option Label) :
    (s.store ag pa n d i l).waiting = s.waiting := rfl
@[simp] theorem State.store_schedule (ag : Agent) (pa n d : Nat) (i : Option Route) (l : Option Label) :
    (s.store ag pa n d i l).schedule = s.schedule := rfl
@[simp] theorem State.store_agenda (ag : Agent) (pa n d : Nat) (i : Option Route) (l : Option Label) :
    (s.store ag pa n d i l).agenda = s.agenda := rfl
@[simp] theorem State.store_results (ag : Agent) (pa n d : Nat) (i : Option Route) (l : Option Label) :
    (s.store ag pa n d i l).results = s.results := rfl
@[simp] theorem State.store_history (ag : Agent) (pa n d : Nat) (i : Option Route) (l : Option Label) :
    (s.store ag pa n d i l).history = ⟨ag, .write, pa, n, d % 256 ^ n, s.readMem pa n, i, l⟩ :: s.history := rfl
@[simp] theorem State.store_vtdEpoch (ag : Agent) (pa n d : Nat) (i : Option Route) (l : Option Label) :
    (s.store ag pa n d i l).vtdEpoch = s.vtdEpoch + 1 := rfl
@[simp] theorem State.store_draws (ag : Agent) (pa n d : Nat) (i : Option Route) (l : Option Label) :
    (s.store ag pa n d i l).draws = s.draws := rfl

-- a value returned to the host
@[simp] theorem State.hostResult_params (n d : Nat) :
    (s.hostResult n d).params = s.params := rfl
@[simp] theorem State.hostResult_mem (n d : Nat) :
    (s.hostResult n d).mem = s.mem := rfl
@[simp] theorem State.hostResult_resetEpoch (n d : Nat) :
    (s.hostResult n d).resetEpoch = s.resetEpoch := rfl
@[simp] theorem State.hostResult_pgtblCtl (n d : Nat) :
    (s.hostResult n d).pgtblCtl = s.pgtblCtl := rfl
@[simp] theorem State.hostResult_pgtblCtl2 (n d : Nat) :
    (s.hostResult n d).pgtblCtl2 = s.pgtblCtl2 := rfl
@[simp] theorem State.hostResult_trBypass (n d : Nat) :
    (s.hostResult n d).trBypass = s.trBypass := rfl
@[simp] theorem State.hostResult_lncf (n d : Nat) :
    (s.hostResult n d).lncf = s.lncf := rfl
@[simp] theorem State.hostResult_glob (n d : Nat) :
    (s.hostResult n d).glob = s.glob := rfl
@[simp] theorem State.hostResult_pat (n d : Nat) :
    (s.hostResult n d).pat = s.pat := rfl
@[simp] theorem State.hostResult_ctxs (n d : Nat) :
    (s.hostResult n d).ctxs = s.ctxs := rfl
@[simp] theorem State.hostResult_nullTileCount (n d : Nat) :
    (s.hostResult n d).nullTileCount = s.nullTileCount := rfl
@[simp] theorem State.hostResult_invalidTilePending (n d : Nat) :
    (s.hostResult n d).invalidTilePending = s.invalidTilePending := rfl
@[simp] theorem State.hostResult_renderPowerGating (n d : Nat) :
    (s.hostResult n d).renderPowerGating = s.renderPowerGating := rfl
@[simp] theorem State.hostResult_tlb (n d : Nat) :
    (s.hostResult n d).tlb = s.tlb := rfl
@[simp] theorem State.hostResult_pml4Roots (n d : Nat) :
    (s.hostResult n d).pml4Roots = s.pml4Roots := rfl
@[simp] theorem State.hostResult_halted (n d : Nat) :
    (s.hostResult n d).halted = s.halted := rfl
@[simp] theorem State.hostResult_walk (n d : Nat) :
    (s.hostResult n d).walk = s.walk := rfl
@[simp] theorem State.hostResult_waiting (n d : Nat) :
    (s.hostResult n d).waiting = s.waiting := rfl
@[simp] theorem State.hostResult_schedule (n d : Nat) :
    (s.hostResult n d).schedule = s.schedule := rfl
@[simp] theorem State.hostResult_agenda (n d : Nat) :
    (s.hostResult n d).agenda = s.agenda := rfl
@[simp] theorem State.hostResult_results (n d : Nat) :
    (s.hostResult n d).results = ⟨.host, 0, .read, n, d, false⟩ :: s.results := rfl
@[simp] theorem State.hostResult_history (n d : Nat) :
    (s.hostResult n d).history = s.history := rfl
@[simp] theorem State.hostResult_vtdEpoch (n d : Nat) :
    (s.hostResult n d).vtdEpoch = s.vtdEpoch := rfl
@[simp] theorem State.hostResult_draws (n d : Nat) :
    (s.hostResult n d).draws = s.draws + 1 := rfl

-- the read of an entry
@[simp] theorem State.fetched_params (wk : Walk) (a : Nat) :
    (s.fetched wk a).params = s.params := rfl
@[simp] theorem State.fetched_mem (wk : Walk) (a : Nat) :
    (s.fetched wk a).mem = s.mem := rfl
@[simp] theorem State.fetched_resetEpoch (wk : Walk) (a : Nat) :
    (s.fetched wk a).resetEpoch = s.resetEpoch := rfl
@[simp] theorem State.fetched_pgtblCtl (wk : Walk) (a : Nat) :
    (s.fetched wk a).pgtblCtl = s.pgtblCtl := rfl
@[simp] theorem State.fetched_pgtblCtl2 (wk : Walk) (a : Nat) :
    (s.fetched wk a).pgtblCtl2 = s.pgtblCtl2 := rfl
@[simp] theorem State.fetched_trBypass (wk : Walk) (a : Nat) :
    (s.fetched wk a).trBypass = s.trBypass := rfl
@[simp] theorem State.fetched_lncf (wk : Walk) (a : Nat) :
    (s.fetched wk a).lncf = s.lncf := rfl
@[simp] theorem State.fetched_glob (wk : Walk) (a : Nat) :
    (s.fetched wk a).glob = s.glob := rfl
@[simp] theorem State.fetched_pat (wk : Walk) (a : Nat) :
    (s.fetched wk a).pat = s.pat := rfl
@[simp] theorem State.fetched_ctxs (wk : Walk) (a : Nat) :
    (s.fetched wk a).ctxs = s.ctxs := rfl
@[simp] theorem State.fetched_nullTileCount (wk : Walk) (a : Nat) :
    (s.fetched wk a).nullTileCount = s.nullTileCount := rfl
@[simp] theorem State.fetched_invalidTilePending (wk : Walk) (a : Nat) :
    (s.fetched wk a).invalidTilePending = s.invalidTilePending := rfl
@[simp] theorem State.fetched_renderPowerGating (wk : Walk) (a : Nat) :
    (s.fetched wk a).renderPowerGating = s.renderPowerGating := rfl
@[simp] theorem State.fetched_tlb (wk : Walk) (a : Nat) :
    (s.fetched wk a).tlb = s.tlbAfter wk (s.entryWord wk a) (some a) := rfl
@[simp] theorem State.fetched_pml4Roots (wk : Walk) (a : Nat) :
    (s.fetched wk a).pml4Roots = s.pml4After wk a := rfl
@[simp] theorem State.fetched_halted (wk : Walk) (a : Nat) :
    (s.fetched wk a).halted = s.halted := rfl
@[simp] theorem State.fetched_walk (wk : Walk) (a : Nat) :
    (s.fetched wk a).walk = some (wk.noted a) := rfl
@[simp] theorem State.fetched_waiting (wk : Walk) (a : Nat) :
    (s.fetched wk a).waiting = s.waiting := rfl
@[simp] theorem State.fetched_schedule (wk : Walk) (a : Nat) :
    (s.fetched wk a).schedule = s.schedule := rfl
@[simp] theorem State.fetched_agenda (wk : Walk) (a : Nat) :
    (s.fetched wk a).agenda = s.agenda := rfl
@[simp] theorem State.fetched_results (wk : Walk) (a : Nat) :
    (s.fetched wk a).results = s.results := rfl
@[simp] theorem State.fetched_history (wk : Walk) (a : Nat) :
    (s.fetched wk a).history = if s.fromMemory wk then s.entryRead wk a :: s.history else s.history := rfl
@[simp] theorem State.fetched_vtdEpoch (wk : Walk) (a : Nat) :
    (s.fetched wk a).vtdEpoch = s.vtdEpoch := rfl
@[simp] theorem State.fetched_draws (wk : Walk) (a : Nat) :
    (s.fetched wk a).draws = s.draws + 1 := rfl

-- the use of a copy
@[simp] theorem State.tookCopy_params (wk : Walk) (w : Word64) :
    (s.tookCopy wk w).params = s.params := rfl
@[simp] theorem State.tookCopy_mem (wk : Walk) (w : Word64) :
    (s.tookCopy wk w).mem = s.mem := rfl
@[simp] theorem State.tookCopy_resetEpoch (wk : Walk) (w : Word64) :
    (s.tookCopy wk w).resetEpoch = s.resetEpoch := rfl
@[simp] theorem State.tookCopy_pgtblCtl (wk : Walk) (w : Word64) :
    (s.tookCopy wk w).pgtblCtl = s.pgtblCtl := rfl
@[simp] theorem State.tookCopy_pgtblCtl2 (wk : Walk) (w : Word64) :
    (s.tookCopy wk w).pgtblCtl2 = s.pgtblCtl2 := rfl
@[simp] theorem State.tookCopy_trBypass (wk : Walk) (w : Word64) :
    (s.tookCopy wk w).trBypass = s.trBypass := rfl
@[simp] theorem State.tookCopy_lncf (wk : Walk) (w : Word64) :
    (s.tookCopy wk w).lncf = s.lncf := rfl
@[simp] theorem State.tookCopy_glob (wk : Walk) (w : Word64) :
    (s.tookCopy wk w).glob = s.glob := rfl
@[simp] theorem State.tookCopy_pat (wk : Walk) (w : Word64) :
    (s.tookCopy wk w).pat = s.pat := rfl
@[simp] theorem State.tookCopy_ctxs (wk : Walk) (w : Word64) :
    (s.tookCopy wk w).ctxs = s.ctxs := rfl
@[simp] theorem State.tookCopy_nullTileCount (wk : Walk) (w : Word64) :
    (s.tookCopy wk w).nullTileCount = s.nullTileCount := rfl
@[simp] theorem State.tookCopy_invalidTilePending (wk : Walk) (w : Word64) :
    (s.tookCopy wk w).invalidTilePending = s.invalidTilePending := rfl
@[simp] theorem State.tookCopy_renderPowerGating (wk : Walk) (w : Word64) :
    (s.tookCopy wk w).renderPowerGating = s.renderPowerGating := rfl
@[simp] theorem State.tookCopy_tlb (wk : Walk) (w : Word64) :
    (s.tookCopy wk w).tlb = s.tlbAfter wk w none := rfl
@[simp] theorem State.tookCopy_pml4Roots (wk : Walk) (w : Word64) :
    (s.tookCopy wk w).pml4Roots = s.pml4Roots := rfl
@[simp] theorem State.tookCopy_halted (wk : Walk) (w : Word64) :
    (s.tookCopy wk w).halted = s.halted := rfl
@[simp] theorem State.tookCopy_walk (wk : Walk) (w : Word64) :
    (s.tookCopy wk w).walk = s.walk := rfl
@[simp] theorem State.tookCopy_waiting (wk : Walk) (w : Word64) :
    (s.tookCopy wk w).waiting = s.waiting := rfl
@[simp] theorem State.tookCopy_schedule (wk : Walk) (w : Word64) :
    (s.tookCopy wk w).schedule = s.schedule := rfl
@[simp] theorem State.tookCopy_agenda (wk : Walk) (w : Word64) :
    (s.tookCopy wk w).agenda = s.agenda := rfl
@[simp] theorem State.tookCopy_results (wk : Walk) (w : Word64) :
    (s.tookCopy wk w).results = s.results := rfl
@[simp] theorem State.tookCopy_history (wk : Walk) (w : Word64) :
    (s.tookCopy wk w).history = s.history := rfl
@[simp] theorem State.tookCopy_vtdEpoch (wk : Walk) (w : Word64) :
    (s.tookCopy wk w).vtdEpoch = s.vtdEpoch := rfl
@[simp] theorem State.tookCopy_draws (wk : Walk) (w : Word64) :
    (s.tookCopy wk w).draws = s.draws + 1 := rfl

-- a device reset
@[simp] theorem State.deviceReset_params :
    (s.deviceReset).params = s.params := rfl
@[simp] theorem State.deviceReset_mem :
    (s.deviceReset).mem = [] := rfl
@[simp] theorem State.deviceReset_resetEpoch :
    (s.deviceReset).resetEpoch = s.resetEpoch + 1 := rfl
@[simp] theorem State.deviceReset_pgtblCtl :
    (s.deviceReset).pgtblCtl = fieldAt 64 12 (Config.freeGgttPage s.draws) := rfl
@[simp] theorem State.deviceReset_pgtblCtl2 :
    (s.deviceReset).pgtblCtl2 = Config.freePgtblCtl2 s.draws := rfl
@[simp] theorem State.deviceReset_trBypass :
    (s.deviceReset).trBypass = 0#32 := rfl
@[simp] theorem State.deviceReset_lncf :
    (s.deviceReset).lncf = Vector.replicate 32 0x00100000#32 := rfl
@[simp] theorem State.deviceReset_glob :
    (s.deviceReset).glob = Vector.replicate 64 0x00000033#32 := rfl
@[simp] theorem State.deviceReset_pat :
    (s.deviceReset).pat = Vector.ofFn (fun i : Fin 4 => Config.freePat s.draws i.val) := rfl
@[simp] theorem State.deviceReset_ctxs :
    (s.deviceReset).ctxs = [] := rfl
@[simp] theorem State.deviceReset_nullTileCount :
    (s.deviceReset).nullTileCount = Config.freeCounter s.draws := rfl
@[simp] theorem State.deviceReset_invalidTilePending :
    (s.deviceReset).invalidTilePending = Config.freePending s.draws := rfl
@[simp] theorem State.deviceReset_renderPowerGating :
    (s.deviceReset).renderPowerGating = Config.freeGating s.draws := rfl
@[simp] theorem State.deviceReset_tlb :
    (s.deviceReset).tlb = Config.freeTlb s.draws := rfl
@[simp] theorem State.deviceReset_pml4Roots :
    (s.deviceReset).pml4Roots = [] := rfl
@[simp] theorem State.deviceReset_halted :
    (s.deviceReset).halted = [] := rfl
@[simp] theorem State.deviceReset_walk :
    (s.deviceReset).walk = none := rfl
@[simp] theorem State.deviceReset_waiting :
    (s.deviceReset).waiting = [] := rfl
@[simp] theorem State.deviceReset_schedule :
    (s.deviceReset).schedule = s.schedule := rfl
@[simp] theorem State.deviceReset_agenda :
    (s.deviceReset).agenda = s.agenda := rfl
@[simp] theorem State.deviceReset_results :
    (s.deviceReset).results = s.results := rfl
@[simp] theorem State.deviceReset_history :
    (s.deviceReset).history = s.history := rfl
@[simp] theorem State.deviceReset_vtdEpoch :
    (s.deviceReset).vtdEpoch = s.vtdEpoch + 1 := rfl
@[simp] theorem State.deviceReset_draws :
    (s.deviceReset).draws = s.draws + 1 := rfl

-- a render reset
@[simp] theorem State.renderReset_params (c : Nat) :
    (s.renderReset c).params = s.params := by unfold State.renderReset; rfl
@[simp] theorem State.renderReset_mem (c : Nat) :
    (s.renderReset c).mem = s.mem := by unfold State.renderReset; rfl
@[simp] theorem State.renderReset_resetEpoch (c : Nat) :
    (s.renderReset c).resetEpoch = s.resetEpoch := by unfold State.renderReset; rfl
@[simp] theorem State.renderReset_pgtblCtl (c : Nat) :
    (s.renderReset c).pgtblCtl = s.pgtblCtl := by unfold State.renderReset; rfl
@[simp] theorem State.renderReset_pgtblCtl2 (c : Nat) :
    (s.renderReset c).pgtblCtl2 = s.pgtblCtl2 := by unfold State.renderReset; rfl
@[simp] theorem State.renderReset_trBypass (c : Nat) :
    (s.renderReset c).trBypass = s.trBypass := by unfold State.renderReset; rfl
@[simp] theorem State.renderReset_lncf (c : Nat) :
    (s.renderReset c).lncf = Vector.ofFn (fun x : Fin 32 => lncfKept (Config.freeLncf s.draws x.val)) := by unfold State.renderReset; rfl
@[simp] theorem State.renderReset_glob (c : Nat) :
    (s.renderReset c).glob = s.glob := by unfold State.renderReset; rfl
@[simp] theorem State.renderReset_pat (c : Nat) :
    (s.renderReset c).pat = s.pat := by unfold State.renderReset; rfl
@[simp] theorem State.renderReset_ctxs (c : Nat) :
    (s.renderReset c).ctxs = setCtxList s.ctxs c ((s.ctx c).trFree s.draws) := by unfold State.renderReset; rfl
@[simp] theorem State.renderReset_nullTileCount (c : Nat) :
    (s.renderReset c).nullTileCount = s.nullTileCount := by unfold State.renderReset; rfl
@[simp] theorem State.renderReset_invalidTilePending (c : Nat) :
    (s.renderReset c).invalidTilePending = s.invalidTilePending := by unfold State.renderReset; rfl
@[simp] theorem State.renderReset_renderPowerGating (c : Nat) :
    (s.renderReset c).renderPowerGating = s.renderPowerGating := by unfold State.renderReset; rfl
@[simp] theorem State.renderReset_tlb (c : Nat) :
    (s.renderReset c).tlb = s.tlb := by unfold State.renderReset; rfl
@[simp] theorem State.renderReset_pml4Roots (c : Nat) :
    (s.renderReset c).pml4Roots = s.pml4Roots := by unfold State.renderReset; rfl
@[simp] theorem State.renderReset_halted (c : Nat) :
    (s.renderReset c).halted = s.halted := by unfold State.renderReset; rfl
@[simp] theorem State.renderReset_walk (c : Nat) :
    (s.renderReset c).walk = s.walk := by unfold State.renderReset; rfl
@[simp] theorem State.renderReset_waiting (c : Nat) :
    (s.renderReset c).waiting = s.waiting := by unfold State.renderReset; rfl
@[simp] theorem State.renderReset_schedule (c : Nat) :
    (s.renderReset c).schedule = s.schedule := by unfold State.renderReset; rfl
@[simp] theorem State.renderReset_agenda (c : Nat) :
    (s.renderReset c).agenda = s.agenda := by unfold State.renderReset; rfl
@[simp] theorem State.renderReset_results (c : Nat) :
    (s.renderReset c).results = s.results := by unfold State.renderReset; rfl
@[simp] theorem State.renderReset_history (c : Nat) :
    (s.renderReset c).history = s.history := by unfold State.renderReset; rfl
@[simp] theorem State.renderReset_vtdEpoch (c : Nat) :
    (s.renderReset c).vtdEpoch = s.vtdEpoch := by unfold State.renderReset; rfl
@[simp] theorem State.renderReset_draws (c : Nat) :
    (s.renderReset c).draws = s.draws + 1 := by unfold State.renderReset; rfl

-- RC6 entry and exit
@[simp] theorem State.rc6_params (b : Bool) :
    (s.rc6 b).params = s.params := by
  unfold State.rc6; cases b <;> simp only [Bool.false_eq_true, if_false, if_true]
@[simp] theorem State.rc6_mem (b : Bool) :
    (s.rc6 b).mem = s.mem := by
  unfold State.rc6; cases b <;> simp only [Bool.false_eq_true, if_false, if_true]
@[simp] theorem State.rc6_resetEpoch (b : Bool) :
    (s.rc6 b).resetEpoch = s.resetEpoch := by
  unfold State.rc6; cases b <;> simp only [Bool.false_eq_true, if_false, if_true]
@[simp] theorem State.rc6_pgtblCtl (b : Bool) :
    (s.rc6 b).pgtblCtl = s.pgtblCtl := by
  unfold State.rc6; cases b <;> simp only [Bool.false_eq_true, if_false, if_true]
@[simp] theorem State.rc6_pgtblCtl2 (b : Bool) :
    (s.rc6 b).pgtblCtl2 = s.pgtblCtl2 := by
  unfold State.rc6; cases b <;> simp only [Bool.false_eq_true, if_false, if_true]
@[simp] theorem State.rc6_trBypass (b : Bool) :
    (s.rc6 b).trBypass = s.trBypass := by
  unfold State.rc6; cases b <;> simp only [Bool.false_eq_true, if_false, if_true]
@[simp] theorem State.rc6_lncf (b : Bool) :
    (s.rc6 b).lncf = if b then s.lncf else Vector.ofFn (fun x : Fin 32 => lncfKept (Config.freeLncf s.draws x.val)) := by
  unfold State.rc6; cases b <;> simp only [Bool.false_eq_true, if_false, if_true]
@[simp] theorem State.rc6_glob (b : Bool) :
    (s.rc6 b).glob = if b then s.glob else Vector.ofFn (fun i : Fin 64 => globKept (Config.freeGlob s.draws i.val)) := by
  unfold State.rc6; cases b <;> simp only [Bool.false_eq_true, if_false, if_true]
@[simp] theorem State.rc6_pat (b : Bool) :
    (s.rc6 b).pat = s.pat := by
  unfold State.rc6; cases b <;> simp only [Bool.false_eq_true, if_false, if_true]
@[simp] theorem State.rc6_ctxs (b : Bool) :
    (s.rc6 b).ctxs = s.ctxs := by
  unfold State.rc6; cases b <;> simp only [Bool.false_eq_true, if_false, if_true]
@[simp] theorem State.rc6_nullTileCount (b : Bool) :
    (s.rc6 b).nullTileCount = s.nullTileCount := by
  unfold State.rc6; cases b <;> simp only [Bool.false_eq_true, if_false, if_true]
@[simp] theorem State.rc6_invalidTilePending (b : Bool) :
    (s.rc6 b).invalidTilePending = s.invalidTilePending := by
  unfold State.rc6; cases b <;> simp only [Bool.false_eq_true, if_false, if_true]
@[simp] theorem State.rc6_renderPowerGating (b : Bool) :
    (s.rc6 b).renderPowerGating = s.renderPowerGating := by
  unfold State.rc6; cases b <;> simp only [Bool.false_eq_true, if_false, if_true]
@[simp] theorem State.rc6_tlb (b : Bool) :
    (s.rc6 b).tlb = s.tlb := by
  unfold State.rc6; cases b <;> simp only [Bool.false_eq_true, if_false, if_true]
@[simp] theorem State.rc6_pml4Roots (b : Bool) :
    (s.rc6 b).pml4Roots = s.pml4Roots := by
  unfold State.rc6; cases b <;> simp only [Bool.false_eq_true, if_false, if_true]
@[simp] theorem State.rc6_halted (b : Bool) :
    (s.rc6 b).halted = s.halted := by
  unfold State.rc6; cases b <;> simp only [Bool.false_eq_true, if_false, if_true]
@[simp] theorem State.rc6_walk (b : Bool) :
    (s.rc6 b).walk = s.walk := by
  unfold State.rc6; cases b <;> simp only [Bool.false_eq_true, if_false, if_true]
@[simp] theorem State.rc6_waiting (b : Bool) :
    (s.rc6 b).waiting = s.waiting := by
  unfold State.rc6; cases b <;> simp only [Bool.false_eq_true, if_false, if_true]
@[simp] theorem State.rc6_schedule (b : Bool) :
    (s.rc6 b).schedule = s.schedule := by
  unfold State.rc6; cases b <;> simp only [Bool.false_eq_true, if_false, if_true]
@[simp] theorem State.rc6_agenda (b : Bool) :
    (s.rc6 b).agenda = s.agenda := by
  unfold State.rc6; cases b <;> simp only [Bool.false_eq_true, if_false, if_true]
@[simp] theorem State.rc6_results (b : Bool) :
    (s.rc6 b).results = s.results := by
  unfold State.rc6; cases b <;> simp only [Bool.false_eq_true, if_false, if_true]
@[simp] theorem State.rc6_history (b : Bool) :
    (s.rc6 b).history = s.history := by
  unfold State.rc6; cases b <;> simp only [Bool.false_eq_true, if_false, if_true]
@[simp] theorem State.rc6_vtdEpoch (b : Bool) :
    (s.rc6 b).vtdEpoch = s.vtdEpoch := by
  unfold State.rc6; cases b <;> simp only [Bool.false_eq_true, if_false, if_true]
@[simp] theorem State.rc6_draws (b : Bool) :
    (s.rc6 b).draws = if b then s.draws else s.draws + 1 := by
  unfold State.rc6; cases b <;> simp only [Bool.false_eq_true, if_false, if_true]

-- a successful fault response
@[simp] theorem State.retry_params (h : Halted) (hs : List Halted) :
    (s.retry h hs).params = s.params := rfl
@[simp] theorem State.retry_mem (h : Halted) (hs : List Halted) :
    (s.retry h hs).mem = s.mem := rfl
@[simp] theorem State.retry_resetEpoch (h : Halted) (hs : List Halted) :
    (s.retry h hs).resetEpoch = s.resetEpoch := rfl
@[simp] theorem State.retry_pgtblCtl (h : Halted) (hs : List Halted) :
    (s.retry h hs).pgtblCtl = s.pgtblCtl := rfl
@[simp] theorem State.retry_pgtblCtl2 (h : Halted) (hs : List Halted) :
    (s.retry h hs).pgtblCtl2 = s.pgtblCtl2 := rfl
@[simp] theorem State.retry_trBypass (h : Halted) (hs : List Halted) :
    (s.retry h hs).trBypass = s.trBypass := rfl
@[simp] theorem State.retry_lncf (h : Halted) (hs : List Halted) :
    (s.retry h hs).lncf = s.lncf := rfl
@[simp] theorem State.retry_glob (h : Halted) (hs : List Halted) :
    (s.retry h hs).glob = s.glob := rfl
@[simp] theorem State.retry_pat (h : Halted) (hs : List Halted) :
    (s.retry h hs).pat = s.pat := rfl
@[simp] theorem State.retry_ctxs (h : Halted) (hs : List Halted) :
    (s.retry h hs).ctxs = s.ctxs := rfl
@[simp] theorem State.retry_nullTileCount (h : Halted) (hs : List Halted) :
    (s.retry h hs).nullTileCount = s.nullTileCount := rfl
@[simp] theorem State.retry_invalidTilePending (h : Halted) (hs : List Halted) :
    (s.retry h hs).invalidTilePending = s.invalidTilePending := rfl
@[simp] theorem State.retry_renderPowerGating (h : Halted) (hs : List Halted) :
    (s.retry h hs).renderPowerGating = s.renderPowerGating := rfl
@[simp] theorem State.retry_tlb (h : Halted) (hs : List Halted) :
    (s.retry h hs).tlb = s.tlb := rfl
@[simp] theorem State.retry_pml4Roots (h : Halted) (hs : List Halted) :
    (s.retry h hs).pml4Roots = s.pml4Roots := rfl
@[simp] theorem State.retry_halted (h : Halted) (hs : List Halted) :
    (s.retry h hs).halted = hs := rfl
@[simp] theorem State.retry_walk (h : Halted) (hs : List Halted) :
    (s.retry h hs).walk = s.walk := rfl
@[simp] theorem State.retry_waiting (h : Halted) (hs : List Halted) :
    (s.retry h hs).waiting = s.waiting := rfl
@[simp] theorem State.retry_schedule (h : Halted) (hs : List Halted) :
    (s.retry h hs).schedule = s.schedule := rfl
@[simp] theorem State.retry_agenda (h : Halted) (hs : List Halted) :
    (s.retry h hs).agenda = .request { h.req with retried := true } :: s.agenda := rfl
@[simp] theorem State.retry_results (h : Halted) (hs : List Halted) :
    (s.retry h hs).results = s.results := rfl
@[simp] theorem State.retry_history (h : Halted) (hs : List Halted) :
    (s.retry h hs).history = s.history := rfl
@[simp] theorem State.retry_vtdEpoch (h : Halted) (hs : List Halted) :
    (s.retry h hs).vtdEpoch = s.vtdEpoch + 1 := rfl
@[simp] theorem State.retry_draws (h : Halted) (hs : List Halted) :
    (s.retry h hs).draws = s.draws := rfl

-- the enabling of render power gating
@[simp] theorem State.gatePower_params :
    (s.gatePower).params = s.params := rfl
@[simp] theorem State.gatePower_mem :
    (s.gatePower).mem = s.mem := rfl
@[simp] theorem State.gatePower_resetEpoch :
    (s.gatePower).resetEpoch = s.resetEpoch := rfl
@[simp] theorem State.gatePower_pgtblCtl :
    (s.gatePower).pgtblCtl = s.pgtblCtl := rfl
@[simp] theorem State.gatePower_pgtblCtl2 :
    (s.gatePower).pgtblCtl2 = s.pgtblCtl2 := rfl
@[simp] theorem State.gatePower_trBypass :
    (s.gatePower).trBypass = s.trBypass := rfl
@[simp] theorem State.gatePower_lncf :
    (s.gatePower).lncf = s.lncf := rfl
@[simp] theorem State.gatePower_glob :
    (s.gatePower).glob = s.glob := rfl
@[simp] theorem State.gatePower_pat :
    (s.gatePower).pat = s.pat := rfl
@[simp] theorem State.gatePower_ctxs :
    (s.gatePower).ctxs = s.ctxs := rfl
@[simp] theorem State.gatePower_nullTileCount :
    (s.gatePower).nullTileCount = s.nullTileCount := rfl
@[simp] theorem State.gatePower_invalidTilePending :
    (s.gatePower).invalidTilePending = s.invalidTilePending := rfl
@[simp] theorem State.gatePower_renderPowerGating :
    (s.gatePower).renderPowerGating = true := rfl
@[simp] theorem State.gatePower_tlb :
    (s.gatePower).tlb = s.tlb := rfl
@[simp] theorem State.gatePower_pml4Roots :
    (s.gatePower).pml4Roots = s.pml4Roots := rfl
@[simp] theorem State.gatePower_halted :
    (s.gatePower).halted = s.halted := rfl
@[simp] theorem State.gatePower_walk :
    (s.gatePower).walk = s.walk := rfl
@[simp] theorem State.gatePower_waiting :
    (s.gatePower).waiting = s.waiting := rfl
@[simp] theorem State.gatePower_schedule :
    (s.gatePower).schedule = s.schedule := rfl
@[simp] theorem State.gatePower_agenda :
    (s.gatePower).agenda = s.agenda := rfl
@[simp] theorem State.gatePower_results :
    (s.gatePower).results = s.results := rfl
@[simp] theorem State.gatePower_history :
    (s.gatePower).history = s.history := rfl
@[simp] theorem State.gatePower_vtdEpoch :
    (s.gatePower).vtdEpoch = s.vtdEpoch := rfl
@[simp] theorem State.gatePower_draws :
    (s.gatePower).draws = s.draws := rfl

-- putting the walk aside
@[simp] theorem State.parked_params :
    (s.parked).params = s.params := rfl
@[simp] theorem State.parked_mem :
    (s.parked).mem = s.mem := rfl
@[simp] theorem State.parked_resetEpoch :
    (s.parked).resetEpoch = s.resetEpoch := rfl
@[simp] theorem State.parked_pgtblCtl :
    (s.parked).pgtblCtl = s.pgtblCtl := rfl
@[simp] theorem State.parked_pgtblCtl2 :
    (s.parked).pgtblCtl2 = s.pgtblCtl2 := rfl
@[simp] theorem State.parked_trBypass :
    (s.parked).trBypass = s.trBypass := rfl
@[simp] theorem State.parked_lncf :
    (s.parked).lncf = s.lncf := rfl
@[simp] theorem State.parked_glob :
    (s.parked).glob = s.glob := rfl
@[simp] theorem State.parked_pat :
    (s.parked).pat = s.pat := rfl
@[simp] theorem State.parked_ctxs :
    (s.parked).ctxs = s.ctxs := rfl
@[simp] theorem State.parked_nullTileCount :
    (s.parked).nullTileCount = s.nullTileCount := rfl
@[simp] theorem State.parked_invalidTilePending :
    (s.parked).invalidTilePending = s.invalidTilePending := rfl
@[simp] theorem State.parked_renderPowerGating :
    (s.parked).renderPowerGating = s.renderPowerGating := rfl
@[simp] theorem State.parked_tlb :
    (s.parked).tlb = s.tlb := rfl
@[simp] theorem State.parked_pml4Roots :
    (s.parked).pml4Roots = s.pml4Roots := rfl
@[simp] theorem State.parked_halted :
    (s.parked).halted = s.halted := rfl
@[simp] theorem State.parked_walk :
    (s.parked).walk = none := rfl
@[simp] theorem State.parked_waiting :
    (s.parked).waiting = s.inFlight := rfl
@[simp] theorem State.parked_schedule :
    (s.parked).schedule = s.schedule := rfl
@[simp] theorem State.parked_agenda :
    (s.parked).agenda = s.agenda := rfl
@[simp] theorem State.parked_results :
    (s.parked).results = s.results := rfl
@[simp] theorem State.parked_history :
    (s.parked).history = s.history := rfl
@[simp] theorem State.parked_vtdEpoch :
    (s.parked).vtdEpoch = s.vtdEpoch := rfl
@[simp] theorem State.parked_draws :
    (s.parked).draws = s.draws := rfl

-- the turn of an engine
@[simp] theorem State.switchTo_params (e : Engine) :
    (s.switchTo e).params = s.params := by unfold State.switchTo; split <;> rfl
@[simp] theorem State.switchTo_mem (e : Engine) :
    (s.switchTo e).mem = s.mem := by unfold State.switchTo; split <;> rfl
@[simp] theorem State.switchTo_resetEpoch (e : Engine) :
    (s.switchTo e).resetEpoch = s.resetEpoch := by unfold State.switchTo; split <;> rfl
@[simp] theorem State.switchTo_pgtblCtl (e : Engine) :
    (s.switchTo e).pgtblCtl = s.pgtblCtl := by unfold State.switchTo; split <;> rfl
@[simp] theorem State.switchTo_pgtblCtl2 (e : Engine) :
    (s.switchTo e).pgtblCtl2 = s.pgtblCtl2 := by unfold State.switchTo; split <;> rfl
@[simp] theorem State.switchTo_trBypass (e : Engine) :
    (s.switchTo e).trBypass = s.trBypass := by unfold State.switchTo; split <;> rfl
@[simp] theorem State.switchTo_lncf (e : Engine) :
    (s.switchTo e).lncf = s.lncf := by unfold State.switchTo; split <;> rfl
@[simp] theorem State.switchTo_glob (e : Engine) :
    (s.switchTo e).glob = s.glob := by unfold State.switchTo; split <;> rfl
@[simp] theorem State.switchTo_pat (e : Engine) :
    (s.switchTo e).pat = s.pat := by unfold State.switchTo; split <;> rfl
@[simp] theorem State.switchTo_ctxs (e : Engine) :
    (s.switchTo e).ctxs = s.ctxs := by unfold State.switchTo; split <;> rfl
@[simp] theorem State.switchTo_nullTileCount (e : Engine) :
    (s.switchTo e).nullTileCount = s.nullTileCount := by unfold State.switchTo; split <;> rfl
@[simp] theorem State.switchTo_invalidTilePending (e : Engine) :
    (s.switchTo e).invalidTilePending = s.invalidTilePending := by unfold State.switchTo; split <;> rfl
@[simp] theorem State.switchTo_renderPowerGating (e : Engine) :
    (s.switchTo e).renderPowerGating = s.renderPowerGating := by unfold State.switchTo; split <;> rfl
@[simp] theorem State.switchTo_tlb (e : Engine) :
    (s.switchTo e).tlb = s.tlb := by unfold State.switchTo; split <;> rfl
@[simp] theorem State.switchTo_pml4Roots (e : Engine) :
    (s.switchTo e).pml4Roots = s.pml4Roots := by unfold State.switchTo; split <;> rfl
@[simp] theorem State.switchTo_halted (e : Engine) :
    (s.switchTo e).halted = s.halted := by unfold State.switchTo; split <;> rfl
@[simp] theorem State.switchTo_schedule (e : Engine) :
    (s.switchTo e).schedule = s.schedule := by unfold State.switchTo; split <;> rfl
@[simp] theorem State.switchTo_agenda (e : Engine) :
    (s.switchTo e).agenda = s.agenda := by unfold State.switchTo; split <;> rfl
@[simp] theorem State.switchTo_results (e : Engine) :
    (s.switchTo e).results = s.results := by unfold State.switchTo; split <;> rfl
@[simp] theorem State.switchTo_history (e : Engine) :
    (s.switchTo e).history = s.history := by unfold State.switchTo; split <;> rfl
@[simp] theorem State.switchTo_vtdEpoch (e : Engine) :
    (s.switchTo e).vtdEpoch = s.vtdEpoch := by unfold State.switchTo; split <;> rfl
@[simp] theorem State.switchTo_draws (e : Engine) :
    (s.switchTo e).draws = s.draws := by unfold State.switchTo; split <;> rfl

-- a waiting walk going on
@[simp] theorem State.resumed_params :
    (s.resumed).params = s.params := by unfold State.resumed; split <;> rfl
@[simp] theorem State.resumed_mem :
    (s.resumed).mem = s.mem := by unfold State.resumed; split <;> rfl
@[simp] theorem State.resumed_resetEpoch :
    (s.resumed).resetEpoch = s.resetEpoch := by unfold State.resumed; split <;> rfl
@[simp] theorem State.resumed_pgtblCtl :
    (s.resumed).pgtblCtl = s.pgtblCtl := by unfold State.resumed; split <;> rfl
@[simp] theorem State.resumed_pgtblCtl2 :
    (s.resumed).pgtblCtl2 = s.pgtblCtl2 := by unfold State.resumed; split <;> rfl
@[simp] theorem State.resumed_trBypass :
    (s.resumed).trBypass = s.trBypass := by unfold State.resumed; split <;> rfl
@[simp] theorem State.resumed_lncf :
    (s.resumed).lncf = s.lncf := by unfold State.resumed; split <;> rfl
@[simp] theorem State.resumed_glob :
    (s.resumed).glob = s.glob := by unfold State.resumed; split <;> rfl
@[simp] theorem State.resumed_pat :
    (s.resumed).pat = s.pat := by unfold State.resumed; split <;> rfl
@[simp] theorem State.resumed_ctxs :
    (s.resumed).ctxs = s.ctxs := by unfold State.resumed; split <;> rfl
@[simp] theorem State.resumed_nullTileCount :
    (s.resumed).nullTileCount = s.nullTileCount := by unfold State.resumed; split <;> rfl
@[simp] theorem State.resumed_invalidTilePending :
    (s.resumed).invalidTilePending = s.invalidTilePending := by unfold State.resumed; split <;> rfl
@[simp] theorem State.resumed_renderPowerGating :
    (s.resumed).renderPowerGating = s.renderPowerGating := by unfold State.resumed; split <;> rfl
@[simp] theorem State.resumed_tlb :
    (s.resumed).tlb = s.tlb := by unfold State.resumed; split <;> rfl
@[simp] theorem State.resumed_pml4Roots :
    (s.resumed).pml4Roots = s.pml4Roots := by unfold State.resumed; split <;> rfl
@[simp] theorem State.resumed_halted :
    (s.resumed).halted = s.halted := by unfold State.resumed; split <;> rfl
@[simp] theorem State.resumed_schedule :
    (s.resumed).schedule = s.schedule := by unfold State.resumed; split <;> rfl
@[simp] theorem State.resumed_agenda :
    (s.resumed).agenda = s.agenda := by unfold State.resumed; split <;> rfl
@[simp] theorem State.resumed_results :
    (s.resumed).results = s.results := by unfold State.resumed; split <;> rfl
@[simp] theorem State.resumed_history :
    (s.resumed).history = s.history := by unfold State.resumed; split <;> rfl
@[simp] theorem State.resumed_vtdEpoch :
    (s.resumed).vtdEpoch = s.vtdEpoch := by unfold State.resumed; split <;> rfl
@[simp] theorem State.resumed_draws :
    (s.resumed).draws = s.draws := by unfold State.resumed; split <;> rfl

-- a turn
@[simp] theorem State.turned_params :
    (s.turned).params = s.params := by unfold State.turned; split <;> simp
@[simp] theorem State.turned_mem :
    (s.turned).mem = s.mem := by unfold State.turned; split <;> simp
@[simp] theorem State.turned_resetEpoch :
    (s.turned).resetEpoch = s.resetEpoch := by unfold State.turned; split <;> simp
@[simp] theorem State.turned_pgtblCtl :
    (s.turned).pgtblCtl = s.pgtblCtl := by unfold State.turned; split <;> simp
@[simp] theorem State.turned_pgtblCtl2 :
    (s.turned).pgtblCtl2 = s.pgtblCtl2 := by unfold State.turned; split <;> simp
@[simp] theorem State.turned_trBypass :
    (s.turned).trBypass = s.trBypass := by unfold State.turned; split <;> simp
@[simp] theorem State.turned_lncf :
    (s.turned).lncf = s.lncf := by unfold State.turned; split <;> simp
@[simp] theorem State.turned_glob :
    (s.turned).glob = s.glob := by unfold State.turned; split <;> simp
@[simp] theorem State.turned_pat :
    (s.turned).pat = s.pat := by unfold State.turned; split <;> simp
@[simp] theorem State.turned_ctxs :
    (s.turned).ctxs = s.ctxs := by unfold State.turned; split <;> simp
@[simp] theorem State.turned_nullTileCount :
    (s.turned).nullTileCount = s.nullTileCount := by unfold State.turned; split <;> simp
@[simp] theorem State.turned_invalidTilePending :
    (s.turned).invalidTilePending = s.invalidTilePending := by unfold State.turned; split <;> simp
@[simp] theorem State.turned_renderPowerGating :
    (s.turned).renderPowerGating = s.renderPowerGating := by unfold State.turned; split <;> simp
@[simp] theorem State.turned_tlb :
    (s.turned).tlb = s.tlb := by unfold State.turned; split <;> simp
@[simp] theorem State.turned_pml4Roots :
    (s.turned).pml4Roots = s.pml4Roots := by unfold State.turned; split <;> simp
@[simp] theorem State.turned_halted :
    (s.turned).halted = s.halted := by unfold State.turned; split <;> simp
@[simp] theorem State.turned_agenda :
    (s.turned).agenda = s.agenda := by unfold State.turned; split <;> simp
@[simp] theorem State.turned_results :
    (s.turned).results = s.results := by unfold State.turned; split <;> simp
@[simp] theorem State.turned_history :
    (s.turned).history = s.history := by unfold State.turned; split <;> simp
@[simp] theorem State.turned_vtdEpoch :
    (s.turned).vtdEpoch = s.vtdEpoch := by unfold State.turned; split <;> simp
@[simp] theorem State.turned_draws :
    (s.turned).draws = s.draws := by unfold State.turned; split <;> simp

end Sys2Proof.Machine
end

