-- ==== Sys2Proof/Laws/Effects.lean ====
section
/-!
SUPPORT. What each shared operation can do when it answers a next state, said once: the walk of the request in flight
moves on, or the request ends by halting its engine, by a null completion, by a tile completion, by a read or by a
write. Later proofs cite these lemmas and do not unfold the operations.
-/

namespace Sys2Proof.Machine

/-- The effects the walk `wk` of a request in flight can have on a state. -/
inductive Effect (s : State) (wk : Walk) : State → Prop where
  /-- The walk moves on, for the same request. -/
  | moves (wk' : Walk) (hreq : wk'.req = wk.req) (hidx : wk'.index = wk.index) : Effect s wk (s.withWalk wk')
  /-- The request faults and its engine halts. -/
  | halts (f : Fault) : Effect s wk (s.halt wk.req f)
  /-- The request completes on a null page. -/
  | nulls : Effect s wk (s.completeNull wk.req)
  /-- The request completes on a flagged tile. -/
  | tiles (n i : Bool) : Effect s wk (s.completeTile wk.req n i)
  /-- The request reads memory. -/
  | reads (pa : Nat) (l : Label) (hin : inMemory s.memSize pa wk.req.n = true) (hk : wk.req.kind = .read) :
    Effect s wk
      ((s.noteRead (.engine wk.req.engine) pa wk.req.n (s.visible (.engine wk.req.engine) (some wk.route) pa wk.req.n)
          (some wk.route) (some l)).finish
        ⟨.engine wk.req.engine, wk.req.ctx, .read, wk.req.n,
          s.visible (.engine wk.req.engine) (some wk.route) pa wk.req.n, false⟩)
  /-- The request writes memory. -/
  | writes (pa : Nat) (l : Label) (hin : inMemory s.memSize pa wk.req.n = true) (hk : wk.req.kind = .write) :
    Effect s wk
      ((s.store (.engine wk.req.engine) pa wk.req.n wk.req.data (some wk.route) (some l)).finish
        ⟨.engine wk.req.engine, wk.req.ctx, .write, wk.req.n, 0, false⟩)

variable {s t : State} {wk : Walk}

/-- A raised fault that goes on halts the engine. -/
theorem raiseFault_next {r : Request} {f : Fault} (h : s.raiseFault r f = .next t) : t = s.halt r f := by
  unfold State.raiseFault at h
  split at h
  · cases h
  · cases h; rfl

theorem raiseFault_effect {f : Fault} (h : s.raiseFault wk.req f = .next t) : Effect s wk t := by
  rw [raiseFault_next h]; exact .halts f

theorem accessTarget_effect {pa : Nat} {attrs : Option LeafAttrs} (h : s.accessTarget wk pa attrs = .next t) :
    Effect s wk t := by
  unfold State.accessTarget at h
  split at h
  · rename_i hin
    split at h
    · rename_i hk; cases h; exact .reads pa _ hin hk
    · rename_i hk; cases h; exact .writes pa _ hin hk
  · cases h

/-- What the read of the next entry can do: the walk moves on, with an address or with a copy, or its engine halts. -/
theorem readNext_effect {w : Walk} {pa : Option Nat} {f : Fault} (hr : w.req = wk.req) (hi : w.index = wk.index)
    (h : s.readNext w pa f = .next t) : Effect s wk t := by
  unfold State.readNext at h
  split at h
  · cases h; exact .moves _ hr hi
  · split at h
    · rw [hr] at h; exact raiseFault_effect h
    · cases h; exact .moves _ hr hi

/-- With an address the read of the next entry moves the walk on. -/
theorem readNext_some (w : Walk) (a : Nat) (f : Fault) :
    s.readNext w (some a) f = .next (s.withWalk { w with entry := .memory a }) := rfl

theorem startPpgtt_effect {va : BitVec 48} {d : Dest} (h : s.startPpgtt wk va d = .next t) : Effect s wk t := by
  unfold State.startPpgtt at h; exact readNext_effect (wk := wk) (by rfl) (by rfl) h

theorem descend_effect {l : Level} {table : Nat} {rw : Bool} (h : s.descend wk l table rw = .next t) :
    Effect s wk t := by
  unfold State.descend at h; exact readNext_effect (wk := wk) (by rfl) (by rfl) h

theorem readTable_effect {st : TrStep} {pa : Option Nat} {attrs : Option LeafAttrs} {f : Fault}
    (h : s.readTable wk st pa attrs f = .next t) : Effect s wk t := by
  unfold State.readTable at h; exact readNext_effect (wk := wk) (by rfl) (by rfl) h

theorem trRead_effect {st : TrStep} {a : BitVec 48} (h : s.trRead wk st a = .next t) : Effect s wk t := by
  unfold State.trRead at h
  repeat' split at h
  all_goals first
    | cases h
    | exact startPpgtt_effect h
    | exact readTable_effect h

theorem trttStage_effect (h : s.trttStage wk = .next t) : Effect s wk t := by
  unfold State.trttStage at h
  repeat' split at h
  all_goals first
    | cases h
    | exact startPpgtt_effect h
    | exact trRead_effect h

/-- The start of a request is an effect of its new walk. -/
theorem beginAccess_effect {r : Request} {i : Option (BitVec 6)} (h : s.beginAccess r i = .next t) :
    Effect s (r.newWalk i) t := by
  unfold State.beginAccess at h
  repeat' split at h
  all_goals first
    | exact trttStage_effect h
    | (cases h; exact .moves _ rfl rfl)
    | cases h

theorem arrive_effect {pa : Option Nat} {attrs : LeafAttrs} (h : s.arrive wk pa attrs = .next t) : Effect s wk t := by
  unfold State.arrive at h
  split at h
  · exact accessTarget_effect h
  · exact raiseFault_effect h
  · exact readTable_effect h

theorem nullLeaf_effect (h : s.nullLeaf wk = .next t) : Effect s wk t := by
  unfold State.nullLeaf at h
  split at h
  · cases h; exact .nulls
  · cases h

theorem leaf_effect {pa : BitVec 46} {lm null rw : Bool} {attrs : LeafAttrs}
    (h : s.leaf wk pa lm null rw attrs = .next t) : Effect s wk t := by
  unfold State.leaf at h
  repeat' split at h
  all_goals first
    | exact raiseFault_effect h
    | exact nullLeaf_effect h
    | exact arrive_effect h
    | cases h

theorem notPresent_effect (h : s.notPresent wk = .next t) : Effect s wk t := raiseFault_effect h

theorem trPointer_effect {addr : BitVec 36} {null inv : Bool} {st : TrStep}
    (h : s.trPointer wk addr null inv st = .next t) : Effect s wk t := by
  unfold State.trPointer at h
  split at h
  · cases h
  · split at h
    · cases h; exact .tiles null inv
    · exact trRead_effect h

/-- A meaning that runs at a level has the walk in flight at that level. -/
theorem atLevel_next {l : Level} {k : Walk → Res} (h : s.atLevel l k = .next t) :
    ∃ wk, s.walk = some wk ∧ wk.level = l ∧ k wk = .next t := by
  unfold State.atLevel at h
  split at h
  · rename_i wk hw
    split at h
    · rename_i hl; exact ⟨wk, hw, hl, h⟩
    · cases h
  · cases h

/-- What a table entry does: an effect of the walk in flight. -/
theorem exec_entry_effect {i : Instr} {l : Level} (hi : i.slot = .entry l) (h : exec i s = .next t) :
    ∃ wk, s.walk = some wk ∧ wk.level = l ∧ Effect s wk t := by
  cases i <;> simp only [Instr.slot, Slot.entry.injEq, reduceCtorEq] at hi <;> subst hi <;>
    simp only [exec, execGgttPte, execPml4e, execPdpePd, execPdpe1gb, execPdePt, execPde2mb, execPte64kb, execPte4kb,
      execTrttL3e, execTrttL2e, execTrttL1e] at h <;> obtain ⟨wk, hw, hl, hk⟩ := atLevel_next h <;>
    refine ⟨wk, hw, hl, ?_⟩ <;> (repeat' split at hk)
  all_goals first
    | exact accessTarget_effect hk
    | exact raiseFault_effect hk
    | exact descend_effect hk
    | exact notPresent_effect hk
    | exact leaf_effect hk
    | exact trPointer_effect hk
    | exact startPpgtt_effect hk
    | (cases hk; exact .tiles _ _)
    | (cases hk)

/-- What a MOCS word does: the request presented begins, in the state with the request taken. -/
theorem exec_mocs_effect {idx : BitVec 6} {rsv : Bool} (h : exec (.mocs idx rsv) s = .next t) :
    ∃ r rest, s.presented = some (r, rest) ∧ Effect (s.cycleDone rest) (r.newWalk (some idx)) t := by
  simp only [exec, execMocs] at h
  split at h
  · rename_i r rest hp
    split at h
    · exact ⟨r, rest, hp, beginAccess_effect h⟩
    · cases h
  · cases h

end Sys2Proof.Machine
end

