-- ==== Sys2Proof/Laws/Flags.lean ====
section
/-!
SUPPORT. What the label of an access is made of, said once each: when an index is defined, what an agreed decision is, and
the control word of the LLC field by field (rules R148 to R156, R161).
-/

namespace Sys2Proof.Machine

variable {s : State} {wk : Walk}

theorem indexDefined_iff (i : BitVec 6) : indexDefined i = true ↔ usableIndex i := by
  simp only [indexDefined, Bool.or_eq_true, Bool.and_eq_true, decide_eq_true_eq, usableIndex, or_assoc]

/-- A decision that is the same for every byte of an access is the decision for the access. -/
theorem agreed_eq_some {f : Nat → Option Bool} {a n : Nat} {b : Bool} (hn : 1 ≤ n) (h : ∀ k < n, f (a + k) = some b) :
    agreed f a n = some b := by
  have h0 : f a = some b := h 0 (by omega)
  unfold agreed
  rw [if_pos, h0]
  rw [List.all_eq_true]
  intro k hk
  rw [h k (List.mem_range.1 hk), h0]; simp

theorem State.skipAddr_eq {pa a : Nat} (h : s.testsAddress wk pa a) : s.skipAddr wk pa = a := by
  obtain ⟨h1, h2, h3⟩ := h
  unfold State.skipAddr
  generalize s.params.l3SkipAddr = x at *
  cases x
  · exact (h1 rfl).symm
  · exact (h2 rfl).symm
  · exact (h3 rfl).symm

/-- A two-bit field of a control word, as a number. -/
theorem extractLsb'_two (g : Word32) (k c : Nat) (hc : c < 4) :
    g.extractLsb' k 2 = BitVec.ofNat 2 c ↔ g.toNat / 2 ^ k % 4 = c := by
  rw [← BitVec.toNat_inj, BitVec.extractLsb'_toNat, Nat.shiftRight_eq_div_pow, BitVec.toNat_ofNat,
    Nat.mod_eq_of_lt (a := c) (show c < 2 ^ 2 from hc)]

/-- The controls of a word say what its fields say. -/
theorem llcControlsOf_ofWord (d : Nat) (g : Word32) : (llcControlsOf d g).ofWord g := by
  have k0 := fun c h => extractLsb'_two g 0 c h
  have k2 := fun c h => extractLsb'_two g 2 c h
  have k4 := fun c h => extractLsb'_two g 4 c h
  have k17 := fun c h => extractLsb'_two g 17 c h
  simp only [Nat.pow_zero, Nat.div_one] at k0
  constructor
  all_goals simp only [llcControlsOf, LlcWord.ofBits]
  · simp only [memTypeOf, k0 0 (by omega), k0 1 (by omega), k0 2 (by omega)]
  · simp only [targetCacheOf, k2 0 (by omega), k2 1 (by omega), k2 2 (by omega)]; rfl
  · simp only [lruAgeOf, k4 0 (by omega), k4 1 (by omega), k4 2 (by omega)]; rfl
  · simp [BitVec.getLsbD, Nat.testBit_eq_decide_div_mod_eq]
  · simp [BitVec.getLsbD, Nat.testBit_eq_decide_div_mod_eq]
  · rw [BitVec.extractLsb'_toNat, Nat.shiftRight_eq_div_pow]
  all_goals
    intro h
    simp only [selfSnoopOf, k17 0 (by omega), k17 1 (by omega), k17 3 (by omega)]
    simp only [show (131072 : Nat) = 2 ^ 17 from rfl] at h
    rw [h]; rfl

/-- The eviction of the line an access leaves in the L3: there is one exactly for a write that the L3 caches (rule R162). -/
theorem State.eviction_ne_none {k : Access} {l3 : Bool} {i : Option (BitVec 6)} {a n : Nat} :
    s.eviction k l3 i a n ≠ none ↔ k = .write ∧ l3 = true := by
  unfold State.eviction
  by_cases h : k = .write <;> cases l3 <;> simp [h]

end Sys2Proof.Machine
end

