-- ==== Sys2Proof/Laws/PerInstr.lean ====
section
/-!
SUPPORT. A law of every word, instruction by instruction: the encoding of a word fits the bytes its slot has.
-/

namespace Sys2Proof.Laws

/-- A field that ends at or below bit `k` makes a number below `2^k`. -/
theorem fieldAt_lt {m lo n k : Nat} (h : lo + n ≤ k) (x : BitVec n) : (fieldAt m lo x).toNat < 2 ^ k := by
  have e : (fieldAt m lo x).toNat = x.toNat % 2 ^ m * 2 ^ lo % 2 ^ m := by
    simp [fieldAt, Nat.shiftLeft_eq]
  rw [e]
  calc x.toNat % 2 ^ m * 2 ^ lo % 2 ^ m ≤ x.toNat % 2 ^ m * 2 ^ lo := Nat.mod_le _ _
    _ ≤ x.toNat * 2 ^ lo := Nat.mul_le_mul_right _ (Nat.mod_le _ _)
    _ < 2 ^ n * 2 ^ lo := Nat.mul_lt_mul_of_pos_right x.isLt (Nat.two_pow_pos lo)
    _ = 2 ^ (lo + n) := by rw [← Nat.pow_add, Nat.add_comm]
    _ ≤ 2 ^ k := Nat.pow_le_pow_right (by decide) h

/-- A flag below bit `k` makes a number below `2^k`. -/
theorem flagAt_lt {m lo k : Nat} (h : lo + 1 ≤ k) (b : Bool) : (flagAt m lo b).toNat < 2 ^ k := fieldAt_lt h _

/-- Two words below `2^k` have their union below `2^k`. -/
theorem or_lt {m k : Nat} {a b : BitVec m} (ha : a.toNat < 2 ^ k) (hb : b.toNat < 2 ^ k) : (a ||| b).toNat < 2 ^ k := by
  rw [BitVec.toNat_or]; exact Nat.or_lt_two_pow ha hb

namespace EncodeFits

/-- The encoding of a word fits the bytes of its slot. -/
def Statement (i : Instr) : Prop := (encode i).toNat < 2 ^ (8 * i.slot.bytes)

/-- The law of a word whose slot has `b` bits. -/
theorem fits {i : Instr} (b : Nat) (h : i.slot.bits = b) (he : (encode i).toNat < 2 ^ (8 * ((b + 7) / 8))) :
    Statement i := by
  unfold Statement Slot.bytes; rw [h]; exact he

theorem ggttPte (addr : BitVec 34) (fn : BitVec 3) (p : Bool) :
    Statement (.ggttPte addr fn p) :=
  fits 64 rfl (encode _).isLt

theorem pml4e (addr : BitVec 34) (rw p : Bool) :
    Statement (.pml4e addr rw p) :=
  fits 64 rfl (encode _).isLt

theorem pdpePd (addr : BitVec 34) (rw p : Bool) :
    Statement (.pdpePd addr rw p) :=
  fits 64 rfl (encode _).isLt

theorem pdpe1gb (addr : BitVec 16) (lm null pcd pwt rw p : Bool) :
    Statement (.pdpe1gb addr lm null pcd pwt rw p) :=
  fits 64 rfl (encode _).isLt

theorem pdePt (addr : BitVec 34) (m64 rw p : Bool) :
    Statement (.pdePt addr m64 rw p) :=
  fits 64 rfl (encode _).isLt

theorem pde2mb (addr : BitVec 25) (lm null pcd pwt rw p : Bool) :
    Statement (.pde2mb addr lm null pcd pwt rw p) :=
  fits 64 rfl (encode _).isLt

theorem pte64kb (addr : BitVec 30) (lm null pat pcd pwt rw p : Bool) :
    Statement (.pte64kb addr lm null pat pcd pwt rw p) :=
  fits 64 rfl (encode _).isLt

theorem pte4kb (addr : BitVec 34) (null pat pcd pwt rw p : Bool) :
    Statement (.pte4kb addr null pat pcd pwt rw p) :=
  fits 64 rfl (encode _).isLt

theorem trttL3e (addr : BitVec 36) (null inv : Bool) :
    Statement (.trttL3e addr null inv) :=
  fits 64 rfl (encode _).isLt

theorem trttL2e (addr : BitVec 36) (null inv : Bool) :
    Statement (.trttL2e addr null inv) :=
  fits 64 rfl (encode _).isLt

theorem trttL1e (addr : BitVec 32) :
    Statement (.trttL1e addr) :=
  fits 32 rfl (fieldAt_lt (by decide) addr)

theorem mocs (index : BitVec 6) (rsv : Bool) :
    Statement (.mocs index rsv) :=
  fits 7 rfl (or_lt (fieldAt_lt (by decide) index) (flagAt_lt (by decide) rsv))

theorem trttL3ptr (ptr : BitVec 32) :
    Statement (.trttL3ptr ptr) :=
  fits 64 rfl (encode _).isLt

theorem trttNull (value : BitVec 32) :
    Statement (.trttNull value) :=
  fits 32 rfl (fieldAt_lt (by decide) value)

theorem trttInvalid (value : BitVec 32) :
    Statement (.trttInvalid value) :=
  fits 32 rfl (fieldAt_lt (by decide) value)

theorem trvadr (mask data : BitVec 4) :
    Statement (.trvadr mask data) :=
  fits 32 rfl (or_lt (fieldAt_lt (by decide) mask) (fieldAt_lt (by decide) data))

theorem trtte (location enable : Bool) :
    Statement (.trtte location enable) :=
  fits 32 rfl (or_lt (flagAt_lt (by decide) location) (flagAt_lt (by decide) enable))

theorem trBypass (undescribed : BitVec 31) (disable : Bool) :
    Statement (.trBypass undescribed disable) :=
  fits 32 rfl (or_lt (fieldAt_lt (by decide) undescribed) (flagAt_lt (by decide) disable))

theorem lncfcmocs (um : Bool) (up : L3Half) (lm : Bool) (lo : L3Half) :
    Statement (.lncfcmocs um up lm lo) :=
  fits 32 rfl (or_lt (or_lt (or_lt (flagAt_lt (by decide) um) (fieldAt_lt (by decide) up.bits)) (flagAt_lt (by decide) lm))
    (fieldAt_lt (by decide) lo.bits))

theorem globMocs (fields : LlcWord) :
    Statement (.globMocs fields) :=
  fits 32 rfl (fieldAt_lt (by decide) fields.bits)

end EncodeFits

end Sys2Proof.Laws
end

