-- ==== Sys2Proof/Laws/Turns.lean ====
section
/-!
SUPPORT. What a turn can do, said once: the requests in flight are the same after it, in another order. And when nothing a
waiting request consults has changed, the check of a step lets its outcome stand.
-/

namespace Sys2Proof.Machine

/-- What `takeFirst` takes: the first element with the property, and the list without it. -/
theorem takeFirst_eq_some {α : Type} {p : α → Bool} {l r : List α} {a : α} (h : takeFirst p l = some (a, r)) :
    p a = true ∧ ∃ before after, l = before ++ a :: after ∧ r = before ++ after ∧ ∀ b ∈ before, p b = false := by
  induction l generalizing r with
  | nil => cases h
  | cons b l ih =>
    simp only [takeFirst] at h
    split at h
    · rename_i hb; cases h; exact ⟨hb, [], _, rfl, rfl, by simp⟩
    · rename_i hb
      cases h2 : takeFirst p l with
      | none => simp [h2] at h
      | some x =>
        simp only [h2, Option.map_some, Option.some.injEq, Prod.mk.injEq] at h
        obtain ⟨rfl, rfl⟩ := h
        obtain ⟨hp, before, after, rfl, hr, hn⟩ := ih h2
        exact ⟨hp, b :: before, after, rfl, by rw [hr]; rfl, by
          intro c hc
          rcases List.mem_cons.1 hc with rfl | hc
          · simpa using hb
          · exact hn c hc⟩

/-- `takeFirst` takes the first element with the property. -/
theorem takeFirst_append {α : Type} {p : α → Bool} {a : α} (before after : List α) (hn : ∀ b ∈ before, p b = false)
    (ha : p a = true) : takeFirst p (before ++ a :: after) = some (a, before ++ after) := by
  induction before with
  | nil => simp [takeFirst, ha]
  | cons b l ih =>
    have hb := hn b List.mem_cons_self
    simp [takeFirst, hb, ih (fun c hc => hn c (List.mem_cons_of_mem _ hc))]

/-- `takeFirst` takes nothing where no element has the property. -/
theorem takeFirst_none {α : Type} {p : α → Bool} (l : List α) (hn : ∀ b ∈ l, p b = false) : takeFirst p l = none := by
  induction l with
  | nil => rfl
  | cons b l ih => simp [takeFirst, hn b List.mem_cons_self, ih (fun c hc => hn c (List.mem_cons_of_mem _ hc))]

/-- What `takeFirst` takes and leaves is a permutation of the list. -/
theorem takeFirst_perm {α : Type} {p : α → Bool} {l r : List α} {a : α} (h : takeFirst p l = some (a, r)) :
    l.Perm (a :: r) := by
  obtain ⟨_, before, after, rfl, rfl, _⟩ := takeFirst_eq_some h
  exact List.perm_middle

variable (s : State)

theorem State.switchTo_inFlight (e : Engine) : (s.switchTo e).inFlight.Perm s.inFlight := by
  unfold State.switchTo
  split
  · rename_i wk others h
    simp only [State.inFlight, Option.toList_some]
    refine (List.Perm.trans ?_ (List.Perm.append_left _ (takeFirst_perm h).symm))
    simpa using (List.perm_middle (a := wk) (l₁ := s.walk.toList) (l₂ := others)).symm
  · exact .refl _

theorem State.resumed_inFlight : s.resumed.inFlight = s.inFlight := by
  unfold State.resumed
  split
  · rename_i wk others hw hs
    simp only [State.inFlight, hw, hs, Option.toList_some, Option.toList_none, List.nil_append, List.singleton_append]
  · rfl

/-- A turn leaves the requests in flight as they are, but for their order. -/
theorem State.turned_inFlight : s.turned.inFlight.Perm s.inFlight := by
  unfold State.turned
  split
  · rw [State.resumed_inFlight]
  · simp [State.inFlight, State.parked]
  · exact State.switchTo_inFlight _ _

/-- With nothing scheduled and nothing waiting a turn changes nothing. -/
theorem State.turned_eq (h : s.schedule = []) (hw : s.waiting = []) : s.turned = s := by
  unfold State.turned State.resumed
  rw [h, hw]
  cases s.walk <;> rfl

variable {s} {t : State}

/-- The registers the translation of a request consults are the same where all registers are. -/
theorem State.sameTranslation_of_eq {r : Request} (hc : t.ctx r.ctx = s.ctx r.ctx) (hb : t.trBypass = s.trBypass)
    (hg : t.pgtblCtl = s.pgtblCtl) (hp : t.pat = s.pat) : s.sameTranslation t r = true := by
  have h : t.bypassDisabled = s.bypassDisabled := by unfold State.bypassDisabled; rw [hb]
  cases hu : r.usedSpace <;> simp [State.sameTranslation, State.sameTrtt, hu, hc, hg, hp, h]

/-- The cache controls a request consults are the same where both tables are. -/
theorem State.sameControls_of_eq {r : Request} {i : Option (BitVec 6)} (hl : t.lncf = s.lncf) (hm : t.glob = s.glob) :
    s.sameControls t r i = true := by
  have h1 : ∀ j, t.l3Control j = s.l3Control j := fun j => by unfold State.l3Control; rw [hl]
  have h2 : ∀ j, t.llcControl j = s.llcControl j := fun j => by unfold State.llcControl; rw [hm]
  cases i <;> simp [State.sameControls, h1, h2]

/-- Every list of entries holds the same where every byte does. -/
theorem State.sameEntries_of_eq (hr : ∀ a n, t.readMem a n = s.readMem a n) (l : List (Level × Nat)) :
    s.sameEntries t l = true := List.all_eq_true.2 fun _ _ => decide_eq_true (hr _ _)

/-- A step that changes no register a request consults and no byte stands. -/
theorem State.checked_of_same (hc : ∀ c, t.ctx c = s.ctx c) (hb : t.trBypass = s.trBypass)
    (hg : t.pgtblCtl = s.pgtblCtl) (hp : t.pat = s.pat) (hl : t.lncf = s.lncf) (hm : t.glob = s.glob)
    (hr : ∀ a n, t.readMem a n = s.readMem a n) : s.checked (.next t) = .next t := by
  refine if_pos (List.all_eq_true.2 fun wk _ => ?_)
  simp only [State.undisturbed, State.sameConsulted, State.sameTranslation_of_eq (hc _) hb hg hp,
    State.sameControls_of_eq hl hm, State.sameEntries_of_eq hr, Bool.true_and]

/-- A step that leaves no request in flight stands. -/
theorem State.checked_of_none (h : t.waiting = []) : s.checked (.next t) = .next t := by
  simp [State.checked, h]

end Sys2Proof.Machine
end

