-- ==== Sys2Proof/Laws/Step.lean ====
section
/-!
SUPPORT. What a step can do when it answers a next state, said once: `step_next` names the cases, `exec_register_effect`
and `environment_effect` say what a register word and an input without a word can do. Later proofs cite these lemmas and
do not unfold the step.
-/

namespace Sys2Proof.Machine

variable {s t : State}

/-- A word decodes to an instruction of its slot. -/
theorem decodeWord_slot (h : Haw) (sl : Slot) (w : Word64) : (decodeWord h sl w).slot = sl := by
  cases sl with
  | entry l => cases l <;> simp only [decodeWord, decodeEntry] <;> first | rfl | (split <;> rfl)
  | mocs => rfl
  | register r => cases r <;> rfl

/-- What the decoder of a bare word answers is the word's instruction. -/
theorem decodeWord_of_decode {h : Haw} {sl : Slot} {w : Word64} {i : Instr} (hd : decode h sl w = .ok i) :
    decodeWord h sl w = i := by
  unfold decode at hd
  split at hd
  · cases hd; rfl
  · cases hd

theorem decode_slot {h : Haw} {sl : Slot} {w : Word64} {i : Instr} (hd : decode h sl w = .ok i) : i.slot = sl :=
  decodeWord_of_decode hd ▸ decodeWord_slot h sl w

/-- Two values that agree in the bits a slot has are the same word there. -/
theorem decodeWord_congr (h : Haw) (sl : Slot) {v w : Word64} (hb : ∀ k < sl.bits, v.getLsbD k = w.getLsbD k) :
    decodeWord h sl v = decodeWord h sl w := by
  have hx : ∀ lo n, lo + n ≤ sl.bits → v.extractLsb' lo n = w.extractLsb' lo n := by
    intro lo n hn
    apply BitVec.eq_of_getLsbD_eq
    intro k hk
    simp only [BitVec.getLsbD_extractLsb', hk, decide_true, Bool.true_and]
    exact hb _ (by omega)
  have hid : sl.bits = 64 → v = w := fun he => BitVec.eq_of_getLsbD_eq fun k hk => hb k (by omega)
  cases sl with
  | entry l =>
    by_cases hl : l = .trL1
    · subst hl
      simp only [decodeWord, decodeEntry, hx 0 32 (by decide)]
    · rw [hid (by cases l <;> first | rfl | exact absurd rfl hl)]
  | mocs => simp only [decodeWord, hx 1 6 (by decide), hb 0 (by decide)]
  | register r =>
    cases r with
    | l3ptr => rw [hid rfl]
    | null => simp only [decodeWord, decodeRegister, hx 0 32 (by decide)]
    | invalid => simp only [decodeWord, decodeRegister, hx 0 32 (by decide)]
    | trvadr => simp only [decodeWord, decodeRegister, hx 4 4 (by decide), hx 0 4 (by decide)]
    | trtte => simp only [decodeWord, decodeRegister, hb 1 (by decide), hb 0 (by decide)]
    | bypass => simp only [decodeWord, decodeRegister, hx 1 31 (by decide), hb 0 (by decide)]
    | lncf =>
      simp only [decodeWord, decodeRegister, hb 31 (by decide), hx 16 6 (by decide), hb 15 (by decide),
        hx 0 6 (by decide)]
    | glob => simp only [decodeWord, decodeRegister, hx 0 32 (by decide)]

/-- A value's low bits are the word. -/
theorem decodeWord_of_decodesTo {h : Haw} {sl : Slot} {w : Word64} {i : Instr} (hd : decodesTo h sl w i) :
    decodeWord h sl w = i := by
  rw [← decodeWord_of_decode hd]
  refine decodeWord_congr h sl fun k hk => ?_
  have h64 : k < 64 := lt_of_lt_of_le hk (by cases sl with
    | entry l => cases l <;> decide
    | mocs => decide
    | register r => cases r <;> decide)
  rw [BitVec.getLsbD_ofNat, Nat.testBit_mod_two_pow]
  simp [h64, hk, BitVec.getLsbD]

/-- The input taken can be taken. -/
theorem nextInput_runnable {i : Input} {rest : List Input} (h : s.nextInput = some (i, rest)) :
    s.runnable i = true := (takeFirst_eq_some h).1

/-- The register cycle on the bus is the next input with no request in flight. -/
theorem regCycle_some {tg : RegTarget} {rest : List Input} (h : s.regCycle = some (tg, rest)) :
    s.walk = none ∧ ∃ a w, s.nextInput = some (.regWrite a w, rest) ∧ a.resolve = some tg := by
  unfold State.regCycle at h
  split at h
  · rename_i a w r hw hn
    cases ha : a.resolve with
    | none => simp [ha] at h
    | some x =>
      simp only [ha, Option.map_some, Option.some.injEq, Prod.mk.injEq] at h
      obtain ⟨rfl, rfl⟩ := h
      exact ⟨hw, a, w, hn, ha⟩
  · cases h

/-- The request presented is the next input with no other request in flight. -/
theorem presented_some {r : Request} {rest : List Input} (h : s.presented = some (r, rest)) :
    s.walk = none ∧ s.nextInput = some (.request r, rest) := by
  unfold State.presented at h
  split at h
  · rename_i r' rest' hw hn
    cases h; exact ⟨hw, hn⟩
  · cases h

/-- What a register word for the register `tg` can do: one register of a context, the bypass register or one register of a
MOCS table changes, and the input is taken. -/
inductive RegEffect (s : State) (rest : List Input) : RegTarget → State → Prop where
  | ctx (tg : RegTarget) (c : Nat) (k : Context) (hd : k.desc = (s.ctx c).desc)
    (hok : (s.ctx c).ok = true → k.ok = true) : RegEffect s rest tg ((s.setCtx c k).cycleDone rest)
  | bypass (d : Bool) : RegEffect s rest .bypass ({ s with trBypass := flagAt 32 0 d }.cycleDone rest)
  | lncf (x : Fin 32) (um lm : Bool) (u l : L3Half) :
    RegEffect s rest (.lncf x) ({ s with lncf := s.lncf.set x (lncfWrite s.lncf[x] um u lm l) }.cycleDone rest)
  | glob (i : Fin 64) (f : LlcWord) :
    RegEffect s rest (.glob i) ({ s with glob := s.glob.set i f.bits }.cycleDone rest)

/-- A field keeps clear every bit of a mask it does not meet. -/
theorem fieldAt_and {m lo n : Nat} (x : BitVec n) (k : BitVec m) (h : fieldAt m lo (BitVec.allOnes n) &&& k = 0#m) :
    fieldAt m lo x &&& k = 0#m := by
  apply BitVec.eq_of_getLsbD_eq
  intro i hi
  have hb := congrArg (fun b : BitVec m => b.getLsbD i) h
  simp only [fieldAt, BitVec.getLsbD_and, BitVec.getLsbD_shiftLeft, BitVec.getLsbD_setWidth, BitVec.getLsbD_allOnes,
    BitVec.getLsbD_zero] at hb ⊢
  by_cases hx : x.getLsbD (i - lo) = true
  · have : i - lo < n := BitVec.lt_of_getLsbD hx
    simpa [this, hx] using hb
  · simp [hx]

theorem flagAt_and {m lo : Nat} (b : Bool) (k : BitVec m) (h : flagAt m lo true &&& k = 0#m) :
    flagAt m lo b &&& k = 0#m := fieldAt_and _ k h

theorem or_and_zero {m : Nat} {a b k : BitVec m} (ha : a &&& k = 0#m) (hb : b &&& k = 0#m) : (a ||| b) &&& k = 0#m := by
  apply BitVec.eq_of_getLsbD_eq
  intro i hi
  have h1 := congrArg (fun b : BitVec m => b.getLsbD i) ha
  have h2 := congrArg (fun b : BitVec m => b.getLsbD i) hb
  simp only [BitVec.getLsbD_and, BitVec.getLsbD_or, BitVec.getLsbD_zero] at h1 h2 ⊢
  rw [Bool.and_or_distrib_right, h1, h2]; rfl

/-- What a register word does. -/
theorem exec_register_effect {i : Instr} {r : RegFormat} (hi : i.slot = .register r) (h : exec i s = .next t) :
    ∃ tg rest, s.regCycle = some (tg, rest) ∧ tg.format = some r ∧ RegEffect s rest tg t := by
  cases i <;> simp only [Instr.slot, Slot.register.injEq, reduceCtorEq] at hi
  all_goals subst hi
  case trttL3ptr ptr =>
    simp only [exec, execTrttL3ptr] at h
    split at h
    · rename_i c rest hc
      cases h
      refine ⟨_, rest, hc, rfl, .ctx _ c _ rfl ?_⟩
      simp only [Context.ok, Bool.and_eq_true, decide_eq_true_eq]
      exact fun hk => ⟨⟨⟨fieldAt_and ptr _ (by decide), hk.1.1.2⟩, hk.1.2⟩, hk.2⟩
    · cases h
  case trttNull v =>
    simp only [exec, execTrttNull] at h
    split at h
    · rename_i c rest hc; cases h; exact ⟨_, rest, hc, rfl, .ctx _ c _ rfl id⟩
    · cases h
  case trttInvalid v =>
    simp only [exec, execTrttInvalid] at h
    split at h
    · rename_i c rest hc; cases h; exact ⟨_, rest, hc, rfl, .ctx _ c _ rfl id⟩
    · cases h
  case trvadr m d =>
    simp only [exec, execTrvadr] at h
    split at h
    · rename_i c rest hc
      cases h
      refine ⟨_, rest, hc, rfl, .ctx _ c _ rfl ?_⟩
      simp only [Context.ok, Bool.and_eq_true, decide_eq_true_eq]
      exact fun hk =>
        ⟨⟨⟨hk.1.1.1, or_and_zero (fieldAt_and m _ (by decide)) (fieldAt_and d _ (by decide))⟩, hk.1.2⟩, hk.2⟩
    · cases h
  case trtte l e =>
    simp only [exec, execTrtte] at h
    split at h
    · rename_i c rest hc
      cases h
      refine ⟨_, rest, hc, rfl, .ctx _ c _ rfl ?_⟩
      simp only [Context.ok, Bool.and_eq_true, decide_eq_true_eq]
      exact fun hk =>
        ⟨⟨⟨hk.1.1.1, hk.1.1.2⟩, or_and_zero (flagAt_and l _ (by decide)) (flagAt_and e _ (by decide))⟩, hk.2⟩
    · cases h
  case trBypass u d =>
    simp only [exec, execTrBypass] at h
    split at h
    · rename_i rest hc
      split at h
      · cases h
      · cases h; exact ⟨_, rest, hc, rfl, .bypass _⟩
    · cases h
  case lncfcmocs um u lm l =>
    simp only [exec, execLncfcmocs] at h
    split at h
    · rename_i x rest hc; cases h; exact ⟨_, rest, hc, rfl, .lncf x _ _ _ _⟩
    · cases h
  case globMocs f =>
    simp only [exec, execGlobMocs] at h
    split at h
    · rename_i x rest hc; cases h; exact ⟨_, rest, hc, rfl, .glob x _⟩
    · cases h

/-- What an input without a word can do, in the state with the input taken. -/
inductive EnvEffect (s : State) : State → Prop where
  | pgtblCtl (w : Word64) (h : s.baseOk w.toNat 0x800000 = true) : EnvEffect s { s with pgtblCtl := w }
  | pgtblCtl2 (w : Word64) : EnvEffect s { s with pgtblCtl2 := w }
  | pat (i : Fin 4) (w : BitVec 2) : EnvEffect s { s with pat := s.pat.set i w }
  | regRead (n v : Nat) : EnvEffect s (s.hostResult n v)
  | store (pa n data : Nat) (h : inMemory s.memSize pa n = true) : EnvEffect s (s.store .host pa n data none none)
  | load (pa n v : Nat) (h : inMemory s.memSize pa n = true) :
    EnvEffect s ((s.noteRead .host pa n v none none).hostResult n v)
  | describe (c : Nat) (d : Descriptor) (h : s.baseOk d.pml4Ptr.toNat 4096 = true) :
    EnvEffect s (s.setCtx c { s.ctx c with desc := d })
  | retry (e : Engine) (h : Halted) (others : List Halted)
    (ht : takeFirst (fun h => decide (h.engine = e)) s.halted = some (h, others)) : EnvEffect s (s.retry h others)
  | deviceReset : EnvEffect s s.deviceReset
  | renderReset (c : Nat) : EnvEffect s (s.renderReset c)
  | rc6 (b : Bool) : EnvEffect s (s.rc6 b)
  | powerGating : EnvEffect s s.gatePower

/-- What an input without a word does. -/
theorem environment_effect {i : Input} (h : s.environment i = .next t) : EnvEffect s t := by
  unfold State.environment at h
  split at h
  · cases h
  · split at h
    · rename_i tg _
      unfold State.writeOther at h
      split at h
      · split at h
        · rename_i hb; cases h; exact .pgtblCtl _ hb
        · cases h
      · cases h; exact .pgtblCtl2 _
      · cases h; exact .pat _ _
      all_goals cases h
    · cases h
  · split at h
    · cases h; exact .regRead _ _
    · cases h
  · unfold State.ggttUpdate at h
    split at h
    · rename_i hb; cases h; exact .store _ _ _ hb
    · cases h
  · unfold State.hostStore at h
    split at h
    · rename_i hb
      split at h
      · cases h
      · cases h; exact .store _ _ _ hb
    · cases h
  · unfold State.hostLoad at h
    split at h
    · rename_i hb; cases h; exact .load _ _ _ hb
    · cases h
  · unfold State.describe at h
    split at h
    · rename_i hb; cases h; exact .describe _ _ hb
    · cases h
  · unfold State.respond at h
    split at h
    · cases h
    · rename_i hh others ht
      split at h
      · cases h; exact .retry _ hh others ht
      · cases h
  · cases h; exact .deviceReset
  · cases h; exact .renderReset _
  · cases h; exact .rc6 _
  · cases h; exact .powerGating

/-- What the act of a step can do when it answers a next state; `s` is the state after the turn. -/
inductive StepEffect (s : State) : State → Prop where
  /-- Nothing is presented. -/
  | idle : StepEffect s s
  /-- The walk in flight gets its entry, which lies at `a`, and runs it. -/
  | entry (wk : Walk) (a : Nat) (i : Instr) (t : State) (hw : s.walk = some wk) (hm : wk.entry = .memory a)
    (hin : inMemory s.memSize a (levelSize wk.level) = true)
    (hd : decodeWord s.params.haw (.entry wk.level) (s.entryWord wk a) = i) (he : exec i (s.fetched wk a) = .next t)
    (h : Effect (s.fetched wk a) (wk.noted a) t) : StepEffect s t
  /-- The walk in flight takes a copy of an entry without an address and runs it. -/
  | copy (wk : Walk) (f : Fault) (w : Word64) (i : Instr) (t : State) (hw : s.walk = some wk)
    (hm : wk.entry = .copyOnly f) (hh : s.heldWord wk = some w)
    (hd : decodeWord s.params.haw (.entry wk.level) w = i) (he : exec i (s.tookCopy wk w) = .next t)
    (h : Effect (s.tookCopy wk w) wk t) : StepEffect s t
  /-- The walk in flight has no address and takes no copy: its engine halts. -/
  | lost (wk : Walk) (f : Fault) (hw : s.walk = some wk) (hm : wk.entry = .copyOnly f) : StepEffect s (s.halt wk.req f)
  /-- A request begins. -/
  | request (r : Request) (rest : List Input) (index : Option (BitVec 6)) (t : State) (hw : s.walk = none)
    (hn : s.nextInput = some (.request r, rest)) (hb : (s.cycleDone rest).beginAccess r index = .next t)
    (h : Effect (s.cycleDone rest) (r.newWalk index) t) : StepEffect s t
  /-- A register word is written. -/
  | register (a : RegAddr) (w : Word64) (tg : RegTarget) (rest : List Input) (t : State) (hw : s.walk = none)
    (hn : s.nextInput = some (.regWrite a w, rest)) (ha : a.resolve = some tg) (h : RegEffect s rest tg t) :
    StepEffect s t
  /-- An input without a word is carried out. -/
  | input (i : Input) (rest : List Input) (t : State) (hw : s.walk = none) (hn : s.nextInput = some (i, rest))
    (he : (s.cycleDone rest).environment i = .next t) (h : EnvEffect (s.cycleDone rest) t) : StepEffect s t

/-- A decoded word's run. -/
theorem runWord_next {sl : Slot} {w : Word64} (h : runWord sl w s = .next t) :
    ∃ i, decodeWord s.params.haw sl w = i ∧ i.slot = sl ∧ exec i s = .next t :=
  ⟨_, rfl, decodeWord_slot _ _ _, h⟩

/-- A decoded table entry's run, in a state whose walk in flight is `wk`. -/
theorem runWord_entry {wk : Walk} {w : Word64} (hw : s.walk = some wk)
    (h : runWord (.entry wk.level) w s = .next t) :
    ∃ i, decodeWord s.params.haw (.entry wk.level) w = i ∧ exec i s = .next t ∧ Effect s wk t := by
  obtain ⟨i, hd, hs, he⟩ := runWord_next h
  obtain ⟨wk', hw', _, hE⟩ := exec_entry_effect hs he
  cases hw.symm.trans hw'
  exact ⟨i, hd, he, hE⟩

/-- What the act of a walk can do. -/
theorem walkAct_next {wk : Walk} (hw : s.walk = some wk) (h : runAct s (s.walkAct wk) = .next t) : StepEffect s t := by
  unfold State.walkAct at h
  split at h
  · rename_i a hm
    split at h
    · rename_i hin
      obtain ⟨i, hd, he, hE⟩ := runWord_entry (wk := wk.noted a) rfl h
      exact .entry wk a i t hw hm hin hd he hE
    · cases h
  · rename_i f hm
    split at h
    · rename_i w hh
      obtain ⟨i, hd, he, hE⟩ := runWord_entry (s := s.tookCopy wk w) hw h
      exact .copy wk f w i t hw hm hh hd he hE
    · rw [raiseFault_next h]; exact .lost wk f hw hm

/-- The cases of an act. -/
theorem runStep_next (h : runStep s = .next t) : StepEffect s t := by
  unfold runStep State.nextAct at h
  cases hw : s.walk with
  | some wk => simp only [hw] at h; exact walkAct_next hw h
  | none =>
    unfold runAct at h
    simp only [hw] at h
    cases hn : s.nextInput with
    | none => simp only [hn] at h; cases h; exact .idle
    | some p =>
      obtain ⟨inp, rest⟩ := p
      simp only [hn] at h
      cases inp with
      | request r =>
        simp only [State.inputAct, Request.mocsWord] at h
        by_cases ho : r.object.controlState = .gttOnly
        · simp only [ho, if_true] at h
          exact .request r rest none t hw hn h (beginAccess_effect h)
        · simp only [ho, if_false] at h
          obtain ⟨i, hd, hs, he⟩ := runWord_next h
          cases i <;> simp only [Instr.slot, reduceCtorEq] at hs
          rename_i idx rsv
          have hp : s.presented = some (r, rest) := by simp only [State.presented, hw, hn]
          simp only [exec, execMocs, hp] at he
          split at he
          · exact .request r rest (some idx) t hw hn he (beginAccess_effect he)
          · cases he
      | regWrite a w =>
        simp only [State.inputAct] at h
        cases ha : a.resolve with
        | none => simp only [ha] at h; cases h
        | some tg =>
          simp only [ha] at h
          cases hf : tg.format with
          | none => simp only [hf] at h; exact .input _ rest t hw hn h (environment_effect h)
          | some f =>
            simp only [hf] at h
            obtain ⟨i, hd, hs, he⟩ := runWord_next h
            obtain ⟨tg', rest', hc, _, hE⟩ := exec_register_effect hs he
            obtain ⟨_, a', w', hn', ha'⟩ := regCycle_some hc
            exact .register a' w' tg' rest' t hw hn' ha' hE
      | regRead a => exact .input _ rest t hw hn h (environment_effect h)
      | ggttUpdate p i v => exact .input _ rest t hw hn h (environment_effect h)
      | hostWrite pa n d => exact .input _ rest t hw hn h (environment_effect h)
      | hostRead pa n => exact .input _ rest t hw hn h (environment_effect h)
      | describe c d => exact .input _ rest t hw hn h (environment_effect h)
      | faultResponse e ok => exact .input _ rest t hw hn h (environment_effect h)
      | deviceReset => exact .input _ rest t hw hn h (environment_effect h)
      | renderReset c => exact .input _ rest t hw hn h (environment_effect h)
      | rc6 b => exact .input _ rest t hw hn h (environment_effect h)
      | renderPowerGating => exact .input _ rest t hw hn h (environment_effect h)

/-- A checked outcome that stands is the outcome itself, with what the waiting requests consult unchanged. -/
theorem checked_next {o : Res} (h : s.checked o = .next t) :
    o = .next t ∧ ∀ wk ∈ t.waiting, s.undisturbed t wk = true := by
  cases o with
  | next u =>
    simp only [State.checked] at h
    split at h
    · rename_i ha; cases h; exact ⟨rfl, fun wk hw => List.all_eq_true.1 ha wk hw⟩
    · cases h
  | fault f => cases h
  | refused r => cases h

/-- The cases of a step: its act, in the state after the turn. -/
theorem step_next (h : step s = .next t) : StepEffect s.turned t := runStep_next (checked_next h).1

end Sys2Proof.Machine
end

