-- ==== Sys2Proof/Tests/Slice0.lean ====
section
/-!
SUPPORT. Tests of the model. The expected values are those of spec/95_test_vectors.md or are worked out by hand from the
rule named; a word is written field by field in the order of its table in spec/30_encoding.md or spec/10_state.md, ignored
bits set. The last part meets the hypotheses of each obligation.
-/

open Sys2Proof Sys2Proof.Machine

namespace Sys2Proof.Tests

/-! ## Small states -/

/-- Memory holding the given values, each a triple of address, bytes and value. -/
def memOf : List (Nat × Nat × Nat) → List Host.Cell
  | [] => []
  | (a, n, v) :: l => Memory.writeN 0 (memOf l) a n v

/-- The tables of spec/95_test_vectors.md sections 2.2 to 2.4 and programs P1 to P3. -/
def tables : List Host.Cell :=
  memOf
    [(0x800918, 8, 0x45678001), (0x1007F0, 8, 0x101003), (0x101240, 8, 0x102003), (0x102D10, 8, 0x103003),
      (0x102D18, 8, 0x104803), (0x102D20, 8, 0x40000081), (0x103B38, 8, 0x12345003), (0x103B40, 8, 0x203),
      (0x10120, 8, 0x20000), (0x20688, 8, 0x30000), (0x3059C, 4, 0x4000), (0x45678ABC, 4, 0xDEADBEEF),
      (0x12345ABC, 4, 0xCAFEF00D)]

/-- The context of section 2.4: PML4 table at 0x100000, TR-TT tables in GPA space from 0x10000. -/
def ctx1 : Context :=
  { Context.initial with
    desc := { Context.initial.desc with pml4Ptr := 0x100000 }
    trttL3ptr := 0x10000, trttNull := 0xFFFFFFFF, trttInvalid := 0xFFFFFFFE, trvadr := 0xFF, trtte := 1 }

/-- Context 1 without TR-TT. -/
def ctx2 : Context := { ctx1 with trtte := 0 }

/-- Context 1 with its tables in the virtual address space. -/
def ctx3 : Context := { ctx1 with trtte := 3 }

/-- Context 2 in the fault-and-halt mode. -/
def ctx4 : Context := { ctx2 with desc := { ctx2.desc with pfmode := .faultAndHalt } }

/-- The device with the tables, the four contexts and the bypass disabled. -/
def base : State :=
  { State.reset with
    mem := tables, pgtblCtl := 0x800000, trBypass := 1, ctxs := [(1, ctx1), (2, ctx2), (3, ctx3), (4, ctx4)] }

/-- A request of the render engine, four bytes, MOCS index 2. -/
def req (c : Nat) (sp : Space) (k : Access) (va : BitVec 64) : Request :=
  { engine := .render, ctx := c, space := sp, va := va, kind := k, n := 4, data := 0x11223344, mocs := 4,
    client := .dataPort, object := .surface, retried := false }

/-- A walk of a request at a level. -/
def walkOf (r : Request) (l : Level) (entry : Nat) : Walk :=
  { r.newWalk (some 2) with level := l, entry := .memory entry }

/-- The address of section 2.3. -/
def va1 : BitVec 64 := 0x7F1234567ABC

/-- The address of section 2.4. -/
def va2 : BitVec 64 := 0xF123456789AB

/-- A walk of `va1` in context 2 at a level. -/
def w1 (k : Access) (l : Level) (entry : Nat) : Walk := walkOf (req 2 .perProcess k va1) l entry

/-- A TR-TT walk of `va2` in a context at a level. -/
def w2 (c : Nat) (l : Level) (entry : Nat) : Walk := walkOf (req c .perProcess .read va2) l entry

/-- The device with a walk in flight. -/
def at' (wk : Walk) : State := { base with walk := some wk }

/-- A walk of `va1` at an entry of which the second-level translation gives no address. -/
def wCopy : Walk := { w1 .read .pml4 0 with entry := .copyOnly (.pageNotPresent (va1.setWidth 48) .pml4) }

/-- The device with that walk in flight, and a copy of the entry in a TLB. -/
def stranded : State := { at' wCopy with tlb := [⟨wCopy.key, 0x101003, none⟩] }

/-- The device with inputs presented. -/
def given (l : List Input) : State := { base with agenda := l }

/-- The next state of an outcome. -/
def next? (o : Res) : Option State :=
  match o with
  | .next t => some t
  | .fault _ => none
  | .refused _ => none

/-- The fault of an outcome. -/
def fault? (o : Res) : Option Fault :=
  match o with
  | .next _ => none
  | .fault f => some f
  | .refused _ => none

/-- The refusal of an outcome. -/
def refusal? (o : Res) : Option Refusal :=
  match o with
  | .next _ => none
  | .fault _ => none
  | .refused r => some r

/-- The data and the null indicator of the newest completion of a next state. -/
def result? (o : Res) : Option (Nat × Bool) := (next? o).bind (fun t => t.results.head?.map (fun c => (c.data, c.null)))

/-- Where the walk of a next state stands. -/
def walk? (o : Res) : Option (Level × EntryPlace × Bool) :=
  (next? o).bind (fun t => t.walk.map (fun w => (w.level, w.entry, w.rw)))

theorem goesOn_of_isSome {o : Res} (h : (next? o).isSome = true) : ∃ t, o = .next t := by
  cases o with
  | next t => exact ⟨t, rfl⟩
  | fault f => cases h
  | refused r => cases h

/-! ## WellFormed: an ill-formed term for each check -/

theorem test_wf_refuses_ggttPte : (Instr.ggttPte 0x8000000 0 true).wf .client = false := by decide
theorem test_wf_refuses_pml4e : (Instr.pml4e 0x8000000 true true).wf .client = false := by decide
theorem test_wf_refuses_pdpePd : (Instr.pdpePd 0x8000000 true true).wf .client = false := by decide
theorem test_wf_refuses_pdpe1gb : (Instr.pdpe1gb 0x200 false false false false true true).wf .client = false := by decide
theorem test_wf_refuses_pdePt : (Instr.pdePt 0x8000000 false true true).wf .client = false := by decide
theorem test_wf_refuses_pde2mb : (Instr.pde2mb 0x40000 false false false false true true).wf .client = false := by decide
theorem test_wf_refuses_pte64kb : (Instr.pte64kb 0x800000 false false false false false true true).wf .client = false := by
  decide
theorem test_wf_refuses_pte4kb : (Instr.pte4kb 0x8000000 false false false false true true).wf .client = false := by decide
theorem test_wf_server_admits : (Instr.pte4kb 0x3FFFFFFFF false false false false true true).wf .server = true := by decide

/-! ## Decoding: words written out from the field tables -/

/-- Rule R82: 63:39 ignored, address, 11:5 ignored, Function Number, 1 ignored, Present. -/
theorem test_decode_ggttPte :
    decode .client (.entry .ggtt) (0x1FFFFFF#25 ++ 0x45678#27 ++ 0x7F#7 ++ 0b101#3 ++ 1#1 ++ 1#1) =
      .ok (.ggttPte 0x45678 0b101 true) := by decide

/-- Rule R83: 63:39 ignored, address, 11:2 ignored, R/W, Present. -/
theorem test_decode_pml4e :
    decode .client (.entry .pml4) (0x1FFFFFF#25 ++ 0x101#27 ++ 0x3FF#10 ++ 0#1 ++ 1#1) = .ok (.pml4e 0x101 false true) := by
  decide

/-- Rule R84: bit 7 clear. -/
theorem test_decode_pdpePd :
    decode .client (.entry .pdp) (0x1FFFFFF#25 ++ 0x102#27 ++ 0xF#4 ++ 0#1 ++ 0x1F#5 ++ 1#1 ++ 0#1) =
      .ok (.pdpePd 0x102 true false) := by decide

/-- Rule R85: 29:12 ignored, Local Memory, 10, Null, 8, bit 7 set, 6:5, PCD, PWT, 2, R/W, Present. -/
theorem test_decode_pdpe1gb :
    decode .client (.entry .pdp)
        (0x1FFFFFF#25 ++ 7#9 ++ 0x3FFFF#18 ++ 1#1 ++ 1#1 ++ 0#1 ++ 1#1 ++ 1#1 ++ 3#2 ++ 0#1 ++ 1#1 ++ 1#1 ++ 0#1 ++ 1#1) =
      .ok (.pdpe1gb 7 true false false true false true) := by decide

/-- Rule R86: bit 11 is the 64KB mode, 10:8, bit 7 clear, 6:2 ignored, R/W, Present. -/
theorem test_decode_pdePt :
    decode .client (.entry .pd) (0x1FFFFFF#25 ++ 0x103#27 ++ 1#1 ++ 7#3 ++ 0#1 ++ 0x1F#5 ++ 0#1 ++ 1#1) =
      .ok (.pdePt 0x103 true false true) := by decide

/-- Rule R87: as the 1GB page, the address from bit 21. -/
theorem test_decode_pde2mb :
    decode .client (.entry .pd)
        (0x1FFFFFF#25 ++ 0x200#18 ++ 0x1FF#9 ++ 0#1 ++ 1#1 ++ 1#1 ++ 1#1 ++ 1#1 ++ 3#2 ++ 1#1 ++ 0#1 ++ 1#1 ++ 1#1 ++ 0#1) =
      .ok (.pde2mb 0x200 false true true false true false) := by decide

/-- Rule R88: 15:12 ignored, Local Memory, 10, Null, 8, PAT, 6:5, PCD, PWT, 2, R/W, Present. -/
theorem test_decode_pte64kb :
    decode .client (.entry .pt64k)
        (0x1FFFFFF#25 ++ 0x1234#23 ++ 0xF#4 ++ 1#1 ++ 1#1 ++ 0#1 ++ 1#1 ++ 0#1 ++ 3#2 ++ 1#1 ++ 0#1 ++ 1#1 ++ 0#1 ++ 1#1) =
      .ok (.pte64kb 0x1234 true false false true false false true) := by decide

/-- Rule R89: 11:10 ignored, Null, 8, PAT, 6:5, PCD, PWT, 2, R/W, Present. -/
theorem test_decode_pte4kb :
    decode .client (.entry .pt4k)
        (0x1FFFFFF#25 ++ 0x12345#27 ++ 3#2 ++ 1#1 ++ 1#1 ++ 0#1 ++ 3#2 ++ 0#1 ++ 1#1 ++ 1#1 ++ 1#1 ++ 0#1) =
      .ok (.pte4kb 0x12345 true false false true true false) := by decide

/-- Rule R92: 63:48 ignored, address, 11:2 ignored, Null, Invalid. -/
theorem test_decode_trttL3e :
    decode .client (.entry .trL3) (0xFFFF#16 ++ 0x800000020#36 ++ 0x3FF#10 ++ 1#1 ++ 0#1) =
      .ok (.trttL3e 0x800000020 true false) := by decide

/-- Rule R93: the layout of an L3 entry. -/
theorem test_decode_trttL2e :
    decode .client (.entry .trL2) (0xFFFF#16 ++ 0x30#36 ++ 0x3FF#10 ++ 0#1 ++ 1#1) = .ok (.trttL2e 0x30 false true) := by
  decide

/-- Rule R94: all 32 bits are the address; in memory, least significant byte first (rule R58). -/
theorem test_decode_trttL1e : decodeBytes .client (.entry .trL1) [0x56, 0x34, 0x12, 0x7F] = .ok (.trttL1e 0x7F123456) := by
  decide

/-- Rule R95: index, reserved; `0x62` and `0x05` of rule R137's examples. -/
theorem test_decode_mocs :
    decode .client .mocs ((49#6 ++ 0#1).setWidth 64) = .ok (.mocs 49 false) ∧
      decode .client .mocs 0x05 = .ok (.mocs 2 true) := by decide

/-- Rule R15: 63:48 reserved, pointer, 15:0 reserved. -/
theorem test_decode_trttL3ptr :
    decode .client (.register .l3ptr) (0xFFFF#16 ++ 0x12345678#32 ++ 0xFFFF#16) = .ok (.trttL3ptr 0x12345678) := by decide

/-- Rules R16, R17: the whole word. -/
theorem test_decode_trttNull : decode .client (.register .null) 0xFFFFFFFE = .ok (.trttNull 0xFFFFFFFE) := by decide
theorem test_decode_trttInvalid : decode .client (.register .invalid) 0x80000001 = .ok (.trttInvalid 0x80000001) := by decide

/-- Rule R18: 31:8 reserved, mask, data. -/
theorem test_decode_trvadr :
    decode .client (.register .trvadr) ((0xFFFFFF#24 ++ 0xF#4 ++ 0x3#4).setWidth 64) = .ok (.trvadr 0xF 3) := by decide

/-- Rule R19: 31:2 reserved, location, enable. -/
theorem test_decode_trtte :
    decode .client (.register .trtte) ((0x3FFFFFFF#30 ++ 1#1 ++ 0#1).setWidth 64) = .ok (.trtte true false) := by decide

/-- Rule R20: bit 0. -/
theorem test_decode_trBypass :
    decode .client (.register .bypass) ((0x5#31 ++ 1#1).setWidth 64) = .ok (.trBypass 5 true) := by decide

/-- Rule R23: mask, 30:22 reserved, L3CC, SCC, ESC, twice. -/
theorem test_decode_lncfcmocs :
    decode .client (.register .lncf)
        ((1#1 ++ 0x1FF#9 ++ 3#2 ++ 0b100#3 ++ 0#1 ++ 0#1 ++ 0x1FF#9 ++ 1#2 ++ 0b011#3 ++ 1#1).setWidth 64) =
      .ok (.lncfcmocs true ⟨3, 4, false⟩ false ⟨1, 3, true⟩) := by decide

/-- Rule R26: 31:19 reserved, SSE, CoS, SCF, PFM, SCC, ERSC, DAoM, LRUM, TC, LeCC. -/
theorem test_decode_globMocs :
    decode .client (.register .glob)
        ((0x1FFF#13 ++ 3#2 ++ 2#2 ++ 1#1 ++ 5#3 ++ 6#3 ++ 1#1 ++ 0#1 ++ 2#2 ++ 1#2 ++ 3#2).setWidth 64) =
      .ok (.globMocs ⟨3, 2, true, 5, 6, true, false, 2, 1, 3⟩) := by decide

/-- Words with a bit above their slot, and a byte string of the wrong length, are rejected by name. -/
theorem test_decode_rejects :
    decode .client .mocs 0x80 = .error .tooWide ∧ decode .client (.entry .trL1) 0x100000000 = .error .tooWide ∧
      decodeBytes .client (.entry .ggtt) [1, 2, 3] = .error .wrongLength := by decide

/-! ## Global GTT (sections 2.1, 2.2, P1) -/

theorem test_mocs_begins_global :
    walk? (step (given [.request (req 2 .global .read 0x123ABC)])) = some (.ggtt, .memory 0x800918, true) := by decide

theorem test_mocs_refuses_high_address :
    refusal? (step (given [.request (req 2 .global .read 0x100000000)])) = some .addressRange := by decide

theorem test_ggtt_reads :
    result? (step (at' (walkOf (req 2 .global .read 0x123ABC) .ggtt 0x800918))) = some (0xDEADBEEF, false) := by
  decide

theorem test_ggtt_not_present :
    fault? (step (at' (walkOf (req 2 .global .read 0x125000) .ggtt 0x800928))) = some (.ggttNotPresent 0x125000) := by
  decide

/-! ## Per-Process GTT (section 2.3, P2) -/

theorem test_pml4e_descends : walk? (step (at' (w1 .read .pml4 0x1007F0))) = some (.pdp, .memory 0x101240, true) := by
  decide

theorem test_pml4e_ands_rw :
    walk? (exec (.pml4e 0x101 false true) (at' (w1 .write .pml4 0x1007F0))) = some (.pdp, .memory 0x101240, false) := by
  decide

theorem test_pdpePd_descends : walk? (step (at' (w1 .read .pdp 0x101240))) = some (.pd, .memory 0x102D10, true) := by
  decide

theorem test_pdpePd_not_present :
    fault? (exec (.pdpePd 0x102 true false) (at' (w1 .read .pdp 0x101240))) =
      some (.pageNotPresent 0x7F1234567ABC .pdp) := by decide

/-- `e3 = 0x1C0000083` gives `Phys(0x1F4567ABC)` (rule R186). -/
theorem test_pdpe1gb_address :
    outputAddr (.pdpe1gb 7 false false false false true true) (va1.setWidth 48) = some 0x1F4567ABC := by decide

theorem test_pdpe1gb_writes :
    ((next? (exec (.pdpe1gb 7 false false false false true true) (at' (w1 .write .pdp 0x101240)))).map
      (fun t => (t.byte 0x1F4567ABC, t.byte 0x1F4567ABF))) = some (0x44, 0x11) := by decide

theorem test_pdePt_descends_4kb : walk? (step (at' (w1 .read .pd 0x102D10))) = some (.pt4k, .memory 0x103B38, true) := by
  decide

theorem test_pdePt_descends_64kb :
    walk? (exec (.pdePt 0x103 true true true) (at' (w1 .read .pd 0x102D10))) = some (.pt64k, .memory 0x103B00, true) := by
  decide

theorem test_pde2mb_reads :
    result? (exec (.pde2mb 0x91 false false false false false true) (at' (w1 .read .pd 0x102D10))) = some (0, false) ∧
      outputAddr (.pde2mb 0x200 false false false false false true) (va1.setWidth 48) = some 0x40167ABC := by
  decide

theorem test_pde2mb_write_protected :
    fault? (exec (.pde2mb 0x200 false false false false false true) (at' (w1 .write .pd 0x102D20))) =
      some (.writeProtect 0x7F1234567ABC) := by decide

theorem test_pte64kb_reads :
    result? (exec (.pte64kb 0x1233 false false false false false true true) (at' (w1 .read .pt64k 0x103B00))) =
        some (0, false) ∧
      outputAddr (.pte64kb 0x1234 false false false false false true true) (va1.setWidth 48) = some 0x12347ABC := by
  decide

theorem test_pte64kb_null :
    result? (exec (.pte64kb 0x1234 false true false false false true true) (at' (w1 .read .pt64k 0x103B00))) =
      some (0, true) := by decide

theorem test_pte4kb_reads : result? (step (at' (w1 .read .pt4k 0x103B38))) = some (0xCAFEF00D, false) := by
  decide

theorem test_pte4kb_denies_by_path :
    fault? (step (at' { w1 .write .pt4k 0x103B38 with rw := false })) = some (.writeProtect 0x7F1234567ABC) := by
  decide

/-! ## TR-TT (section 2.4, P3) -/

theorem test_mocs_begins_tiled :
    walk? (step (given [.request (req 1 .perProcess .read va2)])) = some (.trL3, .memory 0x10120, true) := by decide

theorem test_trttL3e_points : walk? (step (at' (w2 1 .trL3 0x10120))) = some (.trL2, .memory 0x20688, true) := by decide

theorem test_trttL3e_null :
    result? (exec (.trttL3e 0x20 true false) (at' (w2 1 .trL3 0x10120))) = some (0, true) := by decide

theorem test_trttL2e_points : walk? (step (at' (w2 1 .trL2 0x20688))) = some (.trL1, .memory 0x3059C, true) := by decide

theorem test_trttL2e_invalid :
    ((next? (exec (.trttL2e 0x30 false true) (at' (w2 1 .trL2 0x20688)))).map (·.invalidTilePending)) = some true := by
  decide

/-- `va' = 0x0000400089AB`: the walk of the new address begins at PML4 index 0. -/
theorem test_trttL1e_maps :
    ((next? (step (at' (w2 1 .trL1 0x3059C)))).bind (fun t => t.walk.map (fun w => (w.level, w.entry, w.va)))) =
      some (.pml4, .memory 0x100000, 0x400089AB) := by decide

theorem test_trttL1e_matches_null :
    result? (exec (.trttL1e 0xFFFFFFFF) (at' (w2 1 .trL1 0x3059C))) = some (0, true) := by decide

/-! ## Registers (sections 2.4, 2.5, P4) -/

theorem test_trttL3ptr_write :
    ((next? (step (given [.regWrite (.named (.l3ptr 1)) 0xFFFFFFFFFFFFFFFF]))).map (fun t => (t.ctx 1).trttL3ptr)) =
      some 0x0000FFFFFFFF0000 := by decide

theorem test_trttNull_write :
    ((next? (step (given [.regWrite (.named (.null 1)) 0x12345678]))).map (fun t => (t.ctx 1).trttNull)) =
      some 0x12345678 := by decide

theorem test_trttInvalid_write :
    ((next? (step (given [.regWrite (.named (.invalid 1)) 0x9ABCDEF0]))).map (fun t => (t.ctx 1).trttInvalid)) =
      some 0x9ABCDEF0 := by decide

theorem test_trvadr_write :
    ((next? (step (given [.regWrite (.named (.trvadr 1)) 0xFFFFFFF3]))).map (fun t => (t.ctx 1).trvadr)) =
      some 0xF3 := by decide

theorem test_trtte_write :
    ((next? (step (given [.regWrite (.named (.trtte 1)) 0xFFFFFFFE]))).map (fun t => (t.ctx 1).trtte)) = some 2 := by
  decide

theorem test_trBypass_write :
    ((next? (step (given [.regWrite (.offset 0x4DFC) 0]))).map (·.trBypass)) = some 0 := by decide

/-- Section 2.5: the writes `0x80000030` and `0x00308000` from the reset value. -/
theorem test_lncfcmocs_masks :
    ((next? (step (given [.regWrite (.offset 0xB024) 0x80000030]))).map (fun t => t.lncf[1])) = some 0x00100030 ∧
      lncfWrite 0x00100030 false ⟨3, 0, false⟩ true ⟨0, 0, false⟩ = 0x00300030 := by decide

theorem test_globMocs_write :
    ((next? (step (given [.regWrite (.offset 0x405C) 0x7B7]))).map (fun t => (t.glob[23], t.glob[22]))) =
      some (0x7B7, 0x33) := by decide

/-! ## Cache controls (sections 2.3, 2.5) -/

theorem test_l3_caches :
    l3Caches 0x0033 0x400 = some false ∧ l3Caches 0x0033 0x10400 = some true ∧ l3Caches 0x0037 0x800 = some false ∧
      l3Caches 0x0036 0x800 = some true ∧ l3Caches 0x0010 0 = some false ∧ l3Caches 0x0000 0 = none := by decide

theorem test_llc_caches :
    llcCaches 0x737 0x800 = some false ∧ llcCaches 0x337 0x1000 = some true ∧ llcCaches 0x337 0x1200 = some false ∧
      llcCaches 0x3B7 0 = some false ∧ llcCaches 0x7B7 0xE00 = some true ∧ llcCaches 0x005 0 = some false := by
  decide

theorem test_required_rows :
    (requiredMocs.filter (fun r => r.index = 22)).map (fun r => (r.l3.bits, r.llc.bits)) = [(0x30, 0x3B7)] ∧
      (requiredMocs.filter (fun r => r.index = 18)).map (fun r => (r.l3.bits, r.llc.bits)) = [(0x30, 0x60037)] := by
  decide

/-! ## The interface of the host -/

theorem test_table_words :
    decodeTableWord 64 0x102001 = some (.pdpePd 0x102 false true) ∧
      decodeTableWord 64 0x20000 = some (.trttL3e 0x20 false false) ∧
      decodeTableWord 32 0x4000 = some (.trttL1e 0x4000) ∧ decodeTableWord 7 0x62 = some (.mocs 49 false) := by
  decide

/-! ## The hypotheses of the obligations are met

One theorem for each statement that has hypotheses, named after it; where a statement has clauses, one conjunct or theorem
for each, at a boundary of its range. -/

theorem witness_DecodeEncodeRoundTrip :
    (Instr.ggttPte 0x7FFFFFF 7 true).wf .client = true ∧ (Instr.pdpe1gb 0xFFFF true true true true true true).wf .server = true :=
  by decide

theorem witness_DecodeKeepsExactlyTheDefinedBits :
    (0x7F#64).toNat < 2 ^ Slot.mocs.bits ∧ (0xFFFFFFFF#64).toNat < 2 ^ (Slot.register .null).bits ∧
      (0xFFFFFFFFFFFFFFFF#64).toNat < 2 ^ (Slot.entry .pd).bits := by decide

theorem witness_IgnoredBitsHaveNoEffect :
    Level.pml4 ≠ .trL1 ∧ (0x101083#64 : Word64) ≠ 0x101003 ∧
      0x101083#64 &&& careMask .client .pml4 0x101083 = 0x101003#64 &&& careMask .client .pml4 0x101003 := by decide

theorem witness_DecodedAddressesBelowHaw :
    levelIsTr .pml4 = false ∧
      decode .client (.entry .pml4) 0xFFFFFFFFFFFFFFFF = .ok (.pml4e 0x7FFFFFF true true) ∧
      decode .client (.entry .pd) 0xFFFFFFFFFFFFFF7F = .ok (.pdePt 0x7FFFFFF true true true) ∧
      decode .client (.entry .ggtt) 0xFFFFFFFFFFFFFFFF = .ok (.ggttPte 0x7FFFFFF 7 true) ∧
      outputAddr (.ggttPte 0x7FFFFFF 7 true) 0xFFFFFFFF = some (2 ^ 39 - 1) := by decide

/-- An entry at the last eight bytes of memory and one just past them; and an entry without an address, of which the TLB holds a
copy. -/
theorem witness_StepRunsWalkEntry :
    ((at' (w1 .read .pml4 0x1007F0)).turned = at' (w1 .read .pml4 0x1007F0) ∧
      (at' (w1 .read .pml4 0x1007F0)).walk = some (w1 .read .pml4 0x1007F0) ∧
      (w1 .read .pml4 0x1007F0).entry = .memory 0x1007F0 ∧
      (0x1007F0 : Nat) + levelSize .pml4 ≤ (at' (w1 .read .pml4 0x1007F0)).memSize ∧
      decodesTo base.params.haw (.entry .pml4)
        ((at' (w1 .read .pml4 0x1007F0)).entryWord (w1 .read .pml4 0x1007F0) 0x1007F0) (.pml4e 0x101 true true)) ∧
    ((w1 .read .pml4 0x7FFFFFFFF8).entry = .memory 0x7FFFFFFFF8 ∧ 0x7FFFFFFFF8 + levelSize .pml4 ≤ base.memSize ∧
      (w1 .read .pml4 0x8000000000).entry = .memory 0x8000000000 ∧ base.memSize < 0x8000000000 + levelSize .pml4) ∧
    (stranded.turned = stranded ∧ stranded.walk = some wCopy ∧
      wCopy.entry = .copyOnly (.pageNotPresent (va1.setWidth 48) .pml4) ∧ stranded.copies wCopy = [0x101003] ∧
      decodesTo base.params.haw (.entry .pml4) 0x101003 (.pml4e 0x101 true true)) := by decide

/-- A request of an object with no MOCS word. -/
def ringRequest : Request := { req 2 .global .read 0x123ABC with object := .ringBatchBuffer }

theorem witness_StepRunsPresentedWord :
    ((given [.request (req 2 .global .read 0)]).turned = given [.request (req 2 .global .read 0)] ∧
      (given [.request (req 2 .global .read 0)]).walk = none ∧
      (given [.request (req 2 .global .read 0)]).nextInput = some (.request (req 2 .global .read 0), []) ∧
      (req 2 .global .read 0).object.controlState ≠ .gttOnly) ∧
    ((given [.request ringRequest]).nextInput = some (.request ringRequest, []) ∧
      ringRequest.object.controlState = .gttOnly) ∧
    ((given [.regWrite (.offset 0x40FC) 0x33]).nextInput = some (.regWrite (.offset 0x40FC) 0x33, []) ∧
      RegAddr.resolve (.offset 0x40FC) = some (.glob 63) ∧ RegTarget.format (.glob 63) = some .glob ∧
      decodesTo .client (.register .glob) 0x33 (.globMocs ⟨0, 0, false, 0, 0, false, false, 3, 0, 3⟩)) := by
  decide

/-- A value written to a 32-bit register: its low 32 bits are the word, and the bits above them are dropped (log entry 42). -/
theorem test_register_takes_its_width :
    decodesTo .client (.register .glob) 0x100000033 (.globMocs ⟨0, 0, false, 0, 0, false, false, 3, 0, 3⟩) ∧
      (next? (step (given [.regWrite (.named (.null 1)) 0xFFFFFFFF80000001]))).map (fun t => (t.ctx 1).trttNull) =
        some 0x80000001 := by decide

theorem witness_WalkUsesMemoryOrACopy :
    (at' (w1 .read .pml4 0x1007F0)).quiet (w1 .read .pml4 0x1007F0) 0x1007F0 ∧ 0x101003 ∈ stranded.copies wCopy := by decide

/-- A retried request whose TLB holds an entry with P = 0: no copy of it is used. -/
theorem witness_WalkUsesMemoryOrACopy_retried :
    ({ at' { w1 .write .pt4k 0x103B38 with req := { req 2 .perProcess .write va1 with retried := true } } with
      tlb := [⟨(w1 .write .pt4k 0x103B38).key, 0x12345002, some 0x103B38⟩] } : State).copies
        { w1 .write .pt4k 0x103B38 with req := { req 2 .perProcess .write va1 with retried := true } } = [] := by
  decide

/-- A retried request whose TLB holds an entry with P = 1: that copy may be used. -/
theorem witness_WalkUsesMemoryOrACopy_kept :
    ({ at' { w1 .write .pt4k 0x103B38 with req := { req 2 .perProcess .write va1 with retried := true } } with
      tlb := [⟨(w1 .write .pt4k 0x103B38).key, 0x12345003, some 0x103B38⟩] } : State).copies
        { w1 .write .pt4k 0x103B38 with req := { req 2 .perProcess .write va1 with retried := true } } =
      [0x12345003] := by decide

/-- Rule R69: context 1 comes to a page directory entry that context 2 used at the same address before it was changed; the old
word may be used. At another address, and with a copy of another width, it may not. -/
theorem test_copy_of_another_context :
    ({ at' (w2 1 .pd 0x102D10) with tlb := [⟨(w1 .read .pd 0x102D10).key, 0x55, some 0x102D10⟩] } : State).copies
        (w2 1 .pd 0x102D10) = [0x55] ∧
      ({ at' (w2 1 .pd 0x102D10) with
        tlb := [⟨(w1 .read .pd 0x102D18).key, 0x55, some 0x102D18⟩,
          ⟨(w2 2 .trL1 0x102D10).key, 0x55, some 0x102D10⟩] } : State).copies (w2 1 .pd 0x102D10) = [] := by decide

/-- The device at the PML4 entry of `va1`, which a write has changed from 0x55; the page was demanded at a length of the
history. -/
def rewritten (since : Nat) : State :=
  { at' (w1 .read .pml4 0x1007F0) with
    pml4Roots := [⟨2, 0x100000, since⟩]
    history := [⟨.host, .write, 0x1007F0, 8, 0x101003, 0x55, none, none⟩] }

/-- Rule R182: a page demanded before the write may hold the old value of the entry, and one demanded after it not. -/
theorem test_cached_pml4_page :
    (rewritten 0).copies (w1 .read .pml4 0x1007F0) = [0x101003, 0x55] ∧
      (rewritten 1).copies (w1 .read .pml4 0x1007F0) = [0x101003] := by decide

/-! ### Turns -/

/-- A request of the blitter in the global space, at its entry. -/
def wBlit : Walk := walkOf { req 2 .global .read 0x123ABC with engine := .blitter } .ggtt 0x800918

/-- Two requests in flight, the render engine's and the blitter's, with turns scheduled and an input presented. -/
def busy (turns : List Turn) (l : List Input) : State :=
  { at' (w1 .read .pml4 0x1007F0) with waiting := [wBlit], schedule := turns, agenda := l }

theorem witness_TurnsAndRequestsInFlight :
    ((at' (w1 .read .pml4 0x1007F0)).schedule = [] ∧ (at' (w1 .read .pml4 0x1007F0)).walk ≠ none) ∧
    (({ given [] with waiting := [wBlit] } : State).schedule = [] ∧
      ({ given [] with waiting := [wBlit] } : State).walk = none ∧
      ({ given [] with waiting := [wBlit] } : State).waiting = [wBlit]) ∧
    (busy [.outside] []).schedule = [.outside] ∧
    ((busy [.engine .blitter] []).schedule = [.engine .blitter] ∧
      (busy [.engine .blitter] []).waiting = [] ++ wBlit :: [] ∧ wBlit.req.engine = .blitter) ∧
    ((busy [.engine .media] []).schedule = [.engine .media] ∧
      ∀ w ∈ (busy [.engine .media] []).waiting, w.req.engine ≠ .media) ∧
    (wBlit ∈ (busy [] []).waiting ∧ ({ busy [] [] with pgtblCtl := 0 } : State).pgtblCtl ≠ (busy [] []).pgtblCtl ∧
      wBlit.req.usedSpace = .global) := by decide

/-- A step that changes nothing keeps what every waiting request consults. -/
theorem witness_TurnsAndRequestsInFlight_keeps : ∀ wk ∈ (busy [] []).waiting, (busy [] []).Keeps (busy [] []) wk :=
  fun _ _ => ⟨rfl, fun _ => ⟨rfl, rfl⟩, fun _ => ⟨rfl, rfl, rfl, rfl, rfl⟩, fun _ _ _ => rfl, fun _ _ _ => rfl,
    fun _ _ _ _ => ⟨rfl, rfl⟩, fun _ _ _ _ _ => ⟨rfl, rfl, rfl, rfl⟩, fun _ _ => ⟨rfl, rfl⟩,
    fun _ => ⟨fun _ => rfl, fun _ => rfl⟩, fun _ _ _ => rfl⟩

/-- A step that moves the Global GTT does not, of a global request. -/
theorem witness_TurnsAndRequestsInFlight_breaks :
    ¬ (busy [] []).Keeps ({ busy [] [] with pgtblCtl := 0 } : State) wBlit :=
  fun h => absurd (h.base (by decide)).1 (by decide)

/-- Rule R10: the blitter's request goes on while the render engine's waits, and completes. -/
theorem test_engines_interleave :
    ((next? (step (busy [.engine .blitter] []))).map (fun t => (t.walk, t.waiting, t.results.head?.map (·.data)))) =
      some (none, [w1 .read .pml4 0x1007F0], some 0xDEADBEEF) := by decide

/-- Rules R68, R253: a global request in flight holds back a write of the Global GTT's base, and not one of the bypass; a
per-process one of the engine that the TR-TT serves, in a context without TR-TT, holds back neither. -/
theorem test_registers_under_requests :
    refusal? (step (busy [.outside] [.regWrite (.named .pgtblCtl) 0])) = some .inFlight ∧
      (next? (step { at' wBlit with schedule := [.outside], agenda := [.regWrite (.offset 0x4DFC) 0] })).isSome = true ∧
      (next? (step { at' (w1 .read .pml4 0x1007F0) with
        schedule := [.outside], agenda := [.regWrite (.named .pgtblCtl) 0] })).isSome = true ∧
      (next? (step { at' (w1 .read .pml4 0x1007F0) with
        schedule := [.outside], agenda := [.regWrite (.offset 0x4DFC) 0] })).isSome = true := by decide

/-- Rule R162: a write in flight holds back a write of the LLC control of index 63, a read does not. -/
theorem test_eviction_control_under_requests :
    refusal? (step { at' (w1 .write .pml4 0x1007F0) with
        schedule := [.outside], agenda := [.regWrite (.offset 0x40FC) 0] }) = some .inFlight ∧
      (next? (step { at' (w1 .read .pml4 0x1007F0) with
        schedule := [.outside], agenda := [.regWrite (.offset 0x40FC) 0] })).isSome = true := by decide

/-- Rule R57: the entry a walk gets next is held, though a walk from the start of the request would not come to it. -/
theorem test_next_entry_is_held :
    refusal? (step { at' (w1 .read .pt4k 0x200000) with
      schedule := [.outside], agenda := [.hostWrite 0x200000 1 0xFF] }) = some .inFlight := by decide

/-- Rule R68: the host may update an entry that no request in flight consults, and no other. -/
theorem test_update_under_requests :
    (next? (step (busy [.outside] [.ggttUpdate .gttmmadr 0x124 0]))).isSome = true ∧
      refusal? (step (busy [.outside] [.ggttUpdate .gttmmadr 0x123 0])) = some .inFlight := by decide

/-- A walk of a global request at its entry. -/
def wg (k : Access) : Walk := walkOf (req 2 .global k 0x123ABC) .ggtt 0x800918

theorem witness_GgttPteReads :
    (at' (wg .read)).walk = some (wg .read) ∧ (wg .read).level = .ggtt ∧ (wg .read).req.kind = .read ∧
      (page4k 0x7FFFFFF (wg .read).va).toNat + (wg .read).req.n ≤ (at' (wg .read)).memSize := by decide

theorem witness_GgttPteWrites :
    (at' (wg .write)).walk = some (wg .write) ∧ (wg .write).level = .ggtt ∧ (wg .write).req.kind = .write ∧
      (at' (wg .write)).memWf = true ∧
      (page4k 0x45678 (wg .write).va).toNat + (wg .write).req.n ≤ (at' (wg .write)).memSize := by decide

theorem witness_GgttUpdateWritesTheEntry :
    (given [.ggttUpdate .gttmmadr 0xFFFFF 1]).turned = given [.ggttUpdate .gttmmadr 0xFFFFF 1] ∧
      (given [.ggttUpdate .gttmmadr 0xFFFFF 1]).presents (.ggttUpdate .gttmmadr 0xFFFFF 1) [] ∧
      (given [.ggttUpdate .gttmmadr 0xFFFFF 1]).memWf = true ∧
      (given [.ggttUpdate .gttmmadr 0xFFFFF 1]).pgtblCtl.toNat + 0x800000 ≤
        (given [.ggttUpdate .gttmmadr 0xFFFFF 1]).memSize := by decide

/-- The host's accesses at the edges: the last byte below the Global GTT, its first and its last byte, the first above it,
the last byte of memory and the first past it; a store of no bytes inside the 8MB. -/
theorem witness_HostLoadsAndStores :
    ((given [.hostWrite 0x7FFFFF 1 0]).turned = given [.hostWrite 0x7FFFFF 1 0] ∧
      (given [.hostWrite 0x7FFFFF 1 0]).presents (.hostWrite 0x7FFFFF 1 0) [] ∧
      0x7FFFFF + 1 ≤ base.pgtblCtl.toNat ∧ base.memWf = true) ∧
    ((given [.hostWrite 0x1000000 1 0]).presents (.hostWrite 0x1000000 1 0) [] ∧
      base.pgtblCtl.toNat + 0x800000 ≤ 0x1000000) ∧
    ((given [.hostWrite 0x7FFFFF 2 0]).presents (.hostWrite 0x7FFFFF 2 0) [] ∧ base.pgtblCtl.toNat < 0x7FFFFF + 2 ∧
      0x7FFFFF < base.pgtblCtl.toNat + 0x800000) ∧
    (base.pgtblCtl.toNat < 0xFFFFFF + 1 ∧ 0xFFFFFF < base.pgtblCtl.toNat + 0x800000) ∧
    ((given [.hostWrite 0x800001 0 0]).presents (.hostWrite 0x800001 0 0) [] ∧ 0x800001 + 0 ≤ base.memSize) ∧
    ((given [.hostRead 0x7FFFFFFFFF 1]).presents (.hostRead 0x7FFFFFFFFF 1) [] ∧ 0x7FFFFFFFFF + 1 ≤ base.memSize) ∧
    ((given [.hostRead 0x8000000000 1]).presents (.hostRead 0x8000000000 1) [] ∧ base.memSize < 0x8000000000 + 1 ∧
      (given [.hostWrite 0x8000000000 1 0]).presents (.hostWrite 0x8000000000 1 0) []) := by decide

theorem witness_UpperPointersDescend :
    ((at' (w1 .read .pml4 0x1007F0)).walk = some (w1 .read .pml4 0x1007F0) ∧
      (at' (w1 .read .pml4 0x1007F0)).hostPhys 2 ((0x101 : BitVec 34).toNat * 4096) = some 0x101000) ∧
    ((at' (w1 .read .pdp 0x101240)).walk = some (w1 .read .pdp 0x101240) ∧
      (at' (w1 .read .pdp 0x101240)).hostPhys 2 ((0x7FFFFFF : BitVec 34).toNat * 4096) = some 0x7FFFFFF000) := by
  decide

theorem witness_PdePtSelectsThePageTableEntry :
    (at' (w1 .read .pd 0x102D10)).walk = some (w1 .read .pd 0x102D10) ∧ (w1 .read .pd 0x102D10).level = .pd ∧
      (at' (w1 .read .pd 0x102D10)).hostPhys 2 ((0x103 : BitVec 34).toNat * 4096) = some 0x103000 := by decide

/-- A context with nested translation. -/
def ctxNested : Context := { ctx2 with desc := { ctx2.desc with neste := true } }

theorem witness_NestedTranslationRule :
    (base.ctx 2).desc.neste = false ∧ ((base.setCtx 2 ctxNested).ctx 2).desc.neste = true := by decide

/-- The device with a walk in flight, and dual context enabled for context `c`, of which the tables are in GPA space. -/
def dual (c : Nat) (wk : Walk) : State :=
  (at' wk).setCtx c { ctx1 with desc := { ctx1.desc with dualContext := true } }

/-- The last request of the per-process space, in a context. -/
def lastOwn (c : Nat) : Request := req c .perProcess .read 0xFFFFFFFFFFFC

/-- A page table leaf of 4KB, present and writable. -/
def leaf4k (null rw : Bool) : Instr := .pte4kb 0x12345 null false false false rw true

/-- The page walk of a TR-TT table address at its leaf. -/
def wTable : Walk := { w2 3 .pt4k 0x103B38 with va := 0x20688, dest := .table .l2 }

/-- The hypotheses of the clauses, but for the two alternatives of each conclusion; `State.noAddress` asks for a state with a
copy, or without one. -/
theorem witness_NestedFailuresAreNotPresent :
    (stranded.copies wCopy ≠ [] ∧ (at' wCopy).copies wCopy = []) ∧
    ((at' wTable).walk = some wTable ∧ (leaf4k false false).slot = .entry wTable.level ∧
      leafFlags (leaf4k false false) = some ⟨false, false, false, true⟩ ∧ wTable.dest = .table .l2) ∧
    ((at' (w1 .read .pml4 0x1007F0)).walk = some (w1 .read .pml4 0x1007F0) ∧ (w1 .read .pml4 0x1007F0).level = .pml4) ∧
    ((at' (w1 .read .pdp 0x101240)).walk = some (w1 .read .pdp 0x101240) ∧ (w1 .read .pdp 0x101240).level = .pdp) ∧
    ((at' (w1 .read .pd 0x102D10)).walk = some (w1 .read .pd 0x102D10) ∧ (w1 .read .pd 0x102D10).level = .pd) ∧
    ((at' (w1 .write .pt4k 0x103B38)).walk = some (w1 .write .pt4k 0x103B38) ∧
      (leaf4k false true).slot = .entry (w1 .write .pt4k 0x103B38).level ∧
      leafFlags (leaf4k false true) = some ⟨false, false, true, true⟩ ∧
      outputAddr (leaf4k false true) (w1 .write .pt4k 0x103B38).va = some 0x12345ABC ∧
      ((w1 .write .pt4k 0x103B38).rw && true) = true) ∧
    ((at' (w2 1 .trL3 0x10120)).walk = some (w2 1 .trL3 0x10120) ∧ (w2 1 .trL3 0x10120).level = .trL3 ∧
      ((at' (w2 1 .trL3 0x10120)).ctx 1).tablesVirtual = false ∧
      (0x20688 : BitVec 48).toNat < (at' (w2 1 .trL3 0x10120)).memSize ∧
      (0x20688 : BitVec 48).toNat =
        (0x20 : BitVec 36).toNat * 4096 + (w2 1 .trL3 0x10120).trva.toNat / 2 ^ 26 % 512 * 8) ∧
    ((at' (w2 3 .trL2 0x220688)).walk = some (w2 3 .trL2 0x220688) ∧ (w2 3 .trL2 0x220688).level = .trL2 ∧
      ((at' (w2 3 .trL2 0x220688)).ctx 3).tablesVirtual = true ∧
      ((at' (w2 3 .trL2 0x220688)).ctx 3).desc.dualContext = false ∧
      trvaHit ((at' (w2 3 .trL2 0x220688)).ctx 3).trvadr 0x3059C = some false ∧
      (0x3059C : BitVec 48).toNat =
        (0x30 : BitVec 36).toNat * 4096 + (w2 3 .trL2 0x220688).trva.toNat / 2 ^ 16 % 1024 * 4) ∧
    ((dual 1 (w2 1 .trL1 0x3059C)).walk = some (w2 1 .trL1 0x3059C) ∧ (w2 1 .trL1 0x3059C).level = .trL1 ∧
      (0x7FFFFFFF : BitVec 32) ≠ ((dual 1 (w2 1 .trL1 0x3059C)).ctx 1).trttNull ∧
      (0x7FFFFFFF : BitVec 32) ≠ ((dual 1 (w2 1 .trL1 0x3059C)).ctx 1).trttInvalid ∧
      ((dual 1 (w2 1 .trL1 0x3059C)).ctx 1).desc.dualContext = true ∧ (0x7FFFFFFF : BitVec 32).toNat < 2 ^ 31 ∧
      (0x7FFFFFFF89AB : BitVec 48).toNat =
        (0x7FFFFFFF : BitVec 32).toNat * 2 ^ 16 + (w2 1 .trL1 0x3059C).trva.toNat % 2 ^ 16) := by decide

/-- The hypotheses of its last clause, at the last address of the space. -/
theorem witness_NestedFailuresAreNotPresent_start :
    ((lastOwn 2).isOwn ∧ (base.ctx 2).desc.kind = .legacyPpgtt64 ∧ base.untiled (lastOwn 2)) ∧
    (∀ c ∈ [1, 3], (lastOwn c).isOwn ∧ (base.ctx c).desc.kind = .legacyPpgtt64 ∧ base.trBypass.toNat % 2 = 1 ∧
      (lastOwn c).mayTile ∧ trvaHit (base.ctx c).trvadr ((lastOwn c).va.setWidth 48) = some true ∧
      (0x10FF8 : BitVec 48).toNat =
        (base.ctx c).trttL3ptr.toNat / 2 ^ 16 % 2 ^ 32 * 2 ^ 16 + (lastOwn c).va.toNat / 2 ^ 35 % 512 * 8) ∧
    ((base.ctx 1).trtte.toNat % 4 = 1 ∧ base.params.trttGpaModeAllowed = true ∧
      (0x10FF8 : BitVec 48).toNat < base.memSize) ∧
    ((base.ctx 3).trtte.toNat % 4 = 3 ∧ trvaHit (base.ctx 3).trvadr 0x10FF8 = some false) := by decide

theorem witness_LeafWordsRead :
    (at' (w1 .read .pt4k 0x103B38)).walk = some (w1 .read .pt4k 0x103B38) ∧
      (leaf4k false false).slot = .entry (w1 .read .pt4k 0x103B38).level ∧
      leafFlags (leaf4k false false) = some ⟨false, false, false, true⟩ ∧
      outputAddr (leaf4k false false) (w1 .read .pt4k 0x103B38).va = some 0x12345ABC ∧
      (w1 .read .pt4k 0x103B38).dest = .target ∧ (w1 .read .pt4k 0x103B38).req.kind = .read ∧
      (at' (w1 .read .pt4k 0x103B38)).hostPhys 2 0x12345ABC = some 0x12345ABC ∧
      0x12345ABC + (w1 .read .pt4k 0x103B38).req.n ≤ (at' (w1 .read .pt4k 0x103B38)).memSize := by decide

theorem witness_LeafWordsWrite :
    (at' (w1 .write .pt4k 0x103B38)).walk = some (w1 .write .pt4k 0x103B38) ∧
      (leaf4k false true).slot = .entry (w1 .write .pt4k 0x103B38).level ∧
      leafFlags (leaf4k false true) = some ⟨false, false, true, true⟩ ∧
      outputAddr (leaf4k false true) (w1 .write .pt4k 0x103B38).va = some 0x12345ABC ∧
      (w1 .write .pt4k 0x103B38).dest = .target ∧ (w1 .write .pt4k 0x103B38).req.kind = .write ∧
      ((w1 .write .pt4k 0x103B38).rw && true) = true ∧
      (at' (w1 .write .pt4k 0x103B38)).hostPhys 2 0x12345ABC = some 0x12345ABC ∧
      (at' (w1 .write .pt4k 0x103B38)).memWf = true ∧
      0x12345ABC + (w1 .write .pt4k 0x103B38).req.n ≤ (at' (w1 .write .pt4k 0x103B38)).memSize := by decide

theorem witness_LeafWordsTranslateTableAddresses :
    (at' wTable).walk = some wTable ∧ (leaf4k false false).slot = .entry wTable.level ∧
      leafFlags (leaf4k false false) = some ⟨false, false, false, true⟩ ∧
      outputAddr (leaf4k false false) wTable.va = some 0x12345688 ∧ wTable.dest = .table .l2 ∧
      (at' wTable).hostPhys 3 0x12345688 = some 0x12345688 := by decide

theorem witness_NullLeafCompletesNull :
    (at' (w1 .write .pt4k 0x103B38)).walk = some (w1 .write .pt4k 0x103B38) ∧
      (leaf4k true true).slot = .entry (w1 .write .pt4k 0x103B38).level ∧
      leafFlags (leaf4k true true) = some ⟨false, true, true, true⟩ ∧ (w1 .write .pt4k 0x103B38).dest = .target ∧
      ((w1 .write .pt4k 0x103B38).rw && true) = true := by decide

theorem witness_DeniedWrites :
    (at' (w1 .write .pt4k 0x103B38)).walk = some (w1 .write .pt4k 0x103B38) ∧
      (leaf4k false false).slot = .entry (w1 .write .pt4k 0x103B38).level ∧
      leafFlags (leaf4k false false) = some ⟨false, false, false, true⟩ ∧
      leafFlags (leaf4k true false) = some ⟨false, true, false, true⟩ ∧
      (w1 .write .pt4k 0x103B38).req.kind = .write ∧ (w1 .write .pt4k 0x103B38).dest = .target ∧
      ((w1 .write .pt4k 0x103B38).rw && false) = false := by decide

theorem witness_NotPresentEntryFaults :
    (at' (w1 .read .pd 0x102D10)).walk = some (w1 .read .pd 0x102D10) ∧
      (Instr.pde2mb 0x200 true true true true true false).slot = .entry (w1 .read .pd 0x102D10).level ∧
      presentBit (.pde2mb 0x200 true true true true true false) = some false ∧
      (at' (wg .read)).walk = some (wg .read) ∧ (wg .read).level = .ggtt := by decide

/-- A 2MB page in local memory. -/
def localLeaf : Instr := .pde2mb 0x200 true false false false true true

/-- The device with local memory. -/
def localDevice : State :=
  { at' (w1 .write .pd 0x102D20) with params := { Params.title with hasLocalMemory := true } }

theorem witness_LeafRefusals :
    (localDevice.walk = some (w1 .write .pd 0x102D20) ∧ localLeaf.slot = .entry (w1 .write .pd 0x102D20).level ∧
      leafFlags localLeaf = some ⟨true, false, true, true⟩ ∧ localDevice.params.hasLocalMemory = true ∧
      ((w1 .write .pd 0x102D20).rw && true) = true) ∧
    ((at' wTable).walk = some wTable ∧ (leaf4k true true).slot = .entry wTable.level ∧
      leafFlags (leaf4k true true) = some ⟨false, true, true, true⟩ ∧ ∃ st, wTable.dest = .table st) :=
  ⟨by decide, by decide, by decide, by decide, .l2, rfl⟩

theorem witness_TakingAFault :
    (base.ctx 2).desc.pfmode = .terminal ∧ (base.ctx 4).desc.pfmode = .faultAndHalt := by decide

/-- The render engine halted by a missing page. -/
def renderHalt : Halted := ⟨.render, req 4 .perProcess .read va1, .pageNotPresent 0x7F1234567ABC .pt⟩

/-- The blitter halted by a missing page. -/
def blitHalt : Halted :=
  ⟨.blitter, { req 4 .perProcess .read va1 with engine := .blitter }, .pageNotPresent 0x7F1234567ABC .pt⟩

/-- Two engines halted, and inputs presented. -/
def haltedWith (l : List Input) : State := { given l with halted := [blitHalt, renderHalt] }

/-- The request of the media engine runs while the render engine, second among the halted, stays halted. -/
theorem witness_HaltedEngineMakesNoRequest :
    (haltedWith [.request { req 2 .global .read 0x123ABC with engine := .media }]).isHalted .render = true ∧
      (∀ wk ∈ (haltedWith [.request { req 2 .global .read 0x123ABC with engine := .media }]).inFlight,
        wk.req.engine ≠ .render) ∧
      (next? (step (haltedWith [.request { req 2 .global .read 0x123ABC with engine := .media }]))).isSome = true := by
  decide

theorem witness_FaultResponseRetriesOrEnds :
    ((haltedWith [.faultResponse .render true]).turned = haltedWith [.faultResponse .render true] ∧
      (haltedWith [.faultResponse .render true]).halted = [blitHalt] ++ renderHalt :: [] ∧
      renderHalt.engine = .render ∧ (∀ g ∈ [blitHalt], g.engine ≠ .render) ∧
      (haltedWith [.faultResponse .render true]).presents (.faultResponse .render true) []) ∧
    (haltedWith [.faultResponse .render false]).presents (.faultResponse .render false) [] := by decide

theorem witness_TrvaHitRule :
    (0x0F#32).toNat / 16 % 16 = 0 ∧ (0xFF#32).toNat / 16 % 16 = 15 ∧ (0x1F#32).toNat / 16 % 16 ≠ 0 ∧
      (0x1F#32).toNat / 16 % 16 ≠ 15 ∧ (0xE0#32).toNat / 16 % 16 ≠ 0 ∧ (0xE0#32).toNat / 16 % 16 ≠ 15 := by decide

theorem witness_TrPointersInGpaMode :
    ((at' (w2 1 .trL3 0x10120)).walk = some (w2 1 .trL3 0x10120) ∧ (w2 1 .trL3 0x10120).level = .trL3 ∧
      ((at' (w2 1 .trL3 0x10120)).ctx 1).tablesVirtual = false ∧
      ((at' (w2 1 .trL3 0x10120)).ctx 1).desc.dualContext = false ∧
      0x20688 < (at' (w2 1 .trL3 0x10120)).memSize ∧
      (at' (w2 1 .trL3 0x10120)).hostPhys 1 0x20688 = some 0x20688 ∧
      0x20688 = (0x20 : BitVec 36).toNat * 4096 + (w2 1 .trL3 0x10120).trva.toNat / 2 ^ 26 % 512 * 8) ∧
    ((at' (w2 1 .trL2 0x20688)).walk = some (w2 1 .trL2 0x20688) ∧ (w2 1 .trL2 0x20688).level = .trL2 ∧
      0x7FFFFFF59C < (at' (w2 1 .trL2 0x20688)).memSize ∧
      (at' (w2 1 .trL2 0x20688)).hostPhys 1 0x7FFFFFF59C = some 0x7FFFFFF59C ∧
      0x7FFFFFF59C = (0x7FFFFFF : BitVec 36).toNat * 4096 + (w2 1 .trL2 0x20688).trva.toNat / 2 ^ 16 % 1024 * 4) := by
  decide

theorem witness_TrPointersInVirtualMode :
    ((at' (w2 3 .trL3 0x210120)).walk = some (w2 3 .trL3 0x210120) ∧ (w2 3 .trL3 0x210120).level = .trL3 ∧
      ((at' (w2 3 .trL3 0x210120)).ctx 3).tablesVirtual = true ∧
      ((at' (w2 3 .trL3 0x210120)).ctx 3).desc.dualContext = false ∧
      trvaHit ((at' (w2 3 .trL3 0x210120)).ctx 3).trvadr 0x20688 = some false ∧
      (at' (w2 3 .trL3 0x210120)).hostPhys 3 ((at' (w2 3 .trL3 0x210120)).ctx 3).desc.pml4Ptr.toNat = some 0x100000 ∧
      (0x20688 : BitVec 48).toNat =
        (0x20 : BitVec 36).toNat * 4096 + (w2 3 .trL3 0x210120).trva.toNat / 2 ^ 26 % 512 * 8) ∧
    ((at' (w2 3 .trL2 0x220688)).walk = some (w2 3 .trL2 0x220688) ∧ (w2 3 .trL2 0x220688).level = .trL2 ∧
      ((at' (w2 3 .trL2 0x220688)).ctx 3).tablesVirtual = true ∧
      trvaHit ((at' (w2 3 .trL2 0x220688)).ctx 3).trvadr 0x3059C = some false ∧
      (at' (w2 3 .trL2 0x220688)).hostPhys 3 ((at' (w2 3 .trL2 0x220688)).ctx 3).desc.pml4Ptr.toNat = some 0x100000 ∧
      (0x3059C : BitVec 48).toNat =
        (0x30 : BitVec 36).toNat * 4096 + (w2 3 .trL2 0x220688).trva.toNat / 2 ^ 16 % 1024 * 4) := by decide

theorem witness_FlaggedTilesEndTheWalk :
    ((at' (w2 1 .trL3 0x10120)).walk = some (w2 1 .trL3 0x10120) ∧ (w2 1 .trL3 0x10120).level = .trL3 ∧
      (at' (w2 1 .trL2 0x20688)).walk = some (w2 1 .trL2 0x20688) ∧ (w2 1 .trL2 0x20688).level = .trL2 ∧
      (true || false) = true ∧ ((at' (w2 1 .trL3 0x10120)).ctx 1).desc.dualContext = false ∧
      ((dual 1 (w2 1 .trL3 0x10120)).ctx 1).desc.dualContext = true ∧ (0x7FFFFFFFF : BitVec 36).toNat < 2 ^ 35) ∧
    ((at' (w2 1 .trL1 0x3059C)).walk = some (w2 1 .trL1 0x3059C) ∧ (w2 1 .trL1 0x3059C).level = .trL1 ∧
      0xFFFFFFFF#32 = ((at' (w2 1 .trL1 0x3059C)).ctx 1).trttNull ∧
      0xFFFFFFFE#32 = ((at' (w2 1 .trL1 0x3059C)).ctx 1).trttInvalid) := by decide

theorem witness_L1WordMapsTheTile :
    (at' (w2 1 .trL1 0x3059C)).walk = some (w2 1 .trL1 0x3059C) ∧ (w2 1 .trL1 0x3059C).level = .trL1 ∧
      0xFFFFFFFD#32 ≠ ((at' (w2 1 .trL1 0x3059C)).ctx 1).trttNull ∧
      0xFFFFFFFD#32 ≠ ((at' (w2 1 .trL1 0x3059C)).ctx 1).trttInvalid ∧
      ((at' (w2 1 .trL1 0x3059C)).ctx 1).desc.dualContext = false ∧
      (at' (w2 1 .trL1 0x3059C)).hostPhys 1 ((at' (w2 1 .trL1 0x3059C)).ctx 1).desc.pml4Ptr.toNat = some 0x100000 ∧
      (0xFFFFFFFD89AB : BitVec 48).toNat =
        (0xFFFFFFFD : BitVec 32).toNat * 2 ^ 16 + (w2 1 .trL1 0x3059C).trva.toNat % 2 ^ 16 := by decide

theorem witness_TrEntriesOutsideTheContractRefused :
    ((dual 1 (w2 1 .trL3 0x10120)).walk = some (w2 1 .trL3 0x10120) ∧ (w2 1 .trL3 0x10120).level = .trL3 ∧
      ((dual 1 (w2 1 .trL3 0x10120)).ctx 1).desc.dualContext = true ∧ 2 ^ 35 ≤ (0x800000000 : BitVec 36).toNat ∧
      (dual 1 (w2 1 .trL2 0x20688)).walk = some (w2 1 .trL2 0x20688) ∧ (w2 1 .trL2 0x20688).level = .trL2) ∧
    (((at' (w2 1 .trL3 0x10120)).ctx 1).desc.dualContext = false ∧
      ((at' (w2 1 .trL3 0x10120)).ctx 1).tablesVirtual = false ∧
      (at' (w2 1 .trL3 0x10120)).memSize ≤ (0x8000000 : BitVec 36).toNat * 4096) ∧
    (((at' (w2 3 .trL2 0x220688)).ctx 3).tablesVirtual = true ∧
      ((at' (w2 3 .trL2 0x220688)).ctx 3).trvadr.toNat / 16 % 16 = 15 ∧
      ((at' (w2 3 .trL2 0x220688)).ctx 3).trvadr.toNat % 16 = (0xF00000000 : BitVec 36).toNat / 2 ^ 32) ∧
    ((dual 1 (w2 1 .trL1 0x3059C)).walk = some (w2 1 .trL1 0x3059C) ∧ (w2 1 .trL1 0x3059C).level = .trL1 ∧
      ((dual 1 (w2 1 .trL1 0x3059C)).ctx 1).desc.dualContext = true ∧ 2 ^ 31 ≤ (0x80000000 : BitVec 32).toNat) := by
  decide

/-- Rule R129: with dual context enabled a flagged entry with bit 47 set, and an L1 word with bit 31 set that equals
`TRTT_NULL`, are refused; a flagged entry with the bit clear ends the walk. -/
theorem test_dual_context_bit47_of_flagged_entries :
    refusal? (exec (.trttL3e 0x800000000 true false) (dual 1 (w2 1 .trL3 0x10120))) = some .dualContextBit47 ∧
      refusal? (exec (.trttL1e 0xFFFFFFFF) (dual 1 (w2 1 .trL1 0x3059C))) = some .dualContextBit47 ∧
      result? (exec (.trttL3e 0x7FFFFFFFF true false) (dual 1 (w2 1 .trL3 0x10120))) = some (0, true) := by decide

/-- The last request of the global space: address 0xFFFFFFFC, four bytes. -/
def lastGlobal : Request := req 2 .global .read 0xFFFFFFFC

theorem witness_MocsWordBeginsGlobalRequest :
    (given [.request lastGlobal]).presents (.request lastGlobal) [] ∧ lastGlobal.isGlobal ∧
      (base.ctx lastGlobal.ctx).trttEnabled = false ∧ (LlcWord.ofBits base.glob[(2#6).toFin]).pfm = 0#3 := by decide

/-- Rule R53: an aperture access, and one of the display engine, is global whatever its space field says. -/
theorem test_used_space :
    ({ lastGlobal with space := .perProcess, client := .aperture } : Request).isGlobal ∧
      ({ lastGlobal with space := .perProcess, engine := .display } : Request).isGlobal ∧
      ({ lastGlobal with space := .perProcess, engine := .guc } : Request).isGlobal := by decide

theorem witness_MocsWordBeginsPerProcessRequest :
    (given [.request (lastOwn 2)]).presents (.request (lastOwn 2)) [] ∧ (lastOwn 2).isOwn ∧
      (base.ctx 2).desc.kind = .legacyPpgtt64 ∧ base.hostPhys 2 (base.ctx 2).desc.pml4Ptr.toNat = some 0x100000 ∧
      base.untiled (lastOwn 2) ∧ (LlcWord.ofBits base.glob[(2#6).toFin]).pfm = 0#3 := by decide

/-- The other alternatives of `untiled`: the bypass enabled, and no hit of the window, for the engines the TR-TT serves and
for another one. -/
theorem witness_MocsWordBeginsPerProcessRequest_alternatives :
    ({ base with trBypass := 0 } : State).untiled (lastOwn 1) ∧
      base.untiled (req 1 .perProcess .read 0xEFFFFFFFF000) ∧ base.untiled (req 3 .perProcess .read 0xEFFFFFFFF000) ∧
      base.untiled { req 1 .perProcess .read 0xEFFFFFFFF000 with engine := .blitter } := by decide

theorem witness_MocsWordBeginsTiledRequest :
    (∀ c ∈ [1, 3], (given [.request (lastOwn c)]).presents (.request (lastOwn c)) [] ∧ (lastOwn c).isOwn ∧
      (base.ctx c).desc.kind = .legacyPpgtt64 ∧ base.trBypass.toNat % 2 = 1 ∧ (lastOwn c).mayTile ∧
      trvaHit (base.ctx c).trvadr ((lastOwn c).va.setWidth 48) = some true ∧
      (0x10FF8 : BitVec 48).toNat =
        (base.ctx c).trttL3ptr.toNat / 2 ^ 16 % 2 ^ 32 * 2 ^ 16 + (lastOwn c).va.toNat / 2 ^ 35 % 512 * 8) ∧
    ((base.ctx 1).trtte.toNat % 4 = 1 ∧ base.params.trttGpaModeAllowed = true ∧
      (0x10FF8 : BitVec 48).toNat < base.memSize ∧ base.hostPhys 1 0x10FF8 = some 0x10FF8) ∧
    ((base.ctx 3).trtte.toNat % 4 = 3 ∧ trvaHit (base.ctx 3).trvadr 0x10FF8 = some false ∧
      base.hostPhys 3 (base.ctx 3).desc.pml4Ptr.toNat = some 0x100000) ∧
    (LlcWord.ofBits base.glob[(2#6).toFin]).pfm = 0#3 := by decide

/-- A presented request is the next input of the device. -/
theorem given_request (r : Request) :
    (given [.request r]).walk = none ∧ (given [.request r]).nextInput = some (.request r, []) := ⟨rfl, rfl⟩

/-- The device with a reserved page faulting mode at index 2. -/
def reservedPfm : State := { given [.request (lastOwn 2)] with glob := base.glob.set 2 0x833 }

/-- A request of the blitter inside the window. -/
def blit : Request := { lastOwn 1 with engine := .blitter }

/-- Context 2 as a Legacy PPGTT32 context. -/
def legacy32 : State :=
  (given [.request (lastOwn 2)]).setCtx 2 { ctx2 with desc := { ctx2.desc with kind := .legacyPpgtt32 } }

/-- The device on a platform that forbids TR-TT tables in GPA space. -/
def gpaForbidden : State := { given [.request (lastOwn 1)] with params := { Params.title with trttGpaModeAllowed := false } }

/-- Context 1 with a window mask the hardware does not support. -/
def badMask : State := base.setCtx 1 { ctx1 with trvadr := 0xEF }

/-- The device with the L3 table of context 1 at the first address that is too high, and with that of context 3 at the start of the
window. -/
def wideL3 : State := given [.request (lastOwn 1)] |>.setCtx 1 { ctx1 with trttL3ptr := 0x8000000000 }
def windowL3 : State := given [.request (lastOwn 3)] |>.setCtx 3 { ctx3 with trttL3ptr := 0xF00000000000 }

/-- The hypotheses of the refusals, clause by clause at the first value that is refused; `given_request` gives those on the
input. -/
theorem witness_MocsWordRefusals :
    (reservedPfm.presents (.request (lastOwn 2)) [] ∧ (LlcWord.ofBits reservedPfm.glob[(2#6).toFin]).pfm ≠ 0#3) ∧
    (LlcWord.ofBits base.glob[(2#6).toFin]).pfm = 0#3 ∧
    ({ lastOwn 2 with n := 0 } : Request).n = 0 ∧
    (1 ≤ (req 2 .global .read 0x100000000).n ∧ (req 2 .global .read 0x100000000).usedSpace = .global ∧
      2 ^ 32 ≤ (req 2 .global .read 0x100000000).va.toNat) ∧
    ((req 2 .perProcess .read 0x1000000000000).usedSpace = .perProcess ∧
      2 ^ 48 ≤ (req 2 .perProcess .read 0x1000000000000).va.toNat) ∧
    (((req 2 .global .read 0xFFD).va.toNat < 2 ^ 32 ∧
      4096 < (req 2 .global .read 0xFFD).va.toNat % 4096 + (req 2 .global .read 0xFFD).n) ∧
     ((req 2 .perProcess .read 0xFFFFFFFFFFFD).usedSpace = .perProcess ∧
      (req 2 .perProcess .read 0xFFFFFFFFFFFD).va.toNat < 2 ^ 48 ∧
      4096 < (req 2 .perProcess .read 0xFFFFFFFFFFFD).va.toNat % 4096 + (req 2 .perProcess .read 0xFFFFFFFFFFFD).n)) ∧
    ((req 1 .global .read 0xFFFFFFFC).isGlobal ∧ (base.ctx 1).trtte.toNat % 2 = 1) ∧
    (legacy32.presents (.request (lastOwn 2)) [] ∧ (lastOwn 2).isOwn ∧
      (legacy32.ctx 2).desc.kind ≠ .legacyPpgtt64) := by decide

/-- The refusals of the TR-TT, of another engine and of the render engine. -/
theorem witness_MocsWordRefusals_trtt :
    (blit.isOwn ∧ (base.ctx 1).desc.kind = .legacyPpgtt64 ∧ (base.ctx 1).trtte.toNat % 2 = 1 ∧ ¬ blit.mayTile ∧
      trvaHit (base.ctx 1).trvadr (blit.va.setWidth 48) = some true) ∧
    ((badMask.ctx 1).desc.kind = .legacyPpgtt64 ∧ (badMask.ctx 1).trtte.toNat % 2 = 1 ∧
      trvaHit (badMask.ctx 1).trvadr (blit.va.setWidth 48) = none) ∧
    (gpaForbidden.presents (.request (lastOwn 1)) [] ∧ (lastOwn 1).mayTile ∧ gpaForbidden.trBypass.toNat % 2 = 1 ∧
      (gpaForbidden.ctx 1).tablesVirtual = false ∧ gpaForbidden.params.trttGpaModeAllowed = false) ∧
    (badMask.trBypass.toNat % 2 = 1 ∧ badMask.params.trttGpaModeAllowed = true ∧
      trvaHit (badMask.ctx 1).trvadr ((lastOwn 1).va.setWidth 48) = none) := by decide

/-- The refusals of the L3 table's address. -/
theorem witness_MocsWordRefusals_l3 :
    (wideL3.presents (.request (lastOwn 1)) [] ∧ (wideL3.ctx 1).desc.kind = .legacyPpgtt64 ∧
      (wideL3.ctx 1).trtte.toNat % 2 = 1 ∧ wideL3.trBypass.toNat % 2 = 1 ∧
      trvaHit (wideL3.ctx 1).trvadr ((lastOwn 1).va.setWidth 48) = some true ∧ (wideL3.ctx 1).tablesVirtual = false ∧
      wideL3.params.trttGpaModeAllowed = true ∧
      wideL3.memSize ≤
        (wideL3.ctx 1).trttL3ptr.toNat / 2 ^ 16 % 2 ^ 32 * 2 ^ 16 + (lastOwn 1).va.toNat / 2 ^ 35 % 512 * 8) ∧
    (windowL3.presents (.request (lastOwn 3)) [] ∧ (windowL3.ctx 3).tablesVirtual = true ∧
      trvaHit (windowL3.ctx 3).trvadr ((lastOwn 3).va.setWidth 48) = some true ∧
      ((windowL3.ctx 3).trttL3ptr.toNat / 2 ^ 16 % 2 ^ 32 * 2 ^ 16 + (lastOwn 3).va.toNat / 2 ^ 35 % 512 * 8) / 2 ^ 44 =
        (windowL3.ctx 3).trvadr.toNat % 16) := by decide

/-- Rule R111: with TR-TT enabled another engine is refused in the window, with the bypass enabled too. -/
theorem test_other_engine_in_window :
    refusal? (step { given [.request blit] with trBypass := 0 }) = some .trttEngine := by decide

/-- The device with L3 caching at index 2. -/
def l3Device : State := { base with lncf := base.lncf.set 1 0x00100030 }

/-- The device with index 2 not cached in the L3. -/
def l3OffDevice : State := { base with lncf := base.lncf.set 1 0x00100010 }

/-- The device with index 2 cached in the L3 and write-back in the LLC, and the required PAT table. -/
def patDevice : State := { l3Device with glob := l3Device.glob.set 2 0x37, pat := #v[3, 1, 2, 0] }

/-- A write of an object with no MOCS word, at its leaf. -/
def wPage : Walk :=
  { w1 .write .pt4k 0x103B38 with
    index := none, req := { req 2 .perProcess .write va1 with object := .ringBatchBuffer } }

theorem witness_MocsIndexLookups :
    (62#6).toNat = 2 * (31 : Fin 32).val ∧ (63#6).toNat = 2 * (31 : Fin 32).val + 1 ∧ (63#6).toNat = (63 : Fin 64).val := by
  decide

/-- L3CC at each of its values, ERSC clear, and set with and without a selected bit; a write that the L3 caches. -/
theorem witness_CachingAndMemoryType :
    ((0x0037#16).toNat / 16 % 4 = 3 ∧ (0x0010#16).toNat / 16 % 4 = 1 ∧ (0x0000#16).toNat / 16 % 4 = 0 ∧
      (0x0020#16).toNat / 16 % 4 = 2) ∧
    ((0x337#32).getLsbD 7 = false ∧ ((0x3B7#32).getLsbD 7 = true ∧ (0x3B7#32).toNat / 256 % 8 ≠ 0) ∧
      ((0xB7#32).getLsbD 7 = true ∧ (0xB7#32).toNat / 256 % 8 = 0)) ∧
    (1 ≤ (w1 .write .pt4k 0x103B38).req.n ∧ patDevice.testsAddress (w1 .write .pt4k 0x103B38) 0x12345ABC 0x12345ABC ∧
      1 ≤ wPage.req.n ∧ patDevice.testsAddress wPage 0x12345ABC 0x12345ABC) ∧
    (wPage.index = none ∧
      (patDevice.label wPage 0x12345ABC (some ⟨false, false, false⟩)).memType = some .wb ∧
      (base.label wPage 0 (some ⟨false, false, false⟩)).memType = some .uc) ∧
    patDevice.pat.toList = requiredPat := by decide

/-- What the label says of index 2: the bytes agree, the L3 and the LLC cache them, and the leaf has the type of LeCC; the
line of a write leaves the L3. -/
theorem witness_CachingAndMemoryType_label :
    ((w1 .write .pt4k 0x103B38).index = some 2 ∧ usableIndex 2 ∧
      (∀ k < 4, l3Caches (patDevice.l3Control 2) (0x12345ABC + k) = some true) ∧
      (∀ k < 4, llcCaches (patDevice.llcControl 2) (0x12345ABC + k) = some true) ∧
      (∀ k < 4, llcCaches (patDevice.llcControl 63) (0x12345ABC + k) = some true) ∧
      (patDevice.label (w1 .write .pt4k 0x103B38) 0x12345ABC (some ⟨false, false, false⟩)).memType =
        some (memTypeOf ((patDevice.llcControl 2).extractLsb' 0 2))) ∧
    ((patDevice.label (w1 .write .pt4k 0x103B38) 0x12345ABC (some ⟨false, false, false⟩)).l3 = true ∧
      (patDevice.label (w1 .write .pt4k 0x103B38) 0x12345ABC (some ⟨false, false, false⟩)).llc = true ∧
      (l3OffDevice.label (w1 .write .pt4k 0x103B38) 0x12345ABC none).l3 = false) := by decide

/-- Rule R136: of an object with GTT control only the page decides, an uncacheable one and a write-back one. -/
theorem test_page_decides_without_an_index :
    (patDevice.label wPage 0x12345ABC (some ⟨true, true, false⟩)).llc = false ∧
      (patDevice.label wPage 0x12345ABC (some ⟨true, true, false⟩)).l3 = false ∧
      (patDevice.label wPage 0x12345ABC (some ⟨false, false, false⟩)).llc = true := by decide

/-- Rule R162: a written line leaves the L3 through index 63, and index 61's through its own. -/
theorem test_eviction_index :
    ((l3Device.label (w1 .write .pt4k 0x103B38) 0x12345ABC none).evict.map (·.index)) = some 63 ∧
      evictionIndex (some 61) = 61 ∧ evictionIndex (some 4) = 63 ∧ evictionIndex none = 63 := by decide

/-- Two states that differ in a cache control. -/
theorem witness_CacheControlsChangeNoValue :
    (given [.hostRead 0 1]).blind = ({ given [.hostRead 0 1] with pat := #v[3, 1, 2, 0] } : State).blind ∧
      (given [.hostRead 0 1]).pat ≠ ({ given [.hostRead 0 1] with pat := #v[3, 1, 2, 0] } : State).pat ∧
      (given [.hostRead 0 1]).pfmLegal ∧ ({ given [.hostRead 0 1] with pat := #v[3, 1, 2, 0] } : State).pfmLegal ∧
      (given [.hostRead 0 1]).turned.walk = none ∧
      (given [.hostRead 0 1]).turned.nextInput = some (.hostRead 0 1, []) ∧ readsCacheControl (.hostRead 0 1) = false ∧
      writesCacheControl (.hostRead 0 1) = false := by decide

theorem witness_TrttRegistersStoreTheirFields :
    (given [.regWrite (.named (.l3ptr 1)) 0]).regCycle = some (.l3ptr 1, []) ∧
      (given [.regWrite (.named (.null 1)) 0]).regCycle = some (.null 1, []) ∧
      (given [.regWrite (.named (.invalid 1)) 0]).regCycle = some (.invalid 1, []) ∧
      (given [.regWrite (.named (.trvadr 1)) 0]).regCycle = some (.trvadr 1, []) ∧
      (given [.regWrite (.named (.trtte 1)) 0]).regCycle = some (.trtte 1, []) := by decide

/-- A bypass write after render power gating was enabled. -/
def gated : State := { given [.regWrite (.offset 0x4DFC) 1] with renderPowerGating := true, trBypass := 0 }

theorem witness_BypassRegisterStoresBit0 :
    ((given [.regWrite (.offset 0x4DFC) 1]).regCycle = some (.bypass, []) ∧
      (true && (given [.regWrite (.offset 0x4DFC) 1]).renderPowerGating &&
        decide ((given [.regWrite (.offset 0x4DFC) 1]).trBypass.toNat % 2 = 0)) = false) ∧
    (gated.regCycle = some (.bypass, []) ∧ gated.renderPowerGating = true ∧ gated.trBypass.toNat % 2 = 0) := by
  decide

theorem witness_LncfWriteObeysTheMaskBits :
    (given [.regWrite (.offset 0xB09C) 0]).regCycle = some (.lncf 31, []) ∧
      lncfKept (given [.regWrite (.offset 0xB09C) 0]).lncf[31] = (given [.regWrite (.offset 0xB09C) 0]).lncf[31] := by
  decide

theorem witness_GlobWriteStoresTheFields : (given [.regWrite (.offset 0x40FC) 0]).regCycle = some (.glob 63, []) := by
  decide

theorem witness_RegisterOffsets : regAtOffset 0x40FC = some (.glob 63) ∧ regAtOffset 0xB09C = some (.lncf 31) := by
  decide

/-- The last base that is taken, and the two kinds that are refused. -/
theorem witness_BaseRegistersAndPatStore :
    ((given [.regWrite (.named .pgtblCtl) 0x7FFF800000]).turned = given [.regWrite (.named .pgtblCtl) 0x7FFF800000] ∧
      (given [.regWrite (.named .pgtblCtl) 0x7FFF800000]).presents (.regWrite (.named .pgtblCtl) 0x7FFF800000) [] ∧
      (0x7FFF800000#64).toNat % 4096 = 0 ∧ (0x7FFF800000#64).toNat + 0x800000 ≤ base.memSize) ∧
    ((0x800800#64).toNat % 4096 ≠ 0 ∧ base.memSize < (0x7FFF801000#64).toNat + 0x800000) ∧
    (given [.regWrite (.named .pgtblCtl2) 1]).presents (.regWrite (.named .pgtblCtl2) 1) [] ∧
    (given [.regWrite (.named (.pat 3)) 1]).presents (.regWrite (.named (.pat 3)) 1) [] := by decide

theorem witness_RegisterReads :
    (given [.regRead (.offset 0x4100)]).turned = given [.regRead (.offset 0x4100)] ∧
      (given [.regRead (.offset 0x4100)]).presents (.regRead (.offset 0x4100)) [] ∧
      RegAddr.resolve (.offset 0x4100) = none ∧
      (given [.regRead (.offset 0xB09C)]).presents (.regRead (.offset 0xB09C)) [] ∧
      RegAddr.resolve (.offset 0xB09C) = some (.lncf 31) ∧ (given [.regRead (.offset 0xB09C)]).registersOk ∧
      (given [.regRead (.named (.l3ptr 1))]).contextsOk := by decide

/-- Rules R13, R15: the whole register, reserved bits 0. -/
theorem test_register_read : result? (step (given [.regRead (.named (.l3ptr 1))])) = some (0x10000, false) := by decide

/-- A descriptor with its PML4 table at the last page of memory, and one just past it. -/
def lastPml4 : Descriptor := { Context.initial.desc with pml4Ptr := 0x7FFFFFF000 }
def pastPml4 : Descriptor := { Context.initial.desc with pml4Ptr := 0x8000000000 }

theorem witness_DescribeSetsTheDescriptor :
    ((given [.describe 2 lastPml4]).turned = given [.describe 2 lastPml4] ∧
      (given [.describe 2 lastPml4]).presents (.describe 2 lastPml4) [] ∧ lastPml4.pml4Ptr.toNat % 4096 = 0 ∧
      lastPml4.pml4Ptr.toNat + 4096 ≤ base.memSize) ∧
    ((given [.describe 2 pastPml4]).presents (.describe 2 pastPml4) [] ∧
      base.memSize < pastPml4.pml4Ptr.toNat + 4096) := by decide

theorem witness_ResetDefaults :
    (given [.deviceReset]).turned = given [.deviceReset] ∧ (given [.deviceReset]).presents .deviceReset [] := by decide

theorem witness_RenderResetAndPowerStates :
    ((given [.renderReset 1]).turned = given [.renderReset 1] ∧
      (given [.renderReset 1]).presents (.renderReset 1) []) ∧
    (given [.rc6 true]).presents (.rc6 true) [] ∧ (given [.rc6 false]).presents (.rc6 false) [] ∧
    (given [.renderPowerGating]).presents .renderPowerGating [] := by decide

theorem witness_StepKeepsInv :
    (given [.regWrite (.named (.trvadr 1)) 0xFFFFFFFF]).Inv ∧
      (next? (step (given [.regWrite (.named (.trvadr 1)) 0xFFFFFFFF]))).isSome = true := by decide

/-- A step that ends on an invalid tile, with no reset. -/
theorem witness_CounterAndPendingNeverFall :
    (next? (step (at' (w2 1 .trL3 0x10120)))).isSome = true ∧
      (next? (step { at' (w2 1 .trL2 0x3059C) with invalidTilePending := true })).map (·.resetEpoch) = some 0 := by
  decide

theorem witness_WordsOfARequestChangeNoRegister :
    (Instr.pml4e 0x101 true true).slot = .entry .pml4 ∧
      (next? (exec (.pml4e 0x101 true true) (at' (w1 .read .pml4 0x1007F0)))).isSome = true ∧
      (Instr.mocs 2 false).slot = .mocs ∧
      (next? (exec (.mocs 2 false) (given [.request (lastOwn 2)]))).isSome = true := by decide

theorem witness_OnlyACompletedWriteChangesMemory :
    (leaf4k false true).slot = .entry .pt4k ∧ (at' (w1 .write .pt4k 0x103B38)).walk = some (w1 .write .pt4k 0x103B38) ∧
      (at' (w1 .write .pt4k 0x103B38)).memWf = true ∧
      (next? (exec (leaf4k false true) (at' (w1 .write .pt4k 0x103B38)))).isSome = true := by decide

/-- The last byte of memory, stored by the render engine; then read by the blitter. -/
def storedLast : State := base.store (.engine .render) 0x7FFFFFFFFF 1 7 none none
def readSince : State := storedLast.noteRead (.engine .blitter) 0x7FFFFFFFFF 1 7 none none

theorem witness_ConsistencyPromises :
    (base.memWf = true ∧ 0x7FFFFFFFFF + 1 ≤ base.memSize ∧
      readSince.history = [⟨.engine .blitter, .read, 0x7FFFFFFFFF, 1, 7, 0, none, none⟩] ++ storedLast.history ∧
      readSince.byte 0x7FFFFFFFFF = storedLast.byte 0x7FFFFFFFFF) ∧
    (readSince.history =
        [⟨.engine .blitter, .read, 0x7FFFFFFFFF, 1, 7, 0, none, none⟩] ++
          ⟨.engine .render, .write, 0x7FFFFFFFFF, 1, 7, 0, none, none⟩ :: [] ∧
      ∀ e ∈ readSince.history, e.kind = .write → ¬ (e.pa ≤ 0x7FFFFFFFFE ∧ 0x7FFFFFFFFE < e.pa + e.n)) := by decide

/-- Nothing is held of any context. -/
theorem coldFor_of_empty {s : State} (h : s.tlb = []) (h' : s.pml4Roots = []) (c : Nat) : s.coldFor c := by
  simp [State.coldFor, h, h']

theorem witness_PpgttWalkRefinesPseudocode :
    (at' (w1 .read .pml4 0x1007F0)).walk = some (w1 .read .pml4 0x1007F0) ∧ (w1 .read .pml4 0x1007F0).level = .pml4 ∧
      (w1 .read .pml4 0x1007F0).dest = .target ∧ (w1 .read .pml4 0x1007F0).rw = true ∧
      (at' (w1 .read .pml4 0x1007F0)).schedule = [] ∧ (at' (w1 .read .pml4 0x1007F0)).waiting = [] ∧
      (at' (w1 .read .pml4 0x1007F0)).coldFor 2 ∧ (at' (w1 .read .pml4 0x1007F0)).memWf = true ∧
      ((at' (w1 .read .pml4 0x1007F0)).ctx 2).desc.neste = false ∧ base.params.hasLocalMemory = false ∧
      ((at' (w1 .read .pml4 0x1007F0)).ctx 2).desc.pml4Ptr.toNat + 4096 ≤ (at' (w1 .read .pml4 0x1007F0)).memSize ∧
      (w1 .read .pml4 0x1007F0).entry = .memory 0x1007F0 ∧
      0x1007F0 =
        ((at' (w1 .read .pml4 0x1007F0)).ctx 2).desc.pml4Ptr.toNat +
          (w1 .read .pml4 0x1007F0).va.toNat / 2 ^ 39 % 512 * 8 ∧
      (w1 .read .pml4 0x1007F0).va.toNat % 4096 + (w1 .read .pml4 0x1007F0).req.n ≤ 4096 := by
  refine ⟨by decide, by decide, by decide, by decide, by decide, by decide, coldFor_of_empty rfl rfl 2, ?_⟩
  decide

/-- What the pseudo-code answers there, as section 2.3 lists it. -/
theorem test_specPpgtt :
    specPpgtt 39 (fun a => base.readMem a 8) 0x100000 0x7F1234567ABC .read = .phys 0x12345ABC false false (some false) ∧
      specPpgtt 39 (fun a => base.readMem a 8) 0x100000 0x7F1234568010 .write = .nullPage ∧
      specPpgtt 39 (fun a => base.readMem a 8) 0x100000 0x7F1234812344 .write = .denied ∧
      specPpgtt 39 (fun a => base.readMem a 8) 0x100000 0 .read = .notPresent .pml4 := by decide

theorem witness_TrttWalkRefinesPseudocode :
    (at' (w2 1 .trL3 0x10120)).walk = some (w2 1 .trL3 0x10120) ∧ (w2 1 .trL3 0x10120).level = .trL3 ∧
      (w2 1 .trL3 0x10120).dest = .target ∧ (at' (w2 1 .trL3 0x10120)).coldFor 1 ∧
      ((at' (w2 1 .trL3 0x10120)).ctx 1).desc.neste = false ∧ ((at' (w2 1 .trL3 0x10120)).ctx 1).tablesVirtual = false ∧
      ((at' (w2 1 .trL3 0x10120)).ctx 1).desc.dualContext = false ∧ (at' (w2 1 .trL3 0x10120)).schedule = [] ∧
      (at' (w2 1 .trL3 0x10120)).waiting = [] ∧
      (w2 1 .trL3 0x10120).entry = .memory 0x10120 ∧
      0x10120 = ((at' (w2 1 .trL3 0x10120)).ctx 1).l3ptr.toNat + (w2 1 .trL3 0x10120).trva.toNat / 2 ^ 35 % 512 * 8 ∧
      0x10120 < (at' (w2 1 .trL3 0x10120)).memSize := by
  refine ⟨by decide, by decide, by decide, coldFor_of_empty rfl rfl 1, ?_⟩
  decide

/-- What the pseudo-code answers there, as section 2.4 lists it. -/
theorem test_specTrtt :
    specTrtt 39 (fun a => base.readMem a 8) (fun a => base.readMem a 4) 0x10000 0xF123456789AB 0xFFFFFFFF 0xFFFFFFFE =
      .mapped 0x400089AB := by decide

end Sys2Proof.Tests
end

section
/-!
The encoder and the decoder agree. A word is a union of fields; reading a field off the union gives the field, and putting
the fields read off a word together again gives the word under the mask of those fields.
-/

namespace Sys2Proof

open Machine

/-! ### A word read field by field -/

theorem getLsbD_fieldAt {m lo n : Nat} (x : BitVec n) (k : Nat) :
    (fieldAt m lo x).getLsbD k = (decide (k < m) && decide (lo ≤ k) && x.getLsbD (k - lo)) := by
  simp only [fieldAt, BitVec.getLsbD_shiftLeft, BitVec.getLsbD_setWidth]
  grind

theorem getLsbD_flagAt {m lo : Nat} (b : Bool) (k : Nat) :
    (flagAt m lo b).getLsbD k = (decide (k < m) && decide (k = lo) && b) := by
  simp only [flagAt, getLsbD_fieldAt, BitVec.getLsbD_ofBool]
  grind

/-- A field reads back from its own place. -/
theorem extractLsb'_fieldAt_self {m lo n : Nat} (h : lo + n ≤ m) (x : BitVec n) :
    (fieldAt m lo x).extractLsb' lo n = x := by
  apply BitVec.eq_of_getLsbD_eq
  intro k hk
  simp only [BitVec.getLsbD_extractLsb', getLsbD_fieldAt]
  grind

/-- A field leaves every place it does not meet zero. -/
theorem extractLsb'_fieldAt_apart {m lo n lo' n' : Nat} (h : lo + n ≤ lo' ∨ lo' + n' ≤ lo) (x : BitVec n) :
    (fieldAt m lo x).extractLsb' lo' n' = 0#n' := by
  apply BitVec.eq_of_getLsbD_eq
  intro k hk
  simp only [BitVec.getLsbD_extractLsb', getLsbD_fieldAt, BitVec.getLsbD_zero]
  grind

theorem extractLsb'_flagAt_apart {m lo lo' n' : Nat} (h : lo + 1 ≤ lo' ∨ lo' + n' ≤ lo) (b : Bool) :
    (flagAt m lo b).extractLsb' lo' n' = 0#n' := extractLsb'_fieldAt_apart h _

/-- The bits of an address field: those below `HAW`. -/
theorem getLsbD_addrField (h : Haw) (lo n : Nat) (w : Word64) (k : Nat) :
    (addrField h lo n w).getLsbD k = (decide (k < n) && decide (lo + k < h.bits) && w.getLsbD (lo + k)) := by
  have hm : (BitVec.ofNat 64 (2 ^ h.bits - 1)).getLsbD (lo + k) = (decide (lo + k < h.bits)) := by
    rw [BitVec.getLsbD_ofNat, Nat.testBit_two_pow_sub_one]
    cases h <;> simp only [Haw.bits] <;> grind
  simp only [addrField, BitVec.getLsbD_extractLsb', BitVec.getLsbD_and, hm]
  grind

/-- An address that fits its field has no bit at or above `HAW`. -/
theorem Haw.fits_iff (h : Haw) (lo : Nat) {n : Nat} (addr : BitVec n) :
    h.fits lo addr = true ↔ ∀ k, h.bits - lo ≤ k → addr.getLsbD k = false := by
  simp only [Haw.fits, decide_eq_true_eq]
  exact ⟨fun hlt k hk => Nat.testBit_lt_two_pow (lt_of_lt_of_le hlt (Nat.pow_le_pow_right (by decide) hk)),
    fun hb => Nat.lt_pow_two_of_testBit _ fun k hk => hb k hk⟩

/-- An address that fits is read whole: the mask of the bits below `HAW` cuts nothing off. -/
theorem addrField_eq_extractLsb' {h : Haw} {lo n : Nat} {w : Word64} (hf : h.fits lo (w.extractLsb' lo n) = true) :
    addrField h lo n w = w.extractLsb' lo n := by
  apply BitVec.eq_of_getLsbD_eq
  intro k hk
  have hbit := (h.fits_iff lo _).1 hf k
  rw [getLsbD_addrField]
  simp only [BitVec.getLsbD_extractLsb'] at hbit ⊢
  grind

/-- The address field the decoder reads fits. -/
theorem fits_addrField (h : Haw) (lo n : Nat) (w : Word64) : h.fits lo (addrField h lo n w) = true := by
  rw [Haw.fits_iff]
  intro k hk
  rw [getLsbD_addrField]
  grind


theorem L3Half.ofBits_bits (f : L3Half) : L3Half.ofBits f.bits = f := by
  cases f
  simp [L3Half.ofBits, L3Half.bits, BitVec.extractLsb'_or, extractLsb'_fieldAt_self, extractLsb'_fieldAt_apart,
    extractLsb'_flagAt_apart, getLsbD_fieldAt, getLsbD_flagAt, -BitVec.getLsbD_eq_getElem]

theorem LlcWord.ofBits_bits (f : LlcWord) : LlcWord.ofBits f.bits = f := by
  cases f
  simp [LlcWord.ofBits, LlcWord.bits, BitVec.extractLsb'_or, extractLsb'_fieldAt_self, extractLsb'_fieldAt_apart,
    extractLsb'_flagAt_apart, getLsbD_fieldAt, getLsbD_flagAt, -BitVec.getLsbD_eq_getElem]

/-- The decoder of a slot reads back every well-formed word of the slot: at a field's own place no other field of the union
has a bit. -/
theorem decodeWord_encode (h : Haw) (i : Instr) (hwf : i.wf h = true) : decodeWord h i.slot (encode i) = i := by
  cases i <;> simp only [Instr.wf] at hwf <;>
    simp [decodeWord, decodeEntry, decodeRegister, encode, Instr.slot, BitVec.extractLsb'_or, extractLsb'_fieldAt_self,
      extractLsb'_fieldAt_apart, extractLsb'_flagAt_apart, addrField_eq_extractLsb', hwf, getLsbD_fieldAt, getLsbD_flagAt,
      L3Half.ofBits_bits, LlcWord.ofBits_bits, -BitVec.getLsbD_eq_getElem]

/-! ### The word of a slot as bytes -/

theorem length_natToBytes (n v : Nat) : (natToBytes n v).length = n := by
  induction n generalizing v with
  | zero => rfl
  | succ n ih => simp [natToBytes, ih]

theorem bytesToNat_natToBytes (n v : Nat) : bytesToNat (natToBytes n v) = v % 256 ^ n := by
  induction n generalizing v with
  | zero => simp [natToBytes, bytesToNat, Nat.mod_one]
  | succ n ih =>
    simp only [natToBytes, bytesToNat, ih, BitVec.toNat_ofNat]
    rw [pow_succ' 256 n, Nat.mod_mul]

/-- The encoding of a word fits the bytes of its slot. -/
theorem encode_fits : ∀ i, Laws.EncodeFits.Statement i
  | .ggttPte _ _ _ => Laws.EncodeFits.ggttPte _ _ _
  | .pml4e _ _ _ => Laws.EncodeFits.pml4e _ _ _
  | .pdpePd _ _ _ => Laws.EncodeFits.pdpePd _ _ _
  | .pdpe1gb _ _ _ _ _ _ _ => Laws.EncodeFits.pdpe1gb _ _ _ _ _ _ _
  | .pdePt _ _ _ _ => Laws.EncodeFits.pdePt _ _ _ _
  | .pde2mb _ _ _ _ _ _ _ => Laws.EncodeFits.pde2mb _ _ _ _ _ _ _
  | .pte64kb _ _ _ _ _ _ _ _ => Laws.EncodeFits.pte64kb _ _ _ _ _ _ _ _
  | .pte4kb _ _ _ _ _ _ _ => Laws.EncodeFits.pte4kb _ _ _ _ _ _ _
  | .trttL3e _ _ _ => Laws.EncodeFits.trttL3e _ _ _
  | .trttL2e _ _ _ => Laws.EncodeFits.trttL2e _ _ _
  | .trttL1e _ => Laws.EncodeFits.trttL1e _
  | .mocs _ _ => Laws.EncodeFits.mocs _ _
  | .trttL3ptr _ => Laws.EncodeFits.trttL3ptr _
  | .trttNull _ => Laws.EncodeFits.trttNull _
  | .trttInvalid _ => Laws.EncodeFits.trttInvalid _
  | .trvadr _ _ => Laws.EncodeFits.trvadr _ _
  | .trtte _ _ => Laws.EncodeFits.trtte _ _
  | .trBypass _ _ => Laws.EncodeFits.trBypass _ _
  | .lncfcmocs _ _ _ _ => Laws.EncodeFits.lncfcmocs _ _ _ _
  | .globMocs _ => Laws.EncodeFits.globMocs _

/-- Every slot but the MOCS word's is a whole number of bytes. -/
theorem Slot.bits_eq_bytes {sl : Slot} (h : sl ≠ .mocs) : 8 * sl.bytes = sl.bits := by
  cases sl with
  | entry l => cases l <;> rfl
  | mocs => exact absurd rfl h
  | register r => cases r <;> rfl

/-- The encoding of a word fits the bits of its slot. -/
theorem encode_lt (i : Instr) : (encode i).toNat < 2 ^ i.slot.bits := by
  by_cases hm : i.slot = .mocs
  · cases i <;> simp only [Instr.slot, reduceCtorEq] at hm
    rename_i index reserved
    exact Laws.or_lt (k := 7) (Laws.fieldAt_lt (by decide) index) (Laws.flagAt_lt (by decide) reserved)
  · rw [← Slot.bits_eq_bytes hm]
    exact encode_fits i

/-- Decoding an encoded well-formed word gives it back. -/
theorem decode_encode (h : Haw) (i : Instr) (hwf : i.wf h = true) : decode h i.slot (encode i) = .ok i := by
  rw [decode, if_pos (encode_lt i), decodeWord_encode h i hwf]

/-- The bytes of a word, put together, are the word. -/
theorem ofNat_bytesToNat_encodeBytes (i : Instr) : BitVec.ofNat 64 (bytesToNat (encodeBytes i)) = encode i := by
  have hlt : (encode i).toNat < 256 ^ i.slot.bytes := by
    rw [show (256 : Nat) = 2 ^ 8 from rfl, ← Nat.pow_mul]
    exact encode_fits i
  rw [encodeBytes, bytesToNat_natToBytes, Nat.mod_eq_of_lt hlt, BitVec.ofNat_toNat, BitVec.setWidth_eq]

theorem decodeBytes_encodeBytes (h : Haw) (i : Instr) (hwf : i.wf h = true) :
    decodeBytes h i.slot (encodeBytes i) = .ok i := by
  rw [decodeBytes, if_pos (by rw [encodeBytes, length_natToBytes]), ofNat_bytesToNat_encodeBytes, decode_encode h i hwf]

/-- Settles O1: each field reads back from its own place, and the bytes of a word are the word. -/
theorem decodeEncodeRoundTrip : Obligations.DecodeEncodeRoundTrip := by
  unfold Obligations.DecodeEncodeRoundTrip
  exact fun h i hwf => ⟨decode_encode h i hwf, decodeBytes_encodeBytes h i hwf⟩

/-! ### A word put together again from its fields -/

/-- A field put back at its place is the word under the mask of the field. -/
theorem fieldAt_extractLsb' {m : Nat} (lo n : Nat) (w : BitVec m) :
    fieldAt m lo (w.extractLsb' lo n) = w &&& fieldAt m lo (BitVec.allOnes n) := by
  apply BitVec.eq_of_getLsbD_eq
  intro k hk
  simp only [BitVec.getLsbD_and, getLsbD_fieldAt, BitVec.getLsbD_extractLsb', BitVec.getLsbD_allOnes]
  grind

theorem flagAt_getLsbD {m : Nat} (k : Nat) (w : BitVec m) : flagAt m k (w.getLsbD k) = w &&& flagAt m k true := by
  apply BitVec.eq_of_getLsbD_eq
  intro j hj
  simp only [BitVec.getLsbD_and, getLsbD_flagAt]
  grind

/-- The mask of an address field: its bits below `HAW`. -/
def addrMask (h : Haw) (lo n : Nat) : Word64 := fieldAt 64 lo (BitVec.allOnes n) &&& BitVec.ofNat 64 (2 ^ h.bits - 1)

theorem fieldAt_addrField (h : Haw) (lo n : Nat) (w : Word64) :
    fieldAt 64 lo (addrField h lo n w) = w &&& addrMask h lo n := by
  rw [addrField, fieldAt_extractLsb', addrMask, BitVec.and_assoc, BitVec.and_comm (BitVec.ofNat 64 _)]

theorem fieldAt_and_distrib {m lo n : Nat} (x y : BitVec n) :
    fieldAt m lo (x &&& y) = fieldAt m lo x &&& fieldAt m lo y := by
  apply BitVec.eq_of_getLsbD_eq
  intro k hk
  simp only [BitVec.getLsbD_and, getLsbD_fieldAt]
  grind

/-- A flag that the word has is the word under the mask of the flag. -/
theorem flagAt_of_getLsbD {m k : Nat} {w : BitVec m} {b : Bool} (h : w.getLsbD k = b) :
    flagAt m k b = w &&& flagAt m k true := by
  rw [← h, flagAt_getLsbD]

/-- A bit that is clear may be added to a mask. -/
theorem and_or_of_clear {m k : Nat} {w : BitVec m} (h : w.getLsbD k = false) (mask : BitVec m) :
    w &&& (mask ||| flagAt m k true) = w &&& mask := by
  rw [BitVec.and_or_distrib_left, ← flagAt_of_getLsbD h]
  simp [flagAt, fieldAt]

/-- A half of `LNCFCMOCSx` is its six bits. -/
theorem L3Half.bits_ofBits (v : BitVec 6) : (L3Half.ofBits v).bits = v := by
  have hm : fieldAt 6 4 (BitVec.allOnes 2) ||| fieldAt 6 1 (BitVec.allOnes 3) ||| flagAt 6 0 true = BitVec.allOnes 6 := by
    decide
  simp only [L3Half.bits, L3Half.ofBits, fieldAt_extractLsb', flagAt_getLsbD, ← BitVec.and_or_distrib_left, hm,
    BitVec.and_allOnes]

/-- The fields of `GLOB_MOCS_i` are its bits 18:0. -/
theorem LlcWord.bits_ofBits (v : Word32) : (LlcWord.ofBits v).bits = v &&& 0x7FFFF#32 := by
  simp only [LlcWord.bits, LlcWord.ofBits, fieldAt_extractLsb', flagAt_getLsbD, ← BitVec.and_or_distrib_left]
  congr 1

/-- The encoding of the entry a word decodes to is the word with the ignored bits cleared (rules R81, R98). -/
theorem encode_decodeEntry (h : Haw) (l : Level) (w : Word64) : encode (decodeEntry h l w) = w &&& careMask h l w := by
  cases l with
  | pdp | pd =>
    cases h7 : w.getLsbD 7 with
    | true =>
      simp only [decodeEntry, careMask, h7, if_true, encode, fieldAt_addrField, flagAt_getLsbD]
      rw [flagAt_of_getLsbD h7]
      simp only [← BitVec.and_or_distrib_left]
      cases h <;> rfl
    | false =>
      simp only [decodeEntry, careMask, h7, Bool.false_eq_true, if_false, encode, fieldAt_addrField, flagAt_getLsbD,
        ← BitVec.and_or_distrib_left]
      rw [← and_or_of_clear h7]
      cases h <;> rfl
  | _ =>
    simp only [decodeEntry, careMask, encode, fieldAt_addrField, fieldAt_extractLsb', flagAt_getLsbD,
      ← BitVec.and_or_distrib_left]
    cases h <;> rfl

/-- The encoding of the register word a word decodes to is the word with the reserved bits cleared (rule R14). -/
theorem encode_decodeRegister (h : Haw) (r : RegFormat) (w : Word64) :
    encode (decodeRegister r w) = w &&& slotMask h (.register r) w := by
  cases r <;>
    simp only [decodeRegister, slotMask, encode, L3Half.bits_ofBits, LlcWord.bits_ofBits, fieldAt_and_distrib,
      fieldAt_extractLsb', flagAt_getLsbD, BitVec.and_assoc, ← BitVec.and_or_distrib_left] <;> rfl

theorem encode_decodeWord (h : Haw) (sl : Slot) (w : Word64) : encode (decodeWord h sl w) = w &&& slotMask h sl w := by
  cases sl with
  | entry l => exact encode_decodeEntry h l w
  | mocs =>
    simp only [decodeWord, slotMask, encode, fieldAt_extractLsb', flagAt_getLsbD, ← BitVec.and_or_distrib_left]
    rfl
  | register r => exact encode_decodeRegister h r w

/-- What the decoder reads is well formed: it masks the address bits from `HAW` up (decision D27). -/
theorem wf_decodeWord (h : Haw) (sl : Slot) (w : Word64) : (decodeWord h sl w).wf h = true := by
  cases sl with
  | entry l =>
    cases l with
    | pdp | pd =>
      simp only [decodeWord, decodeEntry]
      split <;> exact fits_addrField _ _ _ _
    | trL3 | trL2 | trL1 => rfl
    | _ => exact fits_addrField _ _ _ _
  | mocs => rfl
  | register r => cases r <;> rfl

/-- Settles O2: a word's own fields, put together again, are the word under the mask of its slot. -/
theorem decodeKeepsExactlyTheDefinedBits : Obligations.DecodeKeepsExactlyTheDefinedBits := by
  unfold Obligations.DecodeKeepsExactlyTheDefinedBits
  exact fun h sl w hw =>
    ⟨decodeWord h sl w, if_pos hw, decodeWord_slot h sl w, wf_decodeWord h sl w, encode_decodeWord h sl w⟩

end Sys2Proof
end


section
/-!
The invariant. What a step can do is said in `Effect`, `RegEffect`, `EnvEffect` and `StepEffect`; each of them is shown to
keep the registers' reserved bits, the canonical form of memory and the engines' one request each.
-/

namespace Sys2Proof.Machine

variable {s t : State} {wk : Walk}

/-! ### The parts of the invariant -/

/-- The part of the invariant that is not about the requests in flight. -/
abbrev State.dataOk (s : State) : Prop :=
  s.memWf = true ∧ s.registersOk ∧ s.contextsOk ∧ s.pgtblCtl &&& 0xFFF#64 = 0#64

theorem State.inv_iff : s.Inv ↔ s.dataOk ∧ s.enginesInUse.Nodup := by
  simp only [State.Inv, State.dataOk, and_assoc]

/-- The engines with a waiting request, and the engines a fault has stopped. -/
def State.otherEngines (s : State) : List Engine := s.waiting.map (·.req.engine) ++ s.halted.map (·.engine)

theorem State.enginesInUse_some (h : s.walk = some wk) : s.enginesInUse = wk.req.engine :: s.otherEngines := by
  simp [State.enginesInUse, State.inFlight, State.otherEngines, h]

theorem State.enginesInUse_none (h : s.walk = none) : s.enginesInUse = s.otherEngines := by
  simp [State.enginesInUse, State.inFlight, State.otherEngines, h]

theorem State.enginesInUse_congr (hw : t.walk = s.walk) (hwt : t.waiting = s.waiting) (hh : t.halted = s.halted) :
    t.enginesInUse = s.enginesInUse := by
  simp only [State.enginesInUse, State.inFlight, hw, hwt, hh]

/-- Where registers, parameters and cells are the same, the invariant of the data is. -/
theorem State.dataOk_of_same (h : s.dataOk) (hr : s.sameRegisters t) (hm : t.memWf = true) : t.dataOk := by
  obtain ⟨-, -, hg, -, hb, hl, hgl, -, hc, -⟩ := hr
  obtain ⟨-, hregs, hctx, hbase⟩ := h
  refine ⟨hm, ?_, ?_, ?_⟩
  · rw [State.registersOk, hl, hgl, hb]; exact hregs
  · rw [State.contextsOk, hc]; exact hctx
  · rw [hg]; exact hbase

/-! ### Reserved bits -/

/-- A field keeps every bit of a mask that holds the field. -/
theorem fieldAt_and_self {m lo n : Nat} (x : BitVec n) (k : BitVec m)
    (h : fieldAt m lo (BitVec.allOnes n) &&& k = fieldAt m lo (BitVec.allOnes n)) :
    fieldAt m lo x &&& k = fieldAt m lo x := by
  have hx : fieldAt m lo x = fieldAt m lo x &&& fieldAt m lo (BitVec.allOnes n) := by
    rw [← fieldAt_and_distrib, BitVec.and_allOnes]
  rw [hx, BitVec.and_assoc, h]

theorem lncfKept_lncfWord (upper lower : BitVec 6) : lncfKept (lncfWord upper lower) = lncfWord upper lower := by
  rw [lncfKept, lncfWord, BitVec.and_or_distrib_right, fieldAt_and_self upper _ (by decide),
    fieldAt_and_self lower _ (by decide)]

theorem globKept_bits (f : LlcWord) : globKept f.bits = f.bits := by
  have h := LlcWord.bits_ofBits f.bits
  rw [LlcWord.ofBits_bits] at h
  exact h.symm

theorem lncfKept_lncfKept (w : Word32) : lncfKept (lncfKept w) = lncfKept w := by
  rw [lncfKept, lncfKept, BitVec.and_assoc, BitVec.and_self]

theorem globKept_globKept (w : Word32) : globKept (globKept w) = globKept w := by
  rw [globKept, globKept, BitVec.and_assoc, BitVec.and_self]

/-- A word is 4KB aligned exactly where its low twelve bits are clear. -/
theorem and_fff_eq_zero_iff (w : Word64) : w &&& 0xFFF#64 = 0#64 ↔ w.toNat % 4096 = 0 := by
  rw [← BitVec.toNat_inj, BitVec.toNat_and]
  exact iff_of_eq (congrArg (· = 0) (Nat.and_two_pow_sub_one_eq_mod w.toNat 12))

theorem State.baseOk_iff {base n : Nat} : s.baseOk base n = true ↔ base % 4096 = 0 ∧ base + n ≤ s.memSize := by
  simp [State.baseOk, inMemory]

/-- A property of every register of a table stands after a write of one that has it. -/
theorem forall_getElem_set {n : Nat} {α : Type} {p : α → Prop} {v : Vector α n} (h : ∀ i : Fin n, p v[i]) (x : Fin n) {a : α}
    (ha : p a) (i : Fin n) : p (v.set x a)[i] := by
  simp only [Fin.getElem_fin, Vector.getElem_set]
  split
  · exact ha
  · exact h i

/-! ### Contexts -/

theorem Context.ok_iff (k : Context) : k.ok = true ↔
    k.trttL3ptr &&& 0xFFFF00000000FFFF#64 = 0#64 ∧ k.trvadr &&& 0xFFFFFF00#32 = 0#32 ∧
      k.trtte &&& 0xFFFFFFFC#32 = 0#32 ∧ k.desc.pml4Ptr &&& 0xFFF#64 = 0#64 := by
  simp only [Context.ok, Bool.and_eq_true, decide_eq_true_eq, and_assoc]

/-- A context nothing has written is as it should be. -/
theorem Context.ok_unlisted (epoch c : Nat) : (Context.unlisted epoch c).ok = true := by
  unfold Context.unlisted
  split
  · decide
  · rw [Context.ok_iff]
    exact ⟨BitVec.zero_and, BitVec.zero_and, BitVec.zero_and, fieldAt_and _ _ (by decide)⟩

theorem State.ctx_ok (h : s.contextsOk) (c : Nat) : (s.ctx c).ok = true := by
  unfold State.ctx
  split
  · rename_i p hp
    exact List.all_eq_true.1 h p (List.mem_of_find?_eq_some hp)
  · exact Context.ok_unlisted _ _

theorem State.contextsOk_setCtx (h : s.contextsOk) {c : Nat} {k : Context} (hk : k.ok = true) :
    (s.setCtx c k).contextsOk := by
  simp only [State.contextsOk, State.setCtx_ctxs, setCtxList, List.all_cons, Bool.and_eq_true, List.all_eq_true] at h ⊢
  exact ⟨hk, fun p hp => h p (List.mem_of_mem_filter hp)⟩

theorem Context.ok_trFree {k : Context} (h : k.ok = true) (draw : Nat) : (k.trFree draw).ok = true := by
  obtain ⟨-, -, -, hp⟩ := k.ok_iff.1 h
  rw [Context.ok_iff]
  simp only [Context.trFree, BitVec.and_assoc]
  exact ⟨BitVec.and_zero, BitVec.and_zero, BitVec.and_zero, hp⟩

/-! ### What the walk of a request can do -/

theorem Effect.sameRegisters (h : Effect s wk t) : s.sameRegisters t := by
  cases h <;> simp [State.sameRegisters]

theorem Effect.memWf (h : Effect s wk t) (hm : s.memWf = true) : t.memWf = true := by
  cases h with
  | writes pa l hin hk =>
    exact State.store_memWf s (.engine wk.req.engine) pa wk.req.n wk.req.data (some wk.route) (some l) hm
      (of_decide_eq_true hin)
  | _ => exact hm

/-- The request is in flight or its engine has halted, or it has ended. -/
theorem Effect.enginesInUse (h : Effect s wk t) :
    t.enginesInUse.Perm (wk.req.engine :: s.otherEngines) ∨ t.enginesInUse = s.otherEngines := by
  cases h with
  | moves wk' hreq hidx => left; rw [State.enginesInUse_some rfl, hreq]; rfl
  | halts f => left; exact List.perm_middle
  | _ => right; rfl

/-- What the walk of a request does keeps the invariant. -/
theorem Effect.keeps_inv (h : Effect s wk t) (hd : s.dataOk) (hn : (wk.req.engine :: s.otherEngines).Nodup) : t.Inv := by
  refine State.inv_iff.2 ⟨State.dataOk_of_same hd h.sameRegisters (h.memWf hd.1), ?_⟩
  rcases h.enginesInUse with hp | he
  · exact hp.nodup_iff.2 hn
  · rw [he]; exact (List.nodup_cons.1 hn).2

/-! ### What a register word and an input without a word can do -/

theorem RegEffect.keeps_inv {rest : List Input} {tg : RegTarget} (h : RegEffect s rest tg t) (hi : s.Inv) : t.Inv := by
  obtain ⟨hm, hregs, hctx, hbase, hn⟩ := hi
  obtain ⟨hl, hg, hb⟩ := hregs
  cases h with
  | ctx _ c k hd hok => exact ⟨hm, ⟨hl, hg, hb⟩, State.contextsOk_setCtx hctx (hok (State.ctx_ok hctx c)), hbase, hn⟩
  | bypass d => exact ⟨hm, ⟨hl, hg, flagAt_and d _ (by decide)⟩, hctx, hbase, hn⟩
  | lncf x um lm u l =>
    exact ⟨hm, ⟨forall_getElem_set (p := fun w => lncfKept w = w) hl x (lncfKept_lncfWord _ _), hg, hb⟩, hctx, hbase, hn⟩
  | glob i f =>
    exact ⟨hm, ⟨hl, forall_getElem_set (p := fun w => globKept w = w) hg i (globKept_bits f), hb⟩, hctx, hbase, hn⟩

/-- A device reset leaves a state with the invariant, whatever the state was. -/
theorem State.deviceReset_inv (s : State) : s.deviceReset.Inv := by
  refine ⟨rfl, ⟨fun x => ?_, fun i => ?_, BitVec.zero_and⟩, rfl, fieldAt_and _ _ (by decide), List.nodup_nil⟩
  · simp only [State.deviceReset_lncf, Fin.getElem_fin, Vector.getElem_replicate]; decide
  · simp only [State.deviceReset_glob, Fin.getElem_fin, Vector.getElem_replicate]; decide

/-- The free values of the `LNCFCMOCSx` registers keep their reserved bits zero. -/
theorem lncfKept_ofFn (f : Fin 32 → Word32) (x : Fin 32) :
    lncfKept (Vector.ofFn fun x => lncfKept (f x))[x] = (Vector.ofFn fun x => lncfKept (f x))[x] := by
  simp only [Fin.getElem_fin, Vector.getElem_ofFn, lncfKept_lncfKept]

theorem globKept_ofFn (f : Fin 64 → Word32) (i : Fin 64) :
    globKept (Vector.ofFn fun i => globKept (f i))[i] = (Vector.ofFn fun i => globKept (f i))[i] := by
  simp only [Fin.getElem_fin, Vector.getElem_ofFn, globKept_globKept]

theorem State.renderReset_inv (h : s.Inv) (c : Nat) : (s.renderReset c).Inv := by
  obtain ⟨hm, ⟨-, hg, hb⟩, hctx, hbase, hn⟩ := h
  refine ⟨?_, ⟨?_, ?_, ?_⟩, ?_, ?_, ?_⟩
  · rw [State.memWf_congr (s := s) (by simp) (by simp) (by simp)]; exact hm
  · rw [State.renderReset_lncf]; exact lncfKept_ofFn _
  · rw [State.renderReset_glob]; exact hg
  · rw [State.renderReset_trBypass]; exact hb
  · rw [State.contextsOk, State.renderReset_ctxs]
    exact State.contextsOk_setCtx hctx (Context.ok_trFree (State.ctx_ok hctx c) _)
  · rw [State.renderReset_pgtblCtl]; exact hbase
  · rw [State.enginesInUse_congr (s := s) (by simp) (by simp) (by simp)]; exact hn

theorem State.rc6_inv (h : s.Inv) (restored : Bool) : (s.rc6 restored).Inv := by
  obtain ⟨hm, ⟨hl, hg, hb⟩, hctx, hbase, hn⟩ := h
  refine ⟨?_, ⟨?_, ?_, ?_⟩, ?_, ?_, ?_⟩
  · rw [State.memWf_congr (s := s) (by simp) (by simp) (by simp)]; exact hm
  · rw [State.rc6_lncf]
    cases restored
    · exact lncfKept_ofFn _
    · exact hl
  · rw [State.rc6_glob]
    cases restored
    · exact globKept_ofFn _
    · exact hg
  · rw [State.rc6_trBypass]; exact hb
  · rw [State.contextsOk, State.rc6_ctxs]; exact hctx
  · rw [State.rc6_pgtblCtl]; exact hbase
  · rw [State.enginesInUse_congr (s := s) (by simp) (by simp) (by simp)]; exact hn

/-- The fault response takes an engine from the halted ones. -/
theorem State.retry_inv (h : s.Inv) {e : Engine} {x : Halted} {others : List Halted}
    (ht : takeFirst (fun x => decide (x.engine = e)) s.halted = some (x, others)) : (s.retry x others).Inv := by
  obtain ⟨hm, hregs, hctx, hbase, hn⟩ := h
  refine ⟨hm, hregs, hctx, hbase, ?_⟩
  have hsub : List.Sublist (others.map (·.engine)) (s.halted.map (·.engine)) := by
    obtain ⟨-, before, after, hs, ho, -⟩ := takeFirst_eq_some ht
    rw [hs, ho]
    exact ((List.Sublist.refl before).append (List.sublist_cons_self x after)).map _
  have hs : (s.retry x others).enginesInUse.Sublist s.enginesInUse := hsub.append_left _
  exact hn.sublist hs

theorem EnvEffect.keeps_inv (h : EnvEffect s t) (hi : s.Inv) : t.Inv := by
  obtain ⟨hm, hregs, hctx, hbase, hn⟩ := id hi
  cases h with
  | pgtblCtl w h => exact ⟨hm, hregs, hctx, (and_fff_eq_zero_iff w).2 (State.baseOk_iff.1 h).1, hn⟩
  | store pa n data h =>
    exact ⟨State.store_memWf s .host pa n data none none hm (of_decide_eq_true h), hregs, hctx, hbase, hn⟩
  | describe c d h =>
    obtain ⟨h1, h2, h3, -⟩ := (s.ctx c).ok_iff.1 (State.ctx_ok hctx c)
    have hk : ({ s.ctx c with desc := d } : Context).ok = true :=
      (Context.ok_iff _).2 ⟨h1, h2, h3, (and_fff_eq_zero_iff _).2 (State.baseOk_iff.1 h).1⟩
    exact ⟨hm, hregs, State.contextsOk_setCtx hctx hk, hbase, hn⟩
  | retry e x others ht => exact State.retry_inv hi ht
  | deviceReset => exact State.deviceReset_inv s
  | renderReset c => exact State.renderReset_inv hi c
  | rc6 b => exact State.rc6_inv hi b
  | pgtblCtl2 w => exact hi
  | pat i w => exact hi
  | regRead n v => exact hi
  | load pa n v h => exact hi
  | powerGating => exact hi

/-! ### What a step can do -/

/-- A turn changes no data and, but for their order, no request in flight. -/
theorem State.turned_inv (h : s.Inv) : s.turned.Inv := by
  obtain ⟨hd, hn⟩ := State.inv_iff.1 h
  have hr : s.sameRegisters s.turned := by simp [State.sameRegisters]
  refine State.inv_iff.2 ⟨State.dataOk_of_same hd hr ?_, ?_⟩
  · rw [State.memWf_congr (s := s) (by simp) (by simp) (by simp)]; exact hd.1
  · have hp : s.turned.enginesInUse.Perm s.enginesInUse := by
      simp only [State.enginesInUse, State.turned_halted]
      exact (s.turned_inFlight.map _).append_right _
    exact hp.nodup_iff.2 hn

/-- A request that can be taken now has an engine that is neither halted nor busy. -/
theorem notMem_otherEngines_of_runnable {r : Request} (h : s.runnable (.request r) = true) :
    r.engine ∉ s.otherEngines := by
  simp only [State.runnable, State.isHalted, State.isBusy, Bool.and_eq_true, Bool.not_eq_true', List.any_eq_false,
    decide_eq_true_eq] at h
  simp only [State.otherEngines, List.mem_append, List.mem_map, not_or, not_exists, not_and]
  exact ⟨fun w hw he => h.2 w hw he, fun x hx he => h.1 x hx he⟩

theorem StepEffect.keeps_inv (h : StepEffect s t) (hi : s.Inv) : t.Inv := by
  obtain ⟨hd, hn⟩ := State.inv_iff.1 hi
  cases h with
  | idle => exact hi
  | entry wk a i t hw hm hin hdec he hE =>
    rw [State.enginesInUse_some hw] at hn
    exact hE.keeps_inv hd hn
  | copy wk f w i t hw hm hh hdec he hE =>
    rw [State.enginesInUse_some hw] at hn
    exact hE.keeps_inv hd hn
  | lost wk f hw hm =>
    rw [State.enginesInUse_some hw] at hn
    exact (Effect.halts (wk := wk) f).keeps_inv hd hn
  | request r rest index t hw hn' hb hE =>
    rw [State.enginesInUse_none hw] at hn
    exact hE.keeps_inv hd (List.nodup_cons.2 ⟨notMem_otherEngines_of_runnable (nextInput_runnable (s := s) hn'), hn⟩)
  | register a w tg rest t hw hn' ha hE => exact hE.keeps_inv hi
  | input i rest t hw hn' he hE => exact hE.keeps_inv hi

/-- Settles O54: the state after the turn has the invariant, and whatever the step does keeps it. -/
theorem stepKeepsInv : Obligations.StepKeepsInv := by
  unfold Obligations.StepKeepsInv
  exact fun s t hi hs => (step_next hs).keeps_inv (State.turned_inv hi)

/-- Settles O53: the state after reset is written out, so the invariant is evaluated there. -/
theorem resetInv : Obligations.ResetInv := by
  unfold Obligations.ResetInv
  decide

/-! ### The counter and the pending flag -/

/-- What every step but a device reset does to the parameters, the counter and the pending flag (rules R21, R120, R216). -/
abbrev State.eventsKept (s t : State) : Prop :=
  t.params = s.params ∧ t.resetEpoch = s.resetEpoch ∧ s.nullTileCount ≤ t.nullTileCount ∧
    (s.invalidTilePending = true → t.invalidTilePending = true)

theorem Effect.eventsKept (h : Effect s wk t) : s.eventsKept t := by
  cases h with
  | nulls => exact ⟨rfl, rfl, Nat.le_add_right _ _, id⟩
  | tiles n i => exact ⟨rfl, rfl, Nat.le_add_right _ _, fun hp => by rw [State.completeTile_invalidTilePending, hp]; rfl⟩
  | _ => exact ⟨rfl, rfl, Nat.le_refl _, id⟩

theorem RegEffect.eventsKept {rest : List Input} {tg : RegTarget} (h : RegEffect s rest tg t) : s.eventsKept t := by
  cases h <;> exact ⟨rfl, rfl, Nat.le_refl _, id⟩

theorem EnvEffect.eventsKept (h : EnvEffect s t) : s.eventsKept t ∨ t = s.deviceReset := by
  cases h with
  | deviceReset => exact .inr rfl
  | renderReset c => left; simp [State.eventsKept]
  | rc6 b => left; simp [State.eventsKept]
  | _ => exact .inl ⟨rfl, rfl, Nat.le_refl _, id⟩

theorem StepEffect.eventsKept (h : StepEffect s t) :
    s.eventsKept t ∨ t.params = s.params ∧ t.resetEpoch = s.resetEpoch + 1 := by
  cases h with
  | idle => exact .inl ⟨rfl, rfl, Nat.le_refl _, id⟩
  | entry wk a i t hw hm hin hdec he hE => exact .inl hE.eventsKept
  | copy wk f w i t hw hm hh hdec he hE => exact .inl hE.eventsKept
  | lost wk f hw hm => exact .inl ⟨rfl, rfl, Nat.le_refl _, id⟩
  | request r rest index t hw hn hb hE => exact .inl hE.eventsKept
  | register a w tg rest t hw hn ha hE => exact .inl hE.eventsKept
  | input i rest t hw hn he hE =>
    rcases hE.eventsKept with hk | rfl
    · exact .inl hk
    · exact .inr ⟨rfl, rfl⟩

/-- Settles O55: only a device reset lowers the counter or clears the flag, and it raises the number of device resets. -/
theorem counterAndPendingNeverFall : Obligations.CounterAndPendingNeverFall := by
  unfold Obligations.CounterAndPendingNeverFall
  intro s t hs
  have h := (step_next hs).eventsKept
  simp only [State.eventsKept, State.turned_params, State.turned_resetEpoch, State.turned_nullTileCount,
    State.turned_invalidTilePending] at h
  rcases h with ⟨hp, he, hc, hf⟩ | ⟨hp, he⟩
  · exact ⟨hp, he.ge, fun _ => ⟨hc, hf⟩⟩
  · exact ⟨hp, by omega, fun h => absurd h (by omega)⟩

end Sys2Proof.Machine
end


section
/-!
A step runs what is presented: the MOCS word of a request, the word of a register write, or an input without a word. Each is
said once as an equation of `step`; the inputs without a word follow, one by one.
-/

namespace Sys2Proof.Machine

variable {s u t : State} {wk : Walk} {rest : List Input}

/-! ### The step and its check -/

theorem step_eq (hu : s.turned = u) : step s = u.checked (runStep u) := by rw [step, hu]

@[simp] theorem State.checked_fault (f : Fault) : s.checked (.fault f) = .fault f := rfl

@[simp] theorem State.checked_refused (r : Refusal) : s.checked (.refused r) = .refused r := rfl

theorem nextAct_presents {i : Input} (h : u.presents i rest) : u.nextAct = u.inputAct i rest := by
  obtain ⟨hw, hn⟩ := h
  simp only [State.nextAct, hw, hn]

/-- A step with an input presented that carries no word of the table. -/
theorem step_input {i : Input} (hu : s.turned = u) (h : u.presents i rest)
    (ha : u.inputAct i rest = .input i (u.cycleDone rest)) :
    step s = u.checked ((u.cycleDone rest).environment i) := by
  rw [step_eq hu, runStep, nextAct_presents h, ha, runAct]

/-- A step with an input presented that carries a word. -/
theorem step_word {i : Input} {sl : Slot} {w : Word64} (hu : s.turned = u) (h : u.presents i rest)
    (ha : u.inputAct i rest = .word sl w u) : step s = u.checked (exec (decodeWord u.params.haw sl w) u) := by
  rw [step_eq hu, runStep, nextAct_presents h, ha, runAct, runWord]

/-! ### What a reader sees -/

theorem State.visibleByte_congr (hm : t.mem = s.mem) (he : t.resetEpoch = s.resetEpoch) (hh : t.history = s.history)
    (hd : t.draws = s.draws) (ag : Agent) (r : Option Route) (a : Nat) : t.visibleByte ag r a = s.visibleByte ag r a := by
  have hw : t.writesTo a = s.writesTo a := by unfold State.writesTo; rw [hh]
  have ho : t.ownByte ag r a = s.ownByte ag r a := by unfold State.ownByte; rw [hw]
  have hp : t.pastBytes a = s.pastBytes a := by unfold State.pastBytes; rw [hw, State.byte_congr hm he]
  unfold State.visibleByte
  rw [ho, hp, State.byte_congr hm he, hd]

theorem State.visible_congr (hm : t.mem = s.mem) (he : t.resetEpoch = s.resetEpoch) (hh : t.history = s.history)
    (hd : t.draws = s.draws) (ag : Agent) (r : Option Route) (pa n : Nat) : t.visible ag r pa n = s.visible ag r pa n := by
  induction n generalizing pa with
  | zero => rfl
  | succ n ih => simp only [State.visible, State.visibleByte_congr hm he hh hd, ih]

/-! ### The host's loads and stores -/

theorem State.meetsGgtt_iff {pa n : Nat} :
    s.meetsGgtt pa n = true ↔ 1 ≤ n ∧ pa < s.pgtblCtl.toNat + 0x800000 ∧ s.pgtblCtl.toNat < pa + n := by
  simp only [State.meetsGgtt, Bool.and_eq_true, decide_eq_true_eq, and_assoc]

theorem inMemory_iff {size pa n : Nat} : inMemory size pa n = true ↔ pa + n ≤ size := decide_eq_true_iff

theorem State.hostStore_outside {pa n data : Nat} (hin : pa + n ≤ s.memSize) (hg : s.meetsGgtt pa n = false) :
    s.hostStore pa n data = .next (s.store .host pa n data none none) := by
  rw [State.hostStore, if_pos (inMemory_iff.2 hin), hg]; rfl

theorem State.hostStore_ggtt {pa n data : Nat} (hin : pa + n ≤ s.memSize) (hg : s.meetsGgtt pa n = true) :
    s.hostStore pa n data = .refused .ggttBypass := by
  rw [State.hostStore, if_pos (inMemory_iff.2 hin), if_pos hg]

theorem State.hostStore_past {pa n data : Nat} (hout : s.memSize < pa + n) :
    s.hostStore pa n data = .fault (.noSuchAddress pa) := by
  rw [State.hostStore, if_neg (by rw [inMemory_iff]; omega)]

theorem State.hostLoad_inside {pa n : Nat} (hin : pa + n ≤ s.memSize) :
    s.hostLoad pa n =
      .next ((s.noteRead .host pa n (s.visible .host none pa n) none none).hostResult n (s.visible .host none pa n)) := by
  rw [State.hostLoad, if_pos (inMemory_iff.2 hin)]

theorem State.hostLoad_past {pa n : Nat} (hout : s.memSize < pa + n) :
    s.hostLoad pa n = .fault (.noSuchAddress pa) := by
  rw [State.hostLoad, if_neg (by rw [inMemory_iff]; omega)]

theorem State.storedBytes_store {pa n data : Nat} {ag : Agent} {r : Option Route} {l : Option Label}
    (hm : s.memWf = true) (hin : pa + n ≤ s.memSize) : s.storedBytes pa n data (s.store ag pa n data r l) :=
  fun a => s.store_byte ag pa n data a r l hm hin

/-- Settles O14: the input is taken, and the store or the load is the host's. -/
theorem hostLoadsAndStores : Obligations.HostLoadsAndStores := by
  unfold Obligations.HostLoadsAndStores
  intro s u pa n d rest hu
  refine ⟨fun hp hin => ⟨fun hout hwf => ?_, fun h1 h2 h3 => ?_⟩, fun hp hin => ?_, fun hpast hp => ?_⟩
  · have hg : (u.cycleDone rest).meetsGgtt pa n = false := by
      rw [← Bool.not_eq_true, State.meetsGgtt_iff, State.cycleDone_pgtblCtl]
      omega
    refine ⟨(u.cycleDone rest).store .host pa n d none none, ?_,
      State.storedBytes_store (s := u.cycleDone rest) hwf hin, ?_⟩
    · rw [step_input hu hp rfl, State.environment, State.hostStore_outside (s := u.cycleDone rest) hin hg]
    · refine ⟨rfl, ?_⟩
      simp [State.sameRegisters, State.sameEvents, State.sameTurns, hp.1]
  · rw [step_input hu hp rfl, State.environment,
      State.hostStore_ggtt (s := u.cycleDone rest) hin (State.meetsGgtt_iff.2 ⟨h1, h3, h2⟩), State.checked_refused]
  · have hv : (u.cycleDone rest).visible .host none pa n = u.visible .host none pa n :=
      State.visible_congr (s := u) (t := u.cycleDone rest) rfl rfl rfl rfl _ _ _ _
    refine ⟨((u.cycleDone rest).noteRead .host pa n (u.visible .host none pa n) none none).hostResult n
      (u.visible .host none pa n), ?_, ?_⟩
    · rw [step_input hu hp rfl, State.environment, State.hostLoad_inside (s := u.cycleDone rest) hin, hv]
      exact State.checked_of_same (fun _ => rfl) rfl rfl rfl rfl rfl (fun _ _ => rfl)
    · simp [State.sameRegisters, State.sameBytes, State.sameEvents, State.sameTurns, State.byte, hp.1]
  · rcases hp with hp | hp
    · rw [step_input hu hp rfl, State.environment, State.hostStore_past (s := u.cycleDone rest) hpast,
        State.checked_fault]
    · rw [step_input hu hp rfl, State.environment, State.hostLoad_past (s := u.cycleDone rest) hpast,
        State.checked_fault]

/-! ### The registers without a layout, and the descriptor -/

theorem State.not_baseOk {base n : Nat} (h : base % 4096 ≠ 0 ∨ s.memSize < base + n) : ¬ s.baseOk base n = true := by
  rw [State.baseOk_iff]; omega

/-- Settles O48: each register is stored as written, `PGTBL_CTL` where its base is legal (`State.baseOk_iff`). -/
theorem baseRegistersAndPatStore : Obligations.BaseRegistersAndPatStore := by
  unfold Obligations.BaseRegistersAndPatStore
  intro s u w rest i hu
  refine ⟨fun hp => ⟨fun ha hin => ?_, fun hbad => ?_⟩, fun hp => ?_, fun hp => ?_⟩
  · rw [step_input hu hp rfl]
    exact congrArg u.checked (if_pos ((State.baseOk_iff (s := u)).2 ⟨ha, hin⟩))
  · rw [step_input hu hp rfl]
    exact congrArg u.checked (if_neg (State.not_baseOk (s := u) hbad))
  · rw [step_input hu hp rfl]
    exact State.checked_of_same (fun _ => rfl) rfl rfl rfl rfl rfl (fun _ _ => rfl)
  · rw [step_input hu hp rfl]; rfl

/-- Settles O50: a legal base lets the descriptor be stored in its context alone (`State.setCtx_ctx`). -/
theorem describeSetsTheDescriptor : Obligations.DescribeSetsTheDescriptor := by
  unfold Obligations.DescribeSetsTheDescriptor
  intro s u c d rest hu hp
  have hstep := step_input hu hp rfl
  rw [State.environment, State.describe] at hstep
  refine ⟨fun ha hin => ?_, fun hbad => ?_⟩
  · rw [if_pos ((State.baseOk_iff (s := u.cycleDone rest)).2 ⟨ha, hin⟩)] at hstep
    refine ⟨_, hstep, ?_, fun e he => ?_, rfl, ?_⟩
    · rw [State.setCtx_ctx, if_pos rfl]; rfl
    · rw [State.setCtx_ctx, if_neg he]; rfl
    · simp [State.sameOutsideRegisters, State.sameBytes, State.sameEvents, State.sameTurns, State.byte]
  · rw [if_neg (State.not_baseOk (s := u.cycleDone rest) hbad)] at hstep
    exact hstep

/-! ### Reset -/

/-- Nothing has written the TR-TT registers of a context the state does not list (rule R32). -/
theorem Context.unlisted_trtt (epoch c : Nat) :
    (Context.unlisted epoch c).trttL3ptr = 0#64 ∧ (Context.unlisted epoch c).trttNull = 0#32 ∧
      (Context.unlisted epoch c).trttInvalid = 0#32 ∧ (Context.unlisted epoch c).trvadr = 0#32 ∧
      (Context.unlisted epoch c).trtte = 0#32 := by
  unfold Context.unlisted
  split <;> exact ⟨rfl, rfl, rfl, rfl, rfl⟩

/-- Settles O51: nothing is in flight after a device reset, so the check lets it stand. -/
theorem resetDefaults : Obligations.ResetDefaults := by
  unfold Obligations.ResetDefaults
  refine ⟨⟨rfl, fun x => ?_, fun i => ?_, fun c => Context.unlisted_trtt 0 c⟩, fun s u rest hu hp => ?_⟩
  · exact Vector.getElem_replicate x.isLt
  · exact Vector.getElem_replicate i.isLt
  · refine ⟨(u.cycleDone rest).deviceReset, ?_, rfl, rfl, fun x => ?_, fun i => ?_, fun c => ?_, rfl, rfl, rfl⟩
    · rw [step_input hu hp rfl]
      exact State.checked_of_none rfl
    · exact Vector.getElem_replicate x.isLt
    · exact Vector.getElem_replicate i.isLt
    · exact Context.unlisted_trtt (u.resetEpoch + 1) c

end Sys2Proof.Machine
end


section
/-!
The registers. A word made of fields that do not meet is, as a number, the sum of the fields at their places; from that come
what a register write stores, what a register read returns, and what the lookups of a MOCS index find.
-/

namespace Sys2Proof

open Machine

/-! ### A union of fields as a sum -/

theorem toNat_fieldAt {m lo n : Nat} (h : lo + n ≤ m) (x : BitVec n) : (fieldAt m lo x).toNat = x.toNat * 2 ^ lo := by
  have hx : x.toNat * 2 ^ lo < 2 ^ m :=
    calc x.toNat * 2 ^ lo < 2 ^ n * 2 ^ lo := Nat.mul_lt_mul_of_pos_right x.isLt (Nat.two_pow_pos lo)
      _ = 2 ^ (lo + n) := by rw [← Nat.pow_add, Nat.add_comm]
      _ ≤ 2 ^ m := Nat.pow_le_pow_right (by decide) h
  have hn : x.toNat < 2 ^ m := lt_of_le_of_lt (Nat.le_mul_of_pos_right _ (Nat.two_pow_pos lo)) hx
  rw [fieldAt, BitVec.toNat_shiftLeft, BitVec.toNat_setWidth, Nat.mod_eq_of_lt hn, Nat.shiftLeft_eq, Nat.mod_eq_of_lt hx]

theorem fieldAt_and_fieldAt {m lo n lo' n' : Nat} (h : lo + n ≤ lo' ∨ lo' + n' ≤ lo) (x : BitVec n) (y : BitVec n') :
    fieldAt m lo x &&& fieldAt m lo' y = 0#m := by
  apply BitVec.eq_of_getLsbD_eq
  intro k hk
  simp only [BitVec.getLsbD_and, getLsbD_fieldAt, BitVec.getLsbD_zero]
  grind

/-- Two words that share no bit have their union as their sum. -/
theorem toNat_or_of_and_eq_zero {m : Nat} {x y : BitVec m} (h : x &&& y = 0#m) : (x ||| y).toNat = x.toNat + y.toNat := by
  rw [← BitVec.add_eq_or_of_and_eq_zero x y h, BitVec.toNat_add_of_and_eq_zero h]

/-- The ten fields of `GLOB_MOCS_i` at the places of its page (rule R26). -/
theorem LlcWord.toNat_bits (f : LlcWord) : f.bits.toNat =
    f.lecc.toNat + 4 * f.tc.toNat + 16 * f.lrum.toNat + 64 * f.daom.toNat + 128 * f.ersc.toNat + 256 * f.scc.toNat +
      2048 * f.pfm.toNat + 16384 * f.scf.toNat + 32768 * f.cos.toNat + 131072 * f.sse.toNat := by
  simp only [LlcWord.bits, flagAt]
  simp [toNat_or_of_and_eq_zero, BitVec.and_or_distrib_right, fieldAt_and_fieldAt, toNat_fieldAt, -BitVec.toNat_or]
  omega

/-- The two halves of `LNCFCMOCSx`, one above the other (rule R23). -/
theorem toNat_lncfWord (upper lower : BitVec 6) : (lncfWord upper lower).toNat = upper.toNat * 2 ^ 16 + lower.toNat := by
  rw [lncfWord, toNat_or_of_and_eq_zero (fieldAt_and_fieldAt (by decide) _ _), toNat_fieldAt (by decide),
    toNat_fieldAt (by decide), Nat.pow_zero, Nat.mul_one]

/-! ### Reserved bits as numbers -/

/-- A word whose bits outside a field are zero is the field at its place. -/
theorem eq_fieldAt_of_and_eq_zero {m : Nat} (lo n : Nat) {w k : BitVec m} (h : w &&& k = 0#m)
    (hk : k ||| fieldAt m lo (BitVec.allOnes n) = BitVec.allOnes m) : w = fieldAt m lo (w.extractLsb' lo n) := by
  rw [fieldAt_extractLsb']
  calc w = w &&& (k ||| fieldAt m lo (BitVec.allOnes n)) := by rw [hk, BitVec.and_allOnes]
    _ = w &&& fieldAt m lo (BitVec.allOnes n) := by rw [BitVec.and_or_distrib_left, h, BitVec.zero_or]

theorem toNat_lt_of_and_eq_zero {m n : Nat} {w k : BitVec m} (hn : n ≤ m) (h : w &&& k = 0#m)
    (hk : k ||| fieldAt m 0 (BitVec.allOnes n) = BitVec.allOnes m) : w.toNat < 2 ^ n := by
  rw [eq_fieldAt_of_and_eq_zero 0 n h hk, toNat_fieldAt (by omega), Nat.pow_zero, Nat.mul_one]
  exact BitVec.isLt _

/-- An `LNCFCMOCSx` value with its reserved bits zero is its two halves. -/
theorem eq_lncfWord {w : Word32} (h : lncfKept w = w) : w = lncfWord (w.extractLsb' 16 6) (w.extractLsb' 0 6) := by
  rw [lncfWord, fieldAt_extractLsb', fieldAt_extractLsb', ← BitVec.and_or_distrib_left]
  exact h.symm

theorem toNat_lt_of_globKept {w : Word32} (h : globKept w = w) : w.toNat < 2 ^ 19 := by
  rw [← h, globKept, BitVec.toNat_and]
  exact Nat.and_lt_two_pow _ (by decide)

end Sys2Proof

namespace Sys2Proof.Machine

variable {s : State}

/-! ### What the register cycles store -/

/-- Settles O43: each word writes its fields to one context, and a field at its place is the number times a power of 2. -/
theorem trttRegistersStoreTheirFields : Obligations.TrttRegistersStoreTheirFields := by
  unfold Obligations.TrttRegistersStoreTheirFields
  intro s c rest i k h
  have hk : exec i s = .next ((s.setCtx c k).cycleDone rest) := by
    rcases h with ⟨hc, p, rfl, rfl⟩ | ⟨hc, v, rfl, rfl⟩ | ⟨hc, v, rfl, rfl⟩ | ⟨hc, m, d, rfl, rfl⟩ | ⟨hc, l, e, rfl, rfl⟩
    · have hf : fieldAt 64 16 p = BitVec.ofNat 64 (p.toNat * 2 ^ 16) := by
        rw [← toNat_fieldAt (m := 64) (by decide), BitVec.ofNat_toNat, BitVec.setWidth_eq]
      simp only [exec, execTrttL3ptr, hc, hf]
    · simp only [exec, execTrttNull, hc]
    · simp only [exec, execTrttInvalid, hc]
    · have hf : fieldAt 32 4 m ||| fieldAt 32 0 d = BitVec.ofNat 32 (m.toNat * 16 + d.toNat) := by
        apply BitVec.eq_of_toNat_eq
        have := m.isLt
        have := d.isLt
        rw [toNat_or_of_and_eq_zero (fieldAt_and_fieldAt (by decide) _ _), toNat_fieldAt (by decide),
          toNat_fieldAt (by decide), BitVec.toNat_ofNat]
        omega
      simp only [exec, execTrvadr, hc, hf]
    · have hf : flagAt 32 1 l ||| flagAt 32 0 e = BitVec.ofNat 32 ((if l then 2 else 0) + (if e then 1 else 0)) := by
        cases l <;> cases e <;> rfl
      simp only [exec, execTrtte, hc, hf]
  refine ⟨_, hk, ?_, fun d hd => ?_, rfl, ?_⟩
  · exact (s.setCtx_ctx c c k).trans (if_pos rfl)
  · exact (s.setCtx_ctx c d k).trans (if_neg hd)
  · simp [State.sameOutsideRegisters, State.sameBytes, State.sameEvents, State.sameTurns, State.byte]

theorem getLsbD_zero_eq {n : Nat} (i : BitVec n) : i.getLsbD 0 = decide (i.toNat % 2 = 1) := Nat.testBit_zero _

theorem State.bypassDisabled_eq : s.bypassDisabled = decide (s.trBypass.toNat % 2 = 1) := getLsbD_zero_eq _

/-- Settles O44: the refusal tests that the bypass is enabled, which is bit 0 clear. -/
theorem bypassRegisterStoresBit0 : Obligations.BypassRegisterStoresBit0 := by
  unfold Obligations.BypassRegisterStoresBit0
  intro s rest u d hc
  have hb : (!s.bypassDisabled) = decide (s.trBypass.toNat % 2 = 0) := by
    rw [State.bypassDisabled_eq, ← decide_not]
    exact decide_eq_decide.2 Nat.mod_two_ne_one
  have hd : flagAt 32 0 d = if d then 1#32 else 0#32 := by cases d <;> rfl
  refine ⟨fun h => ?_, fun h1 h2 h3 => ?_⟩
  · simp only [exec, execTrBypass, hc, hb, h, Bool.false_eq_true, if_false, hd]
    rfl
  · simp only [exec, execTrBypass, hc, hb, h1, h2, h3, decide_true, Bool.and_true, if_true]

/-- Settles O45: the halves of the register are those of `lncfWrite`. -/
theorem lncfWriteObeysTheMaskBits : Obligations.LncfWriteObeysTheMaskBits := by
  unfold Obligations.LncfWriteObeysTheMaskBits
  intro s x rest um lm up lo hc hk
  refine ⟨lncfWrite s.lncf[x] um up lm lo, by simp only [exec, execLncfcmocs, hc]; rfl, ?_⟩
  have hw := congrArg BitVec.toNat (eq_lncfWord hk)
  rw [toNat_lncfWord] at hw
  have h1 := (s.lncf[x].extractLsb' 16 6).isLt
  have h2 := (s.lncf[x].extractLsb' 0 6).isLt
  have h3 := up.bits.isLt
  have h4 := lo.bits.isLt
  rw [lncfWrite, toNat_lncfWord]
  constructor
  · cases um <;> cases lm <;> simp only [Bool.false_eq_true, if_false, if_true] <;> omega
  · cases um <;> cases lm <;> simp only [Bool.false_eq_true, if_false, if_true] <;> omega

/-- Settles O46: the ten fields do not meet (`LlcWord.toNat_bits`). -/
theorem globWriteStoresTheFields : Obligations.GlobWriteStoresTheFields := by
  unfold Obligations.GlobWriteStoresTheFields
  intro s i rest f hc
  exact ⟨f.bits, by simp only [exec, execGlobMocs, hc]; rfl, f.toNat_bits⟩

/-! ### Where the registers are -/

/-- Settles O47: the branches of `regAtOffset`, one by one. -/
theorem registerOffsets : Obligations.RegisterOffsets := by
  unfold Obligations.RegisterOffsets
  refine ⟨by decide, by decide, rfl, fun o tg h => ?_⟩
  unfold regAtOffset at h
  split at h
  · cases h
  · split at h
    · exact .inl ‹_›
    · split at h
      · right; left; omega
      · split at h
        · right; right; omega
        · cases h

/-! ### What a register read returns -/

/-- The stored bits of `TR_BYPASS` in what a read returns: bit 0 (rule R20). -/
theorem readRegister_bypass : s.readRegister .bypass % 2 = s.trBypass.toNat % 2 ∧ s.readRegister .bypass < 2 ^ 32 := by
  have h1 : s.trBypass &&& 1#32 = fieldAt 32 0 (s.trBypass.extractLsb' 0 1) := (fieldAt_extractLsb' 0 1 _).symm
  refine ⟨?_, BitVec.isLt _⟩
  simp only [State.readRegister, h1]
  rw [toNat_or_of_and_eq_zero (fieldAt_and_fieldAt (by decide) _ _), toNat_fieldAt (by decide), toNat_fieldAt (by decide),
    BitVec.extractLsb'_toNat, Nat.shiftRight_zero]
  omega

/-- The stored bits of `LNCFCMOCSx` in what a read returns: six of each half (rules R23, R24). -/
theorem readRegister_lncf {x : Fin 32} (h : lncfKept s.lncf[x] = s.lncf[x]) :
    s.readRegister (.lncf x) % 2 ^ 15 = s.lncf[x].toNat % 2 ^ 6 ∧
      s.readRegister (.lncf x) / 2 ^ 16 % 2 ^ 15 = s.lncf[x].toNat / 2 ^ 16 % 2 ^ 6 ∧ s.readRegister (.lncf x) < 2 ^ 32 := by
  have hu := (s.lncf[x].extractLsb' 16 6).isLt
  have hl := (s.lncf[x].extractLsb' 0 6).isLt
  have hw := eq_lncfWord h
  generalize s.lncf[x].extractLsb' 16 6 = u at hu hw
  generalize s.lncf[x].extractLsb' 0 6 = l at hl hw
  have hm : lncfWord u l &&& 0x7FFF7FFF#32 = lncfWord u l := by
    rw [lncfWord, BitVec.and_or_distrib_right, fieldAt_and_self u _ (by decide), fieldAt_and_self l _ (by decide)]
  have hr : s.readRegister (.lncf x) = ((Config.freeMaskBits s.draws).getLsbD 1).toNat * 2 ^ 31 +
      ((Config.freeMaskBits s.draws).getLsbD 0).toNat * 2 ^ 15 + u.toNat * 2 ^ 16 + l.toNat := by
    rw [State.readRegister, hw, hm, lncfWord, flagAt, flagAt, ← BitVec.or_assoc]
    simp [toNat_or_of_and_eq_zero, BitVec.and_or_distrib_right, fieldAt_and_fieldAt, toNat_fieldAt, -BitVec.toNat_or]
  have h1 := Bool.toNat_lt ((Config.freeMaskBits s.draws).getLsbD 1)
  have h0 := Bool.toNat_lt ((Config.freeMaskBits s.draws).getLsbD 0)
  rw [hr, hw, toNat_lncfWord]
  refine ⟨?_, ?_, ?_⟩ <;> omega

/-- Settles O49: the cycle of a register read, and what it returns of each register. -/
theorem registerReads : Obligations.RegisterReads := by
  unfold Obligations.RegisterReads
  intro s u a rest hu hp
  have hstep := step_input hu hp rfl
  refine ⟨fun hn => ?_, fun tg ht => ⟨tg.readSize, u.readRegister tg, ?_, ?_, ?_, ?_, ?_, ?_, ?_, ?_, ?_, ?_, ?_, ?_, ?_⟩⟩
  · simp only [State.environment, hn] at hstep
    exact hstep
  · have hr : (u.cycleDone rest).readRegister tg = u.readRegister tg := by cases tg <;> rfl
    simp only [State.environment, ht, hr] at hstep
    exact hstep.trans (State.checked_of_same (fun _ => rfl) rfl rfl rfl rfl rfl (fun _ _ => rfl))
  · rintro c rfl
    refine ⟨rfl, rfl, fun hc => ?_⟩
    have hv := toNat_fieldAt (m := 64) (lo := 16) (by decide) ((u.ctx c).trttL3ptr.extractLsb' 16 32)
    rw [← eq_fieldAt_of_and_eq_zero 16 32 ((u.ctx c).ok_iff.1 (State.ctx_ok hc c)).1 (by decide)] at hv
    have hlt := ((u.ctx c).trttL3ptr.extractLsb' 16 32).isLt
    simp only [State.readRegister, hv]
    omega
  · rintro c rfl; exact ⟨rfl, rfl⟩
  · rintro c rfl; exact ⟨rfl, rfl⟩
  · rintro c rfl
    refine ⟨rfl, rfl, fun hc => ?_⟩
    obtain ⟨-, hk, -, -⟩ := (u.ctx c).ok_iff.1 (State.ctx_ok hc c)
    exact toNat_lt_of_and_eq_zero (by decide) hk (by decide)
  · rintro c rfl
    refine ⟨rfl, rfl, fun hc => ?_⟩
    obtain ⟨-, -, hk, -⟩ := (u.ctx c).ok_iff.1 (State.ctx_ok hc c)
    exact toNat_lt_of_and_eq_zero (by decide) hk (by decide)
  · rintro rfl; exact ⟨rfl, readRegister_bypass⟩
  · rintro x rfl; exact ⟨rfl, fun hr => readRegister_lncf (hr.1 x)⟩
  · rintro i rfl; exact ⟨rfl, rfl, fun hr => toNat_lt_of_globKept (hr.2.1 i)⟩
  · rintro i rfl; exact ⟨rfl, rfl⟩
  · rintro rfl; exact ⟨rfl, rfl⟩
  · rintro rfl; exact ⟨rfl, rfl⟩
  · rintro rfl; exact ⟨rfl, rfl⟩

/-! ### The lookups of a MOCS index -/

theorem lncf_lncfSlot {i : BitVec 6} {x : Fin 32} (h : i.toNat / 2 = x.val) : s.lncf[lncfSlot i] = s.lncf[x] := by
  obtain rfl : lncfSlot i = x := Fin.ext h
  rfl

theorem State.llcControl_eq {i : BitVec 6} {k : Fin 64} (h : i.toNat = k.val) : s.llcControl i = s.glob[k] := by
  obtain rfl : i.toFin = k := Fin.ext h
  rfl

/-- Settles O40: index `i` is in register `i / 2`, in the half its bit 0 names. -/
theorem mocsIndexLookups : Obligations.MocsIndexLookups := by
  unfold Obligations.MocsIndexLookups
  intro s i
  refine ⟨fun x hx => ?_, fun x hx => ?_, fun k hk => ?_, ?_, ?_, ?_, ?_⟩
  · have hodd : i.getLsbD 0 = false := by rw [getLsbD_zero_eq, decide_eq_false_iff_not]; omega
    rw [State.l3Control, hodd, if_neg Bool.false_ne_true, lncf_lncfSlot (x := x) (by omega), BitVec.extractLsb'_toNat,
      Nat.shiftRight_zero]
  · have hodd : i.getLsbD 0 = true := by rw [getLsbD_zero_eq, decide_eq_true_iff]; omega
    have hlt := s.lncf[x].isLt
    rw [State.l3Control, hodd, if_pos rfl, lncf_lncfSlot (x := x) (by omega), BitVec.extractLsb'_toNat,
      Nat.shiftRight_eq_div_pow]
    omega
  · exact State.llcControl_eq hk
  · simp [hdcL1Cacheable]
  · simp [hdcL1Cacheable]
  · simp [hdcL1Cacheable]
  · simp [hdcL1Cacheable]

end Sys2Proof.Machine
end


section
/-!
What a walk uses for its next entry, and the step that runs it: the entry in memory or a copy, what counts as a copy, and the
state after the entry is got.
-/

namespace Sys2Proof.Machine

variable {s u : State} {wk : Walk}

/-! ### The entry used -/

theorem State.choice_le (s : State) (wk : Walk) : s.choice wk ≤ (s.copies wk).length :=
  Nat.le_of_lt_succ (Nat.mod_lt _ (Nat.succ_pos _))

theorem State.entryWord_of_quiet {a : Nat} (h : s.quiet wk a) : s.entryWord wk a = s.memEntry wk.level a := by
  rw [State.entryWord, h]; rfl

/-- Where the entry is read from memory, the word used is the one there. -/
theorem State.entryWord_fromMemory (h : s.fromMemory wk = true) (a : Nat) :
    s.entryWord wk a = s.memEntry wk.level a := by
  rcases Bool.or_eq_true_iff.1 h with he | hc
  · refine State.entryWord_of_quiet ?_
    rw [State.quiet, State.staleWords, List.isEmpty_iff.1 he, List.filter_nil]
  · rw [State.entryWord, of_decide_eq_true hc]
    exact ite_self _

/-- Where it is not, the word used is a copy. -/
theorem State.entryWord_mem_copies (h : s.fromMemory wk = false) (a : Nat) : s.entryWord wk a ∈ s.copies wk := by
  obtain ⟨hne, hc⟩ := Bool.or_eq_false_iff.1 h
  by_cases hq : s.quiet wk a
  · rw [State.entryWord_of_quiet hq]
    obtain ⟨w, hw⟩ := List.exists_mem_of_ne_nil _ (by simpa using hne)
    have heq : w = s.memEntry wk.level a := by simpa using List.filter_eq_nil_iff.1 hq w hw
    exact heq ▸ hw
  · obtain ⟨k, hk⟩ := Nat.exists_eq_succ_of_ne_zero (of_decide_eq_false hc)
    have hlt : k < (s.copies wk).length := by have := s.choice_le wk; omega
    rw [State.entryWord, if_neg (by simpa using hq), hk, List.getD_cons_succ, List.getD_eq_getElem _ _ hlt]
    exact List.getElem_mem hlt

theorem State.heldWord_mem_copies {w : Word64} (h : s.heldWord wk = some w) : w ∈ s.copies wk := by
  unfold State.heldWord at h
  split at h
  · cases h
  · exact List.mem_of_getElem? h

/-! ### Which words are copies -/

theorem levelSize_le (l : Level) : levelSize l ≤ 8 := by cases l <;> decide

theorem State.toNat_memEntry (s : State) (l : Level) (a : Nat) : (s.memEntry l a).toNat = s.readMem a (levelSize l) := by
  have hlt : s.readMem a (levelSize l) < 2 ^ 64 :=
    lt_of_lt_of_le (Memory.readN_lt _ _ _ _) (Nat.pow_le_pow_right (by decide : 0 < 256) (levelSize_le l))
  rw [State.memEntry, BitVec.toNat_ofNat, Nat.mod_eq_of_lt hlt]

theorem entryAddr_pml4 (base : Nat) (va : BitVec 48) : entryAddr .pml4 base va = base + va.toNat / 2 ^ 39 % 512 * 8 := by
  simp only [entryAddr, levelIndex, BitVec.extractLsb'_toNat, Nat.shiftRight_eq_div_pow]
  rfl

theorem Walk.pml4Base_eq (wk : Walk) (a : Nat) : wk.pml4Base a = a - wk.va.toNat / 2 ^ 39 % 512 * 8 := by
  simp only [Walk.pml4Base, levelIndex, BitVec.extractLsb'_toNat, Nat.shiftRight_eq_div_pow]

theorem TlbEntry.serves_iff {e : TlbEntry} : e.serves wk = true ↔
    wk.keyedBy e.key ∨ ∃ a, wk.entry = .memory a ∧ e.place = some a ∧ levelSize e.key.level = levelSize wk.level := by
  rw [Walk.keyedBy_iff, TlbEntry.serves, Bool.or_eq_true, decide_eq_true_iff]
  cases wk.entry <;> simp

theorem State.mem_tlbWords {w : Word64} : w ∈ s.tlbWords wk ↔ ∃ e ∈ s.tlb, e.word = w ∧
    (wk.keyedBy e.key ∨ ∃ a, wk.entry = .memory a ∧ e.place = some a ∧ levelSize e.key.level = levelSize wk.level) := by
  simp only [State.tlbWords, List.mem_map, List.mem_filter, TlbEntry.serves_iff]
  exact exists_congr fun e => by tauto

theorem Pml4Root.serves_iff {p : Pml4Root} : p.serves wk = true ↔
    p.ctx = wk.req.ctx ∨ wk.entry = .memory (p.base + wk.va.toNat / 2 ^ 39 % 512 * 8) := by
  rw [Pml4Root.serves, Bool.or_eq_true, decide_eq_true_iff, decide_eq_true_iff, entryAddr_pml4]

/-- The entry at `a` before the events `later`, byte by byte. -/
theorem State.byteOf_undone (s : State) (later : List MemEvent) (a i : Nat) (hi : i < 8) :
    byteOf (later.foldl (fun x e => e.undo a x) (s.memEntry .pml4 a)).toNat i = s.byteBefore later (a + i) := by
  rw [byteOf_foldl_undo later a _ i hi, State.toNat_memEntry, State.byteBefore, State.readMem,
    byteOf_readN _ _ _ _ _ (show i < levelSize .pml4 from hi)]
  rfl

/-- The words a cached PML4 page may hold: the entry undone by the newest events of the history, back to the first demand of
the page at most. -/
theorem Pml4Root.mem_words {p : Pml4Root} {va : BitVec 48} {w : Word64} : w ∈ p.words s va ↔ p.mayHold s va w := by
  rw [Pml4Root.words, Pml4Root.mayHold, mem_versionsOf, entryAddr_pml4]
  generalize p.base + va.toNat / 2 ^ 39 % 512 * 8 = a
  have hundo : ∀ later, (w = later.foldl (fun x e => e.undo a x) (s.memEntry .pml4 a)) ↔
      ∀ i < 8, BitVec.ofNat 8 (w.toNat / 256 ^ i) = s.byteBefore later (a + i) := fun later =>
    ⟨fun hw i hi => by rw [← s.byteOf_undone later a i hi, ← hw]; rfl,
      fun hb => word_ext _ _ fun i hi => (hb i hi).trans (s.byteOf_undone later a i hi).symm⟩
  constructor
  · rintro ⟨k, hk, hw⟩
    rw [List.length_take] at hk
    rw [List.take_take, Nat.min_eq_left (by omega)] at hw
    refine ⟨s.history.take k, s.history.drop k, (List.take_append_drop _ _).symm, ?_, (hundo _).1 hw⟩
    rw [List.length_drop]
    rcases Nat.eq_zero_or_pos k with rfl | hpos
    · exact .inr (List.take_zero)
    · left; omega
  · rintro ⟨later, earlier, hh, hs, hb⟩
    have hle : later.length ≤ s.history.length - p.since := by
      rw [hh, List.length_append]
      rcases hs with hs | rfl
      · omega
      · exact Nat.zero_le _
    refine ⟨later.length, by rw [List.length_take]; exact le_min hle (by omega), ?_⟩
    rw [List.take_take, Nat.min_eq_left hle, hh, List.take_left]
    exact (hundo later).2 hb

theorem State.mem_pml4Words {w : Word64} : w ∈ s.pml4Words wk ↔ wk.level = .pml4 ∧ ∃ p ∈ s.pml4Roots,
    (p.ctx = wk.req.ctx ∨ wk.entry = .memory (p.base + wk.va.toNat / 2 ^ 39 % 512 * 8)) ∧ p.mayHold s wk.va w := by
  unfold State.pml4Words
  split
  · rename_i hl
    simp only [hl, true_and, List.mem_flatMap, List.mem_filter, Pml4Root.serves_iff, Pml4Root.mem_words, and_assoc]
  · rename_i hl
    simp only [hl, false_and, List.not_mem_nil]

theorem Walk.accessKind_eq_write : wk.accessKind = .write ↔ wk.dest = .target ∧ wk.req.kind = .write := by
  unfold Walk.accessKind
  cases wk.dest <;> simp

theorem raisesFault_iff {w : Word64} : raisesFault wk.level wk.accessKind w = true ↔ wk.faultsOn w := by
  have h0 : w.getLsbD 0 = false ↔ w.toNat % 2 = 0 := by
    rw [getLsbD_zero_eq, decide_eq_false_iff_not]; omega
  have h1 : w.getLsbD 1 = false ↔ w.toNat / 2 % 2 = 0 := by
    rw [BitVec.getLsbD, Nat.testBit_eq_decide_div_mod_eq, decide_eq_false_iff_not, Nat.pow_one]; omega
  simp only [raisesFault, Walk.faultsOn, Bool.and_eq_true, Bool.or_eq_true, Bool.not_eq_true', h0, h1, decide_eq_true_eq,
    Walk.accessKind_eq_write, and_assoc]

/-- The copies of an entry (rules R31, R69, R182, R221). -/
theorem State.mem_copies {w : Word64} :
    w ∈ s.copies wk ↔ s.holdsCopy wk w ∧ ¬ (wk.req.retried = true ∧ wk.faultsOn w) := by
  simp only [State.copies, List.mem_filter, List.mem_append, State.mem_tlbWords, State.mem_pml4Words, Bool.not_eq_true',
    ← raisesFault_iff, ← Bool.and_eq_true, Bool.not_eq_true]

/-- Settles O10: the word used by whether it is read from memory, and the copies by `State.mem_copies`. -/
theorem walkUsesMemoryOrACopy : Obligations.WalkUsesMemoryOrACopy := by
  unfold Obligations.WalkUsesMemoryOrACopy
  intro s wk a
  refine ⟨?_, fun hq => ?_, ?_, fun w => State.mem_copies⟩
  · cases hf : s.fromMemory wk with
    | true => exact .inl (State.entryWord_fromMemory hf a)
    | false => exact .inr (State.entryWord_mem_copies hf a)
  · rw [State.entryWord_of_quiet hq, State.toNat_memEntry]
  · cases hh : s.heldWord wk with
    | none => exact .inl rfl
    | some w => exact .inr ⟨w, State.heldWord_mem_copies hh, rfl⟩

/-! ### The state after the entry is got -/

theorem State.tlbGains_of_tlbAfter {t : State} {w : Word64} {place : Option Nat} (h : t.tlb = s.tlbAfter wk w place) :
    s.tlbGains wk w place t := by
  have hmem : ∀ e, e ∈ t.tlb ↔ e = ⟨wk.key, w, place⟩ ∨ e ∈ s.tlb := fun e => by rw [h]; exact State.mem_tlbAfter w place e
  exact ⟨⟨wk.key, (Walk.keyedBy_iff _).2 rfl, (hmem _).2 (.inl rfl), fun e he => ((hmem e).1 he).symm⟩,
    fun e he => (hmem e).2 (.inr he)⟩

theorem State.pml4Gains_fetched (s : State) (wk : Walk) (a : Nat) : s.pml4Gains wk a (s.fetched wk a) := by
  simp only [State.pml4Gains, State.fetched_pml4Roots, ← Walk.pml4Base_eq]
  rcases State.pml4After_cases (s := s) (wk := wk) a with ⟨hp, he⟩ | ⟨hl, hn, he⟩
  · exact ⟨fun _ => he, fun hl => .inl ⟨hp.resolve_left (fun h => h hl), he⟩⟩
  · exact ⟨fun h => absurd hl h, fun _ => .inr ⟨hn, he⟩⟩

/-- The history after the entry is got: as before with a copy, and with the walker's read of memory otherwise. -/
theorem State.fetched_history_cases (s : State) (wk : Walk) (a : Nat) :
    (s.copies wk = [] → (s.fetched wk a).history ≠ s.history) ∧
      (((s.fetched wk a).history = s.history ∧ s.entryWord wk a ∈ s.copies wk) ∨
        ∃ e, (s.fetched wk a).history = e :: s.history ∧ s.entryWord wk a = s.memEntry wk.level a ∧ e.kind = .read ∧
          e.pa = a ∧ e.n = levelSize wk.level ∧ e.data = (s.entryWord wk a).toNat ∧
          e.agent = (if levelIsTr wk.level then .trWalker else .pageWalker)) := by
  rw [State.fetched_history]
  cases hf : s.fromMemory wk with
  | true =>
    exact ⟨fun _ => List.cons_ne_self _ _,
      .inr ⟨s.entryRead wk a, rfl, State.entryWord_fromMemory hf a, rfl, rfl, rfl, rfl, rfl⟩⟩
  | false =>
    have hmem := State.entryWord_mem_copies hf a
    exact ⟨fun h => absurd (h ▸ hmem) List.not_mem_nil, .inl ⟨rfl, hmem⟩⟩

/-- What the fetch of an entry leaves as it was. -/
theorem State.fetched_frame (s : State) (wk : Walk) (a : Nat) : s.sameTurns (s.fetched wk a) ∧
    s.sameRegisters (s.fetched wk a) ∧ s.sameBytes (s.fetched wk a) ∧ s.sameEvents (s.fetched wk a) := by
  simp [State.sameTurns, State.sameRegisters, State.sameBytes, State.sameEvents, State.byte]

/-- What the use of a copy leaves as it was. -/
theorem State.tookCopy_frame (s : State) (wk : Walk) (w : Word64) : s.sameTurns (s.tookCopy wk w) ∧
    s.sameRegisters (s.tookCopy wk w) ∧ s.sameBytes (s.tookCopy wk w) ∧ s.sameEvents (s.tookCopy wk w) := by
  simp [State.sameTurns, State.sameRegisters, State.sameBytes, State.sameEvents, State.byte]

/-! ### The step of a walk -/

theorem step_walk (hu : s.turned = u) (hw : u.walk = some wk) : step s = u.checked (runAct u (u.walkAct wk)) := by
  rw [step_eq hu, runStep, State.nextAct, hw]

/-- Settles O7: the act of the walk, by where its entry is, and the state after the entry is got. -/
theorem stepRunsWalkEntry : Obligations.StepRunsWalkEntry := by
  unfold Obligations.StepRunsWalkEntry
  intro s u wk hu hw
  have hstep := step_walk hu hw
  refine ⟨fun a hm hout => ?_, fun a i v hm hin hd hv => ?_, fun f hm => ?_⟩
  · rw [State.walkAct, hm] at hstep
    simp only [if_neg (show ¬ inMemory u.memSize a (levelSize wk.level) = true by rw [inMemory_iff]; omega)] at hstep
    exact hstep
  · subst hv
    rw [State.walkAct, hm] at hstep
    simp only [if_pos (inMemory_iff.2 hin), runAct, runWord, State.fetched_params, decodeWord_of_decodesTo hd] at hstep
    obtain ⟨hturns, hregs, hbytes, hevents⟩ := u.fetched_frame wk a
    exact ⟨hstep, rfl, rfl, rfl, rfl, rfl, hturns, hregs, hbytes, hevents, State.tlbGains_of_tlbAfter rfl,
      u.pml4Gains_fetched wk a, u.fetched_history_cases wk a⟩
  · rw [State.walkAct, hm] at hstep
    cases hh : u.heldWord wk with
    | none => simp only [hh] at hstep; exact .inl hstep
    | some w =>
      simp only [hh, runAct, runWord, State.tookCopy_params] at hstep
      obtain ⟨hturns, hregs, hbytes, hevents⟩ := u.tookCopy_frame wk w
      refine .inr ⟨w, State.heldWord_mem_copies hh, fun i hd => ⟨u.tookCopy wk w, ?_, hw, rfl, rfl, rfl, rfl, rfl, hturns,
        hregs, hbytes, hevents, State.tlbGains_of_tlbAfter rfl, rfl⟩⟩
      rw [hstep, decodeWord_of_decodesTo hd]

/-! ### The step of a presented word -/

/-- A MOCS word of seven bits, in its slot (rules R95, R137). -/
theorem decodeWord_mocs (h : Haw) (m : BitVec 7) :
    decodeWord h .mocs (m.setWidth 64) = .mocs (m.extractLsb' 1 6) (m.getLsbD 0) := by
  have hb : ∀ k < 7, (m.setWidth 64).getLsbD k = m.getLsbD k := fun k hk => by
    rw [BitVec.getLsbD_setWidth, decide_eq_true (show k < 64 by omega), Bool.true_and]
  have hx : (m.setWidth 64).extractLsb' 1 6 = m.extractLsb' 1 6 := by
    apply BitVec.eq_of_getLsbD_eq
    intro k hk
    rw [BitVec.getLsbD_extractLsb', BitVec.getLsbD_extractLsb', hb _ (by omega)]
  rw [decodeWord, hx, hb 0 (by decide)]

/-- Settles O8: the act of the input presented, and the word it carries decoded. -/
theorem stepRunsPresentedWord : Obligations.StepRunsPresentedWord := by
  unfold Obligations.StepRunsPresentedWord
  intro s u rest hu hw
  refine ⟨fun r hn ho => ?_, fun r hn ho => ?_, fun a w tg f i hn ha hf hd => ?_⟩
  · have hact : u.inputAct (.request r) rest = .word .mocs (r.mocs.setWidth 64) u := by
      simp only [State.inputAct, Request.mocsWord, if_neg ho]
    rw [step_word hu ⟨hw, hn⟩ hact, decodeWord_mocs]
  · have hact : u.inputAct (.request r) rest = .begin r (u.cycleDone rest) := by
      simp only [State.inputAct, Request.mocsWord, if_pos ho]
    rw [step_eq hu, runStep, nextAct_presents ⟨hw, hn⟩, hact]
    rfl
  · have hact : u.inputAct (.regWrite a w) rest = .word (.register f) w u := by
      simp only [State.inputAct, ha, hf]
    rw [step_word hu ⟨hw, hn⟩ hact, decodeWord_of_decodesTo hd]

end Sys2Proof.Machine
end


section
/-!
Turns, and the check of a step. What the check computes is what `State.Keeps` lists, register by register in the order in
which a walk comes to them.
-/

namespace Sys2Proof.Machine

variable {s t : State} {wk : Walk}

/-! ### Whose turn it is -/

theorem State.switchTo_waiting {e : Engine} {before after : List Walk} (hs : s.waiting = before ++ wk :: after)
    (he : wk.req.engine = e) (hn : ∀ w ∈ before, w.req.engine ≠ e) :
    s.switchTo e = { s with walk := some wk, waiting := s.walk.toList ++ (before ++ after) } := by
  have htake : takeFirst (fun w : Walk => decide (w.req.engine = e)) s.waiting = some (wk, before ++ after) := by
    rw [hs]
    exact takeFirst_append before after (fun w hw => decide_eq_false (hn w hw)) (decide_eq_true he)
  simp only [State.switchTo, htake]

theorem State.switchTo_idle {e : Engine} (hn : ∀ w ∈ s.waiting, w.req.engine ≠ e) : s.switchTo e = s := by
  have htake : takeFirst (fun w : Walk => decide (w.req.engine = e)) s.waiting = none :=
    takeFirst_none _ fun w hw => decide_eq_false (hn w hw)
  simp only [State.switchTo, htake]

theorem State.resumed_idle (h : s.walk ≠ none ∨ s.waiting = []) : s.resumed = s := by
  unfold State.resumed
  split
  · rename_i hw hs
    simp [hw, hs] at h
  · rfl

/-! ### What the check compares -/

theorem Context.trttEnabled_eq (k : Context) : k.trttEnabled = decide (k.trtte.toNat % 2 = 1) := getLsbD_zero_eq _

/-- Bit 0 of two words is the same where the numbers are alike odd. -/
theorem decide_odd_eq {a b : Nat} : decide (a % 2 = 1) = decide (b % 2 = 1) ↔ a % 2 = b % 2 := by
  rw [decide_eq_decide]; omega

theorem extractLsb'_zero_eq_setWidth (va : BitVec 64) : va.extractLsb' 0 48 = va.setWidth 48 := by
  apply BitVec.eq_of_toNat_eq
  simp [BitVec.extractLsb'_toNat]

theorem Context.trttEnabled_congr {k k' : Context} :
    k'.trttEnabled = k.trttEnabled ↔ k'.trtte.toNat % 2 = k.trtte.toNat % 2 := by
  rw [Context.trttEnabled_eq, Context.trttEnabled_eq, decide_odd_eq]

/-- The TR-TT registers in plain terms, as `State.Keeps` lists them. -/
structure State.KeepsTrtt (s t : State) (r : Request) : Prop where
  enabled : (t.ctx r.ctx).trtte.toNat % 2 = (s.ctx r.ctx).trtte.toNat % 2
  window : (s.ctx r.ctx).trtte.toNat % 2 = 1 → ¬ (r.engine = .render ∨ r.engine = .posh) →
    (t.ctx r.ctx).trvadr = (s.ctx r.ctx).trvadr
  bypass : (s.ctx r.ctx).trtte.toNat % 2 = 1 → r.engine = .render ∨ r.engine = .posh →
    t.trBypass.toNat % 2 = s.trBypass.toNat % 2
  active : (s.ctx r.ctx).trtte.toNat % 2 = 1 → r.engine = .render ∨ r.engine = .posh → s.trBypass.toNat % 2 = 1 →
    (t.ctx r.ctx).tablesVirtual = (s.ctx r.ctx).tablesVirtual ∧ (t.ctx r.ctx).trvadr = (s.ctx r.ctx).trvadr
  hit : (s.ctx r.ctx).trtte.toNat % 2 = 1 → r.engine = .render ∨ r.engine = .posh → s.trBypass.toNat % 2 = 1 →
    trvaHit (s.ctx r.ctx).trvadr (r.va.setWidth 48) ≠ some false →
    (t.ctx r.ctx).trttL3ptr = (s.ctx r.ctx).trttL3ptr ∧ (t.ctx r.ctx).trttNull = (s.ctx r.ctx).trttNull ∧
      (t.ctx r.ctx).trttInvalid = (s.ctx r.ctx).trttInvalid ∧
      (t.ctx r.ctx).desc.dualContext = (s.ctx r.ctx).desc.dualContext

/-- The nested test of the TR-TT registers, opened one condition at a time. -/
theorem State.sameTrtt_iff {r : Request} : s.sameTrtt t r = true ↔ s.KeepsTrtt t r := by
  simp only [State.sameTrtt, Bool.and_eq_true, Bool.or_eq_true, Bool.not_eq_true', decide_eq_true_eq,
    Context.trttEnabled_eq, State.bypassDisabled_eq, decide_odd_eq, decide_eq_false_iff_not, extractLsb'_zero_eq_setWidth]
  constructor
  · rintro ⟨he, h⟩
    exact
      { enabled := he
        window := fun hen hother => by simpa [hen, hother] using h
        bypass := fun hen hserved => by simp only [hen, hserved] at h; grind
        active := fun hen hserved hb => by simp only [hen, hserved, hb] at h; grind
        hit := fun hen hserved hb hhit => by simp only [hen, hserved, hb, hhit] at h; grind }
  · rintro ⟨he, hwindow, hbypass, hactive, hhit⟩
    refine ⟨he, or_iff_not_imp_left.2 fun hen => ?_⟩
    rw [not_not] at hen
    split
    · rename_i hserved
      simp only [Bool.and_eq_true, Bool.or_eq_true, Bool.not_eq_true', decide_eq_true_eq, decide_eq_false_iff_not]
      refine ⟨hbypass hen hserved, or_iff_not_imp_left.2 fun hb => ?_⟩
      rw [not_not] at hb
      obtain ⟨hv, hw⟩ := hactive hen hserved hb
      refine ⟨⟨hv, hw⟩, or_iff_not_imp_left.2 fun hmiss => ?_⟩
      obtain ⟨h1, h2, h3, h4⟩ := hhit hen hserved hb hmiss
      exact ⟨⟨⟨h1, h2⟩, h3⟩, h4⟩
    · rename_i hother
      exact decide_eq_true (hwindow hen hother)

theorem State.sameControls_iff {r : Request} {index : Option (BitVec 6)} : s.sameControls t r index = true ↔
    (∀ i, index = some i → t.l3Control i = s.l3Control i ∧ t.llcControl i = s.llcControl i) ∧
      (r.kind = .write → (index ≠ some 61#6 → t.glob[63] = s.glob[63]) ∧ (index = some 61#6 → t.glob[61] = s.glob[61])) := by
  have hkind : r.kind = .read ↔ ¬ r.kind = .write := by cases r.kind <;> simp
  have hevict : t.llcControl (evictionIndex index) = s.llcControl (evictionIndex index) ↔
      (index ≠ some 61#6 → t.glob[63] = s.glob[63]) ∧ (index = some 61#6 → t.glob[61] = s.glob[61]) := by
    have h61 : ∀ u : State, u.llcControl 61#6 = u.glob[61] := fun _ => rfl
    have h63 : ∀ u : State, u.llcControl 63#6 = u.glob[63] := fun _ => rfl
    by_cases hi : index = some 61#6 <;> simp [evictionIndex, hi, h61, h63]
  unfold State.sameControls
  rw [Bool.and_eq_true, Bool.or_eq_true, decide_eq_true_iff, decide_eq_true_iff, hevict, hkind, ← imp_iff_not_or]
  refine and_congr_left' ?_
  cases index <;> simp

theorem State.sameEntries_iff {l : List (Level × Nat)} :
    s.sameEntries t l = true ↔ ∀ k a, (k, a) ∈ l → t.readMem a (levelSize k) = s.readMem a (levelSize k) := by
  simp only [State.sameEntries, List.all_eq_true, decide_eq_true_eq, Prod.forall]

theorem State.mem_consulted {p : Level × Nat} :
    p ∈ s.consulted t wk ↔ p ∈ wk.used ∨ p ∈ s.consultsFrom longestWalk wk ∨ p ∈ t.consultsFrom longestWalk wk := by
  simp only [State.consulted, List.mem_append, or_assoc]

theorem State.sameTranslation_iff {r : Request} : s.sameTranslation t r = true ↔
    (t.ctx r.ctx).desc.pfmode = (s.ctx r.ctx).desc.pfmode ∧
      (r.usedSpace = .global →
        t.pgtblCtl = s.pgtblCtl ∧ (t.ctx r.ctx).trtte.toNat % 2 = (s.ctx r.ctx).trtte.toNat % 2) ∧
      (r.usedSpace = .perProcess →
        (t.ctx r.ctx).desc.kind = (s.ctx r.ctx).desc.kind ∧
          (t.ctx r.ctx).desc.pml4Ptr = (s.ctx r.ctx).desc.pml4Ptr ∧
          (t.ctx r.ctx).desc.neste = (s.ctx r.ctx).desc.neste ∧ t.pat = s.pat ∧ s.KeepsTrtt t r) := by
  cases hu : r.usedSpace <;>
    simp [State.sameTranslation, hu, Context.trttEnabled_congr, State.sameTrtt_iff, and_assoc]

/-- The check, for one waiting request, is `State.Keeps`. -/
theorem State.undisturbed_iff : s.undisturbed t wk = true ↔ s.Keeps t wk := by
  rw [State.undisturbed, State.sameConsulted, Bool.and_eq_true, Bool.and_eq_true, State.sameTranslation_iff,
    State.sameControls_iff, State.sameEntries_iff]
  simp only [State.mem_consulted]
  constructor
  · rintro ⟨⟨⟨hpf, hglobal, hown⟩, hcontrols, hevict⟩, hentries⟩
    have htr : wk.req.usedSpace = .perProcess → s.KeepsTrtt t wk.req := fun hu => (hown hu).2.2.2.2
    exact
      { pfmode := hpf
        base := hglobal
        tables := fun hu => by
          obtain ⟨h1, h2, h3, h4, htr⟩ := hown hu
          exact ⟨h1, h2, h3, h4, htr.enabled⟩
        window := fun hu => (htr hu).window
        bypass := fun hu => (htr hu).bypass
        active := fun hu => (htr hu).active
        hit := fun hu => (htr hu).hit
        controls := hcontrols
        eviction := hevict
        entries := hentries }
  · intro h
    refine ⟨⟨⟨h.pfmode, h.base, fun hu => ?_⟩, h.controls, h.eviction⟩, h.entries⟩
    obtain ⟨h1, h2, h3, h4, h5⟩ := h.tables hu
    exact ⟨h1, h2, h3, h4, ⟨h5, h.window hu, h.bypass hu, h.active hu, h.hit hu⟩⟩

theorem State.checked_of_keeps (h : ∀ wk ∈ t.waiting, s.Keeps t wk) : s.checked (.next t) = .next t :=
  if_pos (List.all_eq_true.2 fun wk hw => State.undisturbed_iff.2 (h wk hw))

theorem State.checked_of_not_keeps (hw : wk ∈ t.waiting) (h : ¬ s.Keeps t wk) : s.checked (.next t) = .refused .inFlight :=
  if_neg fun ha => h (State.undisturbed_iff.1 (List.all_eq_true.1 ha wk hw))

/-- Settles O9: the turns by what is scheduled, and the check by `State.undisturbed_iff`. -/
theorem turnsAndRequestsInFlight : Obligations.TurnsAndRequestsInFlight := by
  unfold Obligations.TurnsAndRequestsInFlight
  refine ⟨fun s hs h => ?_, fun s wk others hs hw hwait => ?_, fun s later hs => ?_,
    fun s e later wk before after hs hwait he hn => ?_, fun s e later hs hn => ?_,
    fun u t => State.checked_of_keeps, fun u t wk => State.checked_of_not_keeps⟩
  · rw [State.turned, hs]; exact State.resumed_idle h
  · simp only [State.turned, hs, State.resumed, hw, hwait]
  · rw [State.turned, hs]; rfl
  · rw [State.turned, hs]
    exact State.switchTo_waiting (s := { s with schedule := later }) hwait he hn
  · rw [State.turned, hs]
    exact State.switchTo_idle (s := { s with schedule := later }) hn

end Sys2Proof.Machine
end

section
/-!
The start of a request (rules R51 to R61, R111 to R131, R153). A MOCS word with a legal page faulting mode begins the request
presented; what `State.beginAccess` then tests is said once, test by test, in the terms of the statements: numbers for the
registers' bits, and the address of the first table entry.
-/

namespace Sys2Proof.Machine

variable {s : State} {wk : Walk} {r : Request} {rest : List Input} {index : Option (BitVec 6)}

/-! ### The MOCS word -/

theorem presented_of_presents (h : s.presents (.request r) rest) : s.presented = some (r, rest) := by
  obtain ⟨hw, hn⟩ := h
  simp only [State.presented, hw, hn]

/-- With a legal page faulting mode at its index the MOCS word of a request begins it (rules R61, R153). -/
theorem exec_mocs_legal (hp : s.presented = some (r, rest)) {i : BitVec 6} {rsv : Bool}
    (hpfm : (LlcWord.ofBits s.glob[i.toFin]).pfm = 0#3) :
    exec (.mocs i rsv) s = (s.cycleDone rest).beginAccess r (some i) := by
  simp only [exec, execMocs, hp, State.llcControl, hpfm, if_true]

theorem exec_mocs_reserved (hp : s.presented = some (r, rest)) {i : BitVec 6} {rsv : Bool}
    (hpfm : (LlcWord.ofBits s.glob[i.toFin]).pfm ≠ 0#3) : exec (.mocs i rsv) s = .refused .reservedPfm := by
  simp only [exec, execMocs, hp, State.llcControl, hpfm, if_false]

/-- With no request presented a MOCS word is out of place (rule R80). -/
theorem exec_mocs_idle (hp : s.presented = none) {i : BitVec 6} {rsv : Bool} :
    exec (.mocs i rsv) s = .refused .outOfPlace := by
  simp only [exec, execMocs, hp]

/-! ### The address of the first entry -/

theorem entryAddr_ggtt (base : Nat) (va : BitVec 48) :
    entryAddr .ggtt base va = base + va.toNat / 2 ^ 12 % 2 ^ 20 * 8 := by
  simp only [entryAddr, levelIndex, BitVec.extractLsb'_toNat, Nat.shiftRight_eq_div_pow]
  rfl

theorem entryAddr_trL3 (base : Nat) (va : BitVec 48) :
    entryAddr .trL3 base va = base + va.toNat / 2 ^ 35 % 512 * 8 := by
  simp only [entryAddr, levelIndex, BitVec.extractLsb'_toNat, Nat.shiftRight_eq_div_pow]
  rfl

theorem toNat_setWidth_va (h : r.va.toNat < 2 ^ 48) : (r.va.setWidth 48).toNat = r.va.toNat := by
  rw [BitVec.toNat_setWidth, Nat.mod_eq_of_lt h]

/-- The address of the TR-TT L3 entry, which does not leave the 48 bits of an address (rules R15, R115). -/
theorem toNat_trEntryAddr_l3 (k : Context) (va : BitVec 48) : (trEntryAddr .l3 k.l3ptr va).toNat =
    k.trttL3ptr.toNat / 2 ^ 16 % 2 ^ 32 * 2 ^ 16 + va.toNat / 2 ^ 35 % 512 * 8 := by
  have hptr : k.l3ptr.toNat = k.trttL3ptr.toNat / 2 ^ 16 % 2 ^ 32 * 2 ^ 16 := by
    rw [Context.l3ptr, toNat_fieldAt (by decide), BitVec.extractLsb'_toNat, Nat.shiftRight_eq_div_pow]
  rw [trEntryAddr, TrStep.level, entryAddr_trL3, hptr, BitVec.toNat_ofNat]
  omega

/-! ### The range of a request -/

theorem Request.newWalk_eq (r : Request) (index : Option (BitVec 6)) :
    r.newWalk index = r.walkAt index .ggtt 0 (r.va.setWidth 48) .target := by
  simp only [Request.newWalk, extractLsb'_zero_eq_setWidth]

theorem Request.addressOk_global (h : r.usedSpace = .global) : r.addressOk = true ↔ r.va.toNat < 2 ^ 32 := by
  rw [Request.addressOk, h]
  exact decide_eq_true_iff

theorem Request.addressOk_own (h : r.usedSpace = .perProcess) : r.addressOk = true ↔ r.va.toNat < 2 ^ 48 := by
  rw [Request.addressOk, h]
  exact decide_eq_true_iff

theorem beginAccess_empty (hn : r.n = 0) : s.beginAccess r index = .refused .emptyRequest := by
  rw [State.beginAccess, if_pos hn]

theorem beginAccess_outOfRange (hn : 1 ≤ r.n) (h : ¬ r.addressOk = true) :
    s.beginAccess r index = .refused .addressRange := by
  rw [State.beginAccess, if_neg (by omega), if_pos (by simpa using h)]

theorem beginAccess_crossing (hn : 1 ≤ r.n) (h : r.addressOk = true) (hc : 4096 < r.va.toNat % 4096 + r.n) :
    s.beginAccess r index = .refused .crossesPage := by
  have hp : ¬ r.pageOk = true := by rw [Request.pageOk, decide_eq_true_iff]; omega
  rw [State.beginAccess, if_neg (by omega), if_neg (by simpa using h), if_pos (by simpa using hp)]

/-- A global request in range is refused with TR-TT enabled, and otherwise translated (rules R111, R173). -/
theorem beginAccess_global (h : r.isGlobal) : s.beginAccess r index =
    if (s.ctx r.ctx).trttEnabled then .refused .trttInGlobal else .next (s.startGgtt (r.newWalk index)) := by
  obtain ⟨hu, hn, hva, hpage⟩ := h
  have ha : r.addressOk = true := (Request.addressOk_global hu).2 hva
  have hp : r.pageOk = true := decide_eq_true hpage
  simp [State.beginAccess, hu, ha, hp, show r.n ≠ 0 by omega]

/-- A per-process request in range goes to the TR-TT stage, in a Legacy PPGTT64 context (rules R61, R201). -/
theorem beginAccess_own (h : r.isOwn) : s.beginAccess r index =
    if (s.ctx r.ctx).desc.kind = .legacyPpgtt64 then s.trttStage (r.newWalk index) else .refused .contextMode := by
  obtain ⟨hu, hn, hva, hpage⟩ := h
  have ha : r.addressOk = true := (Request.addressOk_own hu).2 hva
  have hp : r.pageOk = true := decide_eq_true hpage
  simp [State.beginAccess, hu, ha, hp, show r.n ≠ 0 by omega]

/-! ### The TR-TT stage -/

theorem Context.tablesVirtual_eq (k : Context) : k.tablesVirtual = decide (k.trtte.toNat / 2 % 2 = 1) := by
  rw [Context.tablesVirtual, BitVec.getLsbD, Nat.testBit_eq_decide_div_mod_eq, Nat.pow_one]

/-- The window is hit exactly under the mask that compares all four address bits (rule R113). -/
theorem trvaHit_eq_some_true {m : Word32} {va : BitVec 48} :
    trvaHit m va = some true ↔ m.extractLsb' 4 4 = 15#4 ∧ va.toNat / 2 ^ 44 = m.toNat % 16 := by
  have hdata : va.extractLsb' 44 4 = m.extractLsb' 0 4 ↔ va.toNat / 2 ^ 44 = m.toNat % 16 := by
    have hlt := va.isLt
    rw [← BitVec.toNat_inj, BitVec.extractLsb'_toNat, BitVec.extractLsb'_toNat, Nat.shiftRight_eq_div_pow,
      Nat.shiftRight_zero]
    omega
  unfold trvaHit
  split
  · rename_i h0
    simp [h0]
  · split
    · rename_i h15
      simp [h15, hdata]
    · rename_i h15
      simp [h15]

section stage

variable (hen : (s.ctx r.ctx).trtte.toNat % 2 = 1)

/-- A request the TR-TT does not take goes straight to the page table (rules R111 to R113). -/
theorem trttStage_untiled (h : s.untiled r) :
    s.trttStage (r.newWalk index) = s.startPpgtt (r.newWalk index) (r.va.setWidth 48) .target := by
  rw [Request.newWalk_eq]
  simp only [State.trttStage, Context.trttEnabled_eq, State.bypassDisabled_eq, decide_eq_true_eq, Bool.or_eq_true]
  rcases h with h | ⟨hm, hb⟩ | ⟨hmiss, hplace⟩
  · rw [if_neg (by omega)]
  · rw [if_pos hm, if_neg (show ¬ s.trBypass.toNat % 2 = 1 by omega), ite_self]
  · simp only [hmiss]
    split_ifs with _ hm _ hloc
    · rfl
    · exact absurd (hplace.resolve_left (not_not_intro hm)) hloc
    · rfl
    · rfl
    · rfl

include hen

/-- A request of an engine the TR-TT serves that hits the window of an active TR-TT is walked by it (rules R112, R115). -/
theorem trttStage_tiled (hm : r.mayTile) (hb : s.trBypass.toNat % 2 = 1)
    (hloc : (s.ctx r.ctx).tablesVirtual = true ∨ s.params.trttGpaModeAllowed = true)
    (hhit : trvaHit (s.ctx r.ctx).trvadr (r.va.setWidth 48) = some true) :
    s.trttStage (r.newWalk index) =
      s.trRead (r.newWalk index) .l3 (trEntryAddr .l3 (s.ctx r.ctx).l3ptr (r.va.setWidth 48)) := by
  rw [Request.newWalk_eq]
  simp only [State.trttStage, Context.trttEnabled_eq, State.bypassDisabled_eq, hen, hb, hm, hhit, decide_true, if_true,
    Bool.or_eq_true, hloc]
  rfl

theorem trttStage_served_mask (hm : r.mayTile) (hb : s.trBypass.toNat % 2 = 1)
    (hloc : (s.ctx r.ctx).tablesVirtual = true ∨ s.params.trttGpaModeAllowed = true)
    (hmask : trvaHit (s.ctx r.ctx).trvadr (r.va.setWidth 48) = none) :
    s.trttStage (r.newWalk index) = .refused .trvaMask := by
  rw [Request.newWalk_eq]
  simp only [State.trttStage, Context.trttEnabled_eq, State.bypassDisabled_eq, hen, hb, hm, hmask, decide_true, if_true,
    Bool.or_eq_true, hloc]

theorem trttStage_served_forbidden (hm : r.mayTile) (hb : s.trBypass.toNat % 2 = 1)
    (hv : (s.ctx r.ctx).tablesVirtual = false) (hp : s.params.trttGpaModeAllowed = false) :
    s.trttStage (r.newWalk index) = .refused .gpaModeForbidden := by
  rw [Request.newWalk_eq]
  simp only [State.trttStage, Context.trttEnabled_eq, State.bypassDisabled_eq, hen, hb, hm, hv, hp, decide_true, if_true,
    Bool.or_false, Bool.false_eq_true, if_false]

theorem trttStage_other_hit (hm : ¬ r.mayTile)
    (hhit : trvaHit (s.ctx r.ctx).trvadr (r.va.setWidth 48) = some true) :
    s.trttStage (r.newWalk index) = .refused .trttEngine := by
  rw [Request.newWalk_eq]
  simp only [State.trttStage, Context.trttEnabled_eq, hen, hm, hhit, decide_true, if_true, if_false]

theorem trttStage_other_mask (hm : ¬ r.mayTile)
    (hmask : trvaHit (s.ctx r.ctx).trvadr (r.va.setWidth 48) = none) :
    s.trttStage (r.newWalk index) = .refused .trvaMask := by
  rw [Request.newWalk_eq]
  simp only [State.trttStage, Context.trttEnabled_eq, hen, hm, hmask, decide_true, if_true, if_false]

end stage

/-! ### The first read of each walk -/

/-- The page-table walk begins with the PML4 entry (rules R184, R190). -/
theorem startPpgtt_some {va : BitVec 48} {d : Dest} {base : Nat}
    (hb : s.hostPhys wk.req.ctx (s.ctx wk.req.ctx).desc.pml4Ptr.toNat = some base) :
    s.startPpgtt wk va d = .next (s.withWalk { wk with
      level := .pml4, entry := .memory (base + va.toNat / 2 ^ 39 % 512 * 8), va := va, rw := true, dest := d,
      tableAttrs := none }) := by
  rw [State.startPpgtt, hb, Option.map_some, readNext_some, entryAddr_pml4]

section trRead

variable {st : TrStep} {a : BitVec 48}

/-- With tables in GPA space the table word is read next (rule R124). -/
theorem trRead_gpa {b : Nat} (hv : (s.ctx wk.req.ctx).tablesVirtual = false) (ha : a.toNat < s.memSize)
    (hb : s.hostPhys wk.req.ctx a.toNat = some b) :
    s.trRead wk st a = .next (s.withWalk { wk with
      level := st.level, entry := .memory b, dest := .target, tableAttrs := none }) := by
  rw [State.trRead, hv, if_neg Bool.false_ne_true, if_neg (by omega), hb, State.readTable, readNext_some]

theorem trRead_wide (hv : (s.ctx wk.req.ctx).tablesVirtual = false) (ha : s.memSize ≤ a.toNat) :
    s.trRead wk st a = .refused .tablePointerWide := by
  rw [State.trRead, hv, if_neg Bool.false_ne_true, if_pos ha]

/-- With tables in the virtual address space the table address is walked (rule R124). -/
theorem trRead_virtual (hv : (s.ctx wk.req.ctx).tablesVirtual = true)
    (hmiss : trvaHit (s.ctx wk.req.ctx).trvadr a = some false) : s.trRead wk st a = s.startPpgtt wk a (.table st) := by
  simp only [State.trRead, hv, hmiss, if_true]

theorem trRead_inWindow (hv : (s.ctx wk.req.ctx).tablesVirtual = true)
    (hhit : trvaHit (s.ctx wk.req.ctx).trvadr a = some true) : s.trRead wk st a = .refused .tableInWindow := by
  simp only [State.trRead, hv, hhit, if_true]

end trRead

/-! ### The beginning of a request -/

/-- A global request begins with its Global GTT entry (rule R173). -/
theorem beginAccess_ggtt (h : r.isGlobal) (hdis : (s.ctx r.ctx).trttEnabled = false) : s.beginAccess r index =
    .next (s.withWalk (r.walkAt index .ggtt (s.pgtblCtl.toNat + r.va.toNat / 2 ^ 12 * 8) (r.va.setWidth 48) .target)) := by
  obtain ⟨-, -, hva, -⟩ := id h
  have hentry : entryAddr .ggtt s.pgtblCtl.toNat (r.va.setWidth 48) = s.pgtblCtl.toNat + r.va.toNat / 2 ^ 12 * 8 := by
    rw [entryAddr_ggtt, toNat_setWidth_va (by omega)]
    omega
  rw [beginAccess_global h, hdis, if_neg Bool.false_ne_true, Request.newWalk_eq, State.startGgtt, hentry]

/-- A per-process request the TR-TT does not take begins with its PML4 entry (rule R184). -/
theorem beginAccess_pml4 {base : Nat} (h : r.isOwn) (hk : (s.ctx r.ctx).desc.kind = .legacyPpgtt64) (hu : s.untiled r)
    (hb : s.hostPhys r.ctx (s.ctx r.ctx).desc.pml4Ptr.toNat = some base) : s.beginAccess r index =
      .next (s.withWalk (r.walkAt index .pml4 (base + r.va.toNat / 2 ^ 39 * 8) (r.va.setWidth 48) .target)) := by
  obtain ⟨-, -, hva, -⟩ := id h
  have hidx : (r.va.setWidth 48).toNat / 2 ^ 39 % 512 = r.va.toNat / 2 ^ 39 := by
    rw [toNat_setWidth_va hva]
    omega
  rw [beginAccess_own h, if_pos hk, trttStage_untiled hu, Request.newWalk_eq, startPpgtt_some hb, hidx]

/-- A request of the TR-TT goes on with the word of the TR-TT L3 table at `a` (rule R115). -/
theorem beginAccess_tiled {a : BitVec 48} (h : r.isOwn) (hk : (s.ctx r.ctx).desc.kind = .legacyPpgtt64)
    (hen : (s.ctx r.ctx).trtte.toNat % 2 = 1) (hb : s.trBypass.toNat % 2 = 1) (hm : r.mayTile)
    (hloc : (s.ctx r.ctx).tablesVirtual = true ∨ s.params.trttGpaModeAllowed = true)
    (hhit : trvaHit (s.ctx r.ctx).trvadr (r.va.setWidth 48) = some true)
    (ha : a.toNat = (s.ctx r.ctx).trttL3ptr.toNat / 2 ^ 16 % 2 ^ 32 * 2 ^ 16 + r.va.toNat / 2 ^ 35 % 512 * 8) :
    s.beginAccess r index = s.trRead (r.walkAt index .ggtt 0 (r.va.setWidth 48) .target) .l3 a := by
  obtain ⟨-, -, hva, -⟩ := id h
  have haddr : trEntryAddr .l3 (s.ctx r.ctx).l3ptr (r.va.setWidth 48) = a := by
    apply BitVec.eq_of_toNat_eq
    rw [toNat_trEntryAddr_l3, toNat_setWidth_va hva, ha]
  rw [beginAccess_own h, if_pos hk, trttStage_tiled hen hm hb hloc hhit, haddr, Request.newWalk_eq]

/-- Settles O36: with and without a word the request begins with its Global GTT entry. -/
theorem mocsWordBeginsGlobalRequest : Obligations.MocsWordBeginsGlobalRequest := by
  unfold Obligations.MocsWordBeginsGlobalRequest
  intro s r rest i rsv hp hr hdis
  exact ⟨fun hpfm => (exec_mocs_legal (presented_of_presents hp) hpfm).trans (beginAccess_ggtt hr hdis),
    beginAccess_ggtt (s := s.cycleDone rest) hr hdis⟩

/-- Settles O37: with and without a word the request begins with its PML4 entry. -/
theorem mocsWordBeginsPerProcessRequest : Obligations.MocsWordBeginsPerProcessRequest := by
  unfold Obligations.MocsWordBeginsPerProcessRequest
  intro s r rest i rsv base hp hr hk hb hu
  exact ⟨fun hpfm => (exec_mocs_legal (presented_of_presents hp) hpfm).trans (beginAccess_pml4 hr hk hu hb),
    beginAccess_pml4 (s := s.cycleDone rest) hr hk hu hb⟩

/-- Settles O38: with and without a word the TR-TT L3 entry is read next, or its address is walked. -/
theorem mocsWordBeginsTiledRequest : Obligations.MocsWordBeginsTiledRequest := by
  unfold Obligations.MocsWordBeginsTiledRequest
  intro s r rest i rsv a b hp hr hk hbyp hm hhit ha
  have hpres := presented_of_presents hp
  have htiled (index : Option (BitVec 6)) (he : (s.ctx r.ctx).trtte.toNat % 2 = 1)
      (hloc : (s.ctx r.ctx).tablesVirtual = true ∨ s.params.trttGpaModeAllowed = true) :
      (s.cycleDone rest).beginAccess r index =
        (s.cycleDone rest).trRead (r.walkAt index .ggtt 0 (r.va.setWidth 48) .target) .l3 a :=
    beginAccess_tiled (s := s.cycleDone rest) hr hk he hbyp hm hloc hhit ha
  refine ⟨fun he hallow hlt hb => ?_, fun he hmiss hb => ?_⟩
  · have hv : (s.ctx r.ctx).tablesVirtual = false := by
      rw [Context.tablesVirtual_eq, decide_eq_false_iff_not]; omega
    have hbegin (index : Option (BitVec 6)) :=
      (htiled index (by omega) (.inr hallow)).trans (trRead_gpa (s := s.cycleDone rest) hv hlt hb)
    exact ⟨fun hpfm => (exec_mocs_legal hpres hpfm).trans (hbegin _), hbegin none⟩
  · have hv : (s.ctx r.ctx).tablesVirtual = true := by
      rw [Context.tablesVirtual_eq, decide_eq_true_iff]; omega
    have hbegin (index : Option (BitVec 6)) :=
      ((htiled index (by omega) (.inl hv)).trans (trRead_virtual (s := s.cycleDone rest) hv hmiss)).trans
        (startPpgtt_some (s := s.cycleDone rest) hb)
    exact ⟨fun hpfm => (exec_mocs_legal hpres hpfm).trans (hbegin _), hbegin none⟩

/-- Settles O39: every outcome but the reserved mode is that of `State.beginAccess`, whose tests come in this order. -/
theorem mocsWordRefusals : Obligations.MocsWordRefusals := by
  unfold Obligations.MocsWordRefusals
  intro s r rest i rsv hp
  have hpres := presented_of_presents hp
  refine ⟨exec_mocs_reserved hpres, fun o ho => ?_⟩
  obtain ⟨index, rfl⟩ : ∃ index, o = (s.cycleDone rest).beginAccess r index := by
    rcases ho with ⟨hpfm, rfl⟩ | rfl
    · exact ⟨some i, exec_mocs_legal hpres hpfm⟩
    · exact ⟨none, rfl⟩
  refine ⟨beginAccess_empty, fun hn hu hva => ?_, fun hn hu hva => ?_, fun hn hva hc => ?_, fun hr he => ?_,
    fun hr hk => ?_, fun hr hk he => ?_⟩
  · exact beginAccess_outOfRange hn (by rw [Request.addressOk_global hu]; omega)
  · exact beginAccess_outOfRange hn (by rw [Request.addressOk_own hu]; omega)
  · refine beginAccess_crossing hn ?_ hc
    cases hu : r.usedSpace with
    | global => rw [Request.addressOk_global hu]; simpa [hu] using hva
    | perProcess => rw [Request.addressOk_own hu]; omega
  · rw [beginAccess_global hr, Context.trttEnabled_eq]
    exact if_pos (decide_eq_true he)
  · rw [beginAccess_own hr]
    exact if_neg hk
  · have hen : ((s.cycleDone rest).ctx r.ctx).trtte.toNat % 2 = 1 := he
    rw [beginAccess_own hr, if_pos (show ((s.cycleDone rest).ctx r.ctx).desc.kind = .legacyPpgtt64 from hk)]
    refine ⟨trttStage_other_hit hen, trttStage_other_mask hen, trttStage_served_forbidden hen,
      trttStage_served_mask hen, fun a hm hb hhit ha => ?_⟩
    obtain ⟨-, -, hva, -⟩ := hr
    have haddr : (trEntryAddr .l3 (s.ctx r.ctx).l3ptr (r.va.setWidth 48)).toNat = a := by
      rw [toNat_trEntryAddr_l3, toNat_setWidth_va hva, ha]
    refine ⟨fun hv hallow hwide => ?_, fun hv hwin => ?_⟩
    · rw [trttStage_tiled hen hm hb (.inr hallow) hhit]
      exact trRead_wide (s := s.cycleDone rest) hv (hwide.trans haddr.ge)
    · rw [trttStage_tiled hen hm hb (.inl hv) hhit]
      refine trRead_inWindow (s := s.cycleDone rest) hv (trvaHit_eq_some_true.2 ⟨(trvaHit_eq_some_true.1 hhit).1, ?_⟩)
      exact (congrArg (· / 2 ^ 44) haddr).trans hwin

end Sys2Proof.Machine
end

section
/-!
Null completion (rules R62, R195), and what a word of the four leaf formats does when it is present: it is `State.leaf` at its
output address, with its flags and its memory attributes.
-/

namespace Sys2Proof.Machine

variable {s : State} {wk : Walk}

/-- Settles O26: the completion, the frame of `State.completeNull` for the rest. -/
theorem nullCompletionRule : Obligations.NullCompletionRule := by
  unfold Obligations.NullCompletionRule
  exact fun s r => ⟨s.completeNull_results r, State.byte_congr (s.completeNull_mem r) (s.completeNull_resetEpoch r),
    s.completeNull_history r, s.completeNull_walk r⟩

theorem State.nullCompletion_completeNull (s : State) (r : Request) : s.nullCompletion r (s.completeNull r) := by
  refine ⟨rfl, rfl, rfl, Nat.le_add_right _ _, ?_⟩
  simp [State.sameRegisters, State.sameBytes, State.sameRest, State.sameTurns, State.byte]

theorem atLevel_of_walk {l : Level} {k : Walk → Res} (hw : s.walk = some wk) (hl : wk.level = l) :
    s.atLevel l k = k wk := by
  simp only [State.atLevel, hw, hl, if_true]

/-- A present word of a leaf format, met where its format stands (rules R186, R188, R189, R191). -/
theorem exec_leafWord {i : Instr} {f : LeafFlags} (hw : s.walk = some wk) (hi : i.slot = .entry wk.level)
    (hf : leafFlags i = some f) (hp : f.p = true) :
    ∃ pa attrs, outputAddr i wk.va = some pa.toNat ∧ leafAttrs (Config.freeLargePagePat s.draws) i = some attrs ∧
      exec i s = s.leaf wk pa f.lm f.null f.rw attrs := by
  cases i <;> simp only [leafFlags, Option.some.injEq, reduceCtorEq] at hf
  all_goals
    subst hf
    cases hp
    simp only [Instr.slot, Slot.entry.injEq] at hi
  case pdpe1gb | pde2mb | pte64kb | pte4kb => exact ⟨_, _, rfl, rfl, atLevel_of_walk hw hi.symm⟩

/-- A leaf denies only a write of the request's own, with R/W = 0 on its path (rule R194). -/
theorem Walk.denies_eq_false {rw : Bool} (h : wk.req.kind = .write → (wk.rw && rw) = true) : wk.denies rw = false := by
  rw [Walk.denies, Bool.and_eq_false_iff, decide_eq_false_iff_not, Walk.accessKind_eq_write, Bool.not_eq_false',
    ← imp_iff_not_or]
  exact fun hk => h hk.2

/-- A null leaf under a permitted access of the request's own address completes it null (rule R195). -/
theorem leaf_null {pa : BitVec 46} {lm rw : Bool} {attrs : LeafAttrs} (hd : wk.dest = .target)
    (hden : wk.denies rw = false) : s.leaf wk pa lm true rw attrs = .next (s.completeNull wk.req) := by
  rw [State.leaf, if_pos rfl, hden, Bool.false_and, if_neg Bool.false_ne_true, State.nullLeaf, hd]

/-- Settles O22: the leaf denies nothing, so the null page completes the request. -/
theorem nullLeafCompletesNull : Obligations.NullLeafCompletesNull := by
  unfold Obligations.NullLeafCompletesNull
  intro s wk i f hw hi hf hp hnull hd hrw
  obtain ⟨pa, attrs, -, -, he⟩ := exec_leafWord hw hi hf hp
  rw [hnull, leaf_null hd (Walk.denies_eq_false hrw)] at he
  exact ⟨_, he, s.nullCompletion_completeNull wk.req, rfl⟩

end Sys2Proof.Machine
end

section
/-!
The consistency promises (rule R65). What a reader sees at a byte is the byte in memory where `State.ownByte` holds, and
otherwise one of the values the writes of the history gave it or replaced there.
-/

namespace Sys2Proof.Machine

variable {s u : State} {ag : Agent} {route : Option Route} {pa n a : Nat}

theorem MemEvent.wrote_iff {e : MemEvent} : e.wrote a = true ↔ e.kind = .write ∧ e.pa ≤ a ∧ a < e.pa + e.n := by
  simp only [MemEvent.wrote, Bool.and_eq_true, decide_eq_true_eq, and_assoc]

/-- A value the byte has had was given or replaced by a write of the history. -/
theorem State.mem_pastBytes {b : Byte} (h : b ∈ s.pastBytes a) :
    ∃ e ∈ s.history, e.wrote a = true ∧ (b = e.newByte a ∨ b = e.oldByte a) := by
  simp only [State.pastBytes, State.writesTo, List.mem_filter, List.mem_flatMap, List.mem_cons, List.not_mem_nil,
    or_false] at h
  obtain ⟨⟨e, ⟨he, hw⟩, hb⟩, -⟩ := h
  exact ⟨e, he, hw, hb⟩

/-- What a reader sees at a byte is its value now or one it has had. -/
theorem State.visibleByte_mem : s.visibleByte ag route a ∈ s.byte a :: s.pastBytes a := by
  unfold State.visibleByte
  split
  · exact List.mem_cons_self
  · have hlt : Config.freeVisible s.draws a % ((s.pastBytes a).length + 1) < (s.byte a :: s.pastBytes a).length :=
      Nat.mod_lt _ (Nat.succ_pos _)
    rw [List.getD_eq_getElem _ _ hlt]
    exact List.getElem_mem hlt

theorem State.visibleByte_own (h : s.ownByte ag route a = true) : s.visibleByte ag route a = s.byte a := by
  rw [State.visibleByte, h, Bool.true_or, if_pos rfl]

/-- Where every byte of a range is the reader's own, it sees there what memory holds (rule R65 (b)). -/
theorem State.visible_own (h : ∀ a, pa ≤ a → a < pa + n → s.ownByte ag route a = true) :
    s.visible ag route pa n = s.readMem pa n := by
  induction n generalizing pa with
  | zero => rfl
  | succ n ih =>
    have hrest := ih (pa := pa + 1) fun a h1 h2 => h a (by omega) (by omega)
    rw [State.visible, State.visibleByte_own (h pa (Nat.le_refl _) (by omega)), hrest]
    rfl

theorem State.ownByte_of_unwritten (h : ∀ e ∈ s.history, e.wrote a = false) : s.ownByte ag route a = true := by
  have hnone : s.writesTo a = [] := List.filter_eq_nil_iff.2 fun e he => by rw [h e he]; exact Bool.false_ne_true
  rw [State.ownByte, hnone]

/-- The byte is the reader's own where the newest write to it is the reader's, through the same route. -/
theorem State.ownByte_of_newest {later earlier : List MemEvent} {e : MemEvent} (hh : s.history = later ++ e :: earlier)
    (he : e.wrote a = true) (hl : ∀ l ∈ later, l.wrote a = false) (ha : e.agent = ag) (hr : e.route = route) :
    s.ownByte ag route a = true := by
  have hlater : later.filter (fun l => l.wrote a) = [] :=
    List.filter_eq_nil_iff.2 fun l hm => by rw [hl l hm]; exact Bool.false_ne_true
  have hw : s.writesTo a = e :: earlier.filter (fun l => l.wrote a) := by
    rw [State.writesTo, hh, List.filter_append, hlater, List.nil_append]
    exact List.filter_cons_of_pos he
  simp [State.ownByte, hw, ha, hr]

/-- An access that stores to no byte of a range, in the terms of the statement. -/
theorem MemEvent.not_wrote {e : MemEvent} (h : e.kind = .write → ¬ (e.pa ≤ a ∧ a < e.pa + e.n)) : e.wrote a = false := by
  rw [← Bool.not_eq_true, MemEvent.wrote_iff]
  exact fun hw => h hw.1 hw.2

/-- Memory after a store reads back the value stored, in any state with the same bytes there. -/
theorem State.readMem_stored {data : Nat} {l : Option Label} (hm : s.memWf = true) (hin : pa + n ≤ s.memSize)
    (hb : ∀ a, pa ≤ a → a < pa + n → u.byte a = (s.store ag pa n data route l).byte a) :
    u.readMem pa n = data % 256 ^ n :=
  (Memory.readN_congr _ _ _ _ pa n hb).trans (Memory.readN_writeN s.resetEpoch s.memSize s.mem pa n data hm hin)

/-- Settles O58: (a) by the values a reader can see; (b) and the store's own read-back by whose byte each is. -/
theorem consistencyPromises : Obligations.ConsistencyPromises := by
  unfold Obligations.ConsistencyPromises
  refine ⟨fun s ag route pa => ?_, fun s ag route pa n h => ?_, fun s u ag route pa n data l later hm hin hh hl hb => ?_⟩
  · rcases List.mem_cons.1 (s.visibleByte_mem (ag := ag) (route := route) (a := pa)) with hnow | hpast
    · exact .inl hnow
    · obtain ⟨e, he, hw, hb⟩ := State.mem_pastBytes hpast
      obtain ⟨hk, hlo, hhi⟩ := MemEvent.wrote_iff.1 hw
      exact .inr ⟨e, he, hk, hlo, hhi, hb⟩
  · refine State.visible_own fun a hlo hhi => ?_
    rcases h a hlo hhi with hnone | ⟨later, e, earlier, hh, hk, h1, h2, hag, hroute, hlater⟩
    · exact State.ownByte_of_unwritten fun e he => MemEvent.not_wrote (hnone e he)
    · exact State.ownByte_of_newest hh (MemEvent.wrote_iff.2 ⟨hk, h1, h2⟩)
        (fun l hm => MemEvent.not_wrote (hlater l hm)) hag hroute
  · rw [← State.readMem_stored hm hin hb]
    refine State.visible_own fun a hlo hhi => ?_
    rw [State.store_history] at hh
    refine State.ownByte_of_newest hh (MemEvent.wrote_iff.2 ⟨rfl, hlo, hhi⟩) (fun e he => ?_) rfl rfl
    exact MemEvent.not_wrote fun hk hw => hl e he hk ⟨by omega, by omega⟩

end Sys2Proof.Machine
end

section
/-!
The cache controls change no value (rules R63, R158). `State.blind` forgets them, and every operation of the machine commutes
with it: what an operation consults is the same in the blind state, and what it answers is the same once both answers are
blind. So two states with the same blind state step alike.
-/

namespace Sys2Proof.Machine

variable {s t : State} {wk : Walk}

/-- An outcome whose next state has forgotten the cache controls. -/
def blindRes (o : Res) : Res :=
  match o with
  | .next t => .next t.blind
  | .fault f => .fault f
  | .refused r => .refused r

theorem sameButCaches_iff {o p : Res} : sameButCaches o p ↔ blindRes o = blindRes p := by
  cases o <;> cases p <;> simp [sameButCaches, blindRes]

@[simp] theorem blindRes_next (t : State) : blindRes (.next t) = .next t.blind := rfl

@[simp] theorem blindRes_fault (f : Fault) : blindRes (.fault f) = .fault f := rfl

@[simp] theorem blindRes_refused (r : Refusal) : blindRes (.refused r) = .refused r := rfl

theorem blindRes_next_congr (h : s.blind = t.blind) : blindRes (.next s) = blindRes (.next t) :=
  congrArg Host.Outcome.next h

/-! ### What a blind state still tells -/

section values

variable (s : State)

@[simp] theorem State.blind_params : s.blind.params = s.params := rfl

@[simp] theorem State.blind_pgtblCtl : s.blind.pgtblCtl = s.pgtblCtl := rfl

@[simp] theorem State.blind_renderPowerGating : s.blind.renderPowerGating = s.renderPowerGating := rfl

@[simp] theorem State.blind_tlb : s.blind.tlb = s.tlb := rfl

@[simp] theorem State.blind_pml4Roots : s.blind.pml4Roots = s.pml4Roots := rfl

@[simp] theorem State.blind_halted : s.blind.halted = s.halted := rfl

@[simp] theorem State.blind_walk : s.blind.walk = s.walk := rfl

@[simp] theorem State.blind_waiting : s.blind.waiting = s.waiting := rfl

@[simp] theorem State.blind_schedule : s.blind.schedule = s.schedule := rfl

@[simp] theorem State.blind_draws : s.blind.draws = s.draws := rfl

@[simp] theorem State.blind_history : s.blind.history = s.history.map MemEvent.blind := rfl

@[simp] theorem State.blind_ctx (c : Nat) : s.blind.ctx c = s.ctx c := rfl

@[simp] theorem State.blind_bypassDisabled : s.blind.bypassDisabled = s.bypassDisabled := rfl

@[simp] theorem State.blind_memSize : s.blind.memSize = s.memSize := rfl

@[simp] theorem State.blind_byte (a : Nat) : s.blind.byte a = s.byte a := rfl

@[simp] theorem State.blind_readMem (a n : Nat) : s.blind.readMem a n = s.readMem a n := rfl

@[simp] theorem State.blind_memEntry (l : Level) (a : Nat) : s.blind.memEntry l a = s.memEntry l a := rfl

@[simp] theorem State.blind_hostPhys (c a : Nat) : s.blind.hostPhys c a = s.hostPhys c a := rfl

@[simp] theorem State.blind_baseOk (base n : Nat) : s.blind.baseOk base n = s.baseOk base n := rfl

@[simp] theorem State.blind_meetsGgtt (pa n : Nat) : s.blind.meetsGgtt pa n = s.meetsGgtt pa n := rfl

@[simp] theorem State.blind_nextInput : s.blind.nextInput = s.nextInput := rfl

@[simp] theorem State.blind_regCycle : s.blind.regCycle = s.regCycle := rfl

@[simp] theorem State.blind_presented : s.blind.presented = s.presented := rfl

/-- The writes to a byte are the same, without their labels. -/
theorem State.blind_writesTo (a : Nat) : s.blind.writesTo a = (s.writesTo a).map MemEvent.blind :=
  List.filter_map

/-- Which write was the last, and who made it, is not a matter of labels. -/
@[simp] theorem State.blind_ownByte (ag : Agent) (r : Option Route) (a : Nat) :
    s.blind.ownByte ag r a = s.ownByte ag r a := by
  rw [State.ownByte, State.ownByte, State.blind_writesTo]
  cases s.writesTo a <;> rfl

@[simp] theorem State.blind_pastBytes (a : Nat) : s.blind.pastBytes a = s.pastBytes a := by
  rw [State.pastBytes, State.pastBytes, State.blind_writesTo, List.flatMap_map]
  rfl

@[simp] theorem State.blind_visibleByte (ag : Agent) (r : Option Route) (a : Nat) :
    s.blind.visibleByte ag r a = s.visibleByte ag r a := by
  simp only [State.visibleByte, State.blind_ownByte, State.blind_pastBytes, State.blind_byte, State.blind_draws]

@[simp] theorem State.blind_visible (ag : Agent) (r : Option Route) (pa n : Nat) :
    s.blind.visible ag r pa n = s.visible ag r pa n := by
  induction n generalizing pa with
  | zero => rfl
  | succ n ih => simp only [State.visible, State.blind_visibleByte, ih]

/-- The earlier values of an entry are read off the writes, not their labels. -/
theorem versionsOf_map_blind (es : List MemEvent) (a : Nat) (w : Word64) :
    versionsOf (es.map MemEvent.blind) a w = versionsOf es a w := by
  induction es generalizing w with
  | nil => rfl
  | cons e es ih =>
    have hundo : e.blind.undo a w = e.undo a w := rfl
    have hkind : e.blind.kind = e.kind := rfl
    simp only [List.map_cons, versionsOf, hundo, hkind, ih]

@[simp] theorem Pml4Root.words_blind (p : Pml4Root) (va : BitVec 48) : p.words s.blind va = p.words s va := by
  simp only [Pml4Root.words, State.blind_history, State.blind_readMem, List.length_map, ← List.map_take,
    versionsOf_map_blind]

@[simp] theorem State.blind_copies (wk : Walk) : s.blind.copies wk = s.copies wk := by
  simp only [State.copies, State.tlbWords, State.pml4Words, State.blind_tlb, State.blind_pml4Roots, Pml4Root.words_blind]

@[simp] theorem State.blind_candidates (wk : Walk) : s.blind.candidates wk = s.candidates wk := by
  simp only [State.candidates, State.blind_memEntry, State.blind_copies]

@[simp] theorem State.blind_choice (wk : Walk) : s.blind.choice wk = s.choice wk := by
  simp only [State.choice, State.blind_copies, State.blind_draws]

@[simp] theorem State.blind_fromMemory (wk : Walk) : s.blind.fromMemory wk = s.fromMemory wk := by
  simp only [State.fromMemory, State.blind_copies, State.blind_choice]

@[simp] theorem State.blind_entryWord (wk : Walk) (a : Nat) : s.blind.entryWord wk a = s.entryWord wk a := by
  unfold State.entryWord State.staleWords
  rw [State.blind_copies, State.blind_choice, State.blind_memEntry]

@[simp] theorem State.blind_heldWord (wk : Walk) : s.blind.heldWord wk = s.heldWord wk := by
  simp only [State.heldWord, State.blind_copies, State.blind_choice]

@[simp] theorem State.blind_pml4After (wk : Walk) (a : Nat) : s.blind.pml4After wk a = s.pml4After wk a := by
  simp only [State.pml4After, State.blind_pml4Roots, State.blind_history, List.length_map]

/-- What a read of any register but a cache control returns. -/
theorem State.blind_readRegister {a : RegAddr} {tg : RegTarget} (ha : a.resolve = some tg)
    (h : readsCacheControl (.regRead a) = false) : s.blind.readRegister tg = s.readRegister tg := by
  simp only [readsCacheControl, ha] at h
  cases tg <;> first | rfl | cases h

end values

/-! ### The updates of a state, blind -/

section updates

variable (s : State)

theorem MemEvent.map_blind_blind (l : List MemEvent) :
    (l.map MemEvent.blind).map MemEvent.blind = l.map MemEvent.blind := by
  rw [List.map_map]; rfl

/-- There is nothing more to forget. -/
@[simp] theorem State.blind_blind : s.blind.blind = s.blind := by
  simp only [State.blind, MemEvent.map_blind_blind]

/-- A state with other cache controls, and the same accesses under other labels, is the same blind. -/
theorem State.blind_of_history {h : List MemEvent} (hh : h.map MemEvent.blind = s.history.map MemEvent.blind)
    (l : Vector Word32 32) (g : Vector Word32 64) (p : Vector (BitVec 2) 4) :
    ({ s with lncf := l, glob := g, pat := p, history := h } : State).blind = s.blind := by
  simp only [State.blind, hh]

@[simp] theorem State.withWalk_blind (wk : Walk) : (s.withWalk wk).blind = s.blind.withWalk wk := rfl

@[simp] theorem State.cycleDone_blind (rest : List Input) : (s.cycleDone rest).blind = s.blind.cycleDone rest := rfl

@[simp] theorem State.setCtx_blind (c : Nat) (k : Context) : (s.setCtx c k).blind = s.blind.setCtx c k := rfl

@[simp] theorem State.finish_blind (c : Completion) : (s.finish c).blind = s.blind.finish c := rfl

@[simp] theorem State.completeNull_blind (r : Request) : (s.completeNull r).blind = s.blind.completeNull r := rfl

@[simp] theorem State.completeTile_blind (r : Request) (null inv : Bool) :
    (s.completeTile r null inv).blind = s.blind.completeTile r null inv := rfl

@[simp] theorem State.halt_blind (r : Request) (f : Fault) : (s.halt r f).blind = s.blind.halt r f := rfl

@[simp] theorem State.hostResult_blind (n d : Nat) : (s.hostResult n d).blind = s.blind.hostResult n d := rfl

@[simp] theorem State.retry_blind (h : Halted) (hs : List Halted) : (s.retry h hs).blind = s.blind.retry h hs := rfl

@[simp] theorem State.gatePower_blind : s.gatePower.blind = s.blind.gatePower := rfl

/-- A recorded read forgets its label. -/
@[simp] theorem State.noteRead_blind (ag : Agent) (pa n d : Nat) (r : Option Route) (l : Option Label) :
    (s.noteRead ag pa n d r l).blind = s.blind.noteRead ag pa n d r none := rfl

/-- A store forgets its label. -/
@[simp] theorem State.store_blind (ag : Agent) (pa n d : Nat) (r : Option Route) (l : Option Label) :
    (s.store ag pa n d r l).blind = s.blind.store ag pa n d r none := rfl

/-- What a device reset, a render reset and RC6 leave free, the controls apart, does not depend on the controls. -/
theorem State.deviceReset_blind : s.blind.deviceReset.blind = s.deviceReset.blind := by
  simp only [State.blind, State.deviceReset, MemEvent.map_blind_blind]

theorem State.renderReset_blind (c : Nat) : (s.blind.renderReset c).blind = (s.renderReset c).blind := by
  simp only [State.renderReset, State.setCtx, State.blind_ctx]
  simp only [State.blind, MemEvent.map_blind_blind]

theorem State.rc6_blind (restored : Bool) : (s.blind.rc6 restored).blind = (s.rc6 restored).blind := by
  cases restored with
  | true => exact s.blind_blind
  | false =>
    simp only [State.rc6, Bool.false_eq_true, if_false]
    simp only [State.blind, MemEvent.map_blind_blind]

@[simp] theorem State.tookCopy_blind (wk : Walk) (w : Word64) : (s.tookCopy wk w).blind = s.blind.tookCopy wk w := rfl

theorem State.fetched_blind (wk : Walk) (a : Nat) : (s.blind.fetched wk a).blind = (s.fetched wk a).blind := by
  have he : (s.blind.entryRead wk a).blind = (s.entryRead wk a).blind := by
    simp only [State.entryRead, MemEvent.blind, State.blind_entryWord]
  have hh : (s.blind.fetched wk a).history.map MemEvent.blind = (s.fetched wk a).history.map MemEvent.blind := by
    rw [State.fetched_history, State.fetched_history, State.blind_fromMemory, State.blind_history]
    split <;> simp only [List.map_cons, he, MemEvent.map_blind_blind]
  refine Eq.trans (congrArg State.blind ?_) (State.blind_of_history _ hh State.reset.lncf State.reset.glob State.reset.pat)
  simp only [State.fetched, State.blind_entryWord, State.blind_pml4After]
  rfl

@[simp] theorem State.parked_blind : s.parked.blind = s.blind.parked := rfl

@[simp] theorem State.switchTo_blind (e : Engine) : (s.switchTo e).blind = s.blind.switchTo e := by
  simp only [State.switchTo, State.blind_waiting]
  split <;> rfl

@[simp] theorem State.resumed_blind : s.resumed.blind = s.blind.resumed := by
  simp only [State.resumed, State.blind_walk, State.blind_waiting]
  split <;> rfl

theorem State.turned_blind : s.turned.blind = s.blind.turned := by
  simp only [State.turned, State.blind_schedule]
  split
  · exact s.resumed_blind
  · exact State.parked_blind _
  · exact State.switchTo_blind _ _

end updates

/-! ### The walk of a request, blind -/

theorem raiseFault_blind (r : Request) (f : Fault) : blindRes (s.blind.raiseFault r f) = blindRes (s.raiseFault r f) := by
  unfold State.raiseFault
  rw [State.blind_ctx]
  split
  · rfl
  · simp

theorem accessTarget_blind (pa : Nat) (attrs : Option LeafAttrs) :
    blindRes (s.blind.accessTarget wk pa attrs) = blindRes (s.accessTarget wk pa attrs) := by
  unfold State.accessTarget
  rw [State.blind_memSize]
  split
  · split <;> simp
  · rfl

theorem readNext_blind (w : Walk) (pa : Option Nat) (f : Fault) :
    blindRes (s.blind.readNext w pa f) = blindRes (s.readNext w pa f) := by
  cases pa with
  | some a => simp [State.readNext]
  | none =>
    unfold State.readNext
    simp only []
    rw [State.blind_copies]
    split
    · exact raiseFault_blind _ _
    · simp

theorem startPpgtt_blind (va : BitVec 48) (d : Dest) :
    blindRes (s.blind.startPpgtt wk va d) = blindRes (s.startPpgtt wk va d) := readNext_blind _ _ _

theorem trRead_blind (st : TrStep) (a : BitVec 48) :
    blindRes (s.blind.trRead wk st a) = blindRes (s.trRead wk st a) := by
  unfold State.trRead
  rw [State.blind_ctx, State.blind_memSize]
  split
  · split
    · rfl
    · rfl
    · exact startPpgtt_blind _ _
  · split
    · rfl
    · exact readNext_blind _ _ _

theorem trttStage_blind (wk : Walk) : blindRes (s.blind.trttStage wk) = blindRes (s.trttStage wk) := by
  have hwalk := startPpgtt_blind (s := s) (wk := wk) wk.va .target
  unfold State.trttStage
  rw [State.blind_ctx, State.blind_bypassDisabled, State.blind_params]
  split
  · split
    · split
      · split
        · split
          · rfl
          · exact trRead_blind _ _
          · exact hwalk
        · rfl
      · exact hwalk
    · split
      · rfl
      · rfl
      · exact hwalk
  · exact hwalk

theorem beginAccess_blind (r : Request) (index : Option (BitVec 6)) :
    blindRes (s.blind.beginAccess r index) = blindRes (s.beginAccess r index) := by
  unfold State.beginAccess
  rw [State.blind_ctx]
  split
  · rfl
  split
  · rfl
  split
  · rfl
  split
  · split
    · rfl
    · simp [State.startGgtt]
  · split
    · exact trttStage_blind _
    · rfl

theorem arrive_blind (pa : Option Nat) (attrs : LeafAttrs) :
    blindRes (s.blind.arrive wk pa attrs) = blindRes (s.arrive wk pa attrs) := by
  unfold State.arrive
  split
  · exact accessTarget_blind _ _
  · exact raiseFault_blind _ _
  · exact readNext_blind _ _ _

theorem nullLeaf_blind : blindRes (s.blind.nullLeaf wk) = blindRes (s.nullLeaf wk) := by
  unfold State.nullLeaf
  split <;> simp

theorem leaf_blind (pa : BitVec 46) (lm null rw : Bool) (attrs : LeafAttrs) :
    blindRes (s.blind.leaf wk pa lm null rw attrs) = blindRes (s.leaf wk pa lm null rw attrs) := by
  unfold State.leaf
  rw [State.blind_draws, State.blind_params]
  split
  · split
    · exact raiseFault_blind _ _
    · exact nullLeaf_blind
  · split
    · exact raiseFault_blind _ _
    · split
      · rfl
      · exact arrive_blind _ _

theorem trPointer_blind (addr : BitVec 36) (null inv : Bool) (st : TrStep) :
    blindRes (s.blind.trPointer wk addr null inv st) = blindRes (s.trPointer wk addr null inv st) := by
  unfold State.trPointer
  rw [State.blind_ctx]
  split
  · rfl
  · split
    · simp
    · exact trRead_blind _ _

/-! ### The words, blind -/

/-- A meaning that runs at a level, whose run is the same in the blind state. -/
theorem atLevel_blind (l : Level) {k k' : Walk → Res} (h : ∀ wk, blindRes (k wk) = blindRes (k' wk)) :
    blindRes (s.blind.atLevel l k) = blindRes (s.atLevel l k') := by
  unfold State.atLevel
  rw [State.blind_walk]
  split
  · split
    · exact h _
    · rfl
  · rfl

/-- A page-table entry: what a present one does, or `State.notPresent`. -/
theorem ite_notPresent_blind (p : Bool) {o o' : Res} (h : blindRes o = blindRes o') :
    blindRes (if p then o else s.blind.notPresent wk) = blindRes (if p then o' else s.notPresent wk) := by
  cases p with
  | true => exact h
  | false => exact raiseFault_blind _ _

theorem exec_entry_blind {i : Instr} {l : Level} (hi : i.slot = .entry l) :
    blindRes (exec i s.blind) = blindRes (exec i s) := by
  cases i <;> simp only [Instr.slot, reduceCtorEq] at hi
  case ggttPte addr fn p =>
    refine atLevel_blind _ fun wk => ?_
    cases p
    · exact raiseFault_blind _ _
    · exact accessTarget_blind _ _
  case trttL3e | trttL2e => exact atLevel_blind _ fun wk => trPointer_blind _ _ _ _
  case trttL1e addr =>
    refine atLevel_blind _ fun wk => ?_
    rw [State.blind_ctx]
    split
    · rfl
    · split
      · simp
      · exact startPpgtt_blind _ _
  case pml4e | pdpePd | pdePt => exact atLevel_blind _ fun wk => ite_notPresent_blind _ (readNext_blind _ _ _)
  case pdpe1gb | pde2mb | pte64kb | pte4kb =>
    exact atLevel_blind _ fun wk => ite_notPresent_blind _ (leaf_blind _ _ _ _ _)

theorem runWord_entry_blind (l : Level) (w : Word64) :
    blindRes (runWord (.entry l) w s.blind) = blindRes (runWord (.entry l) w s) :=
  exec_entry_blind (decodeWord_slot s.params.haw (.entry l) w)

/-- Of two states that differ in the cache controls alone an entry word makes outcomes that do so. -/
theorem runWord_entry_congr (h : s.blind = t.blind) (l : Level) (w : Word64) :
    blindRes (runWord (.entry l) w s) = blindRes (runWord (.entry l) w t) := by
  rw [← runWord_entry_blind, h, runWord_entry_blind]

theorem State.blind_pfmLegal (s : State) : s.blind.pfmLegal := fun i => by
  have hg : s.blind.glob[i] = 0x00000033#32 := Vector.getElem_replicate i.isLt
  rw [hg]
  decide

theorem exec_mocs_blind (h : s.pfmLegal) (index : BitVec 6) (rsv : Bool) :
    blindRes (exec (.mocs index rsv) s.blind) = blindRes (exec (.mocs index rsv) s) := by
  cases hp : s.presented with
  | none => rw [exec_mocs_idle hp, exec_mocs_idle (s := s.blind) hp]
  | some p =>
    rw [exec_mocs_legal hp (h _), exec_mocs_legal (s := s.blind) hp (s.blind_pfmLegal _)]
    exact beginAccess_blind (s := s.cycleDone _) _ _

/-- A write of a register of the two MOCS tables is forgotten. -/
theorem cycleDone_controls_blind (l l' : Vector Word32 32) (g g' : Vector Word32 64) (p p' : Vector (BitVec 2) 4)
    (rest : List Input) :
    blindRes (.next ({ s.blind with lncf := l, glob := g, pat := p }.cycleDone rest)) =
      blindRes (.next ({ s with lncf := l', glob := g', pat := p' }.cycleDone rest)) := by
  simp only [blindRes_next, State.blind, State.cycleDone, MemEvent.map_blind_blind]

theorem exec_register_blind {i : Instr} {r : RegFormat} (hi : i.slot = .register r) :
    blindRes (exec i s.blind) = blindRes (exec i s) := by
  cases i <;> simp only [Instr.slot, reduceCtorEq] at hi
  case trttL3ptr | trttNull | trttInvalid | trvadr | trtte =>
    simp only [exec, execTrttL3ptr, execTrttNull, execTrttInvalid, execTrvadr, execTrtte, State.blind_regCycle]
    split <;> simp
  case trBypass u d =>
    rw [exec, exec, execTrBypass, execTrBypass, State.blind_regCycle, State.blind_renderPowerGating,
      State.blind_bypassDisabled]
    split
    · split
      · rfl
      · exact cycleDone_controls_blind (s := { s with trBypass := flagAt 32 0 d }) _ _ _ _ _ _ _
    · rfl
  case lncfcmocs um u lm l =>
    rw [exec, exec, execLncfcmocs, execLncfcmocs, State.blind_regCycle]
    split
    · exact cycleDone_controls_blind _ _ _ _ _ _ _
    · rfl
  case globMocs f =>
    rw [exec, exec, execGlobMocs, execGlobMocs, State.blind_regCycle]
    split
    · exact cycleDone_controls_blind _ _ _ _ _ _ _
    · rfl

theorem runWord_blind (h : s.pfmLegal) (sl : Slot) (w : Word64) :
    blindRes (runWord sl w s.blind) = blindRes (runWord sl w s) := by
  have hslot := decodeWord_slot s.params.haw sl w
  cases sl with
  | entry l => exact exec_entry_blind hslot
  | mocs => exact exec_mocs_blind h _ _
  | register r => exact exec_register_blind hslot

/-! ### The inputs without a word, blind -/

theorem writeOther_blind (tg : RegTarget) (w : Word64) :
    blindRes (s.blind.writeOther tg w) = blindRes (s.writeOther tg w) := by
  cases tg with
  | pgtblCtl =>
    simp only [State.writeOther]
    rw [State.blind_baseOk]
    split
    · exact blindRes_next_congr (State.blind_blind { s with pgtblCtl := w })
    · rfl
  | pgtblCtl2 => exact blindRes_next_congr (State.blind_blind { s with pgtblCtl2 := w })
  | pat i => exact blindRes_next_congr (State.blind_blind s)
  | _ => rfl

theorem environment_blind {i : Input} (h : readsCacheControl i = false) :
    blindRes (s.blind.environment i) = blindRes (s.environment i) := by
  cases i with
  | request r => rfl
  | regWrite a w =>
    simp only [State.environment]
    split
    · exact writeOther_blind _ _
    · rfl
  | regRead a =>
    simp only [State.environment]
    split
    · rename_i tg ha
      rw [State.blind_readRegister s ha h]
      simp
    · rfl
  | ggttUpdate p idx v =>
    simp only [State.environment, State.ggttUpdate]
    rw [State.blind_pgtblCtl, State.blind_memSize]
    split <;> simp
  | hostWrite pa n data =>
    simp only [State.environment, State.hostStore]
    rw [State.blind_memSize, State.blind_meetsGgtt]
    split
    · split <;> simp
    · rfl
  | hostRead pa n =>
    simp only [State.environment, State.hostLoad]
    rw [State.blind_memSize]
    split <;> simp
  | describe c d =>
    simp only [State.environment, State.describe]
    rw [State.blind_baseOk, State.blind_ctx]
    split <;> simp
  | faultResponse e ok =>
    simp only [State.environment, State.respond]
    rw [State.blind_halted]
    split
    · rfl
    · split <;> simp
  | deviceReset => exact blindRes_next_congr s.deviceReset_blind
  | renderReset c => exact blindRes_next_congr (s.renderReset_blind c)
  | rc6 restored => exact blindRes_next_congr (s.rc6_blind restored)
  | renderPowerGating => simp [State.environment]

/-! ### A step without its check, blind -/

theorem walkAct_blind : blindRes (runAct s.blind (s.blind.walkAct wk)) = blindRes (runAct s (s.walkAct wk)) := by
  simp only [State.walkAct]
  split
  · rename_i a hm
    rw [State.blind_memSize]
    split
    · rw [State.blind_entryWord]
      exact runWord_entry_congr (s.fetched_blind wk a) _ _
    · rfl
  · rw [State.blind_heldWord]
    split
    · exact runWord_entry_blind (s := s.tookCopy wk _) _ _
    · exact raiseFault_blind _ _

theorem inputAct_blind (hpfm : s.pfmLegal) {i : Input} (h : readsCacheControl i = false) (rest : List Input) :
    blindRes (runAct s.blind (s.blind.inputAct i rest)) = blindRes (runAct s (s.inputAct i rest)) := by
  have henv := environment_blind (s := s.cycleDone rest) h
  cases i with
  | request r =>
    simp only [State.inputAct]
    split
    · exact runWord_blind hpfm _ _
    · exact beginAccess_blind (s := s.cycleDone rest) _ _
  | regWrite a w =>
    simp only [State.inputAct]
    split
    · rfl
    · split
      · exact runWord_blind hpfm _ _
      · exact henv
  | _ => exact henv

/-- The next act of a blind state, if it is not a read of a cache control. -/
theorem runStep_blind (hpfm : s.pfmLegal)
    (h : s.walk = none → ∀ i rest, s.nextInput = some (i, rest) → readsCacheControl i = false) :
    blindRes (runStep s.blind) = blindRes (runStep s) := by
  simp only [runStep, State.nextAct, State.blind_walk, State.blind_nextInput]
  split
  · exact walkAct_blind
  · rename_i hw
    split
    · rename_i i rest hn
      exact inputAct_blind hpfm (h hw i rest hn) rest
    · simp [runAct]

/-! ### The check of a step, blind -/

/-- The walk after an entry word does not depend on the cache controls. -/
theorem walkAfter_blind (w : Word64) : s.blind.walkAfter wk w = s.walkAfter wk w := by
  have h := runWord_entry_blind (s := s.withWalk wk) wk.level w
  rw [State.withWalk_blind] at h
  rw [State.walkAfter, State.walkAfter]
  generalize runWord (.entry wk.level) w (s.blind.withWalk wk) = o at h ⊢
  generalize runWord (.entry wk.level) w (s.withWalk wk) = p at h ⊢
  cases o with
  | next v =>
    cases p with
    | next t =>
      rw [blindRes_next, blindRes_next, Host.Outcome.next.injEq] at h
      have hwalk : v.blind.walk = t.blind.walk := congrArg State.walk h
      exact hwalk
    | _ => cases h
  | fault f =>
    cases p with
    | next t => cases h
    | _ => rfl
  | refused q =>
    cases p with
    | next t => cases h
    | _ => rfl

theorem consultsFrom_blind (n : Nat) (wk : Walk) : s.blind.consultsFrom n wk = s.consultsFrom n wk := by
  induction n generalizing wk with
  | zero => rfl
  | succ n ih => simp only [State.consultsFrom, State.blind_candidates, walkAfter_blind, ih]

/-- The cache controls are the same in two states. -/
abbrev State.sameCacheControls (s t : State) : Prop := t.lncf = s.lncf ∧ t.glob = s.glob ∧ t.pat = s.pat

/-- Where a step leaves the cache controls as they are, the check of a request in flight looks at nothing blindness forgets. -/
theorem undisturbed_blind (h : s.sameCacheControls t) : s.blind.undisturbed t.blind wk = s.undisturbed t wk := by
  obtain ⟨hl, hg, hp⟩ := h
  have hpat : decide (t.blind.pat = s.blind.pat) = decide (t.pat = s.pat) :=
    (decide_eq_true rfl).trans (decide_eq_true hp).symm
  have htr : s.blind.sameTranslation t.blind wk.req = s.sameTranslation t wk.req := by
    unfold State.sameTranslation
    rw [hpat]
    rfl
  have hentries : s.blind.sameEntries t.blind (s.blind.consulted t.blind wk) = s.sameEntries t (s.consulted t wk) := by
    simp only [State.consulted, consultsFrom_blind]
    rfl
  rw [State.undisturbed, State.undisturbed, State.sameConsulted, State.sameConsulted, htr, hentries,
    State.sameControls_of_eq hl hg, State.sameControls_of_eq (s := s.blind) (t := t.blind) rfl rfl]

/-- The check of an outcome that leaves the cache controls as they are, or leaves no request to check. -/
theorem checked_blind {o : Res} (h : ∀ t, o = .next t → t.waiting = [] ∨ s.sameCacheControls t) :
    blindRes (s.checked o) = s.blind.checked (blindRes o) := by
  cases o with
  | next t =>
    rcases h t rfl with hw | hc
    · rw [State.checked_of_none hw, blindRes_next, State.checked_of_none (t := t.blind) hw]
    · simp only [State.checked, blindRes_next, undisturbed_blind hc, State.blind_waiting]
      split <;> rfl
  | fault f => rfl
  | refused r => rfl

/-! ### Which steps leave the cache controls as they are -/

theorem Effect.sameCacheControls (h : Effect s wk t) : s.sameCacheControls t := by
  obtain ⟨-, -, -, -, -, hl, hg, hp, -, -⟩ := h.sameRegisters
  exact ⟨hl, hg, hp⟩

theorem RegEffect.sameCacheControls {a : RegAddr} {w : Word64} {tg : RegTarget} {rest : List Input}
    (h : RegEffect s rest tg t) (ha : a.resolve = some tg) (hwrite : writesCacheControl (.regWrite a w) = false) :
    s.sameCacheControls t := by
  cases h with
  | lncf x um lm u l => simp [writesCacheControl, ha] at hwrite
  | glob i f => simp [writesCacheControl, ha] at hwrite
  | _ => exact ⟨rfl, rfl, rfl⟩

theorem RegEffect.waiting {tg : RegTarget} {rest : List Input} (h : RegEffect s rest tg t) : t.waiting = s.waiting := by
  cases h <;> rfl

/-- An input without a word puts no request in flight. -/
theorem EnvEffect.waiting_nil (h : EnvEffect s t) (hw : s.waiting = []) : t.waiting = [] := by
  cases h with
  | deviceReset => rfl
  | renderReset c => rw [State.renderReset_waiting]; exact hw
  | rc6 b => rw [State.rc6_waiting]; exact hw
  | _ => exact hw

/-- A write of a register without a layout leaves the cache controls as they are, if it is not of the PAT. -/
theorem writeOther_sameCacheControls {a : RegAddr} {w : Word64} {tg : RegTarget} (ha : a.resolve = some tg)
    (hwrite : writesCacheControl (.regWrite a w) = false) (h : s.writeOther tg w = .next t) : s.sameCacheControls t := by
  cases tg with
  | pgtblCtl =>
    simp only [State.writeOther] at h
    split at h
    · cases h; exact ⟨rfl, rfl, rfl⟩
    · cases h
  | pgtblCtl2 => cases h; exact ⟨rfl, rfl, rfl⟩
  | pat i => simp [writesCacheControl, ha] at hwrite
  | _ => cases h

/-- An input that is no write of a cache control leaves them as they are, unless it ends every request in flight. -/
theorem environment_sameCacheControls {i : Input} (hwrite : writesCacheControl i = false)
    (h : s.environment i = .next t) : t.waiting = [] ∨ s.sameCacheControls t := by
  have kept : s.sameCacheControls s := ⟨rfl, rfl, rfl⟩
  cases i with
  | request r => cases h
  | regWrite a w =>
    simp only [State.environment] at h
    split at h
    · exact .inr (writeOther_sameCacheControls ‹_› hwrite h)
    · cases h
  | regRead a =>
    simp only [State.environment] at h
    split at h <;> cases h
    exact .inr kept
  | ggttUpdate p idx v =>
    simp only [State.environment, State.ggttUpdate] at h
    split at h <;> cases h
    exact .inr kept
  | hostWrite pa n data =>
    simp only [State.environment, State.hostStore] at h
    split at h
    · split at h <;> cases h
      exact .inr kept
    · cases h
  | hostRead pa n =>
    simp only [State.environment, State.hostLoad] at h
    split at h <;> cases h
    exact .inr kept
  | describe c d =>
    simp only [State.environment, State.describe] at h
    split at h <;> cases h
    exact .inr kept
  | faultResponse e ok =>
    simp only [State.environment, State.respond] at h
    split at h
    · cases h
    · split at h <;> cases h
      exact .inr kept
  | deviceReset => cases h; exact .inl rfl
  | renderReset c => cases hwrite
  | rc6 restored =>
    have hr : restored = true := by simpa [writesCacheControl] using hwrite
    subst hr
    cases h
    exact .inr kept
  | renderPowerGating => cases h; exact .inr kept

/-- A step for the outside world reads no cache control, and writes none while a request is in flight. -/
def State.controlsUntouched (s : State) : Prop :=
  s.walk = none → ∀ i rest, s.nextInput = some (i, rest) →
    readsCacheControl i = false ∧ (s.waiting ≠ [] → writesCacheControl i = false)

theorem State.controlsUntouched_blind : s.blind.controlsUntouched ↔ s.controlsUntouched := Iff.rfl

/-- What a step leaves for its check: no request in flight, or the cache controls as they were. -/
theorem runStep_sameCacheControls (hc : s.controlsUntouched) (h : runStep s = .next t) :
    t.waiting = [] ∨ s.sameCacheControls t := by
  cases runStep_next h with
  | idle => exact .inr ⟨rfl, rfl, rfl⟩
  | entry wk a i t hw hm hin hd he hE => exact .inr hE.sameCacheControls
  | copy wk f w i t hw hm hh hd he hE => exact .inr hE.sameCacheControls
  | lost wk f hw hm => exact .inr ⟨rfl, rfl, rfl⟩
  | request r rest index t hw hn hb hE => exact .inr hE.sameCacheControls
  | register a w tg rest t hw hn ha hE =>
    by_cases hwait : s.waiting = []
    · exact .inl (hE.waiting.trans hwait)
    · exact .inr (hE.sameCacheControls ha ((hc hw _ rest hn).2 hwait))
  | input i rest t hw hn he hE =>
    by_cases hwait : s.waiting = []
    · exact .inl (hE.waiting_nil hwait)
    · exact environment_sameCacheControls (s := s.cycleDone rest) ((hc hw i rest hn).2 hwait) he

/-- A step, blind: the blind state's act under the blind state's check. -/
theorem step_blind (hpfm : s.pfmLegal) (hc : s.turned.controlsUntouched) :
    blindRes (step s) = s.turned.blind.checked (blindRes (runStep s.turned.blind)) := by
  have hpfm' : s.turned.pfmLegal := fun i => by rw [State.turned_glob]; exact hpfm i
  rw [step, checked_blind fun t => runStep_sameCacheControls hc,
    runStep_blind hpfm' fun hw i rest hn => (hc hw i rest hn).1]

/-- Settles O42: a step, blind, is the step of the blind state (`step_blind`), which the two states share. -/
theorem cacheControlsChangeNoValue : Obligations.CacheControlsChangeNoValue := by
  unfold Obligations.CacheControlsChangeNoValue
  intro s u hsu hs hu hc
  have hturned : s.turned.blind = u.turned.blind := by rw [State.turned_blind, State.turned_blind, hsu]
  have hcu : u.turned.controlsUntouched := by
    rw [← State.controlsUntouched_blind, ← hturned, State.controlsUntouched_blind]
    exact hc
  rw [sameButCaches_iff, step_blind hs hc, step_blind hu hcu, hturned]

end Sys2Proof.Machine
end

section
/-!
The decoder and the ignored bits (rules R81, R198), and the address arithmetic of the entries as plain numbers (rules R96,
R97).
-/

namespace Sys2Proof

open Machine

/-! ### The ignored bits -/

/-- Every word of a slot as wide as a machine word decodes: none is rejected (rule R98). -/
theorem decode_of_bits_eq {sl : Slot} (hs : sl.bits = 64) (h : Haw) (w : Word64) :
    decode h sl w = .ok (decodeWord h sl w) := by
  rw [decode, hs, if_pos w.isLt]

/-- Only the TR-TT L1 entry is narrower than a machine word (rule R80). -/
theorem Slot.bits_entry {l : Level} (hl : l ≠ .trL1) : (Slot.entry l).bits = 64 := by
  cases l with
  | trL1 => exact absurd rfl hl
  | _ => rfl

/-- The decoder reads the bits of the slot's mask and no other: the masked word is the encoding of what the word decodes to. -/
theorem decodeWord_and_slotMask (h : Haw) (sl : Slot) (w : Word64) :
    decodeWord h sl (w &&& slotMask h sl w) = decodeWord h sl w := by
  have hround := decodeWord_encode h (decodeWord h sl w) (wf_decodeWord h sl w)
  rwa [decodeWord_slot, encode_decodeWord] at hround

/-- Settles O3: each word decodes like its masked self, and the masked words are equal. -/
theorem ignoredBitsHaveNoEffect : Obligations.IgnoredBitsHaveNoEffect := by
  unfold Obligations.IgnoredBitsHaveNoEffect
  intro h l w w' hl hmask
  have halike : decodeWord h (.entry l) w' = decodeWord h (.entry l) w :=
    calc decodeWord h (.entry l) w'
      _ = decodeWord h (.entry l) (w' &&& careMask h l w') := (decodeWord_and_slotMask h (.entry l) w').symm
      _ = decodeWord h (.entry l) (w &&& careMask h l w) := by rw [hmask]
      _ = decodeWord h (.entry l) w := decodeWord_and_slotMask h (.entry l) w
  exact ⟨_, decode_of_bits_eq (Slot.bits_entry hl) h w, halike ▸ decode_of_bits_eq (Slot.bits_entry hl) h w'⟩

/-! ### Sample words -/

/-- Settles O4: closed words, of which the decoder is run. -/
theorem sampleWordsDecode : Obligations.SampleWordsDecode := by
  unfold Obligations.SampleWordsDecode
  decide

end Sys2Proof

namespace Sys2Proof.Machine

/-! ### Address arithmetic -/

/-- A field of a virtual address as a number. -/
theorem toNat_extractLsb'_eq_div_mod (va : BitVec 48) (lo n : Nat) :
    (va.extractLsb' lo n).toNat = va.toNat / 2 ^ lo % 2 ^ n := by
  rw [BitVec.extractLsb'_toNat, Nat.shiftRight_eq_div_pow]

/-- A concatenation as a number. -/
theorem toNat_append_eq_add {m n : Nat} (x : BitVec m) (y : BitVec n) : (x ++ y).toNat = x.toNat * 2 ^ n + y.toNat := by
  rw [BitVec.toNat_append, ← Nat.shiftLeft_add_eq_or_of_lt y.isLt, Nat.shiftLeft_eq]

/-- An address field above the `n` untranslated low bits of an address (rule R96). -/
theorem toNat_append_extractLsb' {m : Nat} (a : BitVec m) (va : BitVec 48) (n : Nat) :
    (a ++ va.extractLsb' 0 n).toNat = a.toNat * 2 ^ n + va.toNat % 2 ^ n := by
  rw [toNat_append_eq_add, toNat_extractLsb'_eq_div_mod, Nat.pow_zero, Nat.div_one]

theorem toNat_page4k (a : BitVec 34) (va : BitVec 48) : (page4k a va).toNat = a.toNat * 2 ^ 12 + va.toNat % 2 ^ 12 :=
  toNat_append_extractLsb' a va 12

theorem toNat_page64k (a : BitVec 30) (va : BitVec 48) : (page64k a va).toNat = a.toNat * 2 ^ 16 + va.toNat % 2 ^ 16 :=
  toNat_append_extractLsb' a va 16

theorem toNat_page2m (a : BitVec 25) (va : BitVec 48) : (page2m a va).toNat = a.toNat * 2 ^ 21 + va.toNat % 2 ^ 21 :=
  toNat_append_extractLsb' a va 21

theorem toNat_page1g (a : BitVec 16) (va : BitVec 48) : (page1g a va).toNat = a.toNat * 2 ^ 30 + va.toNat % 2 ^ 30 :=
  toNat_append_extractLsb' a va 30

theorem toNat_tileAddr (a : BitVec 32) (va : BitVec 48) : (tileAddr a va).toNat = a.toNat * 2 ^ 16 + va.toNat % 2 ^ 16 :=
  toNat_append_extractLsb' a va 16

/-- The entry of a level that takes one field of the address as its index (rule R97). -/
theorem entryAddr_of_levelIndex {l : Level} {va : BitVec 48} {lo n : Nat}
    (h : levelIndex l va = (va.extractLsb' lo n).toNat) (base : Nat) :
    entryAddr l base va = base + va.toNat / 2 ^ lo % 2 ^ n * levelSize l := by
  rw [entryAddr, h, toNat_extractLsb'_eq_div_mod]

/-- The entry of a 64KB page table: of every sixteen entries the table uses the first (rule R97). -/
theorem entryAddr_pt64k (base : Nat) (va : BitVec 48) :
    entryAddr .pt64k base va = base + va.toNat / 2 ^ 16 % 2 ^ 5 * 2 ^ 4 * 8 := by
  rw [entryAddr, levelIndex, toNat_append_eq_add, toNat_extractLsb'_eq_div_mod]
  rfl

/-- Settles O5: of the output addresses, what a concatenation is as a number; of the entry addresses, what a field is. -/
theorem outputAndEntryAddresses : Obligations.OutputAndEntryAddresses := by
  unfold Obligations.OutputAndEntryAddresses
  constructor
  · intro va
    exact ⟨fun a _ _ => congrArg some (toNat_page4k a va), fun a _ _ _ _ _ _ => congrArg some (toNat_page4k a va),
      fun a _ _ _ _ _ _ _ => congrArg some (toNat_page64k a va), fun a _ _ _ _ _ _ => congrArg some (toNat_page2m a va),
      fun a _ _ _ _ _ _ => congrArg some (toNat_page1g a va), fun a => congrArg some (toNat_tileAddr a va)⟩
  · intro base va
    exact ⟨entryAddr_ggtt base va, entryAddr_pml4 base va, entryAddr_of_levelIndex (l := .pdp) rfl base,
      entryAddr_of_levelIndex (l := .pd) rfl base, entryAddr_of_levelIndex (l := .pt4k) rfl base, entryAddr_pt64k base va,
      entryAddr_trL3 base va, entryAddr_of_levelIndex (l := .trL2) rfl base, entryAddr_of_levelIndex (l := .trL1) rfl base⟩

end Sys2Proof.Machine
end

section
/-!
The words of the TR-TT tables (rules R113 to R131). An L3 or L2 entry, met at its level, is `State.trPointer`; what that does is
said once, branch by branch, with the address of the next table word as a number; an L1 word is compared with the detection
registers or maps the tile.
-/

namespace Sys2Proof.Machine

variable {s : State} {wk : Walk} {st : TrStep} {addr : BitVec 36} {null invalid : Bool}

/-! ### The TR-VA window -/

theorem trvaMask_eq_iff (w : Word32) (m : BitVec 4) : w.extractLsb' 4 4 = m ↔ w.toNat / 16 % 16 = m.toNat := by
  rw [← BitVec.toNat_inj, BitVec.extractLsb'_toNat, Nat.shiftRight_eq_div_pow]

/-- Under the mask that compares all four bits the window is the sixteenth of the space with the top bits `TRVADV`. -/
theorem trvaHit_of_fullMask {w : Word32} {va : BitVec 48} (hm : w.extractLsb' 4 4 = 15#4) :
    trvaHit w va = some (decide (va.toNat / 2 ^ 44 = w.toNat % 16)) := by
  have hhit : trvaHit w va = some (decide (va.extractLsb' 44 4 = w.extractLsb' 0 4)) := by simp [trvaHit, hm]
  have hdata := trvaHit_eq_some_true (m := w) (va := va)
  rw [hhit, Option.some_inj, decide_eq_true_iff] at hdata
  simp only [hhit, hdata, hm, true_and]

/-- Settles O30: the two masks the source supports, and any other. -/
theorem trvaHitRule : Obligations.TrvaHitRule := by
  unfold Obligations.TrvaHitRule
  refine fun w va => ⟨fun h0 => ?_, fun h15 => ?_, fun h0 h15 => ?_⟩
  · exact if_pos ((trvaMask_eq_iff w 0).2 h0)
  · exact trvaHit_of_fullMask ((trvaMask_eq_iff w 15).2 h15)
  · exact (if_neg (mt (trvaMask_eq_iff w 0).1 h0)).trans (if_neg (mt (trvaMask_eq_iff w 15).1 h15))

/-! ### The address of the next table word -/

theorem toNat_trTableBase (addr : BitVec 36) : (trTableBase addr).toNat = addr.toNat * 4096 :=
  toNat_fieldAt (by decide) addr

/-- The place of a table word in its table: less than a page (rules R97, R116, R117). -/
theorem toNat_trEntryAddr_trTableBase (st : TrStep) (addr : BitVec 36) (va : BitVec 48) :
    (trEntryAddr st (trTableBase addr) va).toNat = addr.toNat * 4096 + levelIndex st.level va * levelSize st.level ∧
      levelIndex st.level va * levelSize st.level < 4096 := by
  have hin : levelIndex st.level va * levelSize st.level < 4096 := by
    cases st with
    | l3 => exact Nat.mul_lt_mul_of_pos_right (va.extractLsb' 35 9).isLt (by decide : 0 < 8)
    | l2 => exact Nat.mul_lt_mul_of_pos_right (va.extractLsb' 26 9).isLt (by decide : 0 < 8)
    | l1 => exact Nat.mul_lt_mul_of_pos_right (va.extractLsb' 16 10).isLt (by decide : 0 < 4)
  refine ⟨?_, hin⟩
  rw [trEntryAddr, BitVec.toNat_ofNat, entryAddr, toNat_trTableBase]
  exact Nat.mod_eq_of_lt (by omega)

theorem levelIndex_trL2 (va : BitVec 48) : levelIndex .trL2 va * levelSize .trL2 = va.toNat / 2 ^ 26 % 2 ^ 9 * 8 :=
  congrArg (· * 8) (toNat_extractLsb'_eq_div_mod va 26 9)

theorem levelIndex_trL1 (va : BitVec 48) : levelIndex .trL1 va * levelSize .trL1 = va.toNat / 2 ^ 16 % 2 ^ 10 * 4 :=
  congrArg (· * 4) (toNat_extractLsb'_eq_div_mod va 16 10)

theorem toNat_trEntryAddr_l2 (addr : BitVec 36) (va : BitVec 48) :
    (trEntryAddr .l2 (trTableBase addr) va).toNat = addr.toNat * 4096 + va.toNat / 2 ^ 26 % 512 * 8 :=
  (toNat_trEntryAddr_trTableBase .l2 addr va).1.trans (congrArg _ (levelIndex_trL2 va))

theorem toNat_trEntryAddr_l1 (addr : BitVec 36) (va : BitVec 48) :
    (trEntryAddr .l1 (trTableBase addr) va).toNat = addr.toNat * 4096 + va.toNat / 2 ^ 16 % 1024 * 4 :=
  (toNat_trEntryAddr_trTableBase .l1 addr va).1.trans (congrArg _ (levelIndex_trL1 va))

/-! ### The L3 and L2 entries -/

theorem exec_trttL3e (hw : s.walk = some wk) (hl : wk.level = .trL3) :
    exec (.trttL3e addr null invalid) s = s.trPointer wk addr null invalid .l2 := atLevel_of_walk hw hl

theorem exec_trttL2e (hw : s.walk = some wk) (hl : wk.level = .trL2) :
    exec (.trttL2e addr null invalid) s = s.trPointer wk addr null invalid .l1 := atLevel_of_walk hw hl

theorem getLsbD_top_eq {n : Nat} (x : BitVec (n + 1)) : x.getLsbD n = decide (2 ^ n ≤ x.toNat) :=
  x.msb_eq_getLsbD_last.symm.trans x.msb_eq_decide

/-- With dual context enabled an entry with bit 47 set is refused, flagged or not (rule R129). -/
theorem trPointer_bit47 (hd : (s.ctx wk.req.ctx).desc.dualContext = true) (ha : 2 ^ 35 ≤ addr.toNat) :
    s.trPointer wk addr null invalid st = .refused .dualContextBit47 := by
  rw [State.trPointer, hd, getLsbD_top_eq, decide_eq_true ha]
  rfl

section allowed

variable (hd : (s.ctx wk.req.ctx).desc.dualContext = true → addr.toNat < 2 ^ 35)
include hd

theorem dualContext_bit47_eq_false : ((s.ctx wk.req.ctx).desc.dualContext && addr.getLsbD 35) = false := by
  rw [Bool.and_eq_false_imp, getLsbD_top_eq]
  exact fun h => decide_eq_false (Nat.not_le.2 (hd h))

/-- A flagged entry ends the walk (rules R119, R120). -/
theorem trPointer_flagged (hf : (null || invalid) = true) :
    s.trPointer wk addr null invalid st = .next (s.completeTile wk.req null invalid) := by
  rw [State.trPointer, dualContext_bit47_eq_false hd, hf]
  rfl

/-- An entry without a flag points to the next table (rules R116, R117). -/
theorem trPointer_unflagged :
    s.trPointer wk addr false false st = s.trRead wk st (trEntryAddr st (trTableBase addr) wk.trva) := by
  rw [State.trPointer, dualContext_bit47_eq_false hd]
  rfl

end allowed

/-- Settles O31: the entry's table address with the index of the next level, below `2^HAW`. -/
theorem trPointersInGpaMode : Obligations.TrPointersInGpaMode := by
  unfold Obligations.TrPointersInGpaMode
  intro s wk addr a pa hw hv hd ha hpa
  refine ⟨fun hl haddr => ?_, fun hl haddr => ?_⟩
  · rw [← toNat_trEntryAddr_l2] at haddr
    rw [haddr] at ha hpa
    rw [exec_trttL3e hw hl, trPointer_unflagged hd, trRead_gpa hv ha hpa]
    rfl
  · rw [← toNat_trEntryAddr_l1] at haddr
    rw [haddr] at ha hpa
    rw [exec_trttL2e hw hl, trPointer_unflagged hd, trRead_gpa hv ha hpa]
    rfl

/-- Settles O32: the same table address, outside the window, translated from its PML4 entry on. -/
theorem trPointersInVirtualMode : Obligations.TrPointersInVirtualMode := by
  unfold Obligations.TrPointersInVirtualMode
  intro s wk addr a base hw hv hd hmiss hb
  refine ⟨fun hl haddr => ?_, fun hl haddr => ?_⟩
  · obtain rfl := BitVec.eq_of_toNat_eq (haddr.trans (toNat_trEntryAddr_l2 addr wk.trva).symm)
    rw [exec_trttL3e hw hl, trPointer_unflagged hd, trRead_virtual hv hmiss, startPpgtt_some hb]
    rfl
  · obtain rfl := BitVec.eq_of_toNat_eq (haddr.trans (toNat_trEntryAddr_l1 addr wk.trva).symm)
    rw [exec_trttL2e hw hl, trPointer_unflagged hd, trRead_virtual hv hmiss, startPpgtt_some hb]
    rfl

/-! ### The L1 word -/

section l1

variable {w : BitVec 32} (hw : s.walk = some wk) (hl : wk.level = .trL1)
include hw hl

theorem exec_trttL1e_bit31 (hd : (s.ctx wk.req.ctx).desc.dualContext = true) (h : 2 ^ 31 ≤ w.toNat) :
    exec (.trttL1e w) s = .refused .dualContextBit47 := by
  refine (atLevel_of_walk hw hl).trans (if_pos ?_)
  rw [hd, getLsbD_top_eq, decide_eq_true h]
  rfl

variable (hd : (s.ctx wk.req.ctx).desc.dualContext = true → w.toNat < 2 ^ 31)
include hd

/-- With bit 31 clear, or without dual context, an L1 word ends the walk where it equals a detection register, and otherwise
starts the page walk of the tile's address (rules R118, R119, R123). -/
theorem exec_trttL1e : exec (.trttL1e w) s =
    if w = (s.ctx wk.req.ctx).trttNull ∨ w = (s.ctx wk.req.ctx).trttInvalid then
      .next (s.completeTile wk.req (decide (w = (s.ctx wk.req.ctx).trttNull))
        (decide (w = (s.ctx wk.req.ctx).trttInvalid)))
    else s.startPpgtt wk (tileAddr w wk.trva) .target := by
  refine (atLevel_of_walk hw hl).trans (if_neg ?_)
  rw [Bool.and_eq_true, getLsbD_top_eq, decide_eq_true_iff]
  exact fun h => Nat.not_le.2 (hd h.1) h.2

end l1

/-- Settles O34: the tile's address is the L1 word above the tile offset, walked from its PML4 entry on. -/
theorem l1WordMapsTheTile : Obligations.L1WordMapsTheTile := by
  unfold Obligations.L1WordMapsTheTile
  intro s wk w v base hw hl hnull hinv hd hb hv
  obtain rfl := BitVec.eq_of_toNat_eq (hv.trans (toNat_tileAddr w wk.trva).symm)
  rw [exec_trttL1e hw hl hd, if_neg (not_or_intro hnull hinv), startPpgtt_some hb]
  rfl

/-! ### Flagged tiles -/

/-- The completion of a flagged tile is the null completion (rules R120, R121). -/
theorem State.nullCompletion_completeTile (s : State) (r : Request) (null invalid : Bool) :
    s.nullCompletion r (s.completeTile r null invalid) :=
  s.nullCompletion_completeNull r

/-- What a flagged tile does to the pending flag (rules R121, R122, R216). -/
theorem State.completeTile_pending (s : State) (r : Request) (null invalid : Bool) (hf : (null || invalid) = true) :
    (invalid = false → (s.completeTile r null invalid).invalidTilePending = s.invalidTilePending) ∧
      (null = false → (s.completeTile r null invalid).invalidTilePending = true) ∧
      ((s.completeTile r null invalid).invalidTilePending = s.invalidTilePending ∨
        (s.completeTile r null invalid).invalidTilePending = true) := by
  rw [State.completeTile_invalidTilePending]
  refine ⟨fun hi => by simp [hi], fun hn => ?_, ?_⟩
  · have hi : invalid = true := by simpa [hn] using hf
    simp [hn, hi]
  · cases invalid && (!null || Config.freeTileInvalid s.draws) with
    | false => simp
    | true => simp

/-- A flagged entry, or an L1 word equal to a detection register, ends the walk on the tile (rules R119, R123). -/
theorem exec_flaggedTile {i : Instr} (hw : s.walk = some wk) (hf : (null || invalid) = true)
    (hi : (∃ addr, wk.level = .trL3 ∧ i = .trttL3e addr null invalid ∧
          ((s.ctx wk.req.ctx).desc.dualContext = true → addr.toNat < 2 ^ 35)) ∨
        (∃ addr, wk.level = .trL2 ∧ i = .trttL2e addr null invalid ∧
          ((s.ctx wk.req.ctx).desc.dualContext = true → addr.toNat < 2 ^ 35)) ∨
        (∃ w, wk.level = .trL1 ∧ i = .trttL1e w ∧ ((s.ctx wk.req.ctx).desc.dualContext = true → w.toNat < 2 ^ 31) ∧
          null = decide (w = (s.ctx wk.req.ctx).trttNull) ∧ invalid = decide (w = (s.ctx wk.req.ctx).trttInvalid))) :
    exec i s = .next (s.completeTile wk.req null invalid) := by
  rcases hi with ⟨addr, hl, rfl, hd⟩ | ⟨addr, hl, rfl, hd⟩ | ⟨w, hl, rfl, hd, rfl, rfl⟩
  · rw [exec_trttL3e hw hl, trPointer_flagged hd hf]
  · rw [exec_trttL2e hw hl, trPointer_flagged hd hf]
  · rw [exec_trttL1e hw hl hd, if_pos]
    simpa using hf

/-- Settles O33: each of the three words completes the tile with its flags. -/
theorem flaggedTilesEndTheWalk : Obligations.FlaggedTilesEndTheWalk := by
  unfold Obligations.FlaggedTilesEndTheWalk
  intro s wk i null invalid hw hf hi
  exact ⟨_, exec_flaggedTile hw hf hi, s.nullCompletion_completeTile wk.req null invalid,
    s.completeTile_pending wk.req null invalid hf⟩

/-! ### What the TR-TT refuses -/

/-- Settles O35: bit 47 (of an L1 word bit 31) first, then the table address by the table location. -/
theorem trEntriesOutsideTheContractRefused : Obligations.TrEntriesOutsideTheContractRefused := by
  unfold Obligations.TrEntriesOutsideTheContractRefused
  refine ⟨fun s wk addr null invalid i hw hi => ?_, fun s wk w hw hl hd h31 => exec_trttL1e_bit31 hw hl hd h31⟩
  obtain ⟨st, he⟩ : ∃ st, exec i s = s.trPointer wk addr null invalid st := by
    rcases hi with ⟨hl, rfl⟩ | ⟨hl, rfl⟩
    · exact ⟨.l2, exec_trttL3e hw hl⟩
    · exact ⟨.l1, exec_trttL2e hw hl⟩
  rw [he]
  refine ⟨trPointer_bit47, ?_⟩
  rintro rfl rfl hd
  obtain ⟨haddr, hin⟩ := toNat_trEntryAddr_trTableBase st addr wk.trva
  rw [trPointer_unflagged fun h => hd.resolve_left (by simp [h])]
  refine ⟨fun hv hwide => trRead_wide hv (by omega), fun hv hmask hdata => trRead_inWindow hv ?_⟩
  exact trvaHit_eq_some_true.2 ⟨(trvaMask_eq_iff _ 15).2 hmask, by omega⟩

end Sys2Proof.Machine
end

section
/-!
A present leaf that is no plain page of the request: one that translates a TR-TT table address, and those that are refused
(rules R124, R195, R197; log entry 33).
-/

namespace Sys2Proof.Machine

variable {s : State} {wk : Walk} {pa : BitVec 46} {lm rw : Bool} {attrs : LeafAttrs}

/-- A table word is only read, so a leaf denies nothing to the walk of its address (rule R124). -/
theorem Walk.denies_of_table {st : TrStep} (h : wk.dest = .table st) : wk.denies rw = false := by
  rw [Walk.denies, Walk.accessKind, h]
  rfl

/-- A permitted access, in the terms of the statements. -/
theorem Walk.denies_of_permitted (h : wk.dest = .target → wk.req.kind = .write → (wk.rw && rw) = true) :
    wk.denies rw = false := by
  cases hd : wk.dest with
  | target => exact Walk.denies_eq_false (h hd)
  | table st => exact Walk.denies_of_table hd

/-- The table word whose address a leaf translates is read next at the output address (rules R124, R196). -/
theorem leaf_table {st : TrStep} {hpa : Nat} (hd : wk.dest = .table st) (hlm : (lm && s.params.hasLocalMemory) = false)
    (hp : s.hostPhys wk.req.ctx pa.toNat = some hpa) : s.leaf wk pa lm false rw attrs =
      .next (s.withWalk { wk with
        level := st.level, entry := .memory hpa, dest := .target, tableAttrs := some attrs }) := by
  simp only [State.leaf, Walk.denies_of_table hd, hlm, hp, State.arrive, hd, State.readTable, readNext_some,
    Bool.false_eq_true, if_false]

theorem leaf_localMemory (hden : wk.denies rw = false) (hloc : s.params.hasLocalMemory = true) :
    s.leaf wk pa true false rw attrs = .refused .localMemory := by
  simp only [State.leaf, hden, hloc, Bool.false_eq_true, if_false, Bool.and_self, if_true]

theorem leaf_nullTable {st : TrStep} (hd : wk.dest = .table st) :
    s.leaf wk pa lm true rw attrs = .refused .tableNullPage := by
  simp only [State.leaf, Walk.denies_of_table hd, Bool.false_and, State.nullLeaf, hd, Bool.false_eq_true, if_false, if_true]

/-- Settles O21: the leaf, whose page is where the table word lies. -/
theorem leafWordsTranslateTableAddresses : Obligations.LeafWordsTranslateTableAddresses := by
  unfold Obligations.LeafWordsTranslateTableAddresses
  intro s wk i f pa hpa st hw hi hf ho hp hnull hlm hd hhp
  obtain ⟨page, attrs, hpage, hattrs, he⟩ := exec_leafWord hw hi hf hp
  obtain rfl := Option.some_inj.1 (ho.symm.trans hpage)
  rw [he, hnull, hattrs, leaf_table hd hlm hhp]
  rfl

/-- Settles O25: the local-memory page, and the null page under a table word. -/
theorem leafRefusals : Obligations.LeafRefusals := by
  unfold Obligations.LeafRefusals
  intro s wk i f hw hi hf hp
  obtain ⟨page, attrs, -, -, he⟩ := exec_leafWord hw hi hf hp
  refine ⟨fun hnull hlm hloc hrw => ?_, fun hnull ⟨st, hd⟩ => ?_⟩
  · rw [he, hnull, hlm, leaf_localMemory (Walk.denies_of_permitted hrw) hloc]
  · rw [he, hnull, leaf_nullTable hd]

end Sys2Proof.Machine
end

section
/-!
The TR-TT walk in GPA mode refines `TRTT_Walk` (rules R115 to R124). In a context whose TR TLBs are cold the word of every level
is the one in memory, since a level the walk has used holds nothing under the key of another; so each step is a branch of the
pseudo-code, and the theorem goes up from the L1 step to the L3 step.
-/

namespace Sys2Proof.Machine

variable {s u : State} {wk v : Walk} {c a : Nat} {l : Level} {st : TrStep} {ahead : List Level}
  {addr : BitVec 36} {null invalid : Bool}

/-! ### Cold TLBs at one level -/

/-- No TLB holds an entry of the context at the level, and no copy differs from memory: what `State.coldFor` says of a TR-TT
level, and what the use of another level keeps. -/
abbrev State.coldAt (s : State) (c : Nat) (l : Level) : Prop :=
  ∀ e ∈ s.tlb, ¬ (e.key.ctx = c ∧ e.key.level = l) ∧ ∀ a, e.place = some a → e.word = s.memEntry e.key.level a

theorem State.coldAt_of_coldFor (h : s.coldFor c) (l : Level) : s.coldAt c l :=
  fun e he => ⟨fun hk => (h.1 e he).1 hk.1, (h.1 e he).2⟩

/-- At a TR-TT level with cold TLBs no copy differs from memory (rules R68, R69). -/
theorem State.quiet_of_coldAt (h : s.coldAt wk.req.ctx wk.level) (htr : levelIsTr wk.level = true)
    (he : wk.entry = .memory a) : s.quiet wk a := by
  have hggtt : wk.level ≠ .ggtt := fun hl => by simp [hl, levelIsTr] at htr
  have hpml4 : wk.level ≠ .pml4 := fun hl => by simp [hl, levelIsTr] at htr
  refine List.filter_eq_nil_iff.2 fun w hw => ?_
  rw [decide_eq_true_iff, not_not]
  rcases (State.mem_copies.1 hw).1 with ⟨e, hmem, rfl, ⟨hctx, hlev, -⟩ | ⟨b, hb, hplace, hsize⟩⟩ | ⟨hl, -⟩
  · rw [if_neg hggtt] at hctx
    exact absurd ⟨hctx, hlev⟩ (h e hmem).1
  · cases he.symm.trans hb
    rw [(h e hmem).2 a hplace, State.memEntry, State.memEntry, hsize]
  · exact absurd hl hpml4

/-- The use of an entry that is the one in memory keeps the TLBs cold at every other level. -/
theorem State.coldAt_fetched (h : s.coldAt c l) (hl : wk.level ≠ l) (hq : s.quiet wk a) : (s.fetched wk a).coldAt c l := by
  intro e he
  rcases (State.mem_tlbAfter _ _ e).1 he with rfl | he
  · refine ⟨fun hk => hl hk.2, fun b hb => ?_⟩
    cases hb
    exact State.entryWord_of_quiet hq
  · exact h e he

/-! ### Memory and nesting -/

theorem State.hostPhys_of_not_nested (h : (s.ctx c).desc.neste = false) : s.hostPhys c a = some a := by
  rw [State.hostPhys, h, if_neg Bool.false_ne_true]

theorem State.readMem_of_sameBytes (h : s.sameBytes u) (a n : Nat) : u.readMem a n = s.readMem a n :=
  Memory.readN_congr _ _ _ _ a n fun b _ _ => h.1 b

/-- Memory is a whole number of pages. -/
theorem State.memSize_mod (s : State) : s.memSize % 4096 = 0 := by
  unfold State.memSize
  cases s.params.haw <;> decide

theorem levelSize_trStep (st : TrStep) : levelSize st.level = 8 ∨ levelSize st.level = 4 := by cases st <;> decide

/-- An aligned table word that begins below `2^HAW` ends there (rules R57, R80). -/
theorem State.add_levelSize_le (ha : a < s.memSize) (halign : levelSize st.level ∣ a) :
    a + levelSize st.level ≤ s.memSize := by
  have := s.memSize_mod
  rcases levelSize_trStep st with h8 | h4
  · rw [h8] at halign ⊢; omega
  · rw [h4] at halign ⊢; omega

/-- A table word is aligned to its size, since its table is aligned to a page. -/
theorem levelSize_dvd_trEntryAddr (st : TrStep) (addr : BitVec 36) (va : BitVec 48) :
    levelSize st.level ∣ (trEntryAddr st (trTableBase addr) va).toNat := by
  have hpage : levelSize st.level ∣ 4096 := by cases st <;> decide
  rw [(toNat_trEntryAddr_trTableBase st addr va).1]
  exact dvd_add (dvd_mul_of_dvd_right hpage _) (dvd_mul_left _ _)

theorem State.getLsbD_memEntry (s : State) (l : Level) (a k : Nat) :
    (s.memEntry l a).getLsbD k = (s.readMem a (levelSize l)).testBit k := by
  rw [← State.toNat_memEntry]
  rfl

/-! ### The walk on its way -/

/-- Everything but the walk, the TLBs and the history is as before. -/
abbrev State.sameButWalk (s u : State) : Prop :=
  s.sameRegisters u ∧ s.sameBytes u ∧ s.sameEvents u ∧ u.results = s.results ∧ u.halted = s.halted ∧ u.agenda = s.agenda

/-- An entry of the level holds the address of the table that the step `st` reads (rules R115 to R117). -/
abbrev Level.pointsTo (l : Level) (st : TrStep) : Prop := l = .trL3 ∧ st = .l2 ∨ l = .trL2 ∧ st = .l1

/-- The TR-TT walk that `wk` began in `s` has come, in `u`, to the entry at `a`; `ahead` are the levels after it. -/
structure TrWalkAt (s : State) (wk : Walk) (ahead : List Level) (u : State) (v : Walk) (a : Nat) : Prop where
  walk : u.walk = some v
  entry : v.entry = .memory a
  inside : a + levelSize v.level ≤ s.memSize
  level : levelIsTr v.level = true
  req : v.req = wk.req
  index : v.index = wk.index
  trva : v.trva = wk.trva
  same : s.sameButWalk u
  schedule : u.schedule = []
  waiting : u.waiting = []
  cold : ∀ l ∈ v.level :: ahead, u.coldAt wk.req.ctx l

namespace TrWalkAt

variable (h : TrWalkAt s wk ahead u v a)
include h

theorem ctx_eq (c : Nat) : u.ctx c = s.ctx c := by
  obtain ⟨⟨-, hepoch, -, -, -, -, -, -, hctxs, -⟩, -⟩ := h.same
  exact State.ctx_congr hctxs hepoch c

theorem memSize_eq : u.memSize = s.memSize := by
  obtain ⟨⟨hparams, -⟩, -⟩ := h.same
  rw [State.memSize, State.memSize, hparams]

theorem memEntry_eq : u.memEntry v.level a = s.memEntry v.level a := by
  obtain ⟨-, hbytes, -⟩ := h.same
  rw [State.memEntry, State.memEntry, State.readMem_of_sameBytes hbytes]

theorem quiet : u.quiet v a :=
  State.quiet_of_coldAt (h.req ▸ h.cold _ List.mem_cons_self) h.level h.entry

/-- The next step runs the word in memory. -/
theorem step_eq : step u =
    u.checked (exec (decodeEntry u.params.haw v.level (s.memEntry v.level a)) (u.fetched v a)) := by
  rw [step_walk (u.turned_eq h.schedule h.waiting) h.walk, State.walkAct, h.entry]
  simp only [if_pos (inMemory_iff.2 (h.memSize_eq ▸ h.inside)), State.entryWord_of_quiet h.quiet, h.memEntry_eq]
  rfl

theorem fetched_ctx : (u.fetched v a).ctx (v.noted a).req.ctx = s.ctx wk.req.ctx := by
  rw [← h.ctx_eq, ← h.req]
  rfl

/-- No other request is in flight, so the check of the step lets it stand. -/
theorem checked_next {t : State} (ht : t.waiting = u.waiting) : u.checked (.next t) = .next t :=
  State.checked_of_none (ht.trans h.waiting)

/-- At an L3 or L2 level the next step is that of a pointer. -/
theorem step_pointer (hl : Level.pointsTo v.level st) : step u =
    u.checked ((u.fetched v a).trPointer (v.noted a) ((s.memEntry v.level a).extractLsb' 12 36)
      ((s.memEntry v.level a).getLsbD 1) ((s.memEntry v.level a).getLsbD 0) st) := by
  rw [h.step_eq]
  rcases hl with ⟨hl, rfl⟩ | ⟨hl, rfl⟩
  · rw [hl]; exact congrArg _ (exec_trttL3e rfl hl)
  · rw [hl]; exact congrArg _ (exec_trttL2e rfl hl)

end TrWalkAt

/-! ### The outcomes of the pseudo-code -/

/-- The next step ends the request with the null completion, and the pending flag is as `pending` says. -/
def State.endsOnTile (s : State) (wk : Walk) (u : State) (pending : State → Prop) : Prop :=
  ∃ t, step u = .next t ∧ t.walk = none ∧ s.sameRegisters t ∧ s.sameBytes t ∧
    t.results = ⟨.engine wk.req.engine, wk.req.ctx, wk.req.kind, wk.req.n, 0, true⟩ :: s.results ∧ pending t

/-- The next step begins the page walk of the address `x`. -/
def State.startsPageWalk (s : State) (wk : Walk) (u : State) (x : Nat) : Prop :=
  ∃ t w, step u = .next t ∧ t.walk = some w ∧ w.req = wk.req ∧ w.index = wk.index ∧ w.level = .pml4 ∧
    w.dest = .target ∧ w.rw = true ∧ w.va.toNat = x ∧
    w.entry = .memory ((s.ctx wk.req.ctx).desc.pml4Ptr.toNat + x / 2 ^ 39 % 512 * 8) ∧ s.sameRegisters t ∧
    s.sameBytes t ∧ s.sameEvents t ∧ t.results = s.results

/-- The next step of `u` has the outcome of the pseudo-code. -/
def State.trttOutcome (s : State) (wk : Walk) (u : State) : TrttResult → Prop
  | .mapped x => s.startsPageWalk wk u x
  | .null => s.endsOnTile wk u fun t => t.invalidTilePending = s.invalidTilePending
  | .invalid => s.endsOnTile wk u fun t => t.invalidTilePending = true
  | .either => s.endsOnTile wk u fun t => t.invalidTilePending = s.invalidTilePending ∨ t.invalidTilePending = true
  | .wide => step u = .refused .tablePointerWide

/-- At most `n` steps lead to one with the outcome of the pseudo-code. -/
def State.trttLeadsTo (s : State) (wk : Walk) (n : Nat) (u : State) (r : TrttResult) : Prop :=
  ∃ k t, k ≤ n ∧ Host.Core.run Sys2Proof.core k u = .next t ∧ s.sameButWalk t ∧ s.trttOutcome wk t r

theorem State.trttLeadsTo_now {r : TrttResult} {n : Nat} (hs : s.sameButWalk u) (h : s.trttOutcome wk u r) :
    s.trttLeadsTo wk n u r := ⟨0, u, Nat.zero_le n, rfl, hs, h⟩

theorem State.trttLeadsTo_step {r : TrttResult} {n : Nat} {t : State} (hstep : step u = .next t)
    (h : s.trttLeadsTo wk n t r) : s.trttLeadsTo wk (n + 1) u r := by
  obtain ⟨k, t', hk, hrun, hs, ho⟩ := h
  refine ⟨k + 1, t', Nat.succ_le_succ hk, ?_, hs, ho⟩
  have hcore : Sys2Proof.core.step u = .next t := hstep
  simp only [Host.Core.run, hcore]
  exact hrun

/-! ### One step of the walk -/

namespace TrWalkAt

/-- A step that completes a flagged tile has the outcome that `Flag` gives (rule R119). -/
theorem outcome_specFlag (h : TrWalkAt s wk ahead u v a) (hf : (null || invalid) = true)
    (hstep : step u = u.checked (.next ((u.fetched v a).completeTile wk.req null invalid))) :
    s.trttOutcome wk u (specFlag null invalid) := by
  replace hstep := hstep.trans (h.checked_next rfl)
  obtain ⟨hregs, hbytes, ⟨-, hpend⟩, hres, -, -⟩ := h.same
  obtain ⟨hnull, hinvalid, heither⟩ := (u.fetched v a).completeTile_pending wk.req null invalid hf
  rw [State.fetched_invalidTilePending, hpend] at hnull heither
  have hends (pending : State → Prop) (hp : pending ((u.fetched v a).completeTile wk.req null invalid)) :
      s.endsOnTile wk u pending :=
    ⟨_, hstep, rfl, by simpa [State.sameRegisters] using hregs, by simpa [State.sameBytes, State.byte] using hbytes,
      by simp [hres], hp⟩
  cases null with
  | false => exact hends _ (hinvalid rfl)
  | true =>
    cases invalid with
    | false => exact hends _ (hnull rfl)
    | true => exact hends _ heither

variable (hd : (s.ctx wk.req.ctx).desc.dualContext = false)
include hd

/-- A flagged entry ends the walk (rules R119, R120). -/
theorem outcome_flagged (h : TrWalkAt s wk ahead u v a) (hf : (null || invalid) = true)
    (hstep : step u = u.checked ((u.fetched v a).trPointer (v.noted a) addr null invalid st)) :
    s.trttOutcome wk u (specFlag null invalid) := by
  refine h.outcome_specFlag hf ?_
  rw [hstep, trPointer_flagged (fun hdc => by simp [h.fetched_ctx, hd] at hdc) hf, ← h.req]
  rfl

/-- An entry without a flag points to the next table word. -/
theorem step_unflagged (h : TrWalkAt s wk ahead u v a)
    (hstep : step u = u.checked ((u.fetched v a).trPointer (v.noted a) addr false false st)) :
    step u = u.checked ((u.fetched v a).trRead (v.noted a) st (trEntryAddr st (trTableBase addr) wk.trva)) := by
  rw [hstep, trPointer_unflagged (fun hdc => by simp [h.fetched_ctx, hd] at hdc), ← h.trva]
  rfl

variable (hn : (s.ctx wk.req.ctx).desc.neste = false)

include hn in
/-- The L1 step: a tile of a detection register, or the page walk of the mapped address (rules R117, R118, R123). -/
theorem outcome_trL1 (h : TrWalkAt s wk ahead u v a) (hl : v.level = .trL1) : s.trttOutcome wk u
      (if s.readMem a 4 = (s.ctx wk.req.ctx).trttNull.toNat ∨ s.readMem a 4 = (s.ctx wk.req.ctx).trttInvalid.toNat then
        specFlag (s.readMem a 4 = (s.ctx wk.req.ctx).trttNull.toNat)
          (s.readMem a 4 = (s.ctx wk.req.ctx).trttInvalid.toNat)
      else .mapped (s.readMem a 4 * 2 ^ 16 + wk.trva.toNat % 2 ^ 16)) := by
  obtain ⟨w, hw⟩ : ∃ w : Word32, w = (s.memEntry v.level a).extractLsb' 0 32 := ⟨_, rfl⟩
  have hword : s.readMem a 4 = w.toNat := by
    have hlt : s.readMem a 4 < 2 ^ 32 := Memory.readN_lt _ _ _ _
    rw [hw, BitVec.extractLsb'_toNat, Nat.shiftRight_zero, State.toNat_memEntry, hl]
    exact (Nat.mod_eq_of_lt hlt).symm
  have hstep : step u = u.checked (exec (.trttL1e w) (u.fetched v a)) := by
    rw [h.step_eq, hw, hl]
    rfl
  rw [exec_trttL1e (wk := v.noted a) rfl hl (fun hdc => by simp [h.fetched_ctx, hd] at hdc), h.fetched_ctx] at hstep
  simp only [hword, BitVec.toNat_inj]
  split_ifs at hstep ⊢ with hm
  · refine h.outcome_specFlag (by simpa using hm) ?_
    rw [hstep, ← h.req]
    rfl
  · rw [startPpgtt_some (State.hostPhys_of_not_nested (by rw [h.fetched_ctx, hn]))] at hstep
    obtain ⟨hregs, hbytes, hevents, hres, -, -⟩ := h.same
    have hva : (tileAddr w (v.noted a).trva).toNat = w.toNat * 2 ^ 16 + wk.trva.toNat % 2 ^ 16 := by
      rw [toNat_tileAddr, ← h.trva]
      rfl
    refine ⟨_, _, hstep.trans (h.checked_next rfl), rfl, h.req, h.index, rfl, rfl, rfl, hva, ?_, hregs,
      hbytes, hevents, hres⟩
    rw [h.fetched_ctx, hva]

variable (hv : (s.ctx wk.req.ctx).tablesVirtual = false)
include hv

theorem outcome_wide (h : TrWalkAt s wk ahead u v a)
    (hstep : step u = u.checked ((u.fetched v a).trPointer (v.noted a) addr false false st))
    (hwide : s.memSize ≤ (trEntryAddr st (trTableBase addr) wk.trva).toNat) : s.trttOutcome wk u .wide := by
  refine (h.step_unflagged hd hstep).trans ?_
  rw [trRead_wide (s := u.fetched v a) (by rw [h.fetched_ctx, hv]) (h.memSize_eq.trans_le hwide)]
  rfl

include hn

/-- Below `2^HAW` the walk goes on with the next table word, whose level it has not used (rule R124). -/
theorem next_table (h : TrWalkAt s wk (st.level :: ahead) u v a) (hnew : v.level ∉ st.level :: ahead)
    (hstep : step u = u.checked ((u.fetched v a).trPointer (v.noted a) addr false false st))
    (hin : (trEntryAddr st (trTableBase addr) wk.trva).toNat < s.memSize) :
    ∃ t w, step u = .next t ∧ w.level = st.level ∧
      TrWalkAt s wk ahead t w (trEntryAddr st (trTableBase addr) wk.trva).toNat := by
  replace hstep := h.step_unflagged hd hstep
  rw [trRead_gpa (s := u.fetched v a) (by rw [h.fetched_ctx, hv]) (hin.trans_eq h.memSize_eq.symm)
    (State.hostPhys_of_not_nested (by rw [h.fetched_ctx, hn]))] at hstep
  refine ⟨_, _, hstep.trans (h.checked_next rfl), ?_, { h with
    walk := rfl
    entry := rfl
    inside := State.add_levelSize_le hin (levelSize_dvd_trEntryAddr _ _ _)
    level := by cases st <;> rfl
    cold := fun l hmem =>
      State.coldAt_fetched (h.cold l (List.mem_cons_of_mem _ hmem)) (fun he => hnew (he ▸ hmem)) h.quiet }⟩
  rfl

/-- The step of a pointer, in the terms of the pseudo-code: with a flag `Flag`, past `2^HAW` the refusal, and otherwise what the
next table word leads to (rules R116, R119, R124). -/
theorem leadsTo_pointer {n off : Nat} {r : TrttResult} (h : TrWalkAt s wk (st.level :: ahead) u v a)
    (hl : Level.pointsTo v.level st) (hnew : v.level ∉ st.level :: ahead)
    (hoff : levelIndex st.level wk.trva * levelSize st.level = off)
    (hnext : ∀ t w, w.level = st.level → TrWalkAt s wk ahead t w (s.readMem a 8 / 2 ^ 12 % 2 ^ 36 * 2 ^ 12 + off) →
      s.trttLeadsTo wk n t r) :
    s.trttLeadsTo wk (n + 1) u
      (if (s.readMem a 8).testBit 0 ∨ (s.readMem a 8).testBit 1 then
        specFlag ((s.readMem a 8).testBit 1) ((s.readMem a 8).testBit 0)
      else if 2 ^ s.params.haw.bits ≤ s.readMem a 8 / 2 ^ 12 % 2 ^ 36 * 2 ^ 12 + off then .wide
      else r) := by
  have hsize : levelSize v.level = 8 := by rcases hl with ⟨hl, -⟩ | ⟨hl, -⟩ <;> rw [hl] <;> rfl
  have hstep := h.step_pointer hl
  rw [State.getLsbD_memEntry, State.getLsbD_memEntry, hsize] at hstep
  have haddr : (trEntryAddr st (trTableBase ((s.memEntry v.level a).extractLsb' 12 36)) wk.trva).toNat =
      s.readMem a 8 / 2 ^ 12 % 2 ^ 36 * 2 ^ 12 + off := by
    rw [(toNat_trEntryAddr_trTableBase _ _ _).1, hoff, BitVec.extractLsb'_toNat, Nat.shiftRight_eq_div_pow,
      State.toNat_memEntry, hsize]
    rfl
  rw [← haddr] at hnext ⊢
  by_cases hf : (s.readMem a 8).testBit 0 = true ∨ (s.readMem a 8).testBit 1 = true
  · rw [if_pos hf]
    exact State.trttLeadsTo_now h.same (h.outcome_flagged hd (by rw [Bool.or_eq_true]; exact hf.symm) hstep)
  · rw [if_neg hf]
    rw [not_or, Bool.not_eq_true, Bool.not_eq_true] at hf
    rw [hf.1, hf.2] at hstep
    split_ifs with hwide
    · exact State.trttLeadsTo_now h.same (h.outcome_wide hd hv hstep hwide)
    · obtain ⟨t, w, hnow, hlev, hw⟩ := h.next_table hd hn hv hnew hstep (Nat.not_le.1 hwide)
      exact State.trttLeadsTo_step hnow (hnext t w hlev hw)

/-- From the L2 entry on, at most one step leads to the outcome of the pseudo-code. -/
theorem leadsTo_trL2 (h : TrWalkAt s wk [.trL1] u v a) (hl : v.level = .trL2) :
    s.trttLeadsTo wk 1 u
      (if (s.readMem a 8).testBit 0 ∨ (s.readMem a 8).testBit 1 then
        specFlag ((s.readMem a 8).testBit 1) ((s.readMem a 8).testBit 0)
      else specTrL1 s.params.haw.bits (fun b => s.readMem b 4) wk.trva.toNat (s.ctx wk.req.ctx).trttNull.toNat
        (s.ctx wk.req.ctx).trttInvalid.toNat (s.readMem a 8)) :=
  h.leadsTo_pointer hd hn hv (st := .l1) (.inr ⟨hl, rfl⟩) (by rw [hl]; decide) (levelIndex_trL1 _)
    fun _ _ hlev hw => State.trttLeadsTo_now hw.same (hw.outcome_trL1 hd hn hlev)

/-- From the L3 entry on, which lies below `2^HAW`, at most two. -/
theorem leadsTo_specTrtt (h : TrWalkAt s wk [.trL2, .trL1] u v a) (hl : v.level = .trL3)
    (ha : a = (s.ctx wk.req.ctx).l3ptr.toNat + wk.trva.toNat / 2 ^ 35 % 2 ^ 9 * 8) :
    s.trttLeadsTo wk 2 u
      (specTrtt s.params.haw.bits (fun b => s.readMem b 8) (fun b => s.readMem b 4) (s.ctx wk.req.ctx).l3ptr.toNat
        wk.trva.toNat (s.ctx wk.req.ctx).trttNull.toNat (s.ctx wk.req.ctx).trttInvalid.toNat) := by
  have hsize : 0 < levelSize v.level := by rw [hl]; decide
  have hin : ¬ s.memSize ≤ a := by have := h.inside; omega
  rw [specTrtt, ← ha, ← State.memSize, if_neg hin]
  exact h.leadsTo_pointer hd hn hv (st := .l2) (.inl ⟨hl, rfl⟩) (by rw [hl]; decide) (levelIndex_trL2 _)
    fun _ _ hlev hw => hw.leadsTo_trL2 hd hn hv hlev

end TrWalkAt

/-! ### The walk -/

/-- The first read of a TR-TT walk, in a context whose TR TLBs are cold (rule R115). -/
theorem TrWalkAt.start (hsch : s.schedule = []) (hwait : s.waiting = []) (hw : s.walk = some wk) (hl : wk.level = .trL3)
    (hcold : s.coldFor wk.req.ctx) (he : wk.entry = .memory a)
    (ha : a = (s.ctx wk.req.ctx).l3ptr.toNat + wk.trva.toNat / 2 ^ 35 % 512 * 8) (hin : a < s.memSize) :
    TrWalkAt s wk [.trL2, .trL1] s wk a := by
  have halign : levelSize TrStep.l3.level ∣ a := by
    rw [ha, Context.l3ptr, toNat_fieldAt (by decide)]
    exact dvd_add (dvd_mul_of_dvd_right (by decide) _) (dvd_mul_left _ _)
  exact
    { walk := hw
      entry := he
      inside := hl ▸ State.add_levelSize_le hin halign
      level := hl ▸ rfl
      req := rfl
      index := rfl
      trva := rfl
      same := by simp [State.sameButWalk, State.sameRegisters, State.sameBytes, State.sameEvents]
      schedule := hsch
      waiting := hwait
      cold := fun l _ => State.coldAt_of_coldFor hcold l }

/-- Settles O60: from the first read the walk leads to the outcome of the pseudo-code, whose L3 address is below `2^HAW`. -/
theorem trttWalkRefinesPseudocode : Obligations.TrttWalkRefinesPseudocode := by
  unfold Obligations.TrttWalkRefinesPseudocode
  intro s wk a hsch hwait hw hl _ hcold hn hv hd ha he hin
  obtain ⟨k, u, hk, hrun, ⟨hregs, hbytes, hevents, hres, hhalted, hagenda⟩, ho⟩ :=
    (TrWalkAt.start hsch hwait hw hl hcold he ha hin).leadsTo_specTrtt hd hn hv hl ha
  refine ⟨k, u, hk, hrun, hregs, hbytes, hevents, hres, hhalted, hagenda, ?_⟩
  revert ho
  generalize specTrtt _ _ _ _ _ _ _ = r
  intro ho
  cases r with
  | mapped x => exact ho
  | null => exact ho
  | invalid => exact ho
  | either => exact ho
  | wide => exact ho

end Sys2Proof.Machine
end


section
/-!
The words of a request, and what the label of its access says. A table word and a MOCS word have the effects of a walk, and
none of these changes a register. The fields of a control word, the decisions of the two caches and the parts of the label are
said once each; the label of an access is put together from them, with an index and without one.
-/

namespace Sys2Proof.Machine

variable {s t : State} {wk : Walk}

/-! ### The registers under the words of a request -/

theorem exists_mocs_of_slot {i : Instr} (h : i.slot = .mocs) : ∃ index rsv, i = .mocs index rsv := by
  cases i with
  | mocs index rsv => exact ⟨index, rsv, rfl⟩
  | _ => exact Slot.noConfusion h

/-- Settles O56: both words have effects of a walk, the MOCS word after the request is taken, and an effect keeps the registers. -/
theorem wordsOfARequestChangeNoRegister : Obligations.WordsOfARequestChangeNoRegister := by
  unfold Obligations.WordsOfARequestChangeNoRegister
  rintro i s t (⟨l, hi⟩ | hi) h
  · obtain ⟨wk, -, -, hE⟩ := exec_entry_effect hi h
    exact hE.sameRegisters
  · obtain ⟨index, rsv, rfl⟩ := exists_mocs_of_slot hi
    obtain ⟨r, rest, -, hE⟩ := exec_mocs_effect h
    exact hE.sameRegisters

/-! ### The fields of a control word -/

/-- A field of a word, as a number. -/
theorem extractLsb'_eq_ofNat_iff {m : Nat} (w : BitVec m) (k : Nat) {n c : Nat} (hc : c < 2 ^ n) :
    w.extractLsb' k n = BitVec.ofNat n c ↔ w.toNat / 2 ^ k % 2 ^ n = c := by
  rw [← BitVec.toNat_inj, BitVec.extractLsb'_toNat, Nat.shiftRight_eq_div_pow, BitVec.toNat_ofNat, Nat.mod_eq_of_lt hc]

/-- LeCC is `10b` or `11b` exactly where bit 1 is set. -/
theorem getLsbD_one_eq {n : Nat} (g : BitVec n) : g.getLsbD 1 = decide (2 ≤ g.toNat % 4) := by
  rw [BitVec.getLsbD, Nat.testBit_eq_decide_div_mod_eq, decide_eq_decide]
  omega

/-! ### The caching decisions -/

/-- The L3 skip test as rule R144 has it. -/
theorem l3Skips_eq (e : BitVec 16) (a : Nat) :
    l3Skips e a =
      (e.getLsbD 0 && decide (∃ k : Fin 3, e.getLsbD (1 + k) = true ∧ a.testBit (10 + k) ≠ a.testBit (16 + k))) := by
  rw [l3Skips, Bool.eq_iff_iff]
  simp [l3SkipBit, addrBit, Fin.exists_fin_succ, or_assoc]

/-- The LLC skip test as rule R151 has it. -/
theorem llcPasses_eq (g : Word32) (a : Nat) :
    llcPasses g a = decide (∀ k : Fin 3, g.getLsbD (8 + k) = true → a.testBit (9 + k) = false) := by
  rw [llcPasses, Bool.eq_iff_iff]
  simp [addrBit, Fin.forall_fin_succ, and_assoc]

/-- What L3CC decides (rules R141, R144). -/
theorem l3Caches_eq (e : BitVec 16) (a : Nat) :
    l3Caches e a =
      if e.toNat / 16 % 4 = 3 then some (!l3Skips e a) else if e.toNat / 16 % 4 = 1 then some false else none := by
  have hcc := fun c (hc : c < 2 ^ 2) => extractLsb'_eq_ofNat_iff e 4 hc
  simp only [l3Caches, hcc 3 (by decide), hcc 1 (by decide)]
  rfl

/-- What LeCC, SCC and ERSC decide (rule R151). -/
theorem llcCaches_eq (g : Word32) (a : Nat) :
    llcCaches g a =
      if g.getLsbD 7 = true ∧ g.toNat / 256 % 8 = 0 then none
      else some (decide (2 ≤ g.toNat % 4) && (llcPasses g a ^^ g.getLsbD 7)) := by
  have hscc : g.extractLsb' 8 3 = 0#3 ↔ g.toNat / 256 % 8 = 0 := extractLsb'_eq_ofNat_iff g 8 (by decide)
  simp only [llcCaches, Bool.and_eq_true, decide_eq_true_eq, hscc, getLsbD_one_eq]

/-! ### The parts of a label -/

theorem hdcL1Cacheable_iff (c : Client) (i : BitVec 6) :
    hdcL1Cacheable c i = true ↔ (c = .directEu ∨ c = .dataPort) ∧ 48 ≤ i.toNat ∧ i.toNat ≤ 59 := by
  simp only [hdcL1Cacheable, Bool.and_eq_true, Bool.or_eq_true, decide_eq_true_eq, and_assoc]

/-- LeCC and the memory type of the page do not contradict each other (rule R165). -/
theorem State.leccSettles_iff {i : BitVec 6} {ty : Option MemType} :
    s.leccSettles i ty = true ↔ ∀ m, ty = some m → m = memTypeOf ((s.llcControl i).extractLsb' 0 2) := by
  cases ty with
  | none => exact iff_of_true rfl fun m h => nomatch h
  | some m => simp [State.leccSettles, LlcWord.ofBits]

section agreement

variable {i : BitVec 6} {a n : Nat} {b : Bool}

theorem State.labelL3_eq (hu : usableIndex i) (hn : 1 ≤ n)
    (h : ∀ k < n, l3Caches (s.l3Control i) (a + k) = some b) : s.labelL3 i a n = b := by
  rw [State.labelL3, if_pos ((indexDefined_iff i).2 hu), agreed_eq_some hn h, Option.getD_some]

theorem State.labelLlc_eq {ty : Option MemType} (hu : usableIndex i)
    (ht : ∀ m, ty = some m → m = memTypeOf ((s.llcControl i).extractLsb' 0 2)) (hn : 1 ≤ n)
    (h : ∀ k < n, llcCaches (s.llcControl i) (a + k) = some b) : s.labelLlc i a n ty = b := by
  rw [State.labelLlc, (indexDefined_iff i).2 hu, State.leccSettles_iff.2 ht, Bool.and_self, if_pos rfl,
    agreed_eq_some hn h, Option.getD_some]

/-- A dirty line leaves the L3 by the LLC control of its eviction index (rule R162). -/
theorem State.eviction_eq_some {kind : Access} {l3 : Bool} {index : Option (BitVec 6)} {ev : Eviction} (hn : 1 ≤ n)
    (he : s.eviction kind l3 index a n = some ev) :
    ev.index = evictionIndex index ∧
      ∀ b, (∀ k < n, llcCaches (s.llcControl ev.index) (a + k) = some b) → ev.llc = b := by
  unfold State.eviction at he
  split at he
  · cases he
    exact ⟨rfl, fun b h => by rw [agreed_eq_some hn h, Option.getD_some]⟩
  · cases he

end agreement

/-- A page of type UC or WC is cached nowhere (rule R136). -/
theorem State.gttOnly_uncached {ty : Option MemType} (h : ty = some .uc ∨ ty = some .wc) :
    s.gttOnlyL3 ty = false ∧ s.gttOnlyLlc ty = false := by
  rcases h with rfl | rfl <;> exact ⟨rfl, rfl⟩

theorem State.gttOnlyLlc_cached {ty : Option MemType} (h : ty = some .wt ∨ ty = some .wb) : s.gttOnlyLlc ty = true := by
  rcases h with rfl | rfl <;> rfl

/-- Of an object with GTT control only the state decides nothing: the memory type of the page does (rule R136). -/
theorem State.gttOnly_congr {ty : Option MemType} (h : ty ≠ none) :
    s.gttOnlyL3 ty = t.gttOnlyL3 ty ∧ s.gttOnlyLlc ty = t.gttOnlyLlc ty := by
  cases ty with
  | none => exact absurd rfl h
  | some m => cases m <;> exact ⟨rfl, rfl⟩

/-! ### The label of an access -/

section label

variable {pa a : Nat} {attrs : Option LeafAttrs}

/-- The label with an index: the controls of the index decide. -/
theorem State.label_states_of_index {i : BitVec 6} (hi : wk.index = some i) (hn : 1 ≤ wk.req.n)
    (ha : s.testsAddress wk pa a) : (s.label wk pa attrs).states s wk attrs a := by
  obtain rfl := State.skipAddr_eq ha
  simp only [State.label, hi]
  constructor
  case index => exact hi.symm
  case bits => rfl
  case memType => rfl
  case hdcL1 => simp only [hdcL1Cacheable_iff, hi, Option.some.injEq, exists_eq_left']
  case l3 =>
    rintro j b hj hu h
    obtain rfl := Option.some.inj (hi.symm.trans hj)
    exact State.labelL3_eq hu hn h
  case llc =>
    rintro j b hj hu ht h
    obtain rfl := Option.some.inj (hi.symm.trans hj)
    exact State.labelLlc_eq hu ht hn h
  case controls =>
    intro c hc
    obtain ⟨hu, ⟨⟩⟩ := Option.ite_none_right_eq_some.1 hc
    exact ⟨i, hi, (indexDefined_iff i).1 hu, llcControlsOf_ofWord _ _⟩
  case someControls =>
    intro j hj hu
    obtain rfl := Option.some.inj (hi.symm.trans hj)
    rw [if_pos ((indexDefined_iff i).2 hu)]
    exact Option.some_ne_none _
  case uncached => exact fun h => nomatch hi.symm.trans h
  case cached => exact fun h => nomatch hi.symm.trans h
  case dirty => exact State.eviction_ne_none
  case evict => exact fun e he => hi ▸ State.eviction_eq_some hn he

/-- The label without an index: the memory type of the page decides. -/
theorem State.label_states_of_no_index (hi : wk.index = none) (hn : 1 ≤ wk.req.n)
    (ha : s.testsAddress wk pa a) : (s.label wk pa attrs).states s wk attrs a := by
  obtain rfl := State.skipAddr_eq ha
  simp only [State.label, hi]
  constructor
  case index => exact hi.symm
  case bits => rfl
  case memType => rfl
  case hdcL1 => simp [hi]
  case l3 => exact fun j b hj => nomatch hi.symm.trans hj
  case llc => exact fun j b hj => nomatch hi.symm.trans hj
  case controls => exact fun c hc => nomatch hc
  case someControls => exact fun j hj => nomatch hi.symm.trans hj
  case uncached => exact fun _ => State.gttOnly_uncached
  case cached => exact fun _ => State.gttOnlyLlc_cached
  case dirty => exact State.eviction_ne_none
  case evict => exact fun e he => hi ▸ State.eviction_eq_some hn he

theorem State.label_states (hn : 1 ≤ wk.req.n) (ha : s.testsAddress wk pa a) :
    (s.label wk pa attrs).states s wk attrs a := by
  cases hi : wk.index with
  | some i => exact State.label_states_of_index hi hn ha
  | none => exact State.label_states_of_no_index hi hn ha

/-- Without an index, what the two caches do is a function of the memory type. -/
theorem State.label_congr_of_no_index {wk' : Walk} {pa' : Nat} {attrs' : Option LeafAttrs} (hi : wk.index = none)
    (hi' : wk'.index = none) (hne : (s.label wk pa attrs).memType ≠ none)
    (he : (s.label wk pa attrs).memType = (t.label wk' pa' attrs').memType) :
    (s.label wk pa attrs).l3 = (t.label wk' pa' attrs').l3 ∧ (s.label wk pa attrs).llc = (t.label wk' pa' attrs').llc := by
  simp only [State.label, hi, hi'] at hne he ⊢
  rw [← he]
  exact State.gttOnly_congr hne

end label

/-! ### The memory type of a leaf -/

/-- With the required table in place the first four PAT indices select its rows (rule R163). -/
theorem State.patType_of_required (hp : s.pat.toList = requiredPat) {p : BitVec 3} (h : p.toNat < 4) :
    s.patType p = memTypeOf (requiredPat[p.toNat]'h) := by
  simp only [State.patType, dif_pos h, ← hp, Vector.getElem_toList]

/-- Settles O41: the decisions of the two caches bit by bit, then the label they are put together to. -/
theorem cachingAndMemoryType : Obligations.CachingAndMemoryType := by
  unfold Obligations.CachingAndMemoryType
  refine ⟨fun e a => ⟨fun h => ?_, fun h => ?_, fun h => ?_⟩, fun g a => ⟨fun h => ?_, fun h hs => ?_, fun h hs => ?_⟩,
    fun s wk pa a attrs => State.label_states, fun s t wk wk' pa pa' attrs attrs' => State.label_congr_of_no_index,
    fun s hp => ?_⟩
  · rw [l3Caches_eq, if_pos h, l3Skips_eq]
  · rw [l3Caches_eq, if_neg (by omega), if_pos h]
  · rw [l3Caches_eq, if_neg (by omega), if_neg (by omega)]
  · rw [llcCaches_eq, if_neg fun h1 => Bool.false_ne_true (h.symm.trans h1.1), llcPasses_eq, h, Bool.xor_false]
  · rw [llcCaches_eq, if_neg fun h1 => hs h1.2, llcPasses_eq, h, Bool.xor_true]
  · rw [llcCaches_eq, if_pos ⟨h, hs⟩]
  · exact ⟨State.patType_of_required hp (by decide), State.patType_of_required hp (by decide),
      State.patType_of_required hp (by decide), State.patType_of_required hp (by decide)⟩

end Sys2Proof.Machine
end

section
/-!
The target access of a request inside memory, as a read and as a write (rule R61), and the Global GTT: a present entry is the
access at its page, and `GGTT_Update` is a store of the host's inside the 8MB table (rules R173, R175).
-/

namespace Sys2Proof.Machine

variable {s : State} {wk : Walk} {pa : Nat} {attrs : Option LeafAttrs}

/-! ### The target access -/

theorem accessTarget_read (hk : wk.req.kind = .read) (hin : pa + wk.req.n ≤ s.memSize) :
    ∃ t, s.accessTarget wk pa attrs = .next t ∧ s.readCompletion wk pa attrs t := by
  rw [State.accessTarget, if_pos (inMemory_iff.2 hin), hk]
  refine ⟨_, rfl, rfl, rfl, rfl, ?_⟩
  simp [State.sameRegisters, State.sameBytes, State.sameEvents, State.sameRest, State.sameTurns, State.byte]

theorem accessTarget_write (hk : wk.req.kind = .write) (hm : s.memWf = true) (hin : pa + wk.req.n ≤ s.memSize) :
    ∃ t, s.accessTarget wk pa attrs = .next t ∧ s.writeCompletion wk pa attrs t := by
  rw [State.accessTarget, if_pos (inMemory_iff.2 hin), hk]
  refine ⟨_, rfl, rfl, rfl, rfl, State.storedBytes_store (ag := .engine wk.req.engine) (r := some wk.route)
    (l := some (s.label wk pa attrs)) hm hin, ?_⟩
  simp [State.sameRegisters, State.sameEvents, State.sameRest, State.sameTurns]

/-! ### The Global GTT -/

/-- A present Global GTT entry is the access at its page, whatever its Function Number and the kind of the access (rules R177,
R178). -/
theorem exec_ggttPte_present {addr : BitVec 34} {fn : BitVec 3} (hw : s.walk = some wk) (hl : wk.level = .ggtt) :
    exec (.ggttPte addr fn true) s = s.accessTarget wk (page4k addr wk.va).toNat none := atLevel_of_walk hw hl

/-- Settles O11: the entry leads to the target access, a read. -/
theorem ggttPteReads : Obligations.GgttPteReads := by
  unfold Obligations.GgttPteReads
  intro s wk addr fn hw hl hk hin
  rw [exec_ggttPte_present hw hl]
  exact accessTarget_read hk hin

/-- Settles O12: the entry leads to the target access, a write. -/
theorem ggttPteWrites : Obligations.GgttPteWrites := by
  unfold Obligations.GgttPteWrites
  intro s wk addr fn hw hl hk hm hin
  rw [exec_ggttPte_present hw hl]
  exact accessTarget_write hk hm hin

/-- Every one of the 2^20 entries lies inside the table (rule R170). -/
theorem ggttEntry_inside {base size : Nat} (idx : BitVec 20) (h : base + 0x800000 ≤ size) :
    base + idx.toNat * 8 + 8 ≤ size := by
  have := idx.isLt
  omega

theorem State.ggttUpdate_inside {idx : BitVec 20} {v : Word64} (hin : s.pgtblCtl.toNat + idx.toNat * 8 + 8 ≤ s.memSize) :
    s.ggttUpdate idx v = .next (s.store .host (s.pgtblCtl.toNat + idx.toNat * 8) 8 v.toNat none none) := by
  rw [State.ggttUpdate, if_pos (inMemory_iff.2 hin)]

/-- Settles O13: the input is taken, and the eight bytes of the entry are stored as the host's. The value written is in the
history whole, having no more than eight bytes. -/
theorem ggttUpdateWritesTheEntry : Obligations.GgttUpdateWritesTheEntry := by
  unfold Obligations.GgttUpdateWritesTheEntry
  intro s u p idx v rest hu hp hm htable
  have hin : u.pgtblCtl.toNat + idx.toNat * 8 + 8 ≤ u.memSize := ggttEntry_inside idx htable
  have hv : v.toNat % 256 ^ 8 = v.toNat := Nat.mod_eq_of_lt v.isLt
  refine ⟨(u.cycleDone rest).store .host (u.pgtblCtl.toNat + idx.toNat * 8) 8 v.toNat none none, ?_,
    State.storedBytes_store (s := u.cycleDone rest) hm hin, ?_, ?_⟩
  · rw [step_input hu hp rfl, State.environment, State.ggttUpdate_inside (s := u.cycleDone rest) hin]
    rfl
  · rw [State.store_history, hv]
    rfl
  · simp [State.sameRegisters, State.sameEvents, State.sameTurns, hp.1]

end Sys2Proof.Machine
end

section
/-!
The words of the Per-Process GTT, met where their format stands: a present pointer descends, an entry with its present bit clear
faults (rules R184 to R193). With them, what the decoder bounds (rule R199) and the second-level translation (rule R203).
-/

namespace Sys2Proof

open Machine

/-! ### Addresses below `HAW` -/

/-- The page that a field of the address bits `HAW-1:lo` names ends at or below `2^HAW`. -/
theorem Haw.page_le_of_fits {h : Haw} {lo n : Nat} {addr : BitVec n} (hf : h.fits lo addr = true) (hlo : lo ≤ h.bits) :
    addr.toNat * 2 ^ lo + 2 ^ lo ≤ 2 ^ h.bits :=
  calc addr.toNat * 2 ^ lo + 2 ^ lo
    _ = (addr.toNat + 1) * 2 ^ lo := (Nat.succ_mul _ _).symm
    _ ≤ 2 ^ (h.bits - lo) * 2 ^ lo := Nat.mul_le_mul_right _ (of_decide_eq_true hf)
    _ = 2 ^ h.bits := by rw [← Nat.pow_add, Nat.sub_add_cancel hlo]

theorem Haw.le_bits (h : Haw) {lo : Nat} (hlo : lo ≤ 39) : lo ≤ h.bits :=
  hlo.trans (by cases h <;> decide)

/-- An address in a page below `2^HAW`. -/
theorem Haw.add_lt_of_fits {h : Haw} {lo n off : Nat} {addr : BitVec n} (hf : h.fits lo addr = true) (hlo : lo ≤ 39) :
    addr.toNat * 2 ^ lo + off % 2 ^ lo < 2 ^ h.bits :=
  lt_of_lt_of_le (Nat.add_lt_add_left (Nat.mod_lt _ (Nat.two_pow_pos lo)) _) (Haw.page_le_of_fits hf (h.le_bits hlo))

/-- The output address of a well-formed word of the page tables is below `2^HAW` (rule R199). -/
theorem outputAddr_lt {h : Haw} {i : Instr} {l : Level} {va : BitVec 48} {pa : Nat} (hwf : i.wf h = true)
    (hi : i.slot = .entry l) (hl : levelIsTr l = false) (ho : outputAddr i va = some pa) : pa < 2 ^ h.bits := by
  cases i <;> simp only [outputAddr, Option.some.injEq, reduceCtorEq] at ho
  case ggttPte => rw [← ho, toNat_page4k]; exact Haw.add_lt_of_fits hwf (by decide)
  case pdpe1gb => rw [← ho, toNat_page1g]; exact Haw.add_lt_of_fits hwf (by decide)
  case pde2mb => rw [← ho, toNat_page2m]; exact Haw.add_lt_of_fits hwf (by decide)
  case pte64kb => rw [← ho, toNat_page64k]; exact Haw.add_lt_of_fits hwf (by decide)
  case pte4kb => rw [← ho, toNat_page4k]; exact Haw.add_lt_of_fits hwf (by decide)
  case trttL1e =>
    cases hi
    cases hl

/-- The 4KB table that a well-formed pointer names lies below `2^HAW` (rule R199). -/
theorem tableBase_add_le {h : Haw} {addr : BitVec 34} (hf : h.fits 12 addr = true) :
    tableBase addr + 4096 ≤ 2 ^ h.bits :=
  Haw.page_le_of_fits hf (h.le_bits (by decide))

/-- Settles O6: the decoder's words are well formed, so their address fields end at bit `HAW-1`. -/
theorem decodedAddressesBelowHaw : Obligations.DecodedAddressesBelowHaw := by
  unfold Obligations.DecodedAddressesBelowHaw
  intro h l w i va hl hd
  have hwf : i.wf h = true := decodeWord_of_decode hd ▸ wf_decodeWord h (.entry l) w
  refine ⟨fun pa => outputAddr_lt hwf (decode_slot hd) hl, ?_, ?_⟩
  · rintro a rw p (rfl | rfl) <;> exact tableBase_add_le hwf
  · rintro a m64 rw p rfl
    exact tableBase_add_le hwf

end Sys2Proof

namespace Sys2Proof.Machine

variable {s : State} {wk : Walk}

/-! ### The second-level translation -/

theorem State.hostPhys_of_nested {c a : Nat} (h : (s.ctx c).desc.neste = true) :
    s.hostPhys c a =
      (Config.secondLevel c s.vtdEpoch (a / 4096)).map (fun p => p % (s.memSize / 4096) * 4096 + a % 4096) := by
  rw [State.hostPhys, h, if_pos rfl]

/-- A page of the second level, reduced below `2^HAW`, with the offset of an address. -/
theorem State.hostPage_lt (s : State) (p a : Nat) : p % (s.memSize / 4096) * 4096 + a % 4096 < s.memSize := by
  have hpages : 0 < s.memSize / 4096 := by unfold State.memSize; cases s.params.haw <;> decide
  have hpage := Nat.mod_lt p hpages
  have hwhole := s.memSize_mod
  omega

/-- Settles O17: the two cases of the translation, the second with its page below `2^HAW` and its offset kept. -/
theorem nestedTranslationRule : Obligations.NestedTranslationRule := by
  unfold Obligations.NestedTranslationRule
  refine fun s c a => ⟨State.hostPhys_of_not_nested, State.hostPhys_of_nested, fun hn h hh => ?_⟩
  rw [State.hostPhys_of_nested hn, Option.map_eq_some_iff] at hh
  obtain ⟨p, -, rfl⟩ := hh
  exact ⟨s.hostPage_lt p a, by omega, by omega⟩

/-! ### Pointers -/

theorem exec_pml4e {addr : BitVec 34} {rw : Bool} (hw : s.walk = some wk) (hl : wk.level = .pml4) :
    exec (.pml4e addr rw true) s = s.descend wk .pdp (addr.toNat * 4096) rw := atLevel_of_walk hw hl

theorem exec_pdpePd {addr : BitVec 34} {rw : Bool} (hw : s.walk = some wk) (hl : wk.level = .pdp) :
    exec (.pdpePd addr rw true) s = s.descend wk .pd (addr.toNat * 4096) rw := atLevel_of_walk hw hl

theorem exec_pdePt {addr : BitVec 34} {m64 rw : Bool} (hw : s.walk = some wk) (hl : wk.level = .pd) :
    exec (.pdePt addr m64 rw true) s = s.descend wk (if m64 then .pt64k else .pt4k) (addr.toNat * 4096) rw :=
  atLevel_of_walk hw hl

/-- A pointer to a table that has a host address hands it to the next level (rules R184, R185, R187). -/
theorem descend_some {l : Level} {table base : Nat} {rw : Bool} (hb : s.hostPhys wk.req.ctx table = some base) :
    s.descend wk l table rw =
      .next (s.withWalk { wk with level := l, entry := .memory (entryAddr l base wk.va), rw := wk.rw && rw }) := by
  rw [State.descend, hb, Option.map_some, readNext_some]

theorem entryAddr_pdp (base : Nat) (va : BitVec 48) : entryAddr .pdp base va = base + va.toNat / 2 ^ 30 % 512 * 8 :=
  entryAddr_of_levelIndex (l := .pdp) rfl base

theorem entryAddr_pd (base : Nat) (va : BitVec 48) : entryAddr .pd base va = base + va.toNat / 2 ^ 21 % 512 * 8 :=
  entryAddr_of_levelIndex (l := .pd) rfl base

theorem entryAddr_pt4k (base : Nat) (va : BitVec 48) : entryAddr .pt4k base va = base + va.toNat / 2 ^ 12 % 512 * 8 :=
  entryAddr_of_levelIndex (l := .pt4k) rfl base

/-- Settles O15: each pointer descends, with the index of the level below. -/
theorem upperPointersDescend : Obligations.UpperPointersDescend := by
  unfold Obligations.UpperPointersDescend
  intro s wk addr rw base hw hb
  refine ⟨fun hl => ?_, fun hl => ?_⟩
  · rw [exec_pml4e hw hl, descend_some hb, entryAddr_pdp]
    rfl
  · rw [exec_pdpePd hw hl, descend_some hb, entryAddr_pd]
    rfl

/-- Settles O16: the pointer descends to the page-table level that its 64KB bit names. -/
theorem pdePtSelectsThePageTableEntry : Obligations.PdePtSelectsThePageTableEntry := by
  unfold Obligations.PdePtSelectsThePageTableEntry
  intro s wk addr rw base hw hl hb
  refine ⟨?_, ?_⟩
  · rw [exec_pdePt hw hl, if_neg Bool.false_ne_true, descend_some hb, entryAddr_pt4k]
    rfl
  · rw [exec_pdePt hw hl, if_pos rfl, descend_some hb, entryAddr_pt64k]
    rfl

/-! ### Entries that are not present -/

/-- An entry of the page tables with P = 0 is not looked at further (rule R193). -/
theorem exec_notPresent {i : Instr} (hw : s.walk = some wk) (hi : i.slot = .entry wk.level)
    (hp : presentBit i = some false) :
    exec i s = s.raiseFault wk.req (.pageNotPresent wk.va (levelStage wk.level)) := by
  cases i <;> simp only [presentBit, Option.some.injEq, reduceCtorEq] at hp
  all_goals
    subst hp
    exact atLevel_of_walk hw (Slot.entry.inj hi).symm

/-- The level a fault names, at a level of the page tables. -/
theorem levelStage_eq {l : Level} (hl : levelIsTr l = false) :
    levelStage l = if l = .pml4 then .pml4 else if l = .pdp then .pdp else if l = .pd then .pd else .pt := by
  cases l with
  | trL3 | trL2 | trL1 => cases hl
  | _ => rfl

/-- A word with a present bit stands at a level of the page tables. -/
theorem levelIsTr_of_presentBit {i : Instr} {l : Level} {p : Bool} (hi : i.slot = .entry l) (hp : presentBit i = some p) :
    levelIsTr l = false := by
  cases i <;> simp only [presentBit, reduceCtorEq] at hp
  all_goals
    cases hi
    rfl

/-- Settles O24: the seven formats by their present bit, and the Global GTT entry. -/
theorem notPresentEntryFaults : Obligations.NotPresentEntryFaults := by
  unfold Obligations.NotPresentEntryFaults
  refine ⟨fun s wk i hw hi hp => ?_, fun s wk addr fn hw hl => atLevel_of_walk hw hl⟩
  rw [exec_notPresent hw hi hp, levelStage_eq (levelIsTr_of_presentBit hi hp)]

end Sys2Proof.Machine
end

section
/-!
What a leaf of the Per-Process GTT does for the request's own address: the target access at the output address, the denied write
(rules R190, R194), and the one way in which a table word can store (rule R205).
-/

namespace Sys2Proof.Machine

variable {s t : State} {wk : Walk} {pa : BitVec 46} {lm null rw : Bool} {attrs : LeafAttrs}

/-! ### The page of a request -/

/-- A permitted leaf that is no null page leads to its output address (rule R190). -/
theorem leaf_page (hden : wk.denies rw = false) (hlm : (lm && s.params.hasLocalMemory) = false) :
    s.leaf wk pa lm false rw attrs = s.arrive wk (s.hostPhys wk.req.ctx pa.toNat) attrs := by
  simp only [State.leaf, hden, hlm, Bool.false_eq_true, if_false]

/-- At the output address of the request's own address stands the target access (rule R61). -/
theorem leaf_target {hpa : Nat} (hd : wk.dest = .target) (hden : wk.denies rw = false)
    (hlm : (lm && s.params.hasLocalMemory) = false) (hp : s.hostPhys wk.req.ctx pa.toNat = some hpa) :
    s.leaf wk pa lm false rw attrs = s.accessTarget wk hpa (some attrs) := by
  rw [leaf_page hden hlm, hp]
  simp only [State.arrive, hd]

theorem Walk.denies_of_read (hk : wk.req.kind = .read) : wk.denies rw = false :=
  Walk.denies_eq_false fun hw => nomatch hk.symm.trans hw

/-- A present leaf word that is no null page is the target access at its output address (rules R186 to R191). -/
theorem exec_leafWord_target {i : Instr} {f : LeafFlags} {out hpa : Nat} (hw : s.walk = some wk)
    (hi : i.slot = .entry wk.level) (hf : leafFlags i = some f) (ho : outputAddr i wk.va = some out) (hp : f.p = true)
    (hnull : f.null = false) (hlm : (f.lm && s.params.hasLocalMemory) = false) (hd : wk.dest = .target)
    (hden : wk.denies f.rw = false) (hhp : s.hostPhys wk.req.ctx out = some hpa) :
    exec i s = s.accessTarget wk hpa (leafAttrs (Config.freeLargePagePat s.draws) i) := by
  obtain ⟨page, attrs, hpage, hattrs, he⟩ := exec_leafWord hw hi hf hp
  obtain rfl := Option.some_inj.1 (ho.symm.trans hpage)
  rw [he, hnull, hattrs, leaf_target hd hden hlm hhp]

/-- Settles O19: the leaf denies no read, and the access at its output address is one. -/
theorem leafWordsRead : Obligations.LeafWordsRead := by
  unfold Obligations.LeafWordsRead
  intro s wk i f pa hpa hw hi hf ho hp hnull hlm hd hk hhp hin
  rw [exec_leafWord_target hw hi hf ho hp hnull hlm hd (Walk.denies_of_read hk) hhp]
  exact accessTarget_read hk hin

/-- Settles O20: the leaf denies no write whose path permits it, and the access at its output address is one. -/
theorem leafWordsWrite : Obligations.LeafWordsWrite := by
  unfold Obligations.LeafWordsWrite
  intro s wk i f pa hpa hw hi hf ho hp hnull hlm hd hk hrw hhp hm hin
  rw [exec_leafWord_target hw hi hf ho hp hnull hlm hd (Walk.denies_eq_false fun _ => hrw) hhp]
  exact accessTarget_write hk hm hin

/-! ### Denied writes -/

theorem Walk.denies_eq_true (hd : wk.dest = .target) (hk : wk.req.kind = .write) (hrw : (wk.rw && rw) = false) :
    wk.denies rw = true := by
  rw [Walk.denies, hrw, decide_eq_true (Walk.accessKind_eq_write.2 ⟨hd, hk⟩)]
  rfl

theorem leaf_denied (hden : wk.denies rw = true) :
    s.leaf wk pa lm false rw attrs = s.raiseFault wk.req (.writeProtect wk.va) := by
  simp only [State.leaf, hden, Bool.false_eq_true, if_false, if_true]

/-- A denied write to a null page faults or is dropped, by the draw (rule R194). -/
theorem leaf_nullDenied (hd : wk.dest = .target) (hden : wk.denies rw = true) :
    s.leaf wk pa lm true rw attrs = s.raiseFault wk.req (.writeProtect wk.va) ∨
      s.leaf wk pa lm true rw attrs = .next (s.completeNull wk.req) := by
  simp only [State.leaf, hden, Bool.true_and, if_true, State.nullLeaf, hd]
  exact ite_eq_or_eq _ _ _

/-- Settles O23: the leaf denies the write, and of a null page the draw decides. -/
theorem deniedWrites : Obligations.DeniedWrites := by
  unfold Obligations.DeniedWrites
  intro s wk i f hw hi hf hp hd hk hrw
  obtain ⟨page, attrs, -, -, he⟩ := exec_leafWord hw hi hf hp
  have hden := Walk.denies_eq_true hd hk hrw
  refine ⟨fun hnull => ?_, fun hnull => ?_⟩
  · rw [he, hnull, leaf_denied hden]
  · rw [hnull] at he
    rw [he]
    refine (leaf_nullDenied hd hden).imp id fun hn => ?_
    exact ⟨_, hn, s.nullCompletion_completeNull wk.req, rfl⟩

/-! ### What a table word stores -/

/-- A step of the request in flight that stores nothing, or is its target access at `pa` (rule R205). -/
def State.storesAtMost (s : State) (wk : Walk) (pa : Option Nat) (t : State) : Prop :=
  s.sameBytes t ∨ ∃ a attrs, pa = some a ∧ (wk.level ≠ .ggtt → wk.dest = .target) ∧ s.accessTarget wk a attrs = .next t

theorem State.sameBytes_of_mem (hm : t.mem = s.mem) (he : t.resetEpoch = s.resetEpoch) (hv : t.vtdEpoch = s.vtdEpoch) :
    s.sameBytes t := ⟨State.byte_congr hm he, hv⟩

theorem raiseFault_sameBytes {r : Request} {f : Fault} (h : s.raiseFault r f = .next t) : s.sameBytes t := by
  rw [raiseFault_next h]
  exact State.sameBytes_of_mem rfl rfl rfl

theorem readNext_sameBytes {w : Walk} {a : Option Nat} {f : Fault} (h : s.readNext w a f = .next t) : s.sameBytes t := by
  unfold State.readNext at h
  split at h
  · cases h
    exact State.sameBytes_of_mem rfl rfl rfl
  · split at h
    · exact raiseFault_sameBytes h
    · cases h
      exact State.sameBytes_of_mem rfl rfl rfl

theorem trRead_sameBytes {st : TrStep} {a : BitVec 48} (h : s.trRead wk st a = .next t) : s.sameBytes t := by
  unfold State.trRead at h
  split at h
  · split at h
    · cases h
    · cases h
    · exact readNext_sameBytes h
  · split at h
    · cases h
    · exact readNext_sameBytes h

theorem trPointer_sameBytes {addr : BitVec 36} {null inv : Bool} {st : TrStep}
    (h : s.trPointer wk addr null inv st = .next t) : s.sameBytes t := by
  unfold State.trPointer at h
  split at h
  · cases h
  · split at h
    · cases h
      exact State.sameBytes_of_mem rfl rfl rfl
    · exact trRead_sameBytes h

theorem nullLeaf_sameBytes (h : s.nullLeaf wk = .next t) : s.sameBytes t := by
  unfold State.nullLeaf at h
  split at h
  · cases h
    exact State.sameBytes_of_mem rfl rfl rfl
  · cases h

/-- A leaf stores at most at its output address after the second-level translation. -/
theorem leaf_storesAtMost (h : s.leaf wk pa lm null rw attrs = .next t) :
    s.storesAtMost wk (s.hostPhys wk.req.ctx pa.toNat) t := by
  unfold State.leaf at h
  split at h
  · split at h
    · exact .inl (raiseFault_sameBytes h)
    · exact .inl (nullLeaf_sameBytes h)
  · split at h
    · exact .inl (raiseFault_sameBytes h)
    · split at h
      · cases h
      · unfold State.arrive at h
        split at h
        · rename_i a hd hp
          exact .inr ⟨a, _, hp, fun _ => hd, h⟩
        · exact .inl (raiseFault_sameBytes h)
        · exact .inl (readNext_sameBytes h)

/-- An entry of the page tables: what a present one does, or the fault. -/
theorem ite_notPresent_storesAtMost {p : Bool} {o : Res} {a : Option Nat}
    (h : (if p then o else s.notPresent wk) = .next t) (ho : o = .next t → s.storesAtMost wk a t) :
    s.storesAtMost wk a t := by
  cases p with
  | true => exact ho h
  | false => exact .inl (raiseFault_sameBytes h)

/-- A table word stores at most at the address that `State.targetAddr` names. -/
theorem exec_entry_storesAtMost {i : Instr} {l : Level} (hi : i.slot = .entry l) (hw : s.walk = some wk)
    (h : exec i s = .next t) : s.storesAtMost wk (s.targetAddr wk i) t := by
  cases i <;> simp only [Instr.slot, reduceCtorEq] at hi
  all_goals
    obtain ⟨wk', hw', hl, hk⟩ := atLevel_next h
    cases hw.symm.trans hw'
  case ggttPte =>
    split at hk
    · exact .inr ⟨_, _, rfl, fun hne => absurd hl hne, hk⟩
    · exact .inl (raiseFault_sameBytes hk)
  case pml4e | pdpePd | pdePt => exact ite_notPresent_storesAtMost hk fun ho => .inl (readNext_sameBytes ho)
  case pdpe1gb | pde2mb | pte64kb | pte4kb => exact ite_notPresent_storesAtMost hk leaf_storesAtMost
  case trttL3e | trttL2e => exact .inl (trPointer_sameBytes hk)
  case trttL1e =>
    split at hk
    · cases hk
    · split at hk
      · cases hk
        exact .inl (State.sameBytes_of_mem rfl rfl rfl)
      · exact .inl (readNext_sameBytes hk)

theorem accessTarget_inside {a : Nat} {attrs : Option LeafAttrs} (h : s.accessTarget wk a attrs = .next t) :
    a + wk.req.n ≤ s.memSize := by
  unfold State.accessTarget at h
  split at h
  · exact inMemory_iff.1 ‹_›
  · cases h

/-- Settles O57: a table word is at most a target access, which stores where the request is a write. -/
theorem onlyACompletedWriteChangesMemory : Obligations.OnlyACompletedWriteChangesMemory := by
  unfold Obligations.OnlyACompletedWriteChangesMemory
  intro i s t wk l hi hw hm h
  rcases exec_entry_storesAtMost hi hw h with hsame | ⟨a, attrs, ha, hdest, hacc⟩
  · exact .inl hsame
  · have hin := accessTarget_inside hacc
    cases hk : wk.req.kind with
    | read =>
      obtain ⟨u, hu, -, -, -, -, hsame, -⟩ := accessTarget_read (attrs := attrs) hk hin
      cases hacc.symm.trans hu
      exact .inl hsame
    | write =>
      obtain ⟨u, hu, hwalk, hres, -, hstored, -⟩ := accessTarget_write (attrs := attrs) hk hm hin
      cases hacc.symm.trans hu
      exact .inr ⟨rfl, hdest, hwalk, hres, a, ha, hstored⟩

end Sys2Proof.Machine
end

section
/-!
Where the second-level translation gives no address (rules R69, R182, R203). Every operation that reads a next entry comes down
to `State.readNext`, which without an address is `State.noAddress`; the rest is which entry each word reads next.
-/

namespace Sys2Proof.Machine

variable {s : State} {wk : Walk}

theorem readNext_none (s : State) (wk : Walk) (f : Fault) : s.noAddress wk f (s.readNext wk none f) := by
  simp only [State.noAddress, State.readNext, List.isEmpty_iff]
  exact ⟨fun h => if_pos h, fun h => if_neg h⟩

/-! ### The operations without an address -/

theorem descend_none {l : Level} {table : Nat} {rw : Bool} (hp : s.hostPhys wk.req.ctx table = none) :
    s.noAddress { wk with level := l, rw := wk.rw && rw } (.pageNotPresent wk.va (levelStage l))
      (s.descend wk l table rw) := by
  rw [State.descend, hp]
  exact readNext_none _ _ _

theorem startPpgtt_none {va : BitVec 48} {d : Dest}
    (hp : s.hostPhys wk.req.ctx (s.ctx wk.req.ctx).desc.pml4Ptr.toNat = none) :
    s.noAddress { wk with level := .pml4, va := va, rw := true, dest := d, tableAttrs := none }
      (.pageNotPresent va .pml4) (s.startPpgtt wk va d) := by
  rw [State.startPpgtt, hp]
  exact readNext_none _ _ _

theorem trRead_gpa_none {st : TrStep} {a : BitVec 48} (hv : (s.ctx wk.req.ctx).tablesVirtual = false)
    (ha : a.toNat < s.memSize) (hp : s.hostPhys wk.req.ctx a.toNat = none) :
    s.noAddress { wk with level := st.level, dest := .target, tableAttrs := none }
      (.pageNotPresent a (levelStage st.level)) (s.trRead wk st a) := by
  rw [State.trRead, hv, if_neg Bool.false_ne_true, if_neg (Nat.not_le.2 ha), hp]
  exact readNext_none _ _ _

/-- The read of a table word, in GPA space and in the virtual address space (rule R124). -/
theorem trRead_none (s : State) (wk : Walk) (st : TrStep) (a : BitVec 48) :
    ((s.ctx wk.req.ctx).tablesVirtual = false → a.toNat < s.memSize →
      (∃ hpa, s.hostPhys wk.req.ctx a.toNat = some hpa) ∨
        s.noAddress { wk with level := st.level, dest := .target, tableAttrs := none }
          (.pageNotPresent a (levelStage st.level)) (s.trRead wk st a)) ∧
    ((s.ctx wk.req.ctx).tablesVirtual = true → trvaHit (s.ctx wk.req.ctx).trvadr a = some false →
      (∃ base, s.hostPhys wk.req.ctx (s.ctx wk.req.ctx).desc.pml4Ptr.toNat = some base) ∨
        s.noAddress { wk with level := .pml4, va := a, rw := true, dest := .table st, tableAttrs := none }
          (.pageNotPresent a .pml4) (s.trRead wk st a)) := by
  refine ⟨fun hv ha => ?_, fun hv hmiss => ?_⟩
  · cases hp : s.hostPhys wk.req.ctx a.toNat with
    | some hpa => exact .inl ⟨hpa, rfl⟩
    | none => exact .inr (trRead_gpa_none hv ha hp)
  · cases hp : s.hostPhys wk.req.ctx (s.ctx wk.req.ctx).desc.pml4Ptr.toNat with
    | some base => exact .inl ⟨base, rfl⟩
    | none =>
      rw [trRead_virtual hv hmiss]
      exact .inr (startPpgtt_none hp)

/-! ### The words -/

/-- A page-table pointer whose table has no host address. -/
theorem pointers_none {addr : BitVec 34} (hw : s.walk = some wk) (hp : s.hostPhys wk.req.ctx (addr.toNat * 4096) = none)
    (rw m64 : Bool) :
    (wk.level = .pml4 → s.noAddress { wk with level := .pdp, rw := wk.rw && rw } (.pageNotPresent wk.va .pdp)
      (exec (.pml4e addr rw true) s)) ∧
    (wk.level = .pdp → s.noAddress { wk with level := .pd, rw := wk.rw && rw } (.pageNotPresent wk.va .pd)
      (exec (.pdpePd addr rw true) s)) ∧
    (wk.level = .pd → s.noAddress { wk with level := if m64 then .pt64k else .pt4k, rw := wk.rw && rw }
      (.pageNotPresent wk.va .pt) (exec (.pdePt addr m64 rw true) s)) := by
  refine ⟨fun hl => ?_, fun hl => ?_, fun hl => ?_⟩
  · rw [exec_pml4e hw hl]
    exact descend_none hp
  · rw [exec_pdpePd hw hl]
    exact descend_none hp
  · rw [exec_pdePt hw hl]
    have hstage : levelStage (if m64 then .pt64k else .pt4k) = .pt := by cases m64 <;> rfl
    rw [← hstage]
    exact descend_none hp

/-- A permitted leaf whose page has no host address: no copy stands for the page of a request; a copy of a TR-TT table word may
stand for that word. -/
theorem leaf_none {pa : BitVec 46} {lm rw : Bool} {attrs : LeafAttrs} (hden : wk.denies rw = false)
    (hlm : (lm && s.params.hasLocalMemory) = false) (hp : s.hostPhys wk.req.ctx pa.toNat = none) :
    (wk.dest = .target →
      s.leaf wk pa lm false rw attrs = s.raiseFault wk.req (.pageNotPresent wk.va (levelStage wk.level))) ∧
    (∀ st, wk.dest = .table st →
      s.noAddress { wk with level := st.level, dest := .target, tableAttrs := some attrs }
        (.pageNotPresent wk.va (levelStage wk.level)) (s.leaf wk pa lm false rw attrs)) := by
  rw [leaf_page hden hlm, hp]
  refine ⟨fun hd => ?_, fun st hd => ?_⟩
  · simp only [State.arrive, hd]
  · simp only [State.arrive, hd]
    exact readNext_none _ _ _

/-- An unflagged L3 or L2 entry reads the next table word at the address its table and index make (rules R116, R117). -/
theorem exec_trPointer_unflagged {addr : BitVec 36} {a : BitVec 48} {i : Instr} {st : TrStep} (hw : s.walk = some wk)
    (hd : (s.ctx wk.req.ctx).desc.dualContext = true → addr.toNat < 2 ^ 35)
    (hi : wk.level = .trL3 ∧ i = .trttL3e addr false false ∧ st = .l2 ∧
        a.toNat = addr.toNat * 4096 + wk.trva.toNat / 2 ^ 26 % 512 * 8 ∨
      wk.level = .trL2 ∧ i = .trttL2e addr false false ∧ st = .l1 ∧
        a.toNat = addr.toNat * 4096 + wk.trva.toNat / 2 ^ 16 % 1024 * 4) : exec i s = s.trRead wk st a := by
  rcases hi with ⟨hl, rfl, rfl, ha⟩ | ⟨hl, rfl, rfl, ha⟩
  · rw [exec_trttL3e hw hl, trPointer_unflagged hd, BitVec.eq_of_toNat_eq (ha.trans (toNat_trEntryAddr_l2 addr _).symm)]
  · rw [exec_trttL2e hw hl, trPointer_unflagged hd, BitVec.eq_of_toNat_eq (ha.trans (toNat_trEntryAddr_l1 addr _).symm)]

/-! ### The start of a request -/

variable {r : Request} {index : Option (BitVec 6)}

/-- A request the TR-TT does not take, whose PML4 table has no host address (rule R184). -/
theorem beginAccess_untiled_none (h : r.isOwn) (hk : (s.ctx r.ctx).desc.kind = .legacyPpgtt64) (hu : s.untiled r)
    (hp : s.hostPhys r.ctx (s.ctx r.ctx).desc.pml4Ptr.toNat = none) :
    s.noAddress (r.walkAt index .pml4 0 (r.va.setWidth 48) .target) (.pageNotPresent (r.va.setWidth 48) .pml4)
      (s.beginAccess r index) := by
  rw [beginAccess_own h, if_pos hk, trttStage_untiled hu, Request.newWalk_eq]
  exact startPpgtt_none (wk := r.walkAt index .ggtt 0 (r.va.setWidth 48) .target) hp

/-- Settles O18: each word, and the start of a request, by the operation that reads its next entry. -/
theorem nestedFailuresAreNotPresent : Obligations.NestedFailuresAreNotPresent := by
  unfold Obligations.NestedFailuresAreNotPresent
  refine ⟨fun s wk addr rw m64 hw => ?_, fun s wk i f out hw hi hf ho hp hnull hlm hrw => ?_,
    fun s wk addr a i st hw hd hi => ?_, fun s wk w v hw hl hnull hinv hd hv => ?_,
    fun s r index hr hk => ⟨fun hu => ?_, fun a hb hm hhit ha => ?_⟩⟩
  · cases hp : s.hostPhys wk.req.ctx (addr.toNat * 4096) with
    | some base => exact .inl ⟨base, rfl⟩
    | none => exact .inr (pointers_none hw hp rw m64)
  · obtain ⟨page, attrs, hpage, hattrs, he⟩ := exec_leafWord hw hi hf hp
    obtain rfl := Option.some_inj.1 (ho.symm.trans hpage)
    cases hhp : s.hostPhys wk.req.ctx page.toNat with
    | some hpa => exact .inl ⟨hpa, rfl⟩
    | none =>
      rw [he, hnull, hattrs]
      exact .inr (leaf_none (Walk.denies_of_permitted hrw) hlm hhp)
  · rw [exec_trPointer_unflagged hw hd hi]
    exact trRead_none s wk st a
  · cases hp : s.hostPhys wk.req.ctx (s.ctx wk.req.ctx).desc.pml4Ptr.toNat with
    | some base => exact .inl ⟨base, rfl⟩
    | none =>
      obtain rfl := BitVec.eq_of_toNat_eq (hv.trans (toNat_tileAddr w wk.trva).symm)
      rw [exec_trttL1e hw hl hd, if_neg (not_or_intro hnull hinv)]
      exact .inr (startPpgtt_none hp)
  · cases hp : s.hostPhys r.ctx (s.ctx r.ctx).desc.pml4Ptr.toNat with
    | some base => exact .inl ⟨base, rfl⟩
    | none => exact .inr (beginAccess_untiled_none hr hk hu hp)
  · obtain ⟨hgpa, hvirtual⟩ := trRead_none s (r.walkAt index .ggtt 0 (r.va.setWidth 48) .target) .l3 a
    refine ⟨fun he hallow hlt => ?_, fun he hmiss => ?_⟩
    · have hv : (s.ctx r.ctx).tablesVirtual = false := by
        rw [Context.tablesVirtual_eq, decide_eq_false_iff_not]; omega
      rw [beginAccess_tiled hr hk (by omega) hb hm (.inr hallow) hhit ha]
      exact hgpa hv hlt
    · have hv : (s.ctx r.ctx).tablesVirtual = true := by
        rw [Context.tablesVirtual_eq, decide_eq_true_iff]; omega
      rw [beginAccess_tiled hr hk (by omega) hb hm (.inl hv) hhit ha]
      exact hvirtual hv hmiss

end Sys2Proof.Machine
end

section
/-!
The page walk refines `PPGTT_Walk` (rules R184 to R195). In a context whose TLBs are cold the word of every level is the one in
memory: the walk goes down, and no level it has used holds anything under the key of a lower one. So each step is a branch of the
pseudo-code, a pointer or the end of the walk, and the theorem goes up from the page tables to the PML4 table.
-/

namespace Sys2Proof

open Machine

variable {l : Level}

/-! ### The words of the page tables as numbers -/

/-- A word `e` of the level is a leaf of pages of `2^sh` bytes (rules R90, R91). -/
abbrev Level.pageOf (l : Level) (e sh : Nat) : Prop :=
  l = .pdp ∧ e.testBit 7 = true ∧ sh = 30 ∨ l = .pd ∧ e.testBit 7 = true ∧ sh = 21 ∨ l = .pt64k ∧ sh = 16 ∨
    l = .pt4k ∧ sh = 12

/-- A word `e` of the level points to a table of the level `l'` (rules R90, R91). -/
abbrev Level.tableOf (l : Level) (e : Nat) (l' : Level) : Prop :=
  l = .pml4 ∧ l' = .pdp ∨ l = .pdp ∧ e.testBit 7 = false ∧ l' = .pd ∨
    l = .pd ∧ e.testBit 7 = false ∧ l' = if e.testBit 11 then .pt64k else .pt4k

/-- The levels of the page tables. -/
abbrev pageLevels : List Level := [.pml4, .pdp, .pd, .pt4k, .pt64k]

/-- The levels of the page tables below a level. -/
def Level.lower : Level → List Level
  | .pml4 => [.pdp, .pd, .pt4k, .pt64k]
  | .pdp => [.pd, .pt4k, .pt64k]
  | .pd => [.pt4k, .pt64k]
  | _ => []

theorem levelSize_of_page : ∀ l ∈ pageLevels, levelSize l = 8 := by decide

theorem ne_ggtt_of_page : ∀ l ∈ pageLevels, l ≠ .ggtt := by decide

theorem page_of_lower : ∀ k ∈ pageLevels, ∀ l ∈ k.lower, l ∈ pageLevels ∧ l ≠ .pml4 ∧ l ≠ k := by decide

theorem levelIndex_lt_of_page (hl : l ∈ pageLevels) (va : BitVec 48) : levelIndex l va < 512 := by
  cases l with
  | pml4 | pdp | pd | pt4k | pt64k => exact BitVec.isLt _
  | _ => exact absurd hl (by decide)

/-- A pointer leads down. -/
theorem Level.lower_of_tableOf {e : Nat} {l' : Level} (h : l.tableOf e l') : l' ∈ l.lower ∧ l'.lower ⊆ l.lower := by
  rcases h with ⟨rfl, rfl⟩ | ⟨rfl, -, rfl⟩ | ⟨rfl, -, rfl⟩
  · decide
  · decide
  · cases e.testBit 11 <;> decide

/-- The address field of a word, as the pseudo-code has it: `e[HAW-1:lo]` (rules R81, R185). -/
theorem toNat_addrField (h : Haw) {lo n : Nat} (hn : 46 ≤ lo + n) (w : Word64) :
    (addrField h lo n w).toNat = w.toNat % 2 ^ h.bits / 2 ^ lo := by
  have hmask : (w &&& BitVec.ofNat 64 (2 ^ h.bits - 1)).toNat = w.toNat % 2 ^ h.bits := by
    rw [BitVec.toNat_and, ← Nat.and_two_pow_sub_one_eq_mod]
    cases h <;> rfl
  have hlt : w.toNat % 2 ^ h.bits < 2 ^ lo * 2 ^ n :=
    calc w.toNat % 2 ^ h.bits
      _ < 2 ^ h.bits := Nat.mod_lt _ (Nat.two_pow_pos _)
      _ ≤ 2 ^ (lo + n) := Nat.pow_le_pow_right (by decide) (le_trans (by cases h <;> decide) hn)
      _ = 2 ^ lo * 2 ^ n := Nat.pow_add _ _ _
  rw [addrField, BitVec.extractLsb'_toNat, hmask, Nat.shiftRight_eq_div_pow,
    Nat.mod_eq_of_lt (Nat.div_lt_of_lt_mul hlt)]

/-- What a leaf word decodes to: its flags, and its output address as the pseudo-code has it (rules R96, R190). -/
theorem decodeEntry_page (h : Haw) {w : Word64} {sh : Nat} (hl : l.pageOf w.toNat sh) (va : BitVec 48) :
    (∃ lm, leafFlags (decodeEntry h l w) =
      some ⟨lm, w.toNat.testBit 9, w.toNat.testBit 1, w.toNat.testBit 0⟩) ∧
    outputAddr (decodeEntry h l w) va = some (w.toNat % 2 ^ h.bits / 2 ^ sh * 2 ^ sh + va.toNat % 2 ^ sh) := by
  simp only [Level.pageOf, BitVec.testBit_toNat] at hl ⊢
  rcases hl with ⟨rfl, h7, rfl⟩ | ⟨rfl, h7, rfl⟩ | ⟨rfl, rfl⟩ | ⟨rfl, rfl⟩
  · rw [decodeEntry, if_pos h7, outputAddr, toNat_page1g, toNat_addrField h (by decide)]
    exact ⟨⟨_, rfl⟩, rfl⟩
  · rw [decodeEntry, if_pos h7, outputAddr, toNat_page2m, toNat_addrField h (by decide)]
    exact ⟨⟨_, rfl⟩, rfl⟩
  · rw [decodeEntry, outputAddr, toNat_page64k, toNat_addrField h (by decide)]
    exact ⟨⟨_, rfl⟩, rfl⟩
  · rw [decodeEntry, outputAddr, toNat_page4k, toNat_addrField h (by decide)]
    exact ⟨⟨_, rfl⟩, rfl⟩

theorem decodeEntry_slot (h : Haw) (l : Level) (w : Word64) : (decodeEntry h l w).slot = .entry l :=
  decodeWord_slot h (.entry l) w

theorem presentBit_decodeEntry (h : Haw) (hl : l ∈ pageLevels) (w : Word64) :
    presentBit (decodeEntry h l w) = some (w.toNat.testBit 0) := by
  rw [BitVec.testBit_toNat]
  cases l with
  | pml4 | pt4k | pt64k => rfl
  | pdp | pd =>
    rw [decodeEntry]
    split <;> rfl
  | _ => exact absurd hl (by decide)

/-- The table of a pointer ends at or below `2^HAW`. -/
theorem specTable_add_le (h : Haw) (e : Nat) : specTable h.bits e + 4096 ≤ 2 ^ h.bits := by
  cases h <;> simp only [specTable, Haw.bits] <;> omega

/-- The output address of an access inside one 4KB block leaves room for the access below `2^HAW` (rules R56, R199). -/
theorem pageAddr_add_le {h : Haw} {e sh va n : Nat} (hl : l.pageOf e sh) (hfit : va % 4096 + n ≤ 4096) :
    e % 2 ^ h.bits / 2 ^ sh * 2 ^ sh + va % 2 ^ sh + n ≤ 2 ^ h.bits := by
  rcases hl with ⟨-, -, rfl⟩ | ⟨-, -, rfl⟩ | ⟨-, rfl⟩ | ⟨-, rfl⟩ <;> cases h <;> simp only [Haw.bits] <;> omega

end Sys2Proof

namespace Sys2Proof.Machine

variable {s t u : State} {wk v : Walk} {a : Nat} {l : Level}

/-- What a present pointer does: it descends to the table that the pseudo-code reads next (rules R184, R185, R187). -/
theorem exec_decodeEntry_table (h : Haw) {w : Word64} {l' : Level} (hw : s.walk = some wk) (hlev : wk.level = l)
    (hl : l.tableOf w.toNat l') (hp : w.toNat.testBit 0 = true) :
    exec (decodeEntry h l w) s = s.descend wk l' (specTable h.bits w.toNat) (w.toNat.testBit 1) := by
  have htable : specTable h.bits w.toNat = (addrField h 12 34 w).toNat * 4096 := by
    rw [toNat_addrField h (by decide)]
    rfl
  simp only [Level.tableOf, BitVec.testBit_toNat] at hl hp
  rw [htable, BitVec.testBit_toNat]
  rcases hl with ⟨rfl, rfl⟩ | ⟨rfl, h7, rfl⟩ | ⟨rfl, h7, rfl⟩
  · simp only [decodeEntry, hp, exec_pml4e hw hlev]
  · simp only [decodeEntry, h7, hp, Bool.false_eq_true, if_false, exec_pdpePd hw hlev]
  · simp only [decodeEntry, h7, hp, Bool.false_eq_true, if_false, exec_pdePt hw hlev]

/-! ### Cold TLBs -/

/-- With cold TLBs, and at the PML4 level cold PML4 pages, no copy differs from memory (rules R68, R69, R182). -/
theorem State.quiet_of_cold (h : s.coldAt wk.req.ctx wk.level) (hggtt : wk.level ≠ .ggtt)
    (hpml4 : wk.level = .pml4 → s.coldFor wk.req.ctx) (he : wk.entry = .memory a) : s.quiet wk a := by
  refine List.filter_eq_nil_iff.2 fun w hw => ?_
  rw [decide_eq_true_iff, not_not]
  rcases (State.mem_copies.1 hw).1 with ⟨e, hmem, rfl, ⟨hctx, hlev, -⟩ | ⟨b, hb, hplace, hsize⟩⟩ | ⟨hl, p, hp, hserves, hmay⟩
  · rw [if_neg hggtt] at hctx
    exact absurd ⟨hctx, hlev⟩ (h e hmem).1
  · cases he.symm.trans hb
    rw [(h e hmem).2 a hplace, State.memEntry, State.memEntry, hsize]
  · obtain ⟨hctx, hheld⟩ := (hpml4 hl).2 p hp
    cases he.symm.trans (hserves.resolve_left hctx)
    rw [hheld _ _ hmay, hl]

/-- The read of an entry is no write of the history. -/
theorem State.writesTo_fetched (s : State) (wk : Walk) (a b : Nat) : (s.fetched wk a).writesTo b = s.writesTo b := by
  rw [State.writesTo, State.fetched_history]
  split
  · exact List.filter_cons_of_neg (by simp [MemEvent.wrote, State.entryRead])
  · rfl

theorem State.ownByte_congr {ag : Agent} {r : Option Route} {b : Nat} (h : t.writesTo b = s.writesTo b) :
    t.ownByte ag r b = s.ownByte ag r b := by
  unfold State.ownByte
  rw [h]

/-! ### What a step leaves for its check -/

theorem Effect.waiting (h : Effect s wk t) : t.waiting = s.waiting := by cases h <;> rfl

/-- With no other request in flight the check lets the outcome of a table word stand. -/
theorem checked_exec_entry {i : Instr} (hi : i.slot = .entry l) (hw : t.waiting = []) :
    s.checked (exec i t) = exec i t := by
  cases he : exec i t with
  | next x =>
    obtain ⟨w, -, -, hE⟩ := exec_entry_effect hi he
    exact State.checked_of_none (hE.waiting.trans hw)
  | fault f => rfl
  | refused r => rfl

theorem State.sameRegisters_trans (h : s.sameRegisters t) (h' : t.sameRegisters u) : s.sameRegisters u := by
  obtain ⟨h1, h2, h3, h4, h5, h6, h7, h8, h9, h10⟩ := h
  obtain ⟨g1, g2, g3, g4, g5, g6, g7, g8, g9, g10⟩ := h'
  exact ⟨g1.trans h1, g2.trans h2, g3.trans h3, g4.trans h4, g5.trans h5, g6.trans h6, g7.trans h7, g8.trans h8,
    g9.trans h9, g10.trans h10⟩

theorem State.sameBytes_trans (h : s.sameBytes t) (h' : t.sameBytes u) : s.sameBytes u :=
  ⟨fun b => (h'.1 b).trans (h.1 b), h'.2.trans h.2⟩

theorem State.sameEvents_trans (h : s.sameEvents t) (h' : t.sameEvents u) : s.sameEvents u :=
  ⟨h'.1.trans h.1, h'.2.trans h.2⟩

/-! ### The outcomes of the pseudo-code -/

/-- The next step completes the request at `pa`. -/
def State.completesAt (s : State) (wk : Walk) (u : State) (pa : Nat) : Prop :=
  ∃ t c, step u = .next t ∧ t.walk = none ∧ t.results = c :: s.results ∧ c.agent = .engine wk.req.engine ∧
    c.kind = wk.req.kind ∧ c.n = wk.req.n ∧ c.null = false ∧ s.sameRegisters t ∧ s.sameEvents t ∧
    (wk.req.kind = .read → s.sameBytes t ∧
      ((∀ b, pa ≤ b → b < pa + wk.req.n → s.ownByte (.engine wk.req.engine) (some wk.route) b = true) →
        c.data = s.readMem pa wk.req.n)) ∧
    (wk.req.kind = .write → s.storedBytes pa wk.req.n wk.req.data t)

/-- The next step ends the request with the null completion. -/
def State.endsNull (s : State) (wk : Walk) (u : State) : Prop :=
  ∃ t, step u = .next t ∧ t.walk = none ∧ s.sameRegisters t ∧ s.sameBytes t ∧
    t.results = ⟨.engine wk.req.engine, wk.req.ctx, wk.req.kind, wk.req.n, 0, true⟩ :: s.results

/-- The next step takes the fault `f`. -/
def State.takesFault (s : State) (wk : Walk) (u : State) (f : Fault) : Prop :=
  ∃ v, step u = v.raiseFault wk.req f ∧ s.sameRegisters v ∧ s.sameBytes v

/-- The next step of `u` has the outcome of the pseudo-code. -/
def State.ppgttOutcome (s : State) (wk : Walk) (u : State) : PpgttResult → Prop
  | .phys pa _ _ _ => s.completesAt wk u pa
  | .nullPage => s.endsNull wk u
  | .denied => s.takesFault wk u (.writeProtect wk.va)
  | .nullDenied => s.takesFault wk u (.writeProtect wk.va) ∨ s.endsNull wk u
  | .notPresent l => s.takesFault wk u (.pageNotPresent wk.va l)

/-- At most `n` steps lead to one with the outcome of the pseudo-code. -/
def State.ppgttLeadsTo (s : State) (wk : Walk) (n : Nat) (u : State) (r : PpgttResult) : Prop :=
  ∃ k t, k ≤ n ∧ Host.Core.run Sys2Proof.core k u = .next t ∧ s.sameButWalk t ∧ s.ppgttOutcome wk t r

theorem State.ppgttLeadsTo_now {r : PpgttResult} {n : Nat} (hs : s.sameButWalk u) (h : s.ppgttOutcome wk u r) :
    s.ppgttLeadsTo wk n u r := ⟨0, u, Nat.zero_le n, rfl, hs, h⟩

theorem State.ppgttLeadsTo_step {r : PpgttResult} {n : Nat} (hstep : step u = .next t) (h : s.ppgttLeadsTo wk n t r) :
    s.ppgttLeadsTo wk (n + 1) u r := by
  obtain ⟨k, t', hk, hrun, hs, ho⟩ := h
  refine ⟨k + 1, t', Nat.succ_le_succ hk, ?_, hs, ho⟩
  have hcore : Sys2Proof.core.step u = .next t := hstep
  simp only [Host.Core.run, hcore]
  exact hrun

/-! ### The walk on its way -/

/-- The page walk that `wk` began in `s` has come, in `u`, to the entry at `a`. -/
structure PageWalkAt (s : State) (wk : Walk) (u : State) (v : Walk) (a : Nat) : Prop where
  walk : u.walk = some v
  entry : v.entry = .memory a
  inside : a + 8 ≤ s.memSize
  level : v.level ∈ pageLevels
  req : v.req = wk.req
  index : v.index = wk.index
  va : v.va = wk.va
  dest : v.dest = .target
  mem : u.mem = s.mem
  same : s.sameButWalk u
  writes : ∀ b, u.writesTo b = s.writesTo b
  schedule : u.schedule = []
  waiting : u.waiting = []
  quiet : u.quiet v a
  cold : ∀ l ∈ v.level.lower, u.coldAt wk.req.ctx l

namespace PageWalkAt

theorem toNat_memEntry (h : PageWalkAt s wk u v a) : (s.memEntry v.level a).toNat = s.readMem a 8 := by
  rw [State.toNat_memEntry, levelSize_of_page _ h.level]

/-- The next step runs the word in memory. -/
theorem step_eq (h : PageWalkAt s wk u v a) :
    step u = exec (decodeEntry s.params.haw v.level (s.memEntry v.level a)) (u.fetched v a) := by
  obtain ⟨⟨hparams, -⟩, hbytes, -⟩ := h.same
  have hin : inMemory u.memSize a (levelSize v.level) = true := by
    rw [inMemory_iff, levelSize_of_page _ h.level, State.memSize, hparams]
    exact h.inside
  have hword : u.entryWord v a = s.memEntry v.level a := by
    rw [State.entryWord_of_quiet h.quiet, State.memEntry, State.memEntry, State.readMem_of_sameBytes hbytes]
  rw [step_walk (u.turned_eq h.schedule h.waiting) h.walk, State.walkAct, h.entry]
  simp only [if_pos hin, hword, runAct, runWord, State.fetched_params, hparams]
  exact checked_exec_entry (decodeEntry_slot _ _ _) h.waiting

theorem fetched_memSize (h : PageWalkAt s wk u v a) : (u.fetched v a).memSize = s.memSize := by
  obtain ⟨⟨hparams, -⟩, -⟩ := h.same
  rw [State.memSize, State.memSize, State.fetched_params, hparams]

theorem fetched_memWf (h : PageWalkAt s wk u v a) (hm : s.memWf = true) : (u.fetched v a).memWf = true := by
  obtain ⟨⟨hparams, hepoch, -⟩, -⟩ := h.same
  rw [State.memWf_congr (s := s) (t := u.fetched v a) h.mem hparams hepoch, hm]

/-- Without nesting an address is used as it is. -/
theorem fetched_hostPhys (h : PageWalkAt s wk u v a) (hn : (s.ctx wk.req.ctx).desc.neste = false) (x : Nat) :
    (u.fetched v a).hostPhys (v.noted a).req.ctx x = some x := by
  obtain ⟨⟨-, hepoch, -, -, -, -, -, -, hctxs, -⟩, -⟩ := h.same
  refine State.hostPhys_of_not_nested ?_
  rw [State.ctx_congr (s := s) (t := u.fetched v a) hctxs hepoch]
  exact h.req ▸ hn

theorem route_eq (h : PageWalkAt s wk u v a) : (v.noted a).route = wk.route := by
  simp only [Walk.route, Walk.noted, h.req, h.index, h.va]

/-! ### The last step -/

theorem takesFault (h : PageWalkAt s wk u v a) {f : Fault} (hstep : step u = (u.fetched v a).raiseFault v.req f) :
    s.takesFault wk u f := by
  obtain ⟨hregs, hbytes, -⟩ := h.same
  exact ⟨u.fetched v a, h.req ▸ hstep, hregs, hbytes⟩

theorem endsNull (h : PageWalkAt s wk u v a) (hstep : step u = .next ((u.fetched v a).completeNull v.req)) :
    s.endsNull wk u := by
  obtain ⟨hregs, hbytes, -, hres, -⟩ := h.same
  obtain ⟨hwalk, hnull, -, -, hregs', hbytes', -⟩ := (u.fetched v a).nullCompletion_completeNull v.req
  refine ⟨_, hstep, hwalk, State.sameRegisters_trans hregs hregs', State.sameBytes_trans hbytes hbytes', ?_⟩
  rw [hnull, State.fetched_results, hres, h.req]

/-- The target access inside memory: a read returns what memory holds where its bytes are its own, a write stores. -/
theorem completesAt (h : PageWalkAt s wk u v a) (hm : s.memWf = true) {pa : Nat} {attrs : Option LeafAttrs}
    (hin : pa + wk.req.n ≤ s.memSize) (hstep : step u = (u.fetched v a).accessTarget (v.noted a) pa attrs) :
    s.completesAt wk u pa := by
  obtain ⟨hregs, hbytes, hevents, hres, -⟩ := h.same
  have hreq : (v.noted a).req = wk.req := h.req
  have hin' : pa + (v.noted a).req.n ≤ (u.fetched v a).memSize := by rw [h.fetched_memSize, hreq]; exact hin
  cases hk : wk.req.kind with
  | read =>
    obtain ⟨t, ht, hwalk, hdone, -, hregs', hbytes', hevents', -⟩ :=
      accessTarget_read (s := u.fetched v a) (wk := v.noted a) (attrs := attrs) (hreq ▸ hk) hin'
    rw [hreq, h.route_eq, State.fetched_results, hres] at hdone
    refine ⟨t, _, hstep.trans ht, hwalk, hdone, rfl, hk.symm, rfl, rfl, State.sameRegisters_trans hregs hregs',
      State.sameEvents_trans hevents hevents', fun _ => ⟨State.sameBytes_trans hbytes hbytes', fun hown => ?_⟩,
      fun hw => nomatch hk.symm.trans hw⟩
    have hvis := State.visible_own (s := u.fetched v a) fun b h1 h2 =>
      (State.ownByte_congr ((u.writesTo_fetched v a b).trans (h.writes b))).trans (hown b h1 h2)
    exact hvis.trans (State.readMem_of_sameBytes (u := u.fetched v a) hbytes pa wk.req.n)
  | write =>
    obtain ⟨t, ht, hwalk, hdone, -, hstored, hregs', hevents', -⟩ :=
      accessTarget_write (s := u.fetched v a) (wk := v.noted a) (attrs := attrs) (hreq ▸ hk) (h.fetched_memWf hm) hin'
    rw [hreq, State.fetched_results, hres] at hdone
    refine ⟨t, _, hstep.trans ht, hwalk, hdone, rfl, hk.symm, rfl, rfl, State.sameRegisters_trans hregs hregs',
      State.sameEvents_trans hevents hevents', fun hr => (nomatch hk.symm.trans hr),
      fun _ b => ?_⟩
    have hb : (u.fetched v a).byte b = s.byte b := hbytes.1 b
    rw [hstored b, hreq, hb]

/-- An entry with P = 0 (rule R193). -/
theorem outcome_notPresent (h : PageWalkAt s wk u v a) (hp : (s.readMem a 8).testBit 0 = false) :
    s.ppgttOutcome wk u (.notPresent (levelStage v.level)) := by
  refine h.takesFault ?_
  have hbit := presentBit_decodeEntry s.params.haw h.level (s.memEntry v.level a)
  rw [h.toNat_memEntry, hp] at hbit
  rw [h.step_eq, exec_notPresent (wk := v.noted a) rfl (decodeEntry_slot _ v.level _) hbit, ← h.va]
  rfl

/-- The next step of a present leaf, with its output address and its flags as the pseudo-code reads them (rules R96, R190). -/
theorem step_leaf (h : PageWalkAt s wk u v a) {sh : Nat} (hl : v.level.pageOf (s.readMem a 8) sh)
    (hp : (s.readMem a 8).testBit 0 = true) :
    ∃ (page : BitVec 46) (lm : Bool) (attrs : LeafAttrs),
      page.toNat = s.readMem a 8 % 2 ^ s.params.haw.bits / 2 ^ sh * 2 ^ sh + wk.va.toNat % 2 ^ sh ∧
      step u = (u.fetched v a).leaf (v.noted a) page lm ((s.readMem a 8).testBit 9) ((s.readMem a 8).testBit 1) attrs := by
  rw [← h.toNat_memEntry] at hl hp ⊢
  obtain ⟨⟨lm, hflags⟩, hout⟩ := decodeEntry_page s.params.haw hl wk.va
  obtain ⟨page, attrs, hpage, -, hexec⟩ :=
    exec_leafWord (s := u.fetched v a) (wk := v.noted a) rfl (decodeEntry_slot _ v.level _) hflags hp
  have hva : (v.noted a).va = wk.va := h.va
  rw [hva, hout, Option.some_inj] at hpage
  exact ⟨page, lm, attrs, hpage.symm, h.step_eq.trans hexec⟩

section leaf

variable (hn : (s.ctx wk.req.ctx).desc.neste = false) (hm : s.memWf = true) (hloc : s.params.hasLocalMemory = false)
  (hfit : wk.va.toNat % 4096 + wk.req.n ≤ 4096)
include hn hm hloc hfit

/-- A present leaf (rules R190, R194, R195). -/
theorem outcome_leaf (h : PageWalkAt s wk u v a) {sh : Nat} (hl : v.level.pageOf (s.readMem a 8) sh)
    (hp : (s.readMem a 8).testBit 0 = true) :
    s.ppgttOutcome wk u (specLeaf s.params.haw.bits (s.readMem a 8) sh wk.va.toNat
      (v.rw && (s.readMem a 8).testBit 1) wk.req.kind) := by
  have hin := pageAddr_add_le (h := s.params.haw) hl hfit
  obtain ⟨page, lm, attrs, hpage, hstep⟩ := h.step_leaf hl hp
  have hva : (v.noted a).va = wk.va := h.va
  have hdest : (v.noted a).dest = .target := h.dest
  have hlm : (lm && (u.fetched v a).params.hasLocalMemory) = false := by
    obtain ⟨⟨hparams, -⟩, -⟩ := h.same
    rw [State.fetched_params, hparams, hloc, Bool.and_false]
  unfold specLeaf
  by_cases hw : wk.req.kind = .write ∧ (v.rw && (s.readMem a 8).testBit 1) = false
  · obtain ⟨hk, hrw⟩ := id hw
    have hden := Walk.denies_eq_true (wk := v.noted a) hdest (h.req ▸ hk) hrw
    rw [if_pos hw, if_pos hw]
    cases hnull : (s.readMem a 8).testBit 9 with
    | true =>
      rw [hnull] at hstep
      exact (leaf_nullDenied hdest hden).imp (fun ho => h.takesFault ((hstep.trans ho).trans (by rw [hva]; rfl)))
        fun ho => h.endsNull (hstep.trans ho)
    | false =>
      rw [hnull, leaf_denied hden, hva] at hstep
      exact h.takesFault hstep
  · have hden := Walk.denies_eq_false (wk := v.noted a) fun hk =>
      Bool.of_not_eq_false fun hrw => hw ⟨h.req ▸ hk, hrw⟩
    rw [if_neg hw, if_neg hw]
    cases hnull : (s.readMem a 8).testBit 9 with
    | true =>
      rw [hnull, leaf_null hdest hden] at hstep
      exact h.endsNull hstep
    | false =>
      rw [hnull, leaf_target hdest hden hlm (h.fetched_hostPhys hn _), hpage] at hstep
      exact h.completesAt hm hin hstep

/-- The step of a leaf, in the terms of the pseudo-code. -/
theorem leadsTo_leaf (h : PageWalkAt s wk u v a) {sh n : Nat} (hl : v.level.pageOf (s.readMem a 8) sh) :
    s.ppgttLeadsTo wk n u
      (if (s.readMem a 8).testBit 0 then
        specLeaf s.params.haw.bits (s.readMem a 8) sh wk.va.toNat (v.rw && (s.readMem a 8).testBit 1) wk.req.kind
      else .notPresent (levelStage v.level)) := by
  refine State.ppgttLeadsTo_now h.same ?_
  split_ifs with hp
  · exact h.outcome_leaf hn hm hloc hfit hl hp
  · exact h.outcome_notPresent (Bool.not_eq_true _ ▸ hp)

end leaf

/-! ### A step down -/

/-- A present pointer leads to the entry of its table, at a level the walk has not used (rules R184, R185, R187). -/
theorem next_entry (h : PageWalkAt s wk u v a) (hn : (s.ctx wk.req.ctx).desc.neste = false)
    (hl : v.level.tableOf (s.readMem a 8) l) (hp : (s.readMem a 8).testBit 0 = true) :
    ∃ t w, step u = .next t ∧ w.level = l ∧ w.rw = (v.rw && (s.readMem a 8).testBit 1) ∧
      PageWalkAt s wk t w (entryAddr l (specTable s.params.haw.bits (s.readMem a 8)) wk.va) := by
  obtain ⟨hbelow, hsub⟩ := Level.lower_of_tableOf hl
  obtain ⟨hpage, hne, -⟩ := page_of_lower _ h.level _ hbelow
  have hstep := h.step_eq
  rw [← h.toNat_memEntry] at hl hp
  rw [exec_decodeEntry_table (wk := v.noted a) (l := v.level) _ rfl rfl hl hp, descend_some (h.fetched_hostPhys hn _),
    h.toNat_memEntry] at hstep
  have hcold (k : Level) (hk : k ∈ v.level.lower) : (u.fetched v a).coldAt wk.req.ctx k :=
    State.coldAt_fetched (h.cold k hk) (page_of_lower _ h.level _ hk).2.2.symm h.quiet
  have hidx := levelIndex_lt_of_page hpage wk.va
  have htable := specTable_add_le s.params.haw (s.readMem a 8)
  have hva : (v.noted a).va = wk.va := h.va
  rw [hva] at hstep
  exact ⟨_, _, hstep, rfl, rfl, { h with
    walk := rfl
    entry := rfl
    inside := by rw [entryAddr, levelSize_of_page _ hpage, State.memSize]; omega
    level := hpage
    va := rfl
    writes := fun b => (u.writesTo_fetched v a b).trans (h.writes b)
    quiet := State.quiet_of_cold (h.req ▸ hcold l hbelow) (ne_ggtt_of_page _ hpage) (fun he => absurd he hne) rfl
    cold := fun k hk => hcold k (hsub hk) }⟩

/-- The step of a pointer, in the terms of the pseudo-code: the fault, or what the next entry leads to. -/
theorem leadsTo_pointer (h : PageWalkAt s wk u v a) (hn : (s.ctx wk.req.ctx).desc.neste = false) {n : Nat}
    {r : PpgttResult} (hl : v.level.tableOf (s.readMem a 8) l)
    (hnext : ∀ t w, w.level = l → w.rw = (v.rw && (s.readMem a 8).testBit 1) →
      PageWalkAt s wk t w (entryAddr l (specTable s.params.haw.bits (s.readMem a 8)) wk.va) → s.ppgttLeadsTo wk n t r) :
    s.ppgttLeadsTo wk (n + 1) u (if (s.readMem a 8).testBit 0 then r else .notPresent (levelStage v.level)) := by
  split_ifs with hp
  · obtain ⟨t, w, hstep, hlev, hrw, hw⟩ := h.next_entry hn hl hp
    exact State.ppgttLeadsTo_step hstep (hnext t w hlev hrw hw)
  · exact State.ppgttLeadsTo_now h.same (h.outcome_notPresent (Bool.not_eq_true _ ▸ hp))

/-! ### The steps of the pseudo-code -/

variable (hn : (s.ctx wk.req.ctx).desc.neste = false) (hm : s.memWf = true) (hloc : s.params.hasLocalMemory = false)
  (hfit : wk.va.toNat % 4096 + wk.req.n ≤ 4096)
include hn hm hloc hfit

/-- From the PD entry on, at most one step (rules R187 to R191). -/
theorem leadsTo_pd (h : PageWalkAt s wk u v a) (hl : v.level = .pd) : s.ppgttLeadsTo wk 1 u
    (if (s.readMem a 8).testBit 0 then
      if (s.readMem a 8).testBit 7 then
        specLeaf s.params.haw.bits (s.readMem a 8) 21 wk.va.toNat (v.rw && (s.readMem a 8).testBit 1) wk.req.kind
      else specPt s.params.haw.bits (fun b => s.readMem b 8) wk.va.toNat wk.req.kind (s.readMem a 8)
        (v.rw && (s.readMem a 8).testBit 1)
    else .notPresent .pd) := by
  have hstage : levelStage v.level = .pd := by rw [hl]; rfl
  rw [← hstage]
  cases h7 : (s.readMem a 8).testBit 7 with
  | true => exact h.leadsTo_leaf hn hm hloc hfit (.inr (.inl ⟨hl, h7, rfl⟩))
  | false =>
    refine h.leadsTo_pointer hn (.inr (.inr ⟨hl, h7, rfl⟩)) fun t w hlev hrw hw => ?_
    unfold specPt
    cases h11 : (s.readMem a 8).testBit 11 with
    | true =>
      simp only [h11, if_true, entryAddr_pt64k] at hlev hw
      have hend := hw.leadsTo_leaf hn hm hloc hfit (n := 0) (.inr (.inr (.inl ⟨hlev, rfl⟩)))
      rw [hlev, hrw] at hend
      exact hend
    | false =>
      simp only [h11, Bool.false_eq_true, if_false, entryAddr_pt4k] at hlev hw
      have hend := hw.leadsTo_leaf hn hm hloc hfit (n := 0) (.inr (.inr (.inr ⟨hlev, rfl⟩)))
      rw [hlev, hrw] at hend
      exact hend

/-- From the PDP entry on, at most two (rules R185, R186). -/
theorem leadsTo_pdp (h : PageWalkAt s wk u v a) (hl : v.level = .pdp) : s.ppgttLeadsTo wk 2 u
    (if (s.readMem a 8).testBit 0 then
      if (s.readMem a 8).testBit 7 then
        specLeaf s.params.haw.bits (s.readMem a 8) 30 wk.va.toNat (v.rw && (s.readMem a 8).testBit 1) wk.req.kind
      else specPd s.params.haw.bits (fun b => s.readMem b 8) wk.va.toNat wk.req.kind (s.readMem a 8)
        (v.rw && (s.readMem a 8).testBit 1)
    else .notPresent .pdp) := by
  have hstage : levelStage v.level = .pdp := by rw [hl]; rfl
  rw [← hstage]
  cases h7 : (s.readMem a 8).testBit 7 with
  | true => exact h.leadsTo_leaf hn hm hloc hfit (.inl ⟨hl, h7, rfl⟩)
  | false =>
    refine h.leadsTo_pointer hn (.inr (.inl ⟨hl, h7, rfl⟩)) fun t w hlev hrw hw => ?_
    rw [entryAddr_pd] at hw
    rw [← hrw]
    exact hw.leadsTo_pd hn hm hloc hfit hlev

/-- From the PML4 entry on, at most three (rules R184, R190). -/
theorem leadsTo_specPpgtt (h : PageWalkAt s wk u v a) (hl : v.level = .pml4) (hrw : v.rw = true) {pml4 : Nat}
    (ha : a = pml4 + wk.va.toNat / 2 ^ 39 % 2 ^ 9 * 8) : s.ppgttLeadsTo wk 3 u
      (specPpgtt s.params.haw.bits (fun b => s.readMem b 8) pml4 wk.va.toNat wk.req.kind) := by
  have hstage : levelStage v.level = .pml4 := by rw [hl]; rfl
  rw [specPpgtt, ← ha, ← hstage]
  refine h.leadsTo_pointer hn (.inl ⟨hl, rfl⟩) fun t w hlev hw' hw => ?_
  rw [entryAddr_pdp] at hw
  rw [hrw, Bool.true_and] at hw'
  rw [← hw']
  exact hw.leadsTo_pdp hn hm hloc hfit hlev

end PageWalkAt

/-! ### The walk -/

/-- The first read of a page walk, in a context whose TLBs are cold (rule R184). -/
theorem PageWalkAt.start (hsch : s.schedule = []) (hwait : s.waiting = []) (hw : s.walk = some wk)
    (hl : wk.level = .pml4) (hd : wk.dest = .target) (hcold : s.coldFor wk.req.ctx) (he : wk.entry = .memory a)
    (hin : a + 8 ≤ s.memSize) : PageWalkAt s wk s wk a where
  walk := hw
  entry := he
  inside := hin
  level := by rw [hl]; decide
  req := rfl
  index := rfl
  va := rfl
  dest := hd
  mem := rfl
  same := by simp [State.sameButWalk, State.sameRegisters, State.sameBytes, State.sameEvents]
  writes := fun _ => rfl
  schedule := hsch
  waiting := hwait
  quiet := State.quiet_of_cold (State.coldAt_of_coldFor hcold _) (by rw [hl]; decide) (fun _ => hcold) he
  cold := fun l _ => State.coldAt_of_coldFor hcold l

/-- Settles O59: from the first read, which lies in the PML4 table, the walk leads to the outcome of the pseudo-code. -/
theorem ppgttWalkRefinesPseudocode : Obligations.PpgttWalkRefinesPseudocode := by
  unfold Obligations.PpgttWalkRefinesPseudocode
  intro s wk hsch hwait hw hl hd hrw hcold hm hn hloc htable he hfit
  have hstart := PageWalkAt.start hsch hwait hw hl hd hcold he (by omega)
  obtain ⟨k, u, hk, hrun, ⟨hregs, hbytes, hevents, hres, hhalted, hagenda⟩, ho⟩ :=
    hstart.leadsTo_specPpgtt hn hm hloc hfit hl hrw rfl
  refine ⟨k, u, hk, hrun, hregs, hbytes, hevents, hres, hhalted, hagenda, ?_⟩
  revert ho
  generalize specPpgtt _ _ _ _ _ = r
  intro ho
  cases r with
  | phys pa pwt pcd pat => exact ho
  | nullPage => exact ho
  | denied => exact ho
  | nullDenied => exact ho
  | notPresent l => exact ho

end Sys2Proof.Machine
end

section
/-!
Faults. Taking one ends the run or halts the engine with the event; an engine that is halted starts no request and receives
nothing; the fault response takes it from the halted ones and puts its request back, or ends the run (rules R214, R215, R221).
-/

namespace Sys2Proof.Machine

variable {s t : State} {wk : Walk} {e : Engine}

/-! ### Taking a fault -/

theorem State.isHalted_iff : s.isHalted e = true ↔ ∃ h ∈ s.halted, h.engine = e := by
  simp only [State.isHalted, List.any_eq_true, decide_eq_true_eq]

theorem State.isHalted_halt (r : Request) (f : Fault) : (s.halt r f).isHalted r.engine = true :=
  State.isHalted_iff.2 ⟨_, List.mem_cons_self, rfl⟩

theorem raiseFault_terminal {r : Request} {f : Fault} (h : (s.ctx r.ctx).desc.pfmode = .terminal) :
    s.raiseFault r f = .fault f := by
  simp only [State.raiseFault, h]

theorem raiseFault_faultAndHalt {r : Request} {f : Fault} (h : (s.ctx r.ctx).desc.pfmode = .faultAndHalt) :
    s.raiseFault r f = .next (s.halt r f) := by
  simp only [State.raiseFault, h]

/-- Settles O27: the page faulting mode decides, and `State.halt` says what halting leaves unchanged. -/
theorem takingAFault : Obligations.TakingAFault := by
  unfold Obligations.TakingAFault
  intro s r f
  refine ⟨raiseFault_terminal, fun hm => ⟨s.halt r f, raiseFault_faultAndHalt hm, rfl, rfl, State.isHalted_halt r f, ?_⟩⟩
  simp [State.sameTurns, State.sameRegisters, State.sameBytes, State.sameEvents, State.byte]

/-! ### What a step does for an engine it is not for -/

theorem State.mem_inFlight : wk ∈ s.inFlight ↔ s.walk = some wk ∨ wk ∈ s.waiting := by
  simp only [State.inFlight, List.mem_append, Option.mem_toList]

/-- No request of the engine is in flight. -/
abbrev State.noneInFlight (s : State) (e : Engine) : Prop := ∀ wk ∈ s.inFlight, wk.req.engine ≠ e

/-- What the requests of an engine have received. -/
abbrev State.received (s : State) (e : Engine) : List Completion := s.results.filter (fun c => c.agent = .engine e)

/-- In the later state no request of the engine is in flight, and it has received nothing more. -/
abbrev State.silent (s t : State) (e : Engine) : Prop := t.noneInFlight e ∧ t.received e = s.received e

theorem State.received_cons {c : Completion} (ht : t.results = c :: s.results) (hc : c.agent ≠ .engine e) :
    t.received e = s.received e := by
  rw [State.received, ht]
  exact List.filter_cons_of_neg (by simpa using hc)

theorem State.silent_of_same (hf : s.noneInFlight e) (hw : t.walk = s.walk) (hwt : t.waiting = s.waiting)
    (hr : t.results = s.results) : s.silent t e :=
  ⟨by rwa [State.noneInFlight, State.inFlight, hw, hwt], by rw [State.received, hr]⟩

/-- The walk of another engine's request ends in a completion of its own, or goes on as that request's walk. -/
theorem Effect.silent (h : Effect s wk t) (hw : wk.req.engine ≠ e) (hwt : ∀ w ∈ s.waiting, w.req.engine ≠ e) :
    s.silent t e := by
  have hagent : Agent.engine wk.req.engine ≠ .engine e := fun h => hw (Agent.engine.inj h)
  cases h with
  | moves wk' hreq hidx => exact ⟨List.forall_mem_cons.2 ⟨hreq ▸ hw, hwt⟩, rfl⟩
  | halts f => exact ⟨hwt, rfl⟩
  | _ => exact ⟨hwt, State.received_cons rfl hagent⟩

theorem RegEffect.silent {rest : List Input} {tg : RegTarget} (h : RegEffect s rest tg t) (hf : s.noneInFlight e) :
    s.silent t e := by
  cases h <;> exact ⟨hf, rfl⟩

/-- An input without a word puts no request in flight, and a value it answers is the host's. -/
theorem EnvEffect.silent (h : EnvEffect s t) (hf : s.noneInFlight e) : s.silent t e := by
  have hhost : Agent.host ≠ .engine e := Agent.noConfusion
  cases h with
  | regRead n v => exact ⟨hf, State.received_cons rfl hhost⟩
  | load pa n v h => exact ⟨hf, State.received_cons rfl hhost⟩
  | deviceReset => exact ⟨fun _ hm => absurd hm List.not_mem_nil, rfl⟩
  | renderReset c => exact State.silent_of_same hf (by simp) (by simp) (by simp)
  | rc6 b => exact State.silent_of_same hf (by simp) (by simp) (by simp)
  | _ => exact ⟨hf, rfl⟩

/-- A request that begins is not of a halted engine (rule R214), so whatever a step does is for another engine. -/
theorem StepEffect.silent_of_halted (h : StepEffect s t) (hh : s.isHalted e = true) (hf : s.noneInFlight e) :
    s.silent t e := by
  have hwt : ∀ w ∈ s.waiting, w.req.engine ≠ e := fun w hm => hf w (State.mem_inFlight.2 (.inr hm))
  have hwalk : ∀ {wk}, s.walk = some wk → wk.req.engine ≠ e := fun hw => hf _ (State.mem_inFlight.2 (.inl hw))
  cases h with
  | idle => exact ⟨hf, rfl⟩
  | entry wk a i t hw hm hin hd he hE => exact hE.silent (hwalk (wk := wk) hw) hwt
  | copy wk f w i t hw hm hc hd he hE => exact hE.silent (hwalk hw) hwt
  | lost wk f hw hm => exact (Effect.halts f).silent (hwalk hw) hwt
  | request r rest index t hw hn hb hE =>
    have hr : r.engine ≠ e := by
      rintro rfl
      obtain ⟨x, hx, hxe⟩ := State.isHalted_iff.1 hh
      exact notMem_otherEngines_of_runnable (nextInput_runnable hn)
        (List.mem_append_right _ (List.mem_map.2 ⟨x, hx, hxe⟩))
    exact hE.silent hr hwt
  | register a w tg rest t hw hn ha hE => exact hE.silent hf
  | input i rest t hw hn he hE => exact hE.silent hf

/-- Settles O28: a turn changes neither the halted engines nor, but for their order, the requests in flight. -/
theorem haltedEngineMakesNoRequest : Obligations.HaltedEngineMakesNoRequest := by
  unfold Obligations.HaltedEngineMakesNoRequest
  intro s t e hh hf hs
  have hturn : s.turned.silent t e := by
    refine (step_next hs).silent_of_halted ?_ fun wk hm => hf wk (s.turned_inFlight.mem_iff.1 hm)
    rwa [State.isHalted, State.turned_halted]
  obtain ⟨hnone, hreceived⟩ := hturn
  exact ⟨hnone, by rwa [State.received, State.received, State.turned_results] at hreceived⟩

/-! ### The fault response -/

/-- The fault response finds the engine's first entry among the halted ones. -/
theorem State.respond_of_halted {h : Halted} {before others : List Halted} (hs : s.halted = before ++ h :: others)
    (he : h.engine = e) (hn : ∀ g ∈ before, g.engine ≠ e) (success : Bool) :
    s.respond e success = if success then .next (s.retry h (before ++ others)) else .fault (.invalidCycle e) := by
  have htake : takeFirst (fun h : Halted => decide (h.engine = e)) s.halted = some (h, before ++ others) := by
    rw [hs]
    exact takeFirst_append before others (fun g hg => decide_eq_false (hn g hg)) (decide_eq_true he)
  simp only [State.respond, htake]

/-- Settles O29: a retry changes no register and no byte, so the check lets it stand. -/
theorem faultResponseRetriesOrEnds : Obligations.FaultResponseRetriesOrEnds := by
  unfold Obligations.FaultResponseRetriesOrEnds
  intro s u e h before others rest hu hhalted he hn
  have hrespond := State.respond_of_halted (s := u.cycleDone rest) hhalted he hn
  refine ⟨fun hp => ?_, fun hp => ?_⟩
  · refine ⟨(u.cycleDone rest).retry h (before ++ others), ?_, rfl, rfl, hp.1, ?_⟩
    · rw [step_input hu hp rfl, State.environment, hrespond, if_pos rfl]
      exact State.checked_of_same (fun _ => rfl) rfl rfl rfl rfl rfl (fun _ _ => rfl)
    · simp [State.sameTurns, State.sameRegisters, State.sameEvents, State.byte]
  · rw [step_input hu hp rfl, State.environment, hrespond]
    exact State.checked_fault _

end Sys2Proof.Machine
end

section
/-!
A render reset and the power states (rules R229, R236, R241, R242): what each leaves free keeps its reserved bits zero, and
the rest is as before.
-/

namespace Sys2Proof.Machine

variable {s : State}

/-- The free TR-TT registers hold nothing in a bit that is never stored (rules R15, R18, R19). -/
theorem Context.trFree_stored (k : Context) (draw : Nat) :
    (k.trFree draw).trttL3ptr &&& 0xFFFF00000000FFFF#64 = 0#64 ∧ (k.trFree draw).trvadr.toNat < 2 ^ 8 ∧
      (k.trFree draw).trtte.toNat < 2 ^ 2 := by
  simp only [Context.trFree, BitVec.toNat_and, BitVec.and_assoc]
  exact ⟨BitVec.and_zero, Nat.and_lt_two_pow _ (by decide), Nat.and_lt_two_pow _ (by decide)⟩

@[simp] theorem Context.trFree_desc (k : Context) (draw : Nat) : (k.trFree draw).desc = k.desc := rfl

/-- A render reset touches the TR-TT registers of one context alone (rule R236). -/
theorem State.renderReset_ctx (c d : Nat) :
    (s.renderReset c).ctx d = if d = c then (s.ctx c).trFree s.draws else s.ctx d := by
  rw [← State.setCtx_ctx]
  exact State.ctx_congr (by simp) (by simp) d

/-- Settles O52: each input is carried out in the state with the input taken. A restored RC6 exit and power gating change nothing
a request consults, so the check lets them stand; the other two are stated up to the check. -/
theorem renderResetAndPowerStates : Obligations.RenderResetAndPowerStates := by
  unfold Obligations.RenderResetAndPowerStates
  intro s u rest hu
  refine ⟨fun c hp => ?_, fun hp => ?_, fun hp => ?_, fun hp => ?_⟩
  · have hc : ((u.cycleDone rest).renderReset c).ctx c = (u.ctx c).trFree u.draws :=
      (State.renderReset_ctx (s := u.cycleDone rest) c c).trans (if_pos rfl)
    have hother : ∀ d, d ≠ c → ((u.cycleDone rest).renderReset c).ctx d = u.ctx d := fun d hd =>
      (State.renderReset_ctx (s := u.cycleDone rest) c d).trans (if_neg hd)
    obtain ⟨hl3, hwindow, henable⟩ := (u.ctx c).trFree_stored u.draws
    refine ⟨(u.cycleDone rest).renderReset c, step_input hu hp rfl, ?_⟩
    rw [hc]
    simpa [hl3, lncfKept_lncfKept, State.sameOutsideRegisters, State.sameBytes, State.sameEvents, State.sameTurns,
      State.byte] using And.intro hother ⟨hwindow, henable⟩
  · rw [step_input hu hp rfl]
    exact State.checked_of_same (fun _ => rfl) rfl rfl rfl rfl rfl (fun _ _ => rfl)
  · refine ⟨(u.cycleDone rest).rc6 false, step_input hu hp rfl, ?_, ?_, ?_⟩
    · rw [State.rc6_lncf]; exact lncfKept_ofFn _
    · rw [State.rc6_glob]; exact globKept_ofFn _
    · simp [State.sameOutsideRegisters, State.sameBytes, State.sameEvents, State.sameTurns, State.byte]
  · rw [step_input hu hp rfl]
    exact State.checked_of_same (fun _ => rfl) rfl rfl rfl rfl rfl (fun _ _ => rfl)

end Sys2Proof.Machine
end
